-- ==== Sys2Proof/Word.lean ====
section
/-! DEFINITION. The word types of the hardware and the two operand widths (spec/00_scope.md R11,
spec/10_state.md R20, R33). -/

namespace Sys2Proof

/-- `u8` of rule R11. -/
abbrev Byte := BitVec 8

/-- `u16` of rule R11: a register, an offset inside a bank. -/
abbrev Word := BitVec 16

/-- `u24` of rule R11: a bus address `{bank, offset}` (rule R60). -/
abbrev Addr := BitVec 24

/-- An operand width: 8 or 16 bits, chosen at run time (rule R33). -/
inductive Width where
  | w8
  | w16
  deriving DecidableEq, Repr

/-- The width in bits. -/
abbrev Width.bits : Width → Nat
  | .w8 => 8
  | .w16 => 16

/-- The two current widths: `m` is `wM` (accumulator and memory), `x` is `wX` (index registers). -/
structure Widths where
  m : Width
  x : Width
  deriving DecidableEq, Repr

end Sys2Proof
end

