-- ==== Sys2Proof/Machine/Bits.lean ====
section
/-! DEFINITION. Bit fields, byte order and sign extension: the parts of words, addresses out of bank and
offset, and the passage between 16-bit registers and operands of the current width. -/

namespace Sys2Proof.Machine

/-- Bits 7:0. -/
def lowByte (v : Word) : Byte := v.setWidth 8

/-- Bits 15:8. -/
def highByte (v : Word) : Byte := v.extractLsb' 8 8

/-- `{hi, lo}` of rule R11. -/
def wordOf (hi lo : Byte) : Word := hi ++ lo

/-- The low-byte setter of rule R35: the high byte is kept. -/
def setLow (v : Word) (b : Byte) : Word := wordOf (highByte v) b

/-- The write of a high byte (`SH`, `XH`, `YH` of rules R34 and R36): the low byte is kept. -/
def setHigh (v : Word) (b : Byte) : Word := wordOf b (lowByte v)

/-- The address `{bank, off}` (rule R60). -/
def addrOf (bank : Byte) (off : Word) : Addr := bank ++ off

/-- Bits 23:16 of an address. -/
def bankOf (a : Addr) : Byte := a.extractLsb' 16 8

/-- Bits 15:0 of an address. -/
def offsetOf (a : Addr) : Word := a.setWidth 16

/-- `sext_16` of an 8-bit displacement (rules R102, R270). -/
def sext8 (b : Byte) : Word := b.signExtend 16

/-- `1` for true and `0` for false: a carry as a number, an adjustment of rule R406. -/
def one (b : Bool) : Nat := if b then 1 else 0

end Sys2Proof.Machine

namespace Sys2Proof

open Sys2Proof.Machine

/-- The operand of width `W` that a 16-bit register shows: its low byte, or all of it. -/
def Width.take (W : Width) (v : Word) : BitVec W.bits := v.setWidth W.bits

/-- The write of an operand of width `W` into a 16-bit register: through the low-byte setter when `W` is
8 bits (rules R21, R35), all of it when `W` is 16. -/
def Width.put : (W : Width) → Word → BitVec W.bits → Word
  | .w8, old, v => setLow old v
  | .w16, _, v => v

/-- Bits 7:0 of an operand, the byte at `DataAddr(0)` (rule R155). -/
def Width.byte0 (W : Width) (v : BitVec W.bits) : Byte := v.setWidth 8

/-- Bits 15:8 of an operand, the byte at `DataAddr(1)` (rule R155); only a 16-bit operand has it. -/
def Width.byte1 (W : Width) (v : BitVec W.bits) : Byte := (v >>> 8).setWidth 8

/-- An operand of width `W` out of its bytes, little-endian (rule R78). -/
def Width.ofBytes (W : Width) (lo hi : Byte) : BitVec W.bits := (wordOf hi lo).setWidth W.bits

end Sys2Proof
end

