-- ==== Sys2Proof/Syntax/Operand.lean ====
section
/-! DEFINITION. The operand forms of the instructions: the 18 addressing-mode variants of
spec/40_addressing_modes.md R130, grouped by what an instruction may do with them, so that an operand an
instruction cannot use is mostly not writable at all. The field of each form is the operand field of the
instruction's format (spec/30_encoding.md R101). -/

namespace Sys2Proof

/-- The forms that name bytes of memory (variants 3 to 6 and 9 to 17 of rule R130; the index selector of
variants 4 and 10 is in the constructor's name). -/
inductive Mem where
  /-- Absolute, `a` (R136). -/
  | abs (a : Word)
  /-- AbsoluteIndexed(X), `a,X` (R137). -/
  | absX (a : Word)
  /-- AbsoluteIndexed(Y), `a,Y` (R137). -/
  | absY (a : Word)
  /-- AbsoluteLong, `al` (R138). -/
  | long (al : Addr)
  /-- AbsoluteLongIndexed(X), `al,X` (R139). -/
  | longX (al : Addr)
  /-- DirectPage, `d` (R140). -/
  | dp (d : Byte)
  /-- DirectPageIndexed(X), `d,X` (R142). -/
  | dpX (d : Byte)
  /-- DirectPageIndexed(Y), `d,Y` (R142). -/
  | dpY (d : Byte)
  /-- DirectPageIndirect, `(d)` (R143). -/
  | dpInd (d : Byte)
  /-- DirectPageIndirectLong, `[d]` (R144). -/
  | dpIndLong (d : Byte)
  /-- DirectPageIndexedIndirect(X), `(d,X)` (R145). -/
  | dpXInd (d : Byte)
  /-- DirectPageIndirectIndexed(Y), `(d),Y` (R146). -/
  | dpIndY (d : Byte)
  /-- DirectPageIndirectLongIndexed(Y), `[d],Y` (R147). -/
  | dpIndLongY (d : Byte)
  /-- StackRelative, `sr,S` (R148). -/
  | sr (r : Byte)
  /-- StackRelativeIndirectIndexed(Y), `(sr,S),Y` (R149). -/
  | srIndY (r : Byte)
  deriving DecidableEq, Repr

/-- An operand that is only read: an immediate (variant 2, R135) or memory. An immediate of an 8-bit
operand has a zero high byte: it is the one byte the instruction holds. -/
inductive Src where
  | imm (v : Word)
  | mem (m : Mem)
  deriving DecidableEq, Repr

/-- An operand that is read, modified and written: the accumulator (variant 1, R134) or memory. -/
inductive Tgt where
  | acc
  | mem (m : Mem)
  deriving DecidableEq, Repr

/-- The operand of JMP (R281): a target in the program bank, or a pointer to one (variants 7 and 18,
R150 and R152). -/
inductive JumpTarget where
  | abs (a : Word)
  | ind (a : Word)
  | indX (a : Word)
  deriving DecidableEq, Repr

/-- The operand of JML (R282): a 24-bit target, or a pointer to one in bank 0 (variant 8, R151). -/
inductive LongTarget where
  | long (al : Addr)
  | indLong (a : Word)
  deriving DecidableEq, Repr

/-- The operand of JSR (R283). -/
inductive CallTarget where
  | abs (a : Word)
  | indX (a : Word)
  deriving DecidableEq, Repr

end Sys2Proof
end

