-- ==== Sys2Proof/Syntax.lean ====
section
/-! DEFINITION. The instructions: one constructor per mnemonic of spec/opcode_table.json (92). A row of the
table is a constructor together with an operand form: the 256 rows are exactly the well-formed pairs
(Sys2Proof/WellFormed.lean), and Sys2Proof/Decode.lean maps each opcode byte to its pair, as the
dispatcher of spec/30_encoding.md R107 maps it to a mnemonic and an addressing mode. -/

namespace Sys2Proof

/-- An instruction of spec/30_encoding.md R104, its operand fields read out of the instruction bytes. -/
inductive Instr where
  -- loads, stores and transfers (spec/42_load_store_transfer.md)
  /-- LDA, rule R192. -/
  | lda (src : Src)
  /-- LDX, rule R193. -/
  | ldx (src : Src)
  /-- LDY, rule R194. -/
  | ldy (src : Src)
  /-- STA, rule R195. -/
  | sta (m : Mem)
  /-- STX, rule R196. -/
  | stx (m : Mem)
  /-- STY, rule R197. -/
  | sty (m : Mem)
  /-- STZ, rule R198. -/
  | stz (m : Mem)
  /-- TAX, rule R199. -/
  | tax
  /-- TAY, rule R200. -/
  | tay
  /-- TXA, rule R201. -/
  | txa
  /-- TYA, rule R202. -/
  | tya
  /-- TXY, rule R203. -/
  | txy
  /-- TYX, rule R204. -/
  | tyx
  /-- TSX, rule R205. -/
  | tsx
  /-- TXS, rule R206. -/
  | txs
  /-- TCD, rule R207. -/
  | tcd
  /-- TDC, rule R208. -/
  | tdc
  /-- TCS, rule R209. -/
  | tcs
  /-- TSC, rule R210. -/
  | tsc
  /-- XBA, rule R211. -/
  | xba
  -- arithmetic, logic, compare, increment, shift, bit test (spec/43_arithmetic_logic.md)
  /-- ADC, rule R231. -/
  | adc (src : Src)
  /-- SBC, rule R232. -/
  | sbc (src : Src)
  /-- AND, rule R233. -/
  | and (src : Src)
  /-- ORA, rule R234. -/
  | ora (src : Src)
  /-- EOR, rule R235. -/
  | eor (src : Src)
  /-- CMP, rule R236. -/
  | cmp (src : Src)
  /-- CPX, rule R237. -/
  | cpx (src : Src)
  /-- CPY, rule R238. -/
  | cpy (src : Src)
  /-- BIT, rule R239. -/
  | bit (src : Src)
  /-- INC, rule R240. -/
  | inc (tgt : Tgt)
  /-- DEC, rule R241. -/
  | dec (tgt : Tgt)
  /-- INX, rule R242. -/
  | inx
  /-- INY, rule R243. -/
  | iny
  /-- DEX, rule R244. -/
  | dex
  /-- DEY, rule R245. -/
  | dey
  /-- ASL, rule R246. -/
  | asl (tgt : Tgt)
  /-- LSR, rule R247. -/
  | lsr (tgt : Tgt)
  /-- ROL, rule R248. -/
  | rol (tgt : Tgt)
  /-- ROR, rule R249. -/
  | ror (tgt : Tgt)
  /-- TSB, rule R250. -/
  | tsb (m : Mem)
  /-- TRB, rule R251. -/
  | trb (m : Mem)
  -- branches, jumps, calls, returns (spec/44_control_transfer.md); `rel` is the displacement field
  /-- BCC, rule R271. -/
  | bcc (rel : Byte)
  /-- BCS, rule R272. -/
  | bcs (rel : Byte)
  /-- BEQ, rule R273. -/
  | beq (rel : Byte)
  /-- BNE, rule R274. -/
  | bne (rel : Byte)
  /-- BMI, rule R275. -/
  | bmi (rel : Byte)
  /-- BPL, rule R276. -/
  | bpl (rel : Byte)
  /-- BVC, rule R277. -/
  | bvc (rel : Byte)
  /-- BVS, rule R278. -/
  | bvs (rel : Byte)
  /-- BRA, rule R279. -/
  | bra (rel : Byte)
  /-- BRL, rule R280. -/
  | brl (rel : Word)
  /-- JMP, rule R281. -/
  | jmp (t : JumpTarget)
  /-- JML, rule R282. -/
  | jml (t : LongTarget)
  /-- JSR, rule R283. -/
  | jsr (t : CallTarget)
  /-- JSL, rule R284. -/
  | jsl (al : Addr)
  /-- RTS, rule R285. -/
  | rts
  /-- RTL, rule R286. -/
  | rtl
  -- stack, status, mode, system, block move (spec/45_stack_status_system.md)
  /-- PHA, rule R305. -/
  | pha
  /-- PHX, rule R306. -/
  | phx
  /-- PHY, rule R307. -/
  | phy
  /-- PHP, rule R308. -/
  | php
  /-- PHB, rule R309. -/
  | phb
  /-- PHD, rule R310. -/
  | phd
  /-- PHK, rule R311. -/
  | phk
  /-- PLA, rule R312. -/
  | pla
  /-- PLX, rule R313. -/
  | plx
  /-- PLY, rule R314. -/
  | ply
  /-- PLP, rule R315. -/
  | plp
  /-- PLB, rule R316. -/
  | plb
  /-- PLD, rule R317. -/
  | pld
  /-- PEA, rule R318. -/
  | pea (imm : Word)
  /-- PEI, rule R319. -/
  | pei (d : Byte)
  /-- PER, rule R320. -/
  | per (rel : Word)
  /-- CLC, rule R321. -/
  | clc
  /-- SEC, rule R322. -/
  | sec
  /-- CLI, rule R323. -/
  | cli
  /-- SEI, rule R324. -/
  | sei
  /-- CLD, rule R325. -/
  | cld
  /-- SED, rule R326. -/
  | sed
  /-- CLV, rule R327. -/
  | clv
  /-- REP, rule R328. -/
  | rep (mask : Byte)
  /-- SEP, rule R329. -/
  | sep (mask : Byte)
  /-- XCE, rule R330. -/
  | xce
  /-- NOP, rule R331. -/
  | nop
  /-- WDM, rule R332. -/
  | wdm (sig : Byte)
  /-- STP, rule R333. -/
  | stp
  /-- WAI, rule R334. -/
  | wai
  /-- MVN, rule R335. -/
  | mvn (dst src : Byte)
  /-- MVP, rule R336. -/
  | mvp (dst src : Byte)
  -- software interrupts and return (spec/60_exceptions.md); `sig` is the signature byte
  /-- BRK, rule R430. -/
  | brk (sig : Byte)
  /-- COP, rule R431. -/
  | cop (sig : Byte)
  /-- RTI, rule R432. -/
  | rti
  deriving DecidableEq, Repr

end Sys2Proof
end

