-- ==== Sys2Proof/WellFormed.lean ====
section
/-! DEFINITION. Which terms of `Instr` are instructions: the mnemonic has an opcode for the operand form
(the lists of modes of spec/42 to spec/45, rules R192 to R251), and an immediate fits the width that
governs it (spec/30_encoding.md R102, R103). -/

namespace Sys2Proof

/-- An immediate of width `W`: one byte when `W` is 8, so its high byte is 0. -/
def fitsWidth : Width → Word → Bool
  | .w8, v => v.toNat < 256
  | .w16, _ => true

/-- The memory forms of ADC SBC AND ORA EOR CMP LDA STA (R192, R195, R231): all but `d,Y`. -/
def Mem.isAccumulatorForm : Mem → Bool
  | .dpY _ => false
  | .abs _ | .absX _ | .absY _ | .long _ | .longX _ | .dp _ | .dpX _ | .dpInd _ | .dpIndLong _
  | .dpXInd _ | .dpIndY _ | .dpIndLongY _ | .sr _ | .srIndY _ => true

/-- The memory forms `d a` (CPX, CPY, TSB, TRB: R237, R238, R250, R251). -/
def Mem.isPlain : Mem → Bool
  | .dp _ | .abs _ => true
  | _ => false

/-- The memory forms `d a d,X a,X` (BIT, LDY, STZ and the read-modify-write instructions: R194, R198,
R239 to R241, R246 to R249). -/
def Mem.isPlainOrX : Mem → Bool
  | .dp _ | .abs _ | .dpX _ | .absX _ => true
  | _ => false

/-- The memory forms `d a d,Y a,Y` of LDX (R193). -/
def Mem.isPlainOrY : Mem → Bool
  | .dp _ | .abs _ | .dpY _ | .absY _ => true
  | _ => false

/-- The memory forms `d a d,Y` of STX (R196). -/
def Mem.isStxForm : Mem → Bool
  | .dp _ | .abs _ | .dpY _ => true
  | _ => false

/-- The memory forms `d a d,X` of STY (R197). -/
def Mem.isStyForm : Mem → Bool
  | .dp _ | .abs _ | .dpX _ => true
  | _ => false

/-- A read operand of width `W` whose memory forms are those of `ok`. -/
def Src.wellFormed (W : Width) (ok : Mem → Bool) : Src → Bool
  | .imm v => fitsWidth W v
  | .mem m => ok m

/-- A read-modify-write operand: the accumulator, or a memory form of `ok`. -/
def Tgt.wellFormed (ok : Mem → Bool) : Tgt → Bool
  | .acc => true
  | .mem m => ok m

/-- The instruction exists (rule R104), and its immediate has the size its width gives it. -/
def WellFormed (w : Widths) : Instr → Bool
  | .lda s | .adc s | .sbc s | .and s | .ora s | .eor s | .cmp s => s.wellFormed w.m Mem.isAccumulatorForm
  | .bit s => s.wellFormed w.m Mem.isPlainOrX
  | .ldx s => s.wellFormed w.x Mem.isPlainOrY
  | .ldy s => s.wellFormed w.x Mem.isPlainOrX
  | .cpx s | .cpy s => s.wellFormed w.x Mem.isPlain
  | .sta m => m.isAccumulatorForm
  | .stx m => m.isStxForm
  | .sty m => m.isStyForm
  | .stz m => m.isPlainOrX
  | .tsb m | .trb m => m.isPlain
  | .inc t | .dec t | .asl t | .lsr t | .rol t | .ror t => t.wellFormed Mem.isPlainOrX
  | .tax | .tay | .txa | .tya | .txy | .tyx | .tsx | .txs | .tcd | .tdc | .tcs | .tsc | .xba => true
  | .inx | .iny | .dex | .dey => true
  | .bcc _ | .bcs _ | .beq _ | .bne _ | .bmi _ | .bpl _ | .bvc _ | .bvs _ | .bra _ | .brl _ => true
  | .jmp _ | .jml _ | .jsr _ | .jsl _ | .rts | .rtl => true
  | .pha | .phx | .phy | .php | .phb | .phd | .phk | .pla | .plx | .ply | .plp | .plb | .pld => true
  | .pea _ | .pei _ | .per _ => true
  | .clc | .sec | .cli | .sei | .cld | .sed | .clv | .rep _ | .sep _ | .xce => true
  | .nop | .wdm _ | .stp | .wai | .mvn _ _ | .mvp _ _ => true
  | .brk _ | .cop _ | .rti => true

end Sys2Proof
end

