-- ==== Sys2Proof/Decode.lean ====
section
/-! DEFINITION. The decoder and the encoder (spec/30_encoding.md R100 to R112, spec/opcode_table.json): an opcode byte and its
operand bytes to an instruction, and an instruction to its bytes. The decoder is total: every opcode byte
has an instruction (R104, R111), and what it rejects, by name, is a byte string that ends too early. -/

namespace Sys2Proof

open Sys2Proof.Machine

/-- A 16-bit operand field: bits 7:0 first (rules R101, R102). -/
def operandWord (b1 b2 : Byte) : Word := wordOf b2 b1

/-- A 24-bit operand field: bits 7:0 first (rules R101, R102). -/
def operandLong (b1 b2 b3 : Byte) : Addr := addrOf b3 (wordOf b2 b1)

/-- The formats of rule R101. -/
inductive Format where
  | imp
  | acc
  | imm8
  | immm
  | immx
  | imm16
  | dp
  | sr
  | abs
  | long
  | rel8
  | rel16
  | blk
  deriving DecidableEq, Repr

/-- Length in bytes (rules R101, R103): the immediate formats depend on the current width. -/
def Format.length (w : Widths) : Format → Nat
  | .imp | .acc => 1
  | .imm8 | .dp | .sr | .rel8 => 2
  | .immm => if w.m = .w16 then 3 else 2
  | .immx => if w.x = .w16 then 3 else 2
  | .imm16 | .abs | .rel16 | .blk => 3
  | .long => 4

/-! The rows of the table of rule R104, one definition a row (the high nibble of the opcode), the column
(the low nibble) matched inside. `b1`, `b2`, `b3` are the operand bytes, 0 where the instruction has none. -/

/-- Row 0x of rule R104. -/
def decodeRow0 (lo : Nat) (b1 b2 b3 : Byte) : Instr :=
  match lo with
  | 0 => .brk b1
  | 1 => .ora (.mem (.dpXInd b1))
  | 2 => .cop b1
  | 3 => .ora (.mem (.sr b1))
  | 4 => .tsb (.dp b1)
  | 5 => .ora (.mem (.dp b1))
  | 6 => .asl (.mem (.dp b1))
  | 7 => .ora (.mem (.dpIndLong b1))
  | 8 => .php
  | 9 => .ora (.imm (operandWord b1 b2))
  | 10 => .asl .acc
  | 11 => .phd
  | 12 => .tsb (.abs (operandWord b1 b2))
  | 13 => .ora (.mem (.abs (operandWord b1 b2)))
  | 14 => .asl (.mem (.abs (operandWord b1 b2)))
  | _ => .ora (.mem (.long (operandLong b1 b2 b3)))

/-- Row 1x of rule R104. -/
def decodeRow1 (lo : Nat) (b1 b2 b3 : Byte) : Instr :=
  match lo with
  | 0 => .bpl b1
  | 1 => .ora (.mem (.dpIndY b1))
  | 2 => .ora (.mem (.dpInd b1))
  | 3 => .ora (.mem (.srIndY b1))
  | 4 => .trb (.dp b1)
  | 5 => .ora (.mem (.dpX b1))
  | 6 => .asl (.mem (.dpX b1))
  | 7 => .ora (.mem (.dpIndLongY b1))
  | 8 => .clc
  | 9 => .ora (.mem (.absY (operandWord b1 b2)))
  | 10 => .inc .acc
  | 11 => .tcs
  | 12 => .trb (.abs (operandWord b1 b2))
  | 13 => .ora (.mem (.absX (operandWord b1 b2)))
  | 14 => .asl (.mem (.absX (operandWord b1 b2)))
  | _ => .ora (.mem (.longX (operandLong b1 b2 b3)))

/-- Row 2x of rule R104. -/
def decodeRow2 (lo : Nat) (b1 b2 b3 : Byte) : Instr :=
  match lo with
  | 0 => .jsr (.abs (operandWord b1 b2))
  | 1 => .and (.mem (.dpXInd b1))
  | 2 => .jsl (operandLong b1 b2 b3)
  | 3 => .and (.mem (.sr b1))
  | 4 => .bit (.mem (.dp b1))
  | 5 => .and (.mem (.dp b1))
  | 6 => .rol (.mem (.dp b1))
  | 7 => .and (.mem (.dpIndLong b1))
  | 8 => .plp
  | 9 => .and (.imm (operandWord b1 b2))
  | 10 => .rol .acc
  | 11 => .pld
  | 12 => .bit (.mem (.abs (operandWord b1 b2)))
  | 13 => .and (.mem (.abs (operandWord b1 b2)))
  | 14 => .rol (.mem (.abs (operandWord b1 b2)))
  | _ => .and (.mem (.long (operandLong b1 b2 b3)))

/-- Row 3x of rule R104. -/
def decodeRow3 (lo : Nat) (b1 b2 b3 : Byte) : Instr :=
  match lo with
  | 0 => .bmi b1
  | 1 => .and (.mem (.dpIndY b1))
  | 2 => .and (.mem (.dpInd b1))
  | 3 => .and (.mem (.srIndY b1))
  | 4 => .bit (.mem (.dpX b1))
  | 5 => .and (.mem (.dpX b1))
  | 6 => .rol (.mem (.dpX b1))
  | 7 => .and (.mem (.dpIndLongY b1))
  | 8 => .sec
  | 9 => .and (.mem (.absY (operandWord b1 b2)))
  | 10 => .dec .acc
  | 11 => .tsc
  | 12 => .bit (.mem (.absX (operandWord b1 b2)))
  | 13 => .and (.mem (.absX (operandWord b1 b2)))
  | 14 => .rol (.mem (.absX (operandWord b1 b2)))
  | _ => .and (.mem (.longX (operandLong b1 b2 b3)))

/-- Row 4x of rule R104. -/
def decodeRow4 (lo : Nat) (b1 b2 b3 : Byte) : Instr :=
  match lo with
  | 0 => .rti
  | 1 => .eor (.mem (.dpXInd b1))
  | 2 => .wdm b1
  | 3 => .eor (.mem (.sr b1))
  | 4 => .mvp b1 b2
  | 5 => .eor (.mem (.dp b1))
  | 6 => .lsr (.mem (.dp b1))
  | 7 => .eor (.mem (.dpIndLong b1))
  | 8 => .pha
  | 9 => .eor (.imm (operandWord b1 b2))
  | 10 => .lsr .acc
  | 11 => .phk
  | 12 => .jmp (.abs (operandWord b1 b2))
  | 13 => .eor (.mem (.abs (operandWord b1 b2)))
  | 14 => .lsr (.mem (.abs (operandWord b1 b2)))
  | _ => .eor (.mem (.long (operandLong b1 b2 b3)))

/-- Row 5x of rule R104. -/
def decodeRow5 (lo : Nat) (b1 b2 b3 : Byte) : Instr :=
  match lo with
  | 0 => .bvc b1
  | 1 => .eor (.mem (.dpIndY b1))
  | 2 => .eor (.mem (.dpInd b1))
  | 3 => .eor (.mem (.srIndY b1))
  | 4 => .mvn b1 b2
  | 5 => .eor (.mem (.dpX b1))
  | 6 => .lsr (.mem (.dpX b1))
  | 7 => .eor (.mem (.dpIndLongY b1))
  | 8 => .cli
  | 9 => .eor (.mem (.absY (operandWord b1 b2)))
  | 10 => .phy
  | 11 => .tcd
  | 12 => .jml (.long (operandLong b1 b2 b3))
  | 13 => .eor (.mem (.absX (operandWord b1 b2)))
  | 14 => .lsr (.mem (.absX (operandWord b1 b2)))
  | _ => .eor (.mem (.longX (operandLong b1 b2 b3)))

/-- Row 6x of rule R104. -/
def decodeRow6 (lo : Nat) (b1 b2 b3 : Byte) : Instr :=
  match lo with
  | 0 => .rts
  | 1 => .adc (.mem (.dpXInd b1))
  | 2 => .per (operandWord b1 b2)
  | 3 => .adc (.mem (.sr b1))
  | 4 => .stz (.dp b1)
  | 5 => .adc (.mem (.dp b1))
  | 6 => .ror (.mem (.dp b1))
  | 7 => .adc (.mem (.dpIndLong b1))
  | 8 => .pla
  | 9 => .adc (.imm (operandWord b1 b2))
  | 10 => .ror .acc
  | 11 => .rtl
  | 12 => .jmp (.ind (operandWord b1 b2))
  | 13 => .adc (.mem (.abs (operandWord b1 b2)))
  | 14 => .ror (.mem (.abs (operandWord b1 b2)))
  | _ => .adc (.mem (.long (operandLong b1 b2 b3)))

/-- Row 7x of rule R104. -/
def decodeRow7 (lo : Nat) (b1 b2 b3 : Byte) : Instr :=
  match lo with
  | 0 => .bvs b1
  | 1 => .adc (.mem (.dpIndY b1))
  | 2 => .adc (.mem (.dpInd b1))
  | 3 => .adc (.mem (.srIndY b1))
  | 4 => .stz (.dpX b1)
  | 5 => .adc (.mem (.dpX b1))
  | 6 => .ror (.mem (.dpX b1))
  | 7 => .adc (.mem (.dpIndLongY b1))
  | 8 => .sei
  | 9 => .adc (.mem (.absY (operandWord b1 b2)))
  | 10 => .ply
  | 11 => .tdc
  | 12 => .jmp (.indX (operandWord b1 b2))
  | 13 => .adc (.mem (.absX (operandWord b1 b2)))
  | 14 => .ror (.mem (.absX (operandWord b1 b2)))
  | _ => .adc (.mem (.longX (operandLong b1 b2 b3)))

/-- Row 8x of rule R104. -/
def decodeRow8 (lo : Nat) (b1 b2 b3 : Byte) : Instr :=
  match lo with
  | 0 => .bra b1
  | 1 => .sta (.dpXInd b1)
  | 2 => .brl (operandWord b1 b2)
  | 3 => .sta (.sr b1)
  | 4 => .sty (.dp b1)
  | 5 => .sta (.dp b1)
  | 6 => .stx (.dp b1)
  | 7 => .sta (.dpIndLong b1)
  | 8 => .dey
  | 9 => .bit (.imm (operandWord b1 b2))
  | 10 => .txa
  | 11 => .phb
  | 12 => .sty (.abs (operandWord b1 b2))
  | 13 => .sta (.abs (operandWord b1 b2))
  | 14 => .stx (.abs (operandWord b1 b2))
  | _ => .sta (.long (operandLong b1 b2 b3))

/-- Row 9x of rule R104. -/
def decodeRow9 (lo : Nat) (b1 b2 b3 : Byte) : Instr :=
  match lo with
  | 0 => .bcc b1
  | 1 => .sta (.dpIndY b1)
  | 2 => .sta (.dpInd b1)
  | 3 => .sta (.srIndY b1)
  | 4 => .sty (.dpX b1)
  | 5 => .sta (.dpX b1)
  | 6 => .stx (.dpY b1)
  | 7 => .sta (.dpIndLongY b1)
  | 8 => .tya
  | 9 => .sta (.absY (operandWord b1 b2))
  | 10 => .txs
  | 11 => .txy
  | 12 => .stz (.abs (operandWord b1 b2))
  | 13 => .sta (.absX (operandWord b1 b2))
  | 14 => .stz (.absX (operandWord b1 b2))
  | _ => .sta (.longX (operandLong b1 b2 b3))

/-- Row Ax of rule R104. -/
def decodeRowA (lo : Nat) (b1 b2 b3 : Byte) : Instr :=
  match lo with
  | 0 => .ldy (.imm (operandWord b1 b2))
  | 1 => .lda (.mem (.dpXInd b1))
  | 2 => .ldx (.imm (operandWord b1 b2))
  | 3 => .lda (.mem (.sr b1))
  | 4 => .ldy (.mem (.dp b1))
  | 5 => .lda (.mem (.dp b1))
  | 6 => .ldx (.mem (.dp b1))
  | 7 => .lda (.mem (.dpIndLong b1))
  | 8 => .tay
  | 9 => .lda (.imm (operandWord b1 b2))
  | 10 => .tax
  | 11 => .plb
  | 12 => .ldy (.mem (.abs (operandWord b1 b2)))
  | 13 => .lda (.mem (.abs (operandWord b1 b2)))
  | 14 => .ldx (.mem (.abs (operandWord b1 b2)))
  | _ => .lda (.mem (.long (operandLong b1 b2 b3)))

/-- Row Bx of rule R104. -/
def decodeRowB (lo : Nat) (b1 b2 b3 : Byte) : Instr :=
  match lo with
  | 0 => .bcs b1
  | 1 => .lda (.mem (.dpIndY b1))
  | 2 => .lda (.mem (.dpInd b1))
  | 3 => .lda (.mem (.srIndY b1))
  | 4 => .ldy (.mem (.dpX b1))
  | 5 => .lda (.mem (.dpX b1))
  | 6 => .ldx (.mem (.dpY b1))
  | 7 => .lda (.mem (.dpIndLongY b1))
  | 8 => .clv
  | 9 => .lda (.mem (.absY (operandWord b1 b2)))
  | 10 => .tsx
  | 11 => .tyx
  | 12 => .ldy (.mem (.absX (operandWord b1 b2)))
  | 13 => .lda (.mem (.absX (operandWord b1 b2)))
  | 14 => .ldx (.mem (.absY (operandWord b1 b2)))
  | _ => .lda (.mem (.longX (operandLong b1 b2 b3)))

/-- Row Cx of rule R104. -/
def decodeRowC (lo : Nat) (b1 b2 b3 : Byte) : Instr :=
  match lo with
  | 0 => .cpy (.imm (operandWord b1 b2))
  | 1 => .cmp (.mem (.dpXInd b1))
  | 2 => .rep b1
  | 3 => .cmp (.mem (.sr b1))
  | 4 => .cpy (.mem (.dp b1))
  | 5 => .cmp (.mem (.dp b1))
  | 6 => .dec (.mem (.dp b1))
  | 7 => .cmp (.mem (.dpIndLong b1))
  | 8 => .iny
  | 9 => .cmp (.imm (operandWord b1 b2))
  | 10 => .dex
  | 11 => .wai
  | 12 => .cpy (.mem (.abs (operandWord b1 b2)))
  | 13 => .cmp (.mem (.abs (operandWord b1 b2)))
  | 14 => .dec (.mem (.abs (operandWord b1 b2)))
  | _ => .cmp (.mem (.long (operandLong b1 b2 b3)))

/-- Row Dx of rule R104. -/
def decodeRowD (lo : Nat) (b1 b2 b3 : Byte) : Instr :=
  match lo with
  | 0 => .bne b1
  | 1 => .cmp (.mem (.dpIndY b1))
  | 2 => .cmp (.mem (.dpInd b1))
  | 3 => .cmp (.mem (.srIndY b1))
  | 4 => .pei b1
  | 5 => .cmp (.mem (.dpX b1))
  | 6 => .dec (.mem (.dpX b1))
  | 7 => .cmp (.mem (.dpIndLongY b1))
  | 8 => .cld
  | 9 => .cmp (.mem (.absY (operandWord b1 b2)))
  | 10 => .phx
  | 11 => .stp
  | 12 => .jml (.indLong (operandWord b1 b2))
  | 13 => .cmp (.mem (.absX (operandWord b1 b2)))
  | 14 => .dec (.mem (.absX (operandWord b1 b2)))
  | _ => .cmp (.mem (.longX (operandLong b1 b2 b3)))

/-- Row Ex of rule R104. -/
def decodeRowE (lo : Nat) (b1 b2 b3 : Byte) : Instr :=
  match lo with
  | 0 => .cpx (.imm (operandWord b1 b2))
  | 1 => .sbc (.mem (.dpXInd b1))
  | 2 => .sep b1
  | 3 => .sbc (.mem (.sr b1))
  | 4 => .cpx (.mem (.dp b1))
  | 5 => .sbc (.mem (.dp b1))
  | 6 => .inc (.mem (.dp b1))
  | 7 => .sbc (.mem (.dpIndLong b1))
  | 8 => .inx
  | 9 => .sbc (.imm (operandWord b1 b2))
  | 10 => .nop
  | 11 => .xba
  | 12 => .cpx (.mem (.abs (operandWord b1 b2)))
  | 13 => .sbc (.mem (.abs (operandWord b1 b2)))
  | 14 => .inc (.mem (.abs (operandWord b1 b2)))
  | _ => .sbc (.mem (.long (operandLong b1 b2 b3)))

/-- Row Fx of rule R104. -/
def decodeRowF (lo : Nat) (b1 b2 b3 : Byte) : Instr :=
  match lo with
  | 0 => .beq b1
  | 1 => .sbc (.mem (.dpIndY b1))
  | 2 => .sbc (.mem (.dpInd b1))
  | 3 => .sbc (.mem (.srIndY b1))
  | 4 => .pea (operandWord b1 b2)
  | 5 => .sbc (.mem (.dpX b1))
  | 6 => .inc (.mem (.dpX b1))
  | 7 => .sbc (.mem (.dpIndLongY b1))
  | 8 => .sed
  | 9 => .sbc (.mem (.absY (operandWord b1 b2)))
  | 10 => .plx
  | 11 => .xce
  | 12 => .jsr (.indX (operandWord b1 b2))
  | 13 => .sbc (.mem (.absX (operandWord b1 b2)))
  | 14 => .inc (.mem (.absX (operandWord b1 b2)))
  | _ => .sbc (.mem (.longX (operandLong b1 b2 b3)))

/-- `dispatch(opcode)` of rule R107 with the operand fields filled in: the opcode byte alone selects the
instruction and its operand form (R100). -/
def decodeOp (op b1 b2 b3 : Byte) : Instr :=
  match op.toNat / 16 with
  | 0 => decodeRow0 (op.toNat % 16) b1 b2 b3
  | 1 => decodeRow1 (op.toNat % 16) b1 b2 b3
  | 2 => decodeRow2 (op.toNat % 16) b1 b2 b3
  | 3 => decodeRow3 (op.toNat % 16) b1 b2 b3
  | 4 => decodeRow4 (op.toNat % 16) b1 b2 b3
  | 5 => decodeRow5 (op.toNat % 16) b1 b2 b3
  | 6 => decodeRow6 (op.toNat % 16) b1 b2 b3
  | 7 => decodeRow7 (op.toNat % 16) b1 b2 b3
  | 8 => decodeRow8 (op.toNat % 16) b1 b2 b3
  | 9 => decodeRow9 (op.toNat % 16) b1 b2 b3
  | 10 => decodeRowA (op.toNat % 16) b1 b2 b3
  | 11 => decodeRowB (op.toNat % 16) b1 b2 b3
  | 12 => decodeRowC (op.toNat % 16) b1 b2 b3
  | 13 => decodeRowD (op.toNat % 16) b1 b2 b3
  | 14 => decodeRowE (op.toNat % 16) b1 b2 b3
  | _ => decodeRowF (op.toNat % 16) b1 b2 b3

/-- The format of each opcode (field `format` of spec/opcode_table.json), sixteen a row as in rule R104. -/
def formatTable : List (List Format) :=
  [ [.imm8, .dp, .imm8, .sr, .dp, .dp, .dp, .dp, .imp, .immm, .acc, .imp, .abs, .abs, .abs, .long],
    [.rel8, .dp, .dp, .sr, .dp, .dp, .dp, .dp, .imp, .abs, .acc, .imp, .abs, .abs, .abs, .long],
    [.abs, .dp, .long, .sr, .dp, .dp, .dp, .dp, .imp, .immm, .acc, .imp, .abs, .abs, .abs, .long],
    [.rel8, .dp, .dp, .sr, .dp, .dp, .dp, .dp, .imp, .abs, .acc, .imp, .abs, .abs, .abs, .long],
    [.imp, .dp, .imm8, .sr, .blk, .dp, .dp, .dp, .imp, .immm, .acc, .imp, .abs, .abs, .abs, .long],
    [.rel8, .dp, .dp, .sr, .blk, .dp, .dp, .dp, .imp, .abs, .imp, .imp, .long, .abs, .abs, .long],
    [.imp, .dp, .rel16, .sr, .dp, .dp, .dp, .dp, .imp, .immm, .acc, .imp, .abs, .abs, .abs, .long],
    [.rel8, .dp, .dp, .sr, .dp, .dp, .dp, .dp, .imp, .abs, .imp, .imp, .abs, .abs, .abs, .long],
    [.rel8, .dp, .rel16, .sr, .dp, .dp, .dp, .dp, .imp, .immm, .imp, .imp, .abs, .abs, .abs, .long],
    [.rel8, .dp, .dp, .sr, .dp, .dp, .dp, .dp, .imp, .abs, .imp, .imp, .abs, .abs, .abs, .long],
    [.immx, .dp, .immx, .sr, .dp, .dp, .dp, .dp, .imp, .immm, .imp, .imp, .abs, .abs, .abs, .long],
    [.rel8, .dp, .dp, .sr, .dp, .dp, .dp, .dp, .imp, .abs, .imp, .imp, .abs, .abs, .abs, .long],
    [.immx, .dp, .imm8, .sr, .dp, .dp, .dp, .dp, .imp, .immm, .imp, .imp, .abs, .abs, .abs, .long],
    [.rel8, .dp, .dp, .sr, .dp, .dp, .dp, .dp, .imp, .abs, .imp, .imp, .abs, .abs, .abs, .long],
    [.immx, .dp, .imm8, .sr, .dp, .dp, .dp, .dp, .imp, .immm, .imp, .imp, .abs, .abs, .abs, .long],
    [.rel8, .dp, .dp, .sr, .imm16, .dp, .dp, .dp, .imp, .abs, .imp, .imp, .abs, .abs, .abs, .long] ]

/-- The format of an opcode. -/
def formatOf (op : Byte) : Format := (formatTable.getD (op.toNat / 16) []).getD (op.toNat % 16) .imp

/-- `Length(op)` of rule R103: a function of the opcode and the two widths (R112). -/
def opLength (w : Widths) (op : Byte) : Nat := (formatOf op).length w

/-- Why a byte string holds no instruction. -/
inductive DecodeError where
  /-- There is no opcode byte. -/
  | noOpcode
  /-- The operand bytes of the opcode `op` are missing. -/
  | truncated (op : Byte)
  deriving DecidableEq, Repr

/-- The first instruction of a byte string and the bytes after it. -/
def decode (w : Widths) : List Byte → Except DecodeError (Instr × List Byte)
  | [] => .error .noOpcode
  | op :: rest =>
    let n := opLength w op - 1
    if rest.length < n then .error (.truncated op)
    else
      let b := rest.take n
      .ok (decodeOp op (b.getD 0 0) (b.getD 1 0) (b.getD 2 0), rest.drop n)

/-! The encoder, from the same table. -/

/-- The opcodes of LDA with a memory operand (rule R192). -/
def Mem.ldaOpcode : Mem → Option Byte
  | .dpXInd _ => some 0xA1#8
  | .sr _ => some 0xA3#8
  | .dp _ => some 0xA5#8
  | .dpIndLong _ => some 0xA7#8
  | .abs _ => some 0xAD#8
  | .long _ => some 0xAF#8
  | .dpIndY _ => some 0xB1#8
  | .dpInd _ => some 0xB2#8
  | .srIndY _ => some 0xB3#8
  | .dpX _ => some 0xB5#8
  | .dpIndLongY _ => some 0xB7#8
  | .absY _ => some 0xB9#8
  | .absX _ => some 0xBD#8
  | .longX _ => some 0xBF#8
  | _ => none

/-- The opcodes of LDX with a memory operand (rule R193). -/
def Mem.ldxOpcode : Mem → Option Byte
  | .dp _ => some 0xA6#8
  | .abs _ => some 0xAE#8
  | .dpY _ => some 0xB6#8
  | .absY _ => some 0xBE#8
  | _ => none

/-- The opcodes of LDY with a memory operand (rule R194). -/
def Mem.ldyOpcode : Mem → Option Byte
  | .dp _ => some 0xA4#8
  | .abs _ => some 0xAC#8
  | .dpX _ => some 0xB4#8
  | .absX _ => some 0xBC#8
  | _ => none

/-- The opcodes of STA with a memory operand (rule R195). -/
def Mem.staOpcode : Mem → Option Byte
  | .dpXInd _ => some 0x81#8
  | .sr _ => some 0x83#8
  | .dp _ => some 0x85#8
  | .dpIndLong _ => some 0x87#8
  | .abs _ => some 0x8D#8
  | .long _ => some 0x8F#8
  | .dpIndY _ => some 0x91#8
  | .dpInd _ => some 0x92#8
  | .srIndY _ => some 0x93#8
  | .dpX _ => some 0x95#8
  | .dpIndLongY _ => some 0x97#8
  | .absY _ => some 0x99#8
  | .absX _ => some 0x9D#8
  | .longX _ => some 0x9F#8
  | _ => none

/-- The opcodes of STX with a memory operand (rule R196). -/
def Mem.stxOpcode : Mem → Option Byte
  | .dp _ => some 0x86#8
  | .abs _ => some 0x8E#8
  | .dpY _ => some 0x96#8
  | _ => none

/-- The opcodes of STY with a memory operand (rule R197). -/
def Mem.styOpcode : Mem → Option Byte
  | .dp _ => some 0x84#8
  | .abs _ => some 0x8C#8
  | .dpX _ => some 0x94#8
  | _ => none

/-- The opcodes of STZ with a memory operand (rule R198). -/
def Mem.stzOpcode : Mem → Option Byte
  | .dp _ => some 0x64#8
  | .dpX _ => some 0x74#8
  | .abs _ => some 0x9C#8
  | .absX _ => some 0x9E#8
  | _ => none

/-- The opcodes of ADC with a memory operand (rule R231). -/
def Mem.adcOpcode : Mem → Option Byte
  | .dpXInd _ => some 0x61#8
  | .sr _ => some 0x63#8
  | .dp _ => some 0x65#8
  | .dpIndLong _ => some 0x67#8
  | .abs _ => some 0x6D#8
  | .long _ => some 0x6F#8
  | .dpIndY _ => some 0x71#8
  | .dpInd _ => some 0x72#8
  | .srIndY _ => some 0x73#8
  | .dpX _ => some 0x75#8
  | .dpIndLongY _ => some 0x77#8
  | .absY _ => some 0x79#8
  | .absX _ => some 0x7D#8
  | .longX _ => some 0x7F#8
  | _ => none

/-- The opcodes of SBC with a memory operand (rule R232). -/
def Mem.sbcOpcode : Mem → Option Byte
  | .dpXInd _ => some 0xE1#8
  | .sr _ => some 0xE3#8
  | .dp _ => some 0xE5#8
  | .dpIndLong _ => some 0xE7#8
  | .abs _ => some 0xED#8
  | .long _ => some 0xEF#8
  | .dpIndY _ => some 0xF1#8
  | .dpInd _ => some 0xF2#8
  | .srIndY _ => some 0xF3#8
  | .dpX _ => some 0xF5#8
  | .dpIndLongY _ => some 0xF7#8
  | .absY _ => some 0xF9#8
  | .absX _ => some 0xFD#8
  | .longX _ => some 0xFF#8
  | _ => none

/-- The opcodes of AND with a memory operand (rule R233). -/
def Mem.andOpcode : Mem → Option Byte
  | .dpXInd _ => some 0x21#8
  | .sr _ => some 0x23#8
  | .dp _ => some 0x25#8
  | .dpIndLong _ => some 0x27#8
  | .abs _ => some 0x2D#8
  | .long _ => some 0x2F#8
  | .dpIndY _ => some 0x31#8
  | .dpInd _ => some 0x32#8
  | .srIndY _ => some 0x33#8
  | .dpX _ => some 0x35#8
  | .dpIndLongY _ => some 0x37#8
  | .absY _ => some 0x39#8
  | .absX _ => some 0x3D#8
  | .longX _ => some 0x3F#8
  | _ => none

/-- The opcodes of ORA with a memory operand (rule R234). -/
def Mem.oraOpcode : Mem → Option Byte
  | .dpXInd _ => some 0x01#8
  | .sr _ => some 0x03#8
  | .dp _ => some 0x05#8
  | .dpIndLong _ => some 0x07#8
  | .abs _ => some 0x0D#8
  | .long _ => some 0x0F#8
  | .dpIndY _ => some 0x11#8
  | .dpInd _ => some 0x12#8
  | .srIndY _ => some 0x13#8
  | .dpX _ => some 0x15#8
  | .dpIndLongY _ => some 0x17#8
  | .absY _ => some 0x19#8
  | .absX _ => some 0x1D#8
  | .longX _ => some 0x1F#8
  | _ => none

/-- The opcodes of EOR with a memory operand (rule R235). -/
def Mem.eorOpcode : Mem → Option Byte
  | .dpXInd _ => some 0x41#8
  | .sr _ => some 0x43#8
  | .dp _ => some 0x45#8
  | .dpIndLong _ => some 0x47#8
  | .abs _ => some 0x4D#8
  | .long _ => some 0x4F#8
  | .dpIndY _ => some 0x51#8
  | .dpInd _ => some 0x52#8
  | .srIndY _ => some 0x53#8
  | .dpX _ => some 0x55#8
  | .dpIndLongY _ => some 0x57#8
  | .absY _ => some 0x59#8
  | .absX _ => some 0x5D#8
  | .longX _ => some 0x5F#8
  | _ => none

/-- The opcodes of CMP with a memory operand (rule R236). -/
def Mem.cmpOpcode : Mem → Option Byte
  | .dpXInd _ => some 0xC1#8
  | .sr _ => some 0xC3#8
  | .dp _ => some 0xC5#8
  | .dpIndLong _ => some 0xC7#8
  | .abs _ => some 0xCD#8
  | .long _ => some 0xCF#8
  | .dpIndY _ => some 0xD1#8
  | .dpInd _ => some 0xD2#8
  | .srIndY _ => some 0xD3#8
  | .dpX _ => some 0xD5#8
  | .dpIndLongY _ => some 0xD7#8
  | .absY _ => some 0xD9#8
  | .absX _ => some 0xDD#8
  | .longX _ => some 0xDF#8
  | _ => none

/-- The opcodes of CPX with a memory operand (rule R237). -/
def Mem.cpxOpcode : Mem → Option Byte
  | .dp _ => some 0xE4#8
  | .abs _ => some 0xEC#8
  | _ => none

/-- The opcodes of CPY with a memory operand (rule R238). -/
def Mem.cpyOpcode : Mem → Option Byte
  | .dp _ => some 0xC4#8
  | .abs _ => some 0xCC#8
  | _ => none

/-- The opcodes of BIT with a memory operand (rule R239). -/
def Mem.bitOpcode : Mem → Option Byte
  | .dp _ => some 0x24#8
  | .abs _ => some 0x2C#8
  | .dpX _ => some 0x34#8
  | .absX _ => some 0x3C#8
  | _ => none

/-- The opcodes of INC with a memory operand (rule R240). -/
def Mem.incOpcode : Mem → Option Byte
  | .dp _ => some 0xE6#8
  | .abs _ => some 0xEE#8
  | .dpX _ => some 0xF6#8
  | .absX _ => some 0xFE#8
  | _ => none

/-- The opcodes of DEC with a memory operand (rule R241). -/
def Mem.decOpcode : Mem → Option Byte
  | .dp _ => some 0xC6#8
  | .abs _ => some 0xCE#8
  | .dpX _ => some 0xD6#8
  | .absX _ => some 0xDE#8
  | _ => none

/-- The opcodes of ASL with a memory operand (rule R246). -/
def Mem.aslOpcode : Mem → Option Byte
  | .dp _ => some 0x06#8
  | .abs _ => some 0x0E#8
  | .dpX _ => some 0x16#8
  | .absX _ => some 0x1E#8
  | _ => none

/-- The opcodes of LSR with a memory operand (rule R247). -/
def Mem.lsrOpcode : Mem → Option Byte
  | .dp _ => some 0x46#8
  | .abs _ => some 0x4E#8
  | .dpX _ => some 0x56#8
  | .absX _ => some 0x5E#8
  | _ => none

/-- The opcodes of ROL with a memory operand (rule R248). -/
def Mem.rolOpcode : Mem → Option Byte
  | .dp _ => some 0x26#8
  | .abs _ => some 0x2E#8
  | .dpX _ => some 0x36#8
  | .absX _ => some 0x3E#8
  | _ => none

/-- The opcodes of ROR with a memory operand (rule R249). -/
def Mem.rorOpcode : Mem → Option Byte
  | .dp _ => some 0x66#8
  | .abs _ => some 0x6E#8
  | .dpX _ => some 0x76#8
  | .absX _ => some 0x7E#8
  | _ => none

/-- The opcodes of TSB with a memory operand (rule R250). -/
def Mem.tsbOpcode : Mem → Option Byte
  | .dp _ => some 0x04#8
  | .abs _ => some 0x0C#8
  | _ => none

/-- The opcodes of TRB with a memory operand (rule R251). -/
def Mem.trbOpcode : Mem → Option Byte
  | .dp _ => some 0x14#8
  | .abs _ => some 0x1C#8
  | _ => none

/-- The opcode byte of an instruction (rule R104), none where the term is no instruction. -/
def Instr.opcode : Instr → Option Byte
  | .lda (.imm _) => some 0xA9#8
  | .lda (.mem m) => m.ldaOpcode
  | .ldx (.imm _) => some 0xA2#8
  | .ldx (.mem m) => m.ldxOpcode
  | .ldy (.imm _) => some 0xA0#8
  | .ldy (.mem m) => m.ldyOpcode
  | .sta m => m.staOpcode
  | .stx m => m.stxOpcode
  | .sty m => m.styOpcode
  | .stz m => m.stzOpcode
  | .tax => some 0xAA#8
  | .tay => some 0xA8#8
  | .txa => some 0x8A#8
  | .tya => some 0x98#8
  | .txy => some 0x9B#8
  | .tyx => some 0xBB#8
  | .tsx => some 0xBA#8
  | .txs => some 0x9A#8
  | .tcd => some 0x5B#8
  | .tdc => some 0x7B#8
  | .tcs => some 0x1B#8
  | .tsc => some 0x3B#8
  | .xba => some 0xEB#8
  | .adc (.imm _) => some 0x69#8
  | .adc (.mem m) => m.adcOpcode
  | .sbc (.imm _) => some 0xE9#8
  | .sbc (.mem m) => m.sbcOpcode
  | .and (.imm _) => some 0x29#8
  | .and (.mem m) => m.andOpcode
  | .ora (.imm _) => some 0x09#8
  | .ora (.mem m) => m.oraOpcode
  | .eor (.imm _) => some 0x49#8
  | .eor (.mem m) => m.eorOpcode
  | .cmp (.imm _) => some 0xC9#8
  | .cmp (.mem m) => m.cmpOpcode
  | .cpx (.imm _) => some 0xE0#8
  | .cpx (.mem m) => m.cpxOpcode
  | .cpy (.imm _) => some 0xC0#8
  | .cpy (.mem m) => m.cpyOpcode
  | .bit (.imm _) => some 0x89#8
  | .bit (.mem m) => m.bitOpcode
  | .inc .acc => some 0x1A#8
  | .inc (.mem m) => m.incOpcode
  | .dec .acc => some 0x3A#8
  | .dec (.mem m) => m.decOpcode
  | .inx => some 0xE8#8
  | .iny => some 0xC8#8
  | .dex => some 0xCA#8
  | .dey => some 0x88#8
  | .asl .acc => some 0x0A#8
  | .asl (.mem m) => m.aslOpcode
  | .lsr .acc => some 0x4A#8
  | .lsr (.mem m) => m.lsrOpcode
  | .rol .acc => some 0x2A#8
  | .rol (.mem m) => m.rolOpcode
  | .ror .acc => some 0x6A#8
  | .ror (.mem m) => m.rorOpcode
  | .tsb m => m.tsbOpcode
  | .trb m => m.trbOpcode
  | .bcc _ => some 0x90#8
  | .bcs _ => some 0xB0#8
  | .beq _ => some 0xF0#8
  | .bne _ => some 0xD0#8
  | .bmi _ => some 0x30#8
  | .bpl _ => some 0x10#8
  | .bvc _ => some 0x50#8
  | .bvs _ => some 0x70#8
  | .bra _ => some 0x80#8
  | .brl _ => some 0x82#8
  | .jmp (.abs _) => some 0x4C#8
  | .jmp (.ind _) => some 0x6C#8
  | .jmp (.indX _) => some 0x7C#8
  | .jml (.long _) => some 0x5C#8
  | .jml (.indLong _) => some 0xDC#8
  | .jsr (.abs _) => some 0x20#8
  | .jsr (.indX _) => some 0xFC#8
  | .jsl _ => some 0x22#8
  | .rts => some 0x60#8
  | .rtl => some 0x6B#8
  | .pha => some 0x48#8
  | .phx => some 0xDA#8
  | .phy => some 0x5A#8
  | .php => some 0x08#8
  | .phb => some 0x8B#8
  | .phd => some 0x0B#8
  | .phk => some 0x4B#8
  | .pla => some 0x68#8
  | .plx => some 0xFA#8
  | .ply => some 0x7A#8
  | .plp => some 0x28#8
  | .plb => some 0xAB#8
  | .pld => some 0x2B#8
  | .pea _ => some 0xF4#8
  | .pei _ => some 0xD4#8
  | .per _ => some 0x62#8
  | .clc => some 0x18#8
  | .sec => some 0x38#8
  | .cli => some 0x58#8
  | .sei => some 0x78#8
  | .cld => some 0xD8#8
  | .sed => some 0xF8#8
  | .clv => some 0xB8#8
  | .rep _ => some 0xC2#8
  | .sep _ => some 0xE2#8
  | .xce => some 0xFB#8
  | .nop => some 0xEA#8
  | .wdm _ => some 0x42#8
  | .stp => some 0xDB#8
  | .wai => some 0xCB#8
  | .mvn _ _ => some 0x54#8
  | .mvp _ _ => some 0x44#8
  | .brk _ => some 0x00#8
  | .cop _ => some 0x02#8
  | .rti => some 0x40#8

/-- The bytes of a 16-bit operand field. -/
def wordBytes (v : Word) : List Byte := [lowByte v, highByte v]

/-- The bytes of a 24-bit operand field. -/
def longBytes (a : Addr) : List Byte := [lowByte (offsetOf a), highByte (offsetOf a), bankOf a]

/-- The bytes of an immediate of width `W` (formats `IMMM` and `IMMX` of rule R101). -/
def immBytes : Width → Word → List Byte
  | .w8, v => [lowByte v]
  | .w16, v => wordBytes v

/-- The operand bytes of a memory form: formats `ABS`, `LONG`, `DP`, `SR` of rule R101. -/
def Mem.bytes : Mem → List Byte
  | .abs a | .absX a | .absY a => wordBytes a
  | .long al | .longX al => longBytes al
  | .dp d | .dpX d | .dpY d | .dpInd d | .dpIndLong d | .dpXInd d | .dpIndY d | .dpIndLongY d => [d]
  | .sr r | .srIndY r => [r]

/-- The operand bytes of a read operand of width `W`. -/
def Src.bytes (W : Width) : Src → List Byte
  | .imm v => immBytes W v
  | .mem m => m.bytes

/-- The operand bytes of a read-modify-write operand. -/
def Tgt.bytes : Tgt → List Byte
  | .acc => []
  | .mem m => m.bytes

/-- The operand bytes of an instruction, in ascending address order (rule R101). -/
def Instr.operandBytes (w : Widths) : Instr → List Byte
  | .lda s | .adc s | .sbc s | .and s | .ora s | .eor s | .cmp s | .bit s => s.bytes w.m
  | .ldx s | .ldy s | .cpx s | .cpy s => s.bytes w.x
  | .sta m | .stx m | .sty m | .stz m | .tsb m | .trb m => m.bytes
  | .inc t | .dec t | .asl t | .lsr t | .rol t | .ror t => t.bytes
  | .tax | .tay | .txa | .tya | .txy | .tyx | .tsx | .txs | .tcd | .tdc | .tcs | .tsc | .xba => []
  | .inx | .iny | .dex | .dey => []
  | .bcc r | .bcs r | .beq r | .bne r | .bmi r | .bpl r | .bvc r | .bvs r | .bra r => [r]
  | .brl r | .per r => wordBytes r
  | .jmp (.abs a) | .jmp (.ind a) | .jmp (.indX a) => wordBytes a
  | .jml (.long al) => longBytes al
  | .jml (.indLong a) => wordBytes a
  | .jsr (.abs a) | .jsr (.indX a) => wordBytes a
  | .jsl al => longBytes al
  | .rts | .rtl | .rti => []
  | .pha | .phx | .phy | .php | .phb | .phd | .phk | .pla | .plx | .ply | .plp | .plb | .pld => []
  | .pea v => wordBytes v
  | .pei d => [d]
  | .clc | .sec | .cli | .sei | .cld | .sed | .clv | .xce | .nop | .stp | .wai => []
  | .rep b | .sep b | .wdm b | .brk b | .cop b => [b]
  | .mvn dst src | .mvp dst src => [dst, src]

/-- Length in bytes of the instruction (rule R103). -/
def Instr.length (w : Widths) (i : Instr) : Nat := 1 + (i.operandBytes w).length

/-- The bytes of an instruction in ascending address order; none for a term that is no instruction. -/
def encode (w : Widths) (i : Instr) : List Byte :=
  match i.opcode with
  | some op => op :: i.operandBytes w
  | none => []

/-- Byte `k` of a number whose least significant byte is byte 0. -/
def byteOfNat (v k : Nat) : Byte := BitVec.ofNat 8 (v / 256 ^ k)

/-- The instruction the decoder reads from the table word `v` of `nbits` bits, bit 0 the least significant bit of
the first byte, every bit above `nbits` zero up to the longest instruction (4 bytes, R100). The widths
are those after reset, 8 and 8 (R33, R46). -/
def decodeTableWord (nbits v : Nat) : Option Instr :=
  let u := v % 2 ^ nbits
  match decode ⟨.w8, .w8⟩ [byteOfNat u 0, byteOfNat u 1, byteOfNat u 2, byteOfNat u 3] with
  | .ok (i, _) => some i
  | .error _ => none

/-- The mnemonic of an instruction (`mnemonic` of rule R112; its operand text is not specified). -/
def Instr.mnemonic : Instr → String
  | .lda _ => "LDA"
  | .ldx _ => "LDX"
  | .ldy _ => "LDY"
  | .sta _ => "STA"
  | .stx _ => "STX"
  | .sty _ => "STY"
  | .stz _ => "STZ"
  | .tax => "TAX"
  | .tay => "TAY"
  | .txa => "TXA"
  | .tya => "TYA"
  | .txy => "TXY"
  | .tyx => "TYX"
  | .tsx => "TSX"
  | .txs => "TXS"
  | .tcd => "TCD"
  | .tdc => "TDC"
  | .tcs => "TCS"
  | .tsc => "TSC"
  | .xba => "XBA"
  | .adc _ => "ADC"
  | .sbc _ => "SBC"
  | .and _ => "AND"
  | .ora _ => "ORA"
  | .eor _ => "EOR"
  | .cmp _ => "CMP"
  | .cpx _ => "CPX"
  | .cpy _ => "CPY"
  | .bit _ => "BIT"
  | .inc _ => "INC"
  | .dec _ => "DEC"
  | .inx => "INX"
  | .iny => "INY"
  | .dex => "DEX"
  | .dey => "DEY"
  | .asl _ => "ASL"
  | .lsr _ => "LSR"
  | .rol _ => "ROL"
  | .ror _ => "ROR"
  | .tsb _ => "TSB"
  | .trb _ => "TRB"
  | .bcc _ => "BCC"
  | .bcs _ => "BCS"
  | .beq _ => "BEQ"
  | .bne _ => "BNE"
  | .bmi _ => "BMI"
  | .bpl _ => "BPL"
  | .bvc _ => "BVC"
  | .bvs _ => "BVS"
  | .bra _ => "BRA"
  | .brl _ => "BRL"
  | .jmp _ => "JMP"
  | .jml _ => "JML"
  | .jsr _ => "JSR"
  | .jsl _ => "JSL"
  | .rts => "RTS"
  | .rtl => "RTL"
  | .pha => "PHA"
  | .phx => "PHX"
  | .phy => "PHY"
  | .php => "PHP"
  | .phb => "PHB"
  | .phd => "PHD"
  | .phk => "PHK"
  | .pla => "PLA"
  | .plx => "PLX"
  | .ply => "PLY"
  | .plp => "PLP"
  | .plb => "PLB"
  | .pld => "PLD"
  | .pea _ => "PEA"
  | .pei _ => "PEI"
  | .per _ => "PER"
  | .clc => "CLC"
  | .sec => "SEC"
  | .cli => "CLI"
  | .sei => "SEI"
  | .cld => "CLD"
  | .sed => "SED"
  | .clv => "CLV"
  | .rep _ => "REP"
  | .sep _ => "SEP"
  | .xce => "XCE"
  | .nop => "NOP"
  | .wdm _ => "WDM"
  | .stp => "STP"
  | .wai => "WAI"
  | .mvn _ _ => "MVN"
  | .mvp _ _ => "MVP"
  | .brk _ => "BRK"
  | .cop _ => "COP"
  | .rti => "RTI"

end Sys2Proof
end

