-- ==== Sys2Proof/Config.lean ====
section
/-! DEFINITION. What an implementation fixes (the parameters of spec/00_scope.md R6) and the free values: constants without
a body, so that a statement about them holds whatever they are. -/

namespace Sys2Proof

/-- The instruction classes of rule R405. They only select cycle adjustments. -/
inductive InstrClass where
  | arithmetic
  | bitwise
  | shift
  | load
  | store
  | compare
  | branch
  | push
  | pull
  | blockmove
  | incdec
  | bittest
  | longbranch
  | jump
  | transfer
  | flag
  | interrupt
  | misc
  deriving DecidableEq, Repr

/-- The parameters of rule R6 that are data, with the default of rule R6 as the field's default. The machine
holds them in its state and no step changes them (log 2), so that a statement about every state holds
for every configuration. DESIGN CHOICE: held in State; safe. -/
structure Cfg where
  /-- `WRAM_SIZE` is 131072 instead of 65536 (rule R62). -/
  wram128 : Bool := false
  /-- The PPU register block is a device other than the default latch array (rule R70, log 10). -/
  ppuExternal : Bool := false
  /-- `CartWrite` is another one than the default, which ignores writes (rule R72, log 11). -/
  cartWrites : Bool := false
  /-- The opcodes for which `Implemented` is false (rule R110); none by default. -/
  unimplemented : List Byte := []
  /-- `DEC_PENALTY_CLASSES` (rule R406, line g). -/
  decPenalty : List InstrClass := [.arithmetic]
  /-- `BaseCycles` (rule R404) as the list of the 256 counts; the default table where it is absent. -/
  baseCycles : Option (List Nat) := none
  deriving DecidableEq, Repr

namespace Config

/-- `DMA_STEP_CYCLES`, an OPEN parameter (rules R6, R361; log 9). -/
opaque dmaStepCycles : Nat

/-- `IDLE_STEP_CYCLES`, an OPEN parameter (rules R6, R381; log 9). -/
opaque idleStepCycles : Nat

/-- The free value `BCD16_V`: V after the executed 16-bit decimal ADC or SBC that is draw number `k`
(rule R165; log 7). -/
opaque bcd16V (k : Nat) : Bool

/-- The free value of `SL` after a reset that is draw number `k` (rules R460, R461; log 6). -/
opaque resetSL (k : Nat) : Byte

/-- `PpuDev.read(reg)` of a device other than the latch array, whose state is a number: the byte read and the
device's state after it (rule R70; log 10). -/
opaque ppuRead (dev : Nat) (reg : Byte) : Byte × Nat

/-- `PpuDev.peek(reg)` of such a device (rule R70; log 10). -/
opaque ppuPeek (dev : Nat) (reg : Byte) : Byte

/-- `PpuDev.write(reg, v)` of such a device (rule R70; log 10). -/
opaque ppuWrite (dev : Nat) (reg v : Byte) : Nat

/-- `PpuDev.tick(n)` of such a device (rules R70, R384; log 10). -/
opaque ppuTick (dev n : Nat) : Nat

/-- `CartWrite(address, v)` of a cartridge that does not ignore writes, whose own state is a number: its state after
the write, and the bytes its contents then have at the addresses listed (rules R72, R75; log 11). -/
opaque cartWrite (dev : Nat) (a : Addr) (v : Byte) : Nat × List (Addr × Byte)

end Config

end Sys2Proof
end

