-- ==== Sys2Proof/Machine/Map.lean ====
section
/-! DEFINITION. The memory map: the region of every address (spec/20_memory.md R61), and the one address that
stands for each stored byte, so that mirrors of a byte share it (R62, R63, R64, R68). -/

namespace Sys2Proof.Machine

/-- The five regions of rule R61. -/
inductive Region where
  | wram
  | ppu
  | cpu
  | joypad
  | cartridge
  deriving DecidableEq, Repr

/-- `map_address` of rule R61; `CPU_TOP` is 0x43FF (R64, conflict C2). -/
def mapAddress (a : Addr) : Region :=
  let bank := a.toNat / 0x10000
  let off := a.toNat % 0x10000
  if bank = 0x7E ∨ bank = 0x7F then .wram
  else if bank ≤ 0x3F ∨ (0x80 ≤ bank ∧ bank ≤ 0xBF) then
    if off ≤ 0x1FFF then .wram
    else if 0x2100 ≤ off ∧ off ≤ 0x21FF then .ppu
    else if off = 0x4016 ∨ off = 0x4017 then .joypad
    else if 0x4200 ≤ off ∧ off ≤ 0x43FF then .cpu
    else .cartridge
  else .cartridge

/-- `WRAM_SIZE` (rule R6). -/
def wramSize (cfg : Cfg) : Nat := if cfg.wram128 then 131072 else 65536

/-- `WramIndex` of rule R62. -/
def wramIndex (cfg : Cfg) (a : Addr) : Nat :=
  let bank := a.toNat / 0x10000
  let off := a.toNat % 0x10000
  if bank = 0x7E ∨ bank = 0x7F then ((bank - 0x7E) * 0x10000 + off) % wramSize cfg else off

/-- The address that stands for the byte behind `a` in the memory list: WRAM byte `i` is 0x7E0000 + i, a
register of a system bank is its bank 0x00 address, a cartridge byte is its own address (log 15). For an
address of the joypad ports, behind which no byte is stored, it is not used. -/
def storeKey (cfg : Cfg) (a : Addr) : Nat :=
  match mapAddress a with
  | .wram => 0x7E0000 + wramIndex cfg a
  | .ppu | .cpu | .joypad => a.toNat % 0x10000
  | .cartridge => a.toNat

/-- The PPU register number of an address of the PPU region (rule R63). -/
def ppuReg (a : Addr) : Byte := BitVec.ofNat 8 (a.toNat % 0x10000 - 0x2100)

/-- The address decodes to RDNMI, 0x4210 of the internal registers (rule R42). -/
def isRdnmi (a : Addr) : Bool := mapAddress a = .cpu && a.toNat % 0x10000 = 0x4210

/-- The address decodes to MDMAEN, 0x420B of the internal registers (rules R42, R352). -/
def isMdmaen (a : Addr) : Bool := mapAddress a = .cpu && a.toNat % 0x10000 = 0x420B

/-- The key of MDMAEN. -/
def mdmaenKey : Nat := 0x420B

/-- The key of HDMAEN. -/
def hdmaenKey : Nat := 0x420C

/-- The key of register `r` (0x0 to 0xF) of DMA channel `n`: 0x43n0 + r (rule R42). -/
def channelKey (n r : Nat) : Nat := 0x4300 + 0x10 * n + r

/-- The A-bus address of B-bus register `o`: 0x002100 + o (rules R60, R350). -/
def bBusAddr (o : Byte) : Addr := addrOf 0x00 (wordOf 0x21 o)

/-- The interrupt kinds of rule R424. -/
inductive Interrupt where
  | nmi
  | irq
  | brk
  | cop
  deriving DecidableEq, Repr

/-- `Vector(kind, E)`: the offsets of rule R84, in bank 0x00. -/
def vector : Interrupt → Bool → Word
  | .cop, false => 0xFFE4
  | .cop, true => 0xFFF4
  | .brk, false => 0xFFE6
  | .brk, true => 0xFFFE
  | .nmi, false => 0xFFEA
  | .nmi, true => 0xFFFA
  | .irq, false => 0xFFEE
  | .irq, true => 0xFFFE

/-- The reset vector's offset in bank 0x00 (rules R84, R460). -/
def resetVector : Word := 0xFFFC

end Sys2Proof.Machine
end

