-- ==== Sys2Proof/Machine/State.lean ====
section
/-! DEFINITION. The state of the machine as plain data (spec/10_state.md R20 to R47), its value after reset, and
the ways a step can stop. -/

namespace Sys2Proof.Machine

/-- The eight flags of the status byte, `c` the logical carry (rules R27, R30, R31). The byte an instruction
moves is `Status.byte` (R28). -/
structure Status where
  n : Bool
  v : Bool
  m : Bool
  x : Bool
  d : Bool
  i : Bool
  z : Bool
  c : Bool
  deriving DecidableEq, Repr

/-- The hidden selector: which logical flag status bit 0 currently represents (rule R30). -/
inductive Exposed where
  | selCarry
  | selEmu
  deriving DecidableEq, Repr

/-- The direction of a block move: +1 for MVN, -1 for MVP (rule R38). -/
inductive MoveDir where
  | up
  | down
  deriving DecidableEq, Repr

/-- The latch `mv` of rule R38, meaningful only while `moving` is set. -/
structure MoveLatch where
  src : Byte
  dst : Byte
  dir : MoveDir
  deriving DecidableEq, Repr

/-- `dir` of a DMA channel (rule R43). -/
inductive DmaDir where
  | aToB
  | bToA
  deriving DecidableEq, Repr

/-- `step` of a DMA channel (rule R43): what the A-bus address does after each byte. -/
inductive DmaStride where
  | increment
  | decrement
  | fixed
  deriving DecidableEq, Repr

/-- The six transfer formats of rule R353. -/
inductive DmaFormat where
  | oneByteOneRegister
  | twoBytesTwoRegisters
  | twoBytesOneRegister
  | fourBytesTwoRegisters
  | fourBytesFourRegisters
  | fourBytesTwoRegistersAlternating
  deriving DecidableEq, Repr

/-- The latch `ch[n]` of a DMA channel (rule R44). -/
structure Channel where
  active : Bool
  dir : DmaDir
  indirect : Bool
  stride : DmaStride
  format : DmaFormat
  aAddr : Addr
  bOff : Byte
  count : Word
  idx : Nat
  deriving DecidableEq, Repr

/-- A channel that is not active; its other fields are meaningless (rule R46). DESIGN CHOICE: the values
they hold (log 14); unsafe only for a claim that reads them. -/
def Channel.idle : Channel :=
  { active := false, dir := .aToB, indirect := false, stride := .increment,
    format := .oneByteOneRegister, aAddr := 0, bOff := 0, count := 0, idx := 0 }

/-- The environment inputs of one tick (rule R421). -/
structure Inputs where
  resetLine : Bool
  nmiEdge : Bool
  irqLine : Bool
  vblankStart : Bool
  deriving DecidableEq, Repr

/-- No input asserted. -/
def Inputs.quiet : Inputs :=
  { resetLine := false, nmiEdge := false, irqLine := false, vblankStart := false }

/-- Stored bytes: WRAM, the PPU latch array, the internal registers and the cartridge contents, each under
the key of `storeKey`. The canonical form is `Memory.wf` (Sys2Proof/Machine/Memory.lean). -/
abbrev Memory := List Host.Cell

/-- Everything the spec gives the machine. -/
structure State where
  /-- The accumulator (R21). -/
  a : Word
  /-- Index register X (R22). -/
  x : Word
  /-- Index register Y (R22). -/
  y : Word
  /-- The stack pointer `S` (R23). -/
  sp : Word
  /-- The direct-page register `D` (R24). -/
  d : Word
  /-- The program counter (R26). -/
  pc : Word
  /-- The program bank (R25). -/
  pbr : Byte
  /-- The data bank (R25). -/
  dbr : Byte
  /-- The flags (R27). -/
  p : Status
  /-- `emulation_mode` (R30). -/
  e : Bool
  /-- The exposed-bit selector (R30). -/
  sel : Exposed
  /-- Set by STP (R38). -/
  stopped : Bool
  /-- Set by WAI (R38). -/
  waiting : Bool
  /-- A block move is in progress (R38). -/
  moving : Bool
  /-- The block move's banks and direction (R38). -/
  mv : MoveLatch
  /-- The sticky fatal condition and its opcode (R10, R435; log 12). -/
  fatal : Option Byte
  /-- The cycle counter (R39). -/
  cycles : Nat
  /-- The latched NMI request (R40). -/
  nmiPending : Bool
  /-- Bit 7 of RDNMI (R40). -/
  nmiFlag : Bool
  /-- The DMA channel latches (R44). -/
  ch : Vector Channel 8
  /-- The stored bytes behind the bus (R41; log 15). -/
  mem : Memory
  /-- The state of a PPU device other than the latch array (R70; log 10), kept at a later reset (log 23). -/
  ppuExt : Nat
  /-- The state of a cartridge whose `CartWrite` is not the default, beside its contents (R72; log 11), kept at a
  later reset (log 23). -/
  cart : Nat
  /-- The parameters of rule R6 (log 2). -/
  cfg : Cfg
  /-- The environment inputs of the coming ticks, oldest first; none asserted once it is empty (R421; log 3). -/
  inputs : List Inputs
  /-- How many free values have been used (log 8); the model's own field. -/
  draws : Nat
  deriving DecidableEq, Repr

/-- Why the machine stops. -/
inductive Fault where
  /-- `Fatal(UnimplementedOpcode, op)` (rules R10, R110, R435): raised by a step that fetches an opcode outside
  `Implemented`, and by every step of a machine whose `fatal` is set. Safe: the spec's own outcome. -/
  | unimplementedOpcode (op : Byte)
  deriving DecidableEq, Repr

/-- Why an instruction has no meaning. -/
inductive Refusal where
  /-- The instruction of this mnemonic is not modelled yet. No arm answers so: every instruction has its
  meaning. Safe. -/
  | notModelled (mnemonic : String)
  deriving DecidableEq, Repr

/-- The machine after the power-on reset, in the default configuration (rules R46, R460, R461). The program
counter is what the default cartridge holds at the reset vector, 0xFFFF (R462). `A`, `XL`, `YL`, N, V, Z,
C are unspecified and here 0, `SL` is unspecified and here 0xFF. DESIGN CHOICE: those values (log 4);
unsafe for a claim about this state that reads them. -/
def State.reset : State :=
  { a := 0x0000, x := 0x0000, y := 0x0000, sp := 0x01FF, d := 0x0000, pc := 0xFFFF
    pbr := 0x00, dbr := 0x00
    p := { n := false, v := false, m := true, x := true, d := false, i := true, z := false, c := false }
    e := true, sel := .selCarry
    stopped := false, waiting := false, moving := false
    mv := { src := 0x00, dst := 0x00, dir := .up }
    fatal := none, cycles := 0, nmiPending := false, nmiFlag := false
    ch := Vector.replicate 8 Channel.idle
    mem := [], ppuExt := 0, cart := 0, cfg := {}, inputs := [], draws := 0 }

end Sys2Proof.Machine
end

