-- ==== Sys2Proof/Machine/Memory.lean ====
section
/-! DEFINITION. The stored bytes as a list of cells in one canonical form: addresses strictly rising, no cell
equal to what an unlisted address reads as. -/

namespace Sys2Proof.Machine

/-- What an unlisted byte reads as. A cartridge byte is 0xFF, the default `CartRead` (rules R6, R72). A byte of
WRAM, of the internal registers or of the PPU latch array is unspecified at power-on (R46) and here 0x00,
which for MDMAEN and HDMAEN is the spec's reset value. DESIGN CHOICE: 0x00 (log 5); unsafe for a claim
that reads a byte nothing has written. -/
def Memory.unlisted (k : Nat) : Byte :=
  if mapAddress (BitVec.ofNat 24 k) = .cartridge then 0xFF else 0x00

/-- The byte under key `k`. -/
def Memory.read : Memory → Nat → Byte
  | [], k => Memory.unlisted k
  | (a, b) :: t, k => if a = k then b else Memory.read t k

/-- `(k, v)` in front of `t`, left out when `v` is what an unlisted byte reads as. -/
def Memory.cons (k : Nat) (v : Byte) (t : Memory) : Memory :=
  if v = Memory.unlisted k then t else (k, v) :: t

/-- The list with `v` under key `k`. -/
def Memory.write : Memory → Nat → Byte → Memory
  | [], k, v => Memory.cons k v []
  | (a, b) :: t, k, v =>
    if k < a then Memory.cons k v ((a, b) :: t)
    else if k = a then Memory.cons k v t
    else (a, b) :: Memory.write t k v

/-- New contents of the cartridge at the addresses listed; an address that is not the cartridge's does not count. -/
def Memory.load (m : Memory) (l : List (Addr × Byte)) : Memory :=
  l.foldl (fun m p => if mapAddress p.1 = .cartridge then m.write p.1.toNat p.2 else m) m

/-- The canonical form. -/
abbrev Memory.wf (m : Memory) : Prop :=
  m.Pairwise (fun p q => p.1 < q.1) ∧ ∀ c ∈ m, c.2 ≠ Memory.unlisted c.1

end Sys2Proof.Machine
end

