-- ==== Sys2Proof/Machine/Bus.lean ====
section
/-! DEFINITION. The bus: reads and writes by region (spec/20_memory.md R74 to R76), the multi-byte accesses of
spec/00_scope.md R11, and the latching of DMA channels by a write to MDMAEN (spec/46_dma_controller.md R352). -/

namespace Sys2Proof.Machine

/-- The stored byte behind an address. -/
def State.stored (s : State) (a : Addr) : Byte := s.mem.read (storeKey s.cfg a)

/-- The byte of the internal registers or of WRAM under a key. -/
def State.ireg (s : State) (k : Nat) : Byte := s.mem.read k

/-- A direct update of a stored byte, no bus write and without side effect (rule R359). -/
def State.setIreg (s : State) (k : Nat) (v : Byte) : State := { s with mem := s.mem.write k v }

/-- What RDNMI reads as: `{nmi_flag, 0b0000010}` (rule R42). -/
def State.rdnmi (s : State) : Byte := if s.nmiFlag then 0x82 else 0x02

/-- `read_external` of rule R76, `MemPeek` of rule R11: the byte at an address, no state changed. -/
def State.peek (s : State) (a : Addr) : Byte :=
  match mapAddress a with
  | .joypad => 0x00
  | .ppu => if s.cfg.ppuExternal then Config.ppuPeek s.ppuExt (ppuReg a) else s.stored a
  | .cpu => if isRdnmi a then s.rdnmi else s.stored a
  | .wram | .cartridge => s.stored a

/-- `BusRead` of rule R74, the mutating read: a read of RDNMI clears `nmi_flag`, a read of a PPU device may
change it. -/
def busRead (a : Addr) (s : State) : Byte × State :=
  match mapAddress a with
  | .joypad => (0x00, s)
  | .ppu =>
    if s.cfg.ppuExternal then
      let r := Config.ppuRead s.ppuExt (ppuReg a)
      (r.1, { s with ppuExt := r.2 })
    else (s.stored a, s)
  | .cpu => if isRdnmi a then (s.rdnmi, { s with nmiFlag := false }) else (s.stored a, s)
  | .wram | .cartridge => (s.stored a, s)

/-- `FormatOf` of rule R353: the 3-bit mode field to the format. -/
def formatOfMode (mode : Nat) : DmaFormat :=
  match mode with
  | 0 => .oneByteOneRegister
  | 1 => .twoBytesTwoRegisters
  | 2 => .twoBytesOneRegister
  | 3 => .fourBytesTwoRegisters
  | 4 => .fourBytesFourRegisters
  | 5 => .fourBytesTwoRegistersAlternating
  | 6 => .twoBytesOneRegister
  | _ => .fourBytesTwoRegisters

/-- The `step` field, bits 4:3 of DMAPn (rules R43, R352). -/
def strideOf (p : Byte) : DmaStride :=
  if p.extractLsb' 3 2 = 0b00#2 then .increment
  else if p.extractLsb' 3 2 = 0b10#2 then .decrement
  else .fixed

/-- The latch of channel `n`, fresh from its registers (rule R352). -/
def State.latchChannel (s : State) (n : Nat) : Channel :=
  let p := s.ireg (channelKey n 0x0)
  { active := true
    dir := if p.getLsbD 7 then .bToA else .aToB
    indirect := p.getLsbD 6
    stride := strideOf p
    format := formatOfMode (p.extractLsb' 0 3).toNat
    aAddr := addrOf (s.ireg (channelKey n 0x4)) (wordOf (s.ireg (channelKey n 0x3)) (s.ireg (channelKey n 0x2)))
    bOff := s.ireg (channelKey n 0x1)
    count := wordOf (s.ireg (channelKey n 0x6)) (s.ireg (channelKey n 0x5))
    idx := 0 }

/-- `DmaStart(v)` of rule R352: the channels of the set bits are latched, the others become inactive. -/
def dmaStart (v : Byte) (s : State) : State :=
  { s with
    ch := Vector.ofFn fun n : Fin 8 =>
      if v.getLsbD n.val then s.latchChannel n.val else { s.ch[n] with active := false } }

/-- `CartWrite(address, v)` of rule R72: ignored by the default cartridge; another one changes its own state and its
contents. -/
def cartWrite (a : Addr) (v : Byte) (s : State) : State :=
  if s.cfg.cartWrites then
    let r := Config.cartWrite s.cart a v
    { s with cart := r.1, mem := s.mem.load r.2 }
  else s

/-- The bus write less the start of DMA: `DmaWriteA` of rule R359. Writes to the joypad ports and to RDNMI are ignored
(R65, R42). -/
def storeByte (a : Addr) (v : Byte) (s : State) : State :=
  match mapAddress a with
  | .joypad => s
  | .ppu =>
    if s.cfg.ppuExternal then { s with ppuExt := Config.ppuWrite s.ppuExt (ppuReg a) v }
    else { s with mem := s.mem.write (storeKey s.cfg a) v }
  | .cpu => if isRdnmi a then s else { s with mem := s.mem.write (storeKey s.cfg a) v }
  | .wram => { s with mem := s.mem.write (storeKey s.cfg a) v }
  | .cartridge => cartWrite a v s

/-- `BusWrite` of rule R75: a write to MDMAEN also starts DMA. -/
def busWrite (a : Addr) (v : Byte) (s : State) : State :=
  let t := storeByte a v s
  if isMdmaen a then dmaStart v t else t

/-- `MemReadW(bank, off, 2)`: low byte first, the offset wraps inside the bank (rule R11). -/
def readWordW (bank : Byte) (off : Word) (s : State) : Word × State :=
  let lo := busRead (addrOf bank off) s
  let hi := busRead (addrOf bank (off + 1)) lo.2
  (wordOf hi.1 lo.1, hi.2)

/-- `MemReadW(bank, off, 3)`. -/
def readLongW (bank : Byte) (off : Word) (s : State) : Addr × State :=
  let lo := readWordW bank off s
  let hi := busRead (addrOf bank (off + 2)) lo.2
  (addrOf hi.1 lo.1, hi.2)

end Sys2Proof.Machine
end

