-- ==== Sys2Proof/Machine/Flags.lean ====
section
/-! DEFINITION. The arithmetic-logic unit, generic over the operand width and side-effect-free
(spec/41_alu.md R160 to R172), and the status byte as a byte (spec/10_state.md R28). -/

namespace Sys2Proof.Machine

/-- A result and the flags C, V, N, Z. -/
structure AddOut (w : Nat) where
  r : BitVec w
  c : Bool
  v : Bool
  n : Bool
  z : Bool
  deriving DecidableEq, Repr

/-- A result and the flags C, N, Z. -/
structure ShiftOut (w : Nat) where
  r : BitVec w
  c : Bool
  n : Bool
  z : Bool
  deriving DecidableEq, Repr

/-- `adc_bin` of rule R161. -/
def adcBin {w : Nat} (a v : BitVec w) (c : Bool) : AddOut w :=
  let s := a.toNat + v.toNat + one c
  let r := BitVec.ofNat w s
  { r := r, c := decide (2 ^ w ≤ s), v := (a.msb == v.msb) && (r.msb != a.msb), n := r.msb, z := r == 0 }

/-- `sbc_bin` of rule R162: the addition of the one's complement, the carry meaning no borrow. -/
def sbcBin {w : Nat} (a v : BitVec w) (c : Bool) : AddOut w := adcBin a (~~~v) c

/-- What a decimal digit loop gives: the result, the carry out of the top digit, and the top digit before its
correction (`top_raw` of rules R163, R164). -/
structure DigitsOut where
  r : Nat
  carry : Nat
  topRaw : Nat
  deriving DecidableEq, Repr

/-- The loop of rule R163 over `n` digits, low digit first: a digit sum above 9 is corrected by 6. -/
def addDigits : (n a v carry : Nat) → DigitsOut
  | 0, _, _, carry => { r := 0, carry := carry, topRaw := 0 }
  | n + 1, a, v, carry =>
    let t := a % 16 + v % 16 + carry
    let u := if 9 < t then t + 6 else t
    let rest := addDigits n (a / 16) (v / 16) (if 15 < u then 1 else 0)
    { r := u % 16 + 16 * rest.r, carry := rest.carry, topRaw := if n = 0 then t % 16 else rest.topRaw }

/-- The loop of rule R164 over `n` digits; `v` is the complement of the operand: a digit that produced no
carry is corrected by -6. -/
def subDigits : (n a v carry : Nat) → DigitsOut
  | 0, _, _, carry => { r := 0, carry := carry, topRaw := 0 }
  | n + 1, a, v, carry =>
    let t := a % 16 + v % 16 + carry
    let digit := if 15 < t then t - 16 else (t + 10) % 16
    let rest := subDigits n (a / 16) (v / 16) (if 15 < t then 1 else 0)
    { r := digit + 16 * rest.r, carry := rest.carry, topRaw := if n = 0 then t % 16 else rest.topRaw }

/-- The flags of a decimal operation on `a` and `u` (rules R163 to R165). V is the one of the uncorrected top
digit; for a 16-bit operation the instruction replaces it by the free value `BCD16_V`. -/
def decimalOut {w : Nat} (a u : BitVec w) (o : DigitsOut) : AddOut w :=
  let r := BitVec.ofNat w o.r
  { r := r, c := o.carry == 1, v := (a.msb == u.msb) && (o.topRaw.testBit 3 != a.msb), n := r.msb, z := r == 0 }

/-- `adc_bcd` of rule R163, total on operands that are not decimal numbers (R166). -/
def adcBcd {w : Nat} (a v : BitVec w) (c : Bool) : AddOut w :=
  decimalOut a v (addDigits (w / 4) a.toNat v.toNat (one c))

/-- `sbc_bcd` of rule R164. -/
def sbcBcd {w : Nat} (a v : BitVec w) (c : Bool) : AddOut w :=
  decimalOut a (~~~v) (subDigits (w / 4) a.toNat (~~~v).toNat (one c))

/-- `asl` of rule R168. -/
def asl {w : Nat} (v : BitVec w) : ShiftOut w :=
  let r := v <<< 1
  { r := r, c := v.msb, n := r.msb, z := r == 0 }

/-- `lsr` of rule R169. -/
def lsr {w : Nat} (v : BitVec w) : ShiftOut w :=
  let r := v >>> 1
  { r := r, c := v.getLsbD 0, n := r.msb, z := r == 0 }

/-- `rol` of rule R170: the carry-in enters at bit 0. -/
def rol {w : Nat} (v : BitVec w) (c : Bool) : ShiftOut w :=
  let r := (v <<< 1) ||| BitVec.ofNat w (one c)
  { r := r, c := v.msb, n := r.msb, z := r == 0 }

/-- `ror` of rule R171: the carry-in enters at the top bit. -/
def ror {w : Nat} (v : BitVec w) (c : Bool) : ShiftOut w :=
  let r := (v >>> 1) ||| (BitVec.ofNat w (one c) <<< (w - 1))
  { r := r, c := v.getLsbD 0, n := r.msb, z := r == 0 }

/-- `cmp` of rule R172: the difference and C, N, Z. -/
def cmpAlu {w : Nat} (reg v : BitVec w) : ShiftOut w :=
  let d := reg - v
  { r := d, c := decide (v.toNat ≤ reg.toNat), n := d.msb, z := d == 0 }

/-- `SetNZ(v, w)` of rule R11 on the flags. -/
def Status.setNZ {w : Nat} (p : Status) (v : BitVec w) : Status := { p with n := v.msb, z := v == 0 }

/-- C, N and Z from a shift, a rotate or a compare. -/
def Status.setCNZ {w : Nat} (p : Status) (o : ShiftOut w) : Status := { p with c := o.c, n := o.n, z := o.z }

/-- `Pbyte()` of rule R28: bit 0 is the logical carry. -/
def Status.byte (p : Status) : Byte :=
  BitVec.ofBool p.n ++ BitVec.ofBool p.v ++ BitVec.ofBool p.m ++ BitVec.ofBool p.x
    ++ BitVec.ofBool p.d ++ BitVec.ofBool p.i ++ BitVec.ofBool p.z ++ BitVec.ofBool p.c

/-- The flags of a status byte (the assignments of `SetPbyte`, rule R28). -/
def Status.ofByte (v : Byte) : Status :=
  { n := v.getLsbD 7, v := v.getLsbD 6, m := v.getLsbD 5, x := v.getLsbD 4
    d := v.getLsbD 3, i := v.getLsbD 2, z := v.getLsbD 1, c := v.getLsbD 0 }

end Sys2Proof.Machine
end

