-- ==== Sys2Proof/Machine/Ops.lean ====
section
/-! DEFINITION. The named operations on registers, flags and the stack, taking an interrupt and returning from one,
and reset (spec/10_state.md R21 to R37, spec/45 R300 to R304, spec/60 R424 and R432, spec/70 R460). -/

namespace Sys2Proof.Machine

/-! Widths and registers. -/

/-- `wM` of rule R33. -/
def State.wM (s : State) : Width := if s.e || s.p.m then .w8 else .w16

/-- `wX` of rule R33. -/
def State.wX (s : State) : Width := if s.e || s.p.x then .w8 else .w16

/-- Both widths. -/
def State.widths (s : State) : Widths := ⟨s.wM, s.wX⟩

/-- The accumulator as an operand of width `W` (R21). -/
def State.acc (s : State) (W : Width) : BitVec W.bits := W.take s.a

/-- X as an operand of width `W` (R22). -/
def State.xOp (s : State) (W : Width) : BitVec W.bits := W.take s.x

/-- Y as an operand of width `W` (R22). -/
def State.yOp (s : State) (W : Width) : BitVec W.bits := W.take s.y

/-- The write of the accumulator: `AL` only, or all of it (R21, R35). -/
def State.setAcc (s : State) (W : Width) (v : BitVec W.bits) : State := { s with a := W.put s.a v }

/-- The write of X (R22, R35). -/
def State.setX (s : State) (W : Width) (v : BitVec W.bits) : State := { s with x := W.put s.x v }

/-- The write of Y (R22, R35). -/
def State.setY (s : State) (W : Width) (v : BitVec W.bits) : State := { s with y := W.put s.y v }

/-- `SetNZ` of rule R11 on the state. -/
def State.setNZ {w : Nat} (s : State) (v : BitVec w) : State := { s with p := s.p.setNZ v }

/-- `FixWidths` of rule R34. -/
def fixWidths (s : State) : State :=
  let t := if s.e then { s with p := { s.p with m := true, x := true }, sp := setHigh s.sp 0x01 } else s
  if t.p.x then { t with x := setHigh t.x 0x00, y := setHigh t.y 0x00 } else t

/-- `SetPbyte` of rule R28, ending with `FixWidths`. -/
def setPbyte (v : Byte) (s : State) : State := fixWidths { s with p := Status.ofByte v }

/-- `FixSH` of rule R304. -/
def fixSH (s : State) : State := if s.e then { s with sp := setHigh s.sp 0x01 } else s

/-- `exchange_carry_and_emulation` of rule R32: the logical flags trade values, the selector toggles. -/
def exchangeCarryAndEmulation (s : State) : State :=
  { s with
    p := { s.p with c := s.e }
    e := s.p.c
    sel := match s.sel with
      | .selCarry => .selEmu
      | .selEmu => .selCarry }

/-- `get_pc_address()` displaced by `i`: the address of byte `i` of the instruction at `PC` (R26, R100). -/
def State.pcAddr (s : State) (i : Nat) : Addr := addrOf s.pbr (s.pc + BitVec.ofNat 16 i)

/-- `n` cycles spent: the counter grows and the PPU is told (R39, R384). -/
def spend (n : Nat) (s : State) : State :=
  { s with
    cycles := s.cycles + n
    ppuExt := if s.cfg.ppuExternal then Config.ppuTick s.ppuExt n else s.ppuExt }

/-! The stack. -/

/-- The address of the stack's next free byte (R23). -/
def State.stackAddr (s : State) : Addr := addrOf 0x00 s.sp

/-- `S - 1`, inside page 1 in emulation mode (R300). -/
def State.spDown (s : State) : Word := if s.e then setLow s.sp (lowByte s.sp - 1) else s.sp - 1

/-- `S + 1`, inside page 1 in emulation mode (R301). -/
def State.spUp (s : State) : Word := if s.e then setLow s.sp (lowByte s.sp + 1) else s.sp + 1

/-- `Push8` of rule R300. -/
def push8 (v : Byte) (s : State) : State :=
  let t := busWrite s.stackAddr v s
  { t with sp := t.spDown }

/-- `Push16` of rule R300: the high byte first. -/
def push16 (v : Word) (s : State) : State := push8 (lowByte v) (push8 (highByte v) s)

/-- `Pull8` of rule R301. -/
def pull8 (s : State) : Byte × State :=
  let t := { s with sp := s.spUp }
  busRead t.stackAddr t

/-- `Pull16` of rule R301: the low byte first. -/
def pull16 (s : State) : Word × State :=
  let lo := pull8 s
  let hi := pull8 lo.2
  (wordOf hi.1 lo.1, hi.2)

/-- `Push8N` of rule R302: the stack pointer as 16 bits in either mode. -/
def push8N (v : Byte) (s : State) : State :=
  let t := busWrite s.stackAddr v s
  { t with sp := t.sp - 1 }

/-- `Push16N` of rule R302. -/
def push16N (v : Word) (s : State) : State := push8N (lowByte v) (push8N (highByte v) s)

/-- `Pull8N` of rule R303. -/
def pull8N (s : State) : Byte × State :=
  let t := { s with sp := s.sp + 1 }
  busRead t.stackAddr t

/-- `Pull16N` of rule R303. -/
def pull16N (s : State) : Word × State :=
  let lo := pull8N s
  let hi := pull8N lo.2
  (wordOf hi.1 lo.1, hi.2)

/-- The push of an operand of width `W` (rules R305 to R307). -/
def pushW : (W : Width) → BitVec W.bits → State → State
  | .w8, v, s => push8 v s
  | .w16, v, s => push16 v s

/-- The pull of an operand of width `W` (rules R312 to R314). -/
def pullW : (W : Width) → State → BitVec W.bits × State
  | .w8, s => pull8 s
  | .w16, s => pull16 s

/-! Taking an interrupt and returning from one. -/

/-- The return address an interrupt saves: past the signature byte for BRK and COP (rule R424). -/
def returnAddress (kind : Interrupt) (s : State) : Word :=
  match kind with
  | .brk | .cop => s.pc + 2
  | .nmi | .irq => s.pc

/-- The status byte an interrupt saves: the break bit is clear for a hardware interrupt in emulation mode
(rule R424). -/
def savedStatus (kind : Interrupt) (s : State) : Byte :=
  match kind with
  | .brk | .cop => s.p.byte
  | .nmi | .irq => if s.e then s.p.byte &&& 0xEF else s.p.byte

/-- `InterruptEntry(kind)` of rule R424, less its cycle count: what is pushed, the flags I and D, the program
bank, and the handler's address from the vector of the mode the machine is in. -/
def interruptEntry (kind : Interrupt) (s : State) : State :=
  let s1 := if s.e then s else push8 s.pbr s
  let s2 := push8 (savedStatus kind s) (push16 (returnAddress kind s) s1)
  let s3 := { s2 with p := { s2.p with i := true, d := false }, pbr := 0x00 }
  let target := readWordW 0x00 (vector kind s.e) s3
  { target.2 with pc := target.1 }

/-- The cycles of an interrupt entry that is no instruction (rule R408). -/
def interruptCycles (s : State) : Nat := if s.e then 7 else 8

/-- The return from an interrupt (rule R432), less its cycle count. -/
def interruptReturn (s : State) : State :=
  let st := pull8 s
  let s1 := setPbyte st.1 st.2
  let target := pull16 s1
  let s2 := { target.2 with pc := target.1 }
  if s.e then s2
  else
    let bank := pull8 s2
    { bank.2 with pbr := bank.1 }

/-! Reset. -/

/-- Every channel made inactive, the rest of its latch kept (R460, R461). -/
def stopChannels (ch : Vector Channel 8) : Vector Channel 8 :=
  Vector.ofFn fun n : Fin 8 => { ch[n] with active := false }

/-- `Reset()` of rule R460 for the tick in which `ResetLine` is asserted. What the rule does not write is kept
(R461); `SL` is a fresh free value (log 6). DESIGN CHOICE: the PPU device, the latch array's bytes with it, and a
cartridge's own state are kept at a later reset too (log 23); unsafe, since R46 gives the device its own reset state. -/
def resetProcedure (s : State) : State :=
  let t := { s with
    e := true, sel := .selCarry
    p := { s.p with m := true, x := true, i := true, d := false }
    x := setHigh s.x 0x00, y := setHigh s.y 0x00
    sp := wordOf 0x01 (Config.resetSL s.draws), draws := s.draws + 1
    d := 0x0000, dbr := 0x00, pbr := 0x00
    stopped := false, waiting := false, moving := false
    nmiPending := false, nmiFlag := false
    ch := stopChannels s.ch
    mem := (s.mem.write mdmaenKey 0x00).write hdmaenKey 0x00
    cycles := 0 }
  let target := readWordW 0x00 resetVector t
  { target.2 with pc := target.1 }

end Sys2Proof.Machine
end

