-- ==== Sys2Proof/Machine/Operands.lean ====
section
/-! DEFINITION. The addressing-mode resolver and the caller's access at the resolved address
(spec/40_addressing_modes.md R130 to R155). -/

namespace Sys2Proof.Machine

/-- `DPaddr(o, legacy)` of rule R133, as an address of bank 0. -/
def dpAddr (s : State) (o : Nat) (legacy : Bool) : Addr :=
  if legacy && s.e && lowByte s.d == 0x00 then addrOf 0x00 (wordOf (highByte s.d) (BitVec.ofNat 8 o))
  else addrOf 0x00 (s.d + BitVec.ofNat 16 o)

/-- A 2-byte pointer in the direct page, low byte read first (rules R143, R145, R319). -/
def dpPointer (o : Nat) (legacy : Bool) (s : State) : Word × State :=
  let lo := busRead (dpAddr s o legacy) s
  let hi := busRead (dpAddr s (o + 1) legacy) lo.2
  (wordOf hi.1 lo.1, hi.2)

/-- A 3-byte pointer in the direct page, low byte read first (rule R144). -/
def dpPointerLong (o : Nat) (s : State) : Addr × State :=
  let lo := dpPointer o false s
  let hi := busRead (dpAddr s (o + 2) false) lo.2
  (addrOf hi.1 lo.1, hi.2)

/-- The address of a stack-relative byte: bank 0, wrapping at 16 bits (rule R148). -/
def srAddr (s : State) (o : Nat) : Addr := addrOf 0x00 (s.sp + BitVec.ofNat 16 o)

/-- `PageCross` of rule R153 for the 16-bit base and index. -/
def pageCross (base index : Word) : Bool := highByte (base + index) != highByte base

/-- What resolving an operand gives: `DataAddr(0)`, `DataAddr(1)` (rule R131), `PageCross` (R153) and the
state after the pointer reads. -/
structure Resolved where
  addr0 : Addr
  addr1 : Addr
  cross : Bool
  st : State

/-- An operand whose second byte is at the next address of the 24-bit space (the linear accesses of rule R82). -/
def linear (ea : Addr) (cross : Bool) (s : State) : Resolved :=
  { addr0 := ea, addr1 := ea + 1, cross := cross, st := s }

/-- The effective address of each memory form, one line a rule (R136 to R149). The index registers are added
as 16-bit unsigned numbers (R132). -/
def resolve (m : Mem) (s : State) : Resolved :=
  match m with
  | .abs a => linear (addrOf s.dbr a) false s
  | .absX a => linear (addrOf s.dbr a + s.x.setWidth 24) (pageCross a s.x) s
  | .absY a => linear (addrOf s.dbr a + s.y.setWidth 24) (pageCross a s.y) s
  | .long al => linear al false s
  | .longX al => linear (al + s.x.setWidth 24) false s
  | .dp d => { addr0 := dpAddr s d.toNat true, addr1 := dpAddr s (d.toNat + 1) true, cross := false, st := s }
  | .dpX d =>
    { addr0 := dpAddr s (d.toNat + s.x.toNat) true, addr1 := dpAddr s (d.toNat + s.x.toNat + 1) true
      cross := false, st := s }
  | .dpY d =>
    { addr0 := dpAddr s (d.toNat + s.y.toNat) true, addr1 := dpAddr s (d.toNat + s.y.toNat + 1) true
      cross := false, st := s }
  | .dpInd d =>
    let ptr := dpPointer d.toNat true s
    linear (addrOf s.dbr ptr.1) false ptr.2
  | .dpIndLong d =>
    let ptr := dpPointerLong d.toNat s
    linear ptr.1 false ptr.2
  | .dpXInd d =>
    let ptr := dpPointer (d.toNat + s.x.toNat) true s
    linear (addrOf s.dbr ptr.1) false ptr.2
  | .dpIndY d =>
    let ptr := dpPointer d.toNat true s
    linear (addrOf s.dbr ptr.1 + s.y.setWidth 24) (pageCross ptr.1 s.y) ptr.2
  | .dpIndLongY d =>
    let ptr := dpPointerLong d.toNat s
    linear (ptr.1 + s.y.setWidth 24) false ptr.2
  | .sr r => { addr0 := srAddr s r.toNat, addr1 := srAddr s (r.toNat + 1), cross := false, st := s }
  | .srIndY r =>
    let ptr := readWordW 0x00 (s.sp + r.setWidth 16) s
    linear (addrOf s.dbr ptr.1 + s.y.setWidth 24) false ptr.2

/-- `ReadData(mode, w)` of rule R155 at a resolved address: the low byte first. -/
def readData (W : Width) (r : Resolved) (s : State) : BitVec W.bits × State :=
  let lo := busRead r.addr0 s
  match W with
  | .w8 => (lo.1, lo.2)
  | .w16 =>
    let hi := busRead r.addr1 lo.2
    (wordOf hi.1 lo.1, hi.2)

/-- `WriteData(mode, w, v)` of rule R155: the low byte first. -/
def writeData (W : Width) (r : Resolved) (v : BitVec W.bits) (s : State) : State :=
  let t := busWrite r.addr0 (W.byte0 v) s
  if W = .w8 then t else busWrite r.addr1 (W.byte1 v) t

/-- The write-back of a read-modify-write instruction: the high byte first (rules R80, R230). -/
def writeBack (W : Width) (r : Resolved) (v : BitVec W.bits) (s : State) : State :=
  busWrite r.addr0 (W.byte0 v) (if W = .w8 then s else busWrite r.addr1 (W.byte1 v) s)

/-- A read operand of width `W` and what reading it leaves. -/
structure Fetched (W : Width) where
  val : BitVec W.bits
  cross : Bool
  st : State

/-- The read of a source operand: an immediate is the operand bytes already fetched (rule R135), a memory
form is resolved and read. -/
def readSrc (src : Src) (W : Width) (s : State) : Fetched W :=
  match src with
  | .imm v => { val := W.take v, cross := false, st := s }
  | .mem m =>
    let r := resolve m s
    let d := readData W r r.st
    { val := d.1, cross := r.cross, st := d.2 }

end Sys2Proof.Machine
end

