-- ==== Sys2Proof/Machine/Cycles.lean ====
section
/-! DEFINITION. The cycle accountant (spec/47_sequencer_and_cycles.md R400 to R409). Timing only: nothing else
reads a cycle count (R470). -/

namespace Sys2Proof.Machine

/-- The default `BaseCycles` of rule R404, sixteen opcodes a row; the table is the spec's own choice (D36). -/
def baseCyclesTable : List (List Nat) :=
  [ [7, 6, 7, 4, 5, 3, 5, 6, 3, 2, 2, 4, 6, 4, 6, 5],
    [2, 5, 5, 7, 5, 4, 6, 6, 2, 4, 2, 2, 6, 4, 7, 5],
    [6, 6, 8, 4, 3, 3, 5, 6, 4, 2, 2, 5, 4, 4, 6, 5],
    [2, 5, 5, 7, 4, 4, 6, 6, 2, 4, 2, 2, 4, 4, 7, 5],
    [6, 6, 2, 4, 7, 3, 5, 6, 3, 2, 2, 3, 3, 4, 6, 5],
    [2, 5, 5, 7, 7, 4, 6, 6, 2, 4, 3, 2, 4, 4, 7, 5],
    [6, 6, 6, 4, 3, 3, 5, 6, 4, 2, 2, 6, 5, 4, 6, 5],
    [2, 5, 5, 7, 4, 4, 6, 6, 2, 4, 4, 2, 6, 4, 7, 5],
    [3, 6, 4, 4, 3, 3, 3, 6, 2, 2, 2, 3, 4, 4, 4, 5],
    [2, 6, 5, 7, 4, 4, 4, 6, 2, 5, 2, 2, 4, 5, 5, 5],
    [2, 6, 2, 4, 3, 3, 3, 6, 2, 2, 2, 4, 4, 4, 4, 5],
    [2, 5, 5, 7, 4, 4, 4, 6, 2, 4, 2, 2, 4, 4, 4, 5],
    [2, 6, 3, 4, 3, 3, 5, 6, 2, 2, 2, 3, 4, 4, 6, 5],
    [2, 5, 5, 7, 6, 4, 6, 6, 2, 4, 3, 3, 6, 4, 7, 5],
    [2, 6, 3, 4, 3, 3, 5, 6, 2, 2, 2, 3, 4, 4, 6, 5],
    [2, 5, 5, 7, 5, 4, 6, 6, 2, 4, 4, 2, 8, 4, 7, 5] ]

/-- `BaseCycles(op)`, a parameter of rule R6 (log 16). -/
def baseCycles (cfg : Cfg) (op : Byte) : Nat :=
  match cfg.baseCycles with
  | some l => l.getD op.toNat 0
  | none => (baseCyclesTable.getD (op.toNat / 16) []).getD (op.toNat % 16) 0

/-- The class of an instruction (rule R405, field `class` of spec/opcode_table.json). -/
def instrClass : Instr → InstrClass
  | .adc _ | .sbc _ => .arithmetic
  | .ora _ | .and _ | .eor _ => .bitwise
  | .asl _ | .rol _ | .lsr _ | .ror _ => .shift
  | .ldy _ | .lda _ | .ldx _ => .load
  | .stz _ | .sta _ | .sty _ | .stx _ => .store
  | .cpy _ | .cmp _ | .cpx _ => .compare
  | .bpl _ | .bmi _ | .bvc _ | .bvs _ | .bra _ | .bcc _ | .bcs _ | .bne _ | .beq _ => .branch
  | .php | .phd | .pha | .phk | .phy | .per _ | .phb | .pei _ | .phx | .pea _ => .push
  | .plp | .pld | .pla | .ply | .plb | .plx => .pull
  | .mvp _ _ | .mvn _ _ => .blockmove
  | .inc _ | .dec _ | .dey | .iny | .dex | .inx => .incdec
  | .tsb _ | .trb _ | .bit _ => .bittest
  | .brl _ => .longbranch
  | .jsr _ | .jsl _ | .jmp _ | .jml _ | .rts | .rtl => .jump
  | .tcs | .tsc | .tcd | .tdc | .txa | .tya | .txs | .txy | .tay | .tax | .tsx | .tyx | .xba => .transfer
  | .clc | .sec | .cli | .sei | .clv | .rep _ | .cld | .sep _ | .sed | .xce => .flag
  | .brk _ | .cop _ | .rti => .interrupt
  | .wdm _ | .wai | .stp | .nop => .misc

/-- The mode touches the direct page (rule R406, line e). -/
def touchesDirectPage : Mem → Bool
  | .dp _ | .dpX _ | .dpY _ | .dpInd _ | .dpIndLong _ | .dpXInd _ | .dpIndY _ | .dpIndLongY _ => true
  | .abs _ | .absX _ | .absY _ | .long _ | .longX _ | .sr _ | .srIndY _ => false

/-- The memory operand of an instruction, if it has one. -/
def memOperand : Instr → Option Mem
  | .lda (.mem m) | .ldx (.mem m) | .ldy (.mem m) | .adc (.mem m) | .sbc (.mem m) | .and (.mem m)
  | .ora (.mem m) | .eor (.mem m) | .cmp (.mem m) | .cpx (.mem m) | .cpy (.mem m) | .bit (.mem m) => some m
  | .sta m | .stx m | .sty m | .stz m | .tsb m | .trb m => some m
  | .inc (.mem m) | .dec (.mem m) | .asl (.mem m) | .lsr (.mem m) | .rol (.mem m) | .ror (.mem m) => some m
  | _ => none

/-- What an instruction found out while it ran: `PageCross` (R153), whether a branch was taken, and
`BranchPageCross` (R270). -/
structure CycleInfo where
  pageCross : Bool := false
  taken : Bool := false
  branchCross : Bool := false
  deriving DecidableEq, Repr

/-! The lines of the table of rule R406, each read off the register file as it stands when the instruction
starts (R400). -/

/-- Line a: a 16-bit immediate. -/
def lineA (i : Instr) (s : State) : Nat :=
  match i with
  | .adc (.imm _) | .sbc (.imm _) | .and (.imm _) | .ora (.imm _) | .eor (.imm _) | .cmp (.imm _)
  | .bit (.imm _) | .lda (.imm _) => one (s.wM = .w16)
  | .ldx (.imm _) | .ldy (.imm _) | .cpx (.imm _) | .cpy (.imm _) => one (s.wX = .w16)
  | _ => 0

/-- Line b: a 16-bit accumulator operand in memory. -/
def lineB (i : Instr) (s : State) : Nat :=
  match i with
  | .adc (.mem _) | .sbc (.mem _) | .and (.mem _) | .ora (.mem _) | .eor (.mem _) | .cmp (.mem _)
  | .bit (.mem _) | .lda (.mem _) | .sta _ | .stz _ => one (s.wM = .w16)
  | _ => 0

/-- Line c: a 16-bit index operand in memory. -/
def lineC (i : Instr) (s : State) : Nat :=
  match i with
  | .ldx (.mem _) | .ldy (.mem _) | .stx _ | .sty _ | .cpx (.mem _) | .cpy (.mem _) => one (s.wX = .w16)
  | _ => 0

/-- Line d: a 16-bit operand that is read, modified and written in memory. -/
def lineD (i : Instr) (s : State) : Nat :=
  match i with
  | .asl (.mem _) | .lsr (.mem _) | .rol (.mem _) | .ror (.mem _) | .inc (.mem _) | .dec (.mem _)
  | .tsb _ | .trb _ => 2 * one (s.wM = .w16)
  | _ => 0

/-- Line e: the direct page with `DL` not 0. -/
def lineE (i : Instr) (s : State) : Nat :=
  match i with
  | .pei _ => one (lowByte s.d != 0x00)
  | _ => one ((memOperand i).any touchesDirectPage && lowByte s.d != 0x00)

/-- Line f: a read with mode `a,X`, `a,Y` or `(d),Y` that crosses a page or has 16-bit index registers. -/
def lineF (i : Instr) (info : CycleInfo) (s : State) : Nat :=
  match i with
  | .adc (.mem m) | .sbc (.mem m) | .and (.mem m) | .ora (.mem m) | .eor (.mem m) | .cmp (.mem m)
  | .bit (.mem m) | .lda (.mem m) | .ldx (.mem m) | .ldy (.mem m) =>
    match m with
    | .absX _ | .absY _ | .dpIndY _ => one (info.pageCross || s.wX = .w16)
    | _ => 0
  | _ => 0

/-- Line g: decimal mode, for the classes of `DEC_PENALTY_CLASSES`. DEDUCED: every form of such a class pays, the
accumulator forms too (log 21). -/
def lineG (i : Instr) (s : State) : Nat := one (s.p.d && s.cfg.decPenalty.contains (instrClass i))

/-- Line h: PHA and PLA of 16 bits. -/
def lineH (i : Instr) (s : State) : Nat :=
  match i with
  | .pha | .pla => one (s.wM = .w16)
  | _ => 0

/-- Line i: pushes and pulls of 16-bit index registers. -/
def lineI (i : Instr) (s : State) : Nat :=
  match i with
  | .phx | .phy | .plx | .ply => one (s.wX = .w16)
  | _ => 0

/-- Line j: BRK, COP and RTI in native mode. -/
def lineJ (i : Instr) (s : State) : Nat :=
  match i with
  | .brk _ | .cop _ | .rti => one (!s.e)
  | _ => 0

/-- Line k: a conditional branch that is taken. -/
def lineK (i : Instr) (info : CycleInfo) : Nat :=
  match i with
  | .bcc _ | .bcs _ | .beq _ | .bne _ | .bmi _ | .bpl _ | .bvc _ | .bvs _ => one info.taken
  | _ => 0

/-- Line l: a taken branch to another page, in both modes (conflict C9). -/
def lineL (i : Instr) (info : CycleInfo) : Nat :=
  match i with
  | .bcc _ | .bcs _ | .beq _ | .bne _ | .bmi _ | .bpl _ | .bvc _ | .bvs _ | .bra _ => one info.branchCross
  | _ => 0

/-- `Cycles(op)` of rule R400: the base count and every adjustment that applies. -/
def cyclesOf (i : Instr) (info : CycleInfo) (s : State) : Nat :=
  (match i.opcode with
    | some op => baseCycles s.cfg op
    | none => 0)
  + lineA i s + lineB i s + lineC i s + lineD i s + lineE i s + lineF i info s + lineG i s
  + lineH i s + lineI i s + lineJ i s + lineK i info + lineL i info

/-- The cycles of one byte of the block move in progress: the base count of its opcode, 54 or 44, with no adjustment,
which is 7 in the default table (rules R337, R404). -/
def moveCycles (s : State) : Nat :=
  match s.mv.dir with
  | .up => baseCycles s.cfg 0x54
  | .down => baseCycles s.cfg 0x44

/-- The end of an instruction that started in `s0` and has had its other effects in `s`: it advances `PC` by its length
(R26, R103) and reports its cycles (R108, step 8). -/
def finish (i : Instr) (info : CycleInfo) (s0 s : State) : State :=
  spend (cyclesOf i info s0) { s with pc := s0.pc + BitVec.ofNat 16 (i.length s0.widths) }

/-- The end of a control transfer, which has set `PC` itself. -/
def report (i : Instr) (info : CycleInfo) (s0 s : State) : State := spend (cyclesOf i info s0) s

end Sys2Proof.Machine
end

