-- ==== Sys2Proof/Machine/Arith.lean ====
section
/-! DEFINITION. Arithmetic, logic, compare, bit test, increment, shift and test-and-set instructions
(spec/43_arithmetic_logic.md R230 to R251). -/

namespace Sys2Proof.Machine

/-! Add and subtract (R231, R232). -/

/-- V after ADC or SBC: the ALU's, but the free value `BCD16_V` after a 16-bit decimal operation (rule R165,
log 7). -/
def addOverflow (W : Width) (v : Bool) (s : State) : Bool :=
  if s.p.d && W = .w16 then Config.bcd16V s.draws else v

/-- The accumulator, the flags N, V, Z, C and the count of free values after ADC or SBC of width `W` that
started in `s` and has read its operand in `t`. -/
def applyAdd (W : Width) (o : AddOut W.bits) (s t : State) : State :=
  { t.setAcc W o.r with
    p := { s.p with n := o.n, v := addOverflow W o.v s, z := o.z, c := o.c }
    draws := if s.p.d && W = .w16 then s.draws + 1 else s.draws }

/-- ADC, rule R231: binary or decimal by `P.D`. -/
def execAdc (src : Src) (s : State) : Host.Outcome State Fault Refusal :=
  let r := readSrc src s.wM s
  let o := if s.p.d then adcBcd (s.acc s.wM) r.val s.p.c else adcBin (s.acc s.wM) r.val s.p.c
  .next (finish (.adc src) { pageCross := r.cross } s (applyAdd s.wM o s r.st))

/-- SBC, rule R232: binary or decimal by `P.D`. -/
def execSbc (src : Src) (s : State) : Host.Outcome State Fault Refusal :=
  let r := readSrc src s.wM s
  let o := if s.p.d then sbcBcd (s.acc s.wM) r.val s.p.c else sbcBin (s.acc s.wM) r.val s.p.c
  .next (finish (.sbc src) { pageCross := r.cross } s (applyAdd s.wM o s r.st))

/-! Bitwise (R233 to R235). -/

/-- Shape (a) of rule R230 for a bitwise operation `f`. -/
def logic (i : Instr) (src : Src) (W : Width) (f : BitVec W.bits → BitVec W.bits → BitVec W.bits) (s : State) :
    State :=
  let r := readSrc src W s
  let v := f (s.acc W) r.val
  finish i { pageCross := r.cross } s ((r.st.setAcc W v).setNZ v)

/-- AND, rule R233. -/
def execAnd (src : Src) (s : State) : Host.Outcome State Fault Refusal :=
  .next (logic (.and src) src s.wM (· &&& ·) s)

/-- ORA, rule R234. -/
def execOra (src : Src) (s : State) : Host.Outcome State Fault Refusal :=
  .next (logic (.ora src) src s.wM (· ||| ·) s)

/-- EOR, rule R235. -/
def execEor (src : Src) (s : State) : Host.Outcome State Fault Refusal :=
  .next (logic (.eor src) src s.wM (· ^^^ ·) s)

/-! Compare (R236 to R238): always binary, the result discarded. -/

/-- The compare of a register operand of width `W` with a source operand. -/
def compareSource (i : Instr) (src : Src) (W : Width) (reg : BitVec W.bits) (s : State) : State :=
  let r := readSrc src W s
  finish i { pageCross := r.cross } s { r.st with p := s.p.setCNZ (cmpAlu reg r.val) }

/-- CMP, rule R236. -/
def execCmp (src : Src) (s : State) : Host.Outcome State Fault Refusal :=
  .next (compareSource (.cmp src) src s.wM (s.acc s.wM) s)

/-- CPX, rule R237. -/
def execCpx (src : Src) (s : State) : Host.Outcome State Fault Refusal :=
  .next (compareSource (.cpx src) src s.wX (s.xOp s.wX) s)

/-- CPY, rule R238. -/
def execCpy (src : Src) (s : State) : Host.Outcome State Fault Refusal :=
  .next (compareSource (.cpy src) src s.wX (s.yOp s.wX) s)

/-! Bit test (R239). -/

/-- The flags after BIT of accumulator `a` and operand `m` of `w` bits: Z from the AND; N and V from the
operand's two top bits unless it is immediate. -/
def bitFlags {w : Nat} (immediate : Bool) (a m : BitVec w) (p : Status) : Status :=
  { p with
    z := a &&& m == 0
    n := if immediate then p.n else m.getLsbD (w - 1)
    v := if immediate then p.v else m.getLsbD (w - 2) }

/-- The operand is an immediate. -/
def isImmediate : Src → Bool
  | .imm _ => true
  | .mem _ => false

/-- BIT, rule R239. -/
def execBit (src : Src) (s : State) : Host.Outcome State Fault Refusal :=
  let r := readSrc src s.wM s
  .next (finish (.bit src) { pageCross := r.cross } s
    { r.st with p := bitFlags (isImmediate src) (s.acc s.wM) r.val s.p })

/-! Read-modify-write (R240, R241, R246 to R251): shape (c) of rule R230. -/

/-- Read the target, write `f` of it back, the flags being `g` of the value read; the effective address is
resolved once, and a memory result is written high byte first. -/
def modifyTarget (i : Instr) (tgt : Tgt) (W : Width) (f : BitVec W.bits → BitVec W.bits)
    (g : BitVec W.bits → Status → Status) (s : State) : State :=
  match tgt with
  | .acc =>
    let m := s.acc W
    finish i {} s { s.setAcc W (f m) with p := g m s.p }
  | .mem a =>
    let r := resolve a s
    let m := readData W r r.st
    finish i {} s { writeBack W r (f m.1) m.2 with p := g m.1 s.p }

/-- INC, rule R240. -/
def execInc (tgt : Tgt) (s : State) : Host.Outcome State Fault Refusal :=
  .next (modifyTarget (.inc tgt) tgt s.wM (· + 1) (fun m p => p.setNZ (m + 1)) s)

/-- DEC, rule R241. -/
def execDec (tgt : Tgt) (s : State) : Host.Outcome State Fault Refusal :=
  .next (modifyTarget (.dec tgt) tgt s.wM (· - 1) (fun m p => p.setNZ (m - 1)) s)

/-- ASL, rule R246. -/
def execAsl (tgt : Tgt) (s : State) : Host.Outcome State Fault Refusal :=
  .next (modifyTarget (.asl tgt) tgt s.wM (fun m => (asl m).r) (fun m p => p.setCNZ (asl m)) s)

/-- LSR, rule R247. -/
def execLsr (tgt : Tgt) (s : State) : Host.Outcome State Fault Refusal :=
  .next (modifyTarget (.lsr tgt) tgt s.wM (fun m => (lsr m).r) (fun m p => p.setCNZ (lsr m)) s)

/-- ROL, rule R248. -/
def execRol (tgt : Tgt) (s : State) : Host.Outcome State Fault Refusal :=
  .next (modifyTarget (.rol tgt) tgt s.wM (fun m => (rol m s.p.c).r) (fun m p => p.setCNZ (rol m s.p.c)) s)

/-- ROR, rule R249. -/
def execRor (tgt : Tgt) (s : State) : Host.Outcome State Fault Refusal :=
  .next (modifyTarget (.ror tgt) tgt s.wM (fun m => (ror m s.p.c).r) (fun m p => p.setCNZ (ror m s.p.c)) s)

/-- TSB, rule R250: Z tests the old memory value. -/
def execTsb (m : Mem) (s : State) : Host.Outcome State Fault Refusal :=
  .next (modifyTarget (.tsb m) (.mem m) s.wM (· ||| s.acc s.wM)
    (fun v p => { p with z := s.acc s.wM &&& v == 0 }) s)

/-- TRB, rule R251: Z tests the old memory value. -/
def execTrb (m : Mem) (s : State) : Host.Outcome State Fault Refusal :=
  .next (modifyTarget (.trb m) (.mem m) s.wM (· &&& ~~~(s.acc s.wM))
    (fun v p => { p with z := s.acc s.wM &&& v == 0 }) s)

/-! Index increment and decrement (R242 to R245). -/

/-- INX, rule R242. -/
def execInx (s : State) : Host.Outcome State Fault Refusal :=
  .next (finish .inx {} s ((s.setX s.wX (s.xOp s.wX + 1)).setNZ (s.xOp s.wX + 1)))

/-- INY, rule R243. -/
def execIny (s : State) : Host.Outcome State Fault Refusal :=
  .next (finish .iny {} s ((s.setY s.wX (s.yOp s.wX + 1)).setNZ (s.yOp s.wX + 1)))

/-- DEX, rule R244. -/
def execDex (s : State) : Host.Outcome State Fault Refusal :=
  .next (finish .dex {} s ((s.setX s.wX (s.xOp s.wX - 1)).setNZ (s.xOp s.wX - 1)))

/-- DEY, rule R245. -/
def execDey (s : State) : Host.Outcome State Fault Refusal :=
  .next (finish .dey {} s ((s.setY s.wX (s.yOp s.wX - 1)).setNZ (s.yOp s.wX - 1)))

end Sys2Proof.Machine
end

