-- ==== Sys2Proof/Machine/Control.lean ====
section
/-! DEFINITION. Branches, jumps, subroutine calls and returns (spec/44_control_transfer.md R270 to R286). Each
sets `PC` itself. -/

namespace Sys2Proof.Machine

/-! Branches (R270 to R280). -/

/-- The address of the instruction after a REL8 branch. -/
def nextPc2 (s : State) : Word := s.pc + 2

/-- The REL8 target of rule R270. -/
def relTarget (rel : Byte) (s : State) : Word := nextPc2 s + sext8 rel

/-- A REL8 branch whose condition is `taken` (rule R270). -/
def branch (i : Instr) (taken : Bool) (rel : Byte) (s : State) : State :=
  report i
    { taken := taken, branchCross := taken && highByte (relTarget rel s) != highByte (nextPc2 s) } s
    { s with pc := if taken then relTarget rel s else nextPc2 s }

/-- BCC, rule R271. -/
def execBcc (rel : Byte) (s : State) : Host.Outcome State Fault Refusal := .next (branch (.bcc rel) (!s.p.c) rel s)

/-- BCS, rule R272. -/
def execBcs (rel : Byte) (s : State) : Host.Outcome State Fault Refusal := .next (branch (.bcs rel) s.p.c rel s)

/-- BEQ, rule R273. -/
def execBeq (rel : Byte) (s : State) : Host.Outcome State Fault Refusal := .next (branch (.beq rel) s.p.z rel s)

/-- BNE, rule R274. -/
def execBne (rel : Byte) (s : State) : Host.Outcome State Fault Refusal := .next (branch (.bne rel) (!s.p.z) rel s)

/-- BMI, rule R275. -/
def execBmi (rel : Byte) (s : State) : Host.Outcome State Fault Refusal := .next (branch (.bmi rel) s.p.n rel s)

/-- BPL, rule R276. -/
def execBpl (rel : Byte) (s : State) : Host.Outcome State Fault Refusal := .next (branch (.bpl rel) (!s.p.n) rel s)

/-- BVC, rule R277. -/
def execBvc (rel : Byte) (s : State) : Host.Outcome State Fault Refusal := .next (branch (.bvc rel) (!s.p.v) rel s)

/-- BVS, rule R278. -/
def execBvs (rel : Byte) (s : State) : Host.Outcome State Fault Refusal := .next (branch (.bvs rel) s.p.v rel s)

/-- BRA, rule R279. -/
def execBra (rel : Byte) (s : State) : Host.Outcome State Fault Refusal := .next (branch (.bra rel) true rel s)

/-- The REL16 target of rule R270, relative to the address after the 3-byte instruction. -/
def relTarget16 (rel : Word) (s : State) : Word := s.pc + 3 + rel

/-- BRL, rule R280. -/
def execBrl (rel : Word) (s : State) : Host.Outcome State Fault Refusal :=
  .next (report (.brl rel) {} s { s with pc := relTarget16 rel s })

/-! Jumps (R281, R282). -/

/-- The 16-bit target of JMP (rules R150, R152, R281): the pointer of `(a)` is in bank 0, that of `(a,X)` in the
program bank. -/
def jumpTarget (t : JumpTarget) (s : State) : Word × State :=
  match t with
  | .abs a => (a, s)
  | .ind a => readWordW 0x00 a s
  | .indX a => readWordW s.pbr (a + s.x) s

/-- JMP, rule R281: the program bank is unchanged. -/
def execJmp (t : JumpTarget) (s : State) : Host.Outcome State Fault Refusal :=
  let r := jumpTarget t s
  .next (report (.jmp t) {} s { r.2 with pc := r.1 })

/-- The 24-bit target of JML (rules R151, R282): the pointer of `[a]` is in bank 0. -/
def longTarget (t : LongTarget) (s : State) : Addr × State :=
  match t with
  | .long al => (al, s)
  | .indLong a => readLongW 0x00 a s

/-- JML, rule R282. -/
def execJml (t : LongTarget) (s : State) : Host.Outcome State Fault Refusal :=
  let r := longTarget t s
  .next (report (.jml t) {} s { r.2 with pc := offsetOf r.1, pbr := bankOf r.1 })

/-! Calls (R283, R284): what is pushed is the address of the last byte of the instruction (conflict C6). -/

/-- JSR, rule R283: opcode 20 pushes by the legacy rule; opcode FC by the new-style rule, before it reads its
pointer, and restores `SH` at its end. -/
def call (t : CallTarget) (s : State) : State :=
  match t with
  | .abs a => { push16 (s.pc + 2) s with pc := a }
  | .indX a =>
    let r := readWordW s.pbr (a + s.x) (push16N (s.pc + 2) s)
    fixSH { r.2 with pc := r.1 }

/-- JSR, rule R283. -/
def execJsr (t : CallTarget) (s : State) : Host.Outcome State Fault Refusal :=
  .next (report (.jsr t) {} s (call t s))

/-- JSL, rule R284. -/
def execJsl (al : Addr) (s : State) : Host.Outcome State Fault Refusal :=
  .next (report (.jsl al) {} s
    (fixSH { push16N (s.pc + 3) (push8N s.pbr s) with pc := offsetOf al, pbr := bankOf al }))

/-! Returns (R285, R286). -/

/-- RTS, rule R285. -/
def execRts (s : State) : Host.Outcome State Fault Refusal :=
  let r := pull16 s
  .next (report .rts {} s { r.2 with pc := r.1 + 1 })

/-- RTL, rule R286: the addition does not carry into the bank. -/
def execRtl (s : State) : Host.Outcome State Fault Refusal :=
  let r := pull16N s
  let b := pull8N { r.2 with pc := r.1 + 1 }
  .next (report .rtl {} s (fixSH { b.2 with pbr := b.1 }))

end Sys2Proof.Machine
end

