-- ==== Sys2Proof/Machine/Exceptions.lean ====
section
/-! DEFINITION. The software interrupts and the return from interrupt (spec/60_exceptions.md R430 to R432), over
the shared entry and return of Sys2Proof/Machine/Ops.lean. -/

namespace Sys2Proof.Machine

/-- BRK, rule R430. -/
def execBrk (sig : Byte) (s : State) : Host.Outcome State Fault Refusal :=
  .next (report (.brk sig) {} s (interruptEntry .brk s))

/-- COP, rule R431. -/
def execCop (sig : Byte) (s : State) : Host.Outcome State Fault Refusal :=
  .next (report (.cop sig) {} s (interruptEntry .cop s))

/-- RTI, rule R432. -/
def execRti (s : State) : Host.Outcome State Fault Refusal := .next (report .rti {} s (interruptReturn s))

end Sys2Proof.Machine
end

