-- ==== Sys2Proof/Machine/LoadStore.lean ====
section
/-! DEFINITION. Loads, stores and register transfers (spec/42_load_store_transfer.md R190 to R211). -/

namespace Sys2Proof.Machine

/-! Loads (R192 to R194). -/

/-- LDA, rule R192. -/
def execLda (src : Src) (s : State) : Host.Outcome State Fault Refusal :=
  let r := readSrc src s.wM s
  .next (finish (.lda src) { pageCross := r.cross } s ((r.st.setAcc s.wM r.val).setNZ r.val))

/-- LDX, rule R193. -/
def execLdx (src : Src) (s : State) : Host.Outcome State Fault Refusal :=
  let r := readSrc src s.wX s
  .next (finish (.ldx src) { pageCross := r.cross } s ((r.st.setX s.wX r.val).setNZ r.val))

/-- LDY, rule R194. -/
def execLdy (src : Src) (s : State) : Host.Outcome State Fault Refusal :=
  let r := readSrc src s.wX s
  .next (finish (.ldy src) { pageCross := r.cross } s ((r.st.setY s.wX r.val).setNZ r.val))

/-! Stores (R195 to R198). -/

/-- The store of an operand of width `W` through a memory form. -/
def storeMem (i : Instr) (m : Mem) (W : Width) (v : BitVec W.bits) (s : State) : State :=
  let r := resolve m s
  finish i {} s (writeData W r v r.st)

/-- STA, rule R195. -/
def execSta (m : Mem) (s : State) : Host.Outcome State Fault Refusal :=
  .next (storeMem (.sta m) m s.wM (s.acc s.wM) s)

/-- STX, rule R196. -/
def execStx (m : Mem) (s : State) : Host.Outcome State Fault Refusal :=
  .next (storeMem (.stx m) m s.wX (s.xOp s.wX) s)

/-- STY, rule R197. -/
def execSty (m : Mem) (s : State) : Host.Outcome State Fault Refusal :=
  .next (storeMem (.sty m) m s.wX (s.yOp s.wX) s)

/-- STZ, rule R198. -/
def execStz (m : Mem) (s : State) : Host.Outcome State Fault Refusal :=
  .next (storeMem (.stz m) m s.wM 0 s)

/-! Transfers between A, X and Y (R199 to R204): the width is the destination's. -/

/-- TAX, rule R199. -/
def execTax (s : State) : Host.Outcome State Fault Refusal :=
  .next (finish .tax {} s ((s.setX s.wX (s.acc s.wX)).setNZ (s.acc s.wX)))

/-- TAY, rule R200. -/
def execTay (s : State) : Host.Outcome State Fault Refusal :=
  .next (finish .tay {} s ((s.setY s.wX (s.acc s.wX)).setNZ (s.acc s.wX)))

/-- TXA, rule R201. -/
def execTxa (s : State) : Host.Outcome State Fault Refusal :=
  .next (finish .txa {} s ((s.setAcc s.wM (s.xOp s.wM)).setNZ (s.xOp s.wM)))

/-- TYA, rule R202. -/
def execTya (s : State) : Host.Outcome State Fault Refusal :=
  .next (finish .tya {} s ((s.setAcc s.wM (s.yOp s.wM)).setNZ (s.yOp s.wM)))

/-- TXY, rule R203. -/
def execTxy (s : State) : Host.Outcome State Fault Refusal :=
  .next (finish .txy {} s ((s.setY s.wX (s.xOp s.wX)).setNZ (s.xOp s.wX)))

/-- TYX, rule R204. -/
def execTyx (s : State) : Host.Outcome State Fault Refusal :=
  .next (finish .tyx {} s ((s.setX s.wX (s.yOp s.wX)).setNZ (s.yOp s.wX)))

/-! Transfers with S and D (R205 to R210). -/

/-- TSX, rule R205. -/
def execTsx (s : State) : Host.Outcome State Fault Refusal :=
  .next (finish .tsx {} s ((s.setX s.wX (s.wX.take s.sp)).setNZ (s.wX.take s.sp)))

/-- TXS, rule R206: no flag is written; `SH` stays in emulation mode. -/
def execTxs (s : State) : Host.Outcome State Fault Refusal :=
  .next (finish .txs {} s { s with sp := if s.e then setLow s.sp (lowByte s.x) else s.x })

/-- TCD, rule R207: always 16 bits. -/
def execTcd (s : State) : Host.Outcome State Fault Refusal :=
  .next (finish .tcd {} s ({ s with d := s.a }.setNZ s.a))

/-- TDC, rule R208: always 16 bits. -/
def execTdc (s : State) : Host.Outcome State Fault Refusal :=
  .next (finish .tdc {} s ({ s with a := s.d }.setNZ s.d))

/-- TCS, rule R209: no flag is written; `SH` stays in emulation mode. -/
def execTcs (s : State) : Host.Outcome State Fault Refusal :=
  .next (finish .tcs {} s { s with sp := if s.e then setLow s.sp (lowByte s.a) else s.a })

/-- TSC, rule R210: always 16 bits. -/
def execTsc (s : State) : Host.Outcome State Fault Refusal :=
  .next (finish .tsc {} s ({ s with a := s.sp }.setNZ s.sp))

/-- XBA, rule R211: the flags are those of the new low byte, whatever the width. -/
def execXba (s : State) : Host.Outcome State Fault Refusal :=
  .next (finish .xba {} s ({ s with a := wordOf (lowByte s.a) (highByte s.a) }.setNZ (highByte s.a)))

end Sys2Proof.Machine
end

