-- ==== Sys2Proof/Machine/Stack.lean ====
section
/-! DEFINITION. Pushes, pulls and push-effective-address instructions (spec/45_stack_status_system.md R305 to
R320). -/

namespace Sys2Proof.Machine

/-! Pushes (R305 to R311). -/

/-- PHA, rule R305. -/
def execPha (s : State) : Host.Outcome State Fault Refusal := .next (finish .pha {} s (pushW s.wM (s.acc s.wM) s))

/-- PHX, rule R306. -/
def execPhx (s : State) : Host.Outcome State Fault Refusal := .next (finish .phx {} s (pushW s.wX (s.xOp s.wX) s))

/-- PHY, rule R307. -/
def execPhy (s : State) : Host.Outcome State Fault Refusal := .next (finish .phy {} s (pushW s.wX (s.yOp s.wX) s))

/-- PHP, rule R308: bit 0 of the byte is the logical carry. -/
def execPhp (s : State) : Host.Outcome State Fault Refusal := .next (finish .php {} s (push8 s.p.byte s))

/-- PHB, rule R309. -/
def execPhb (s : State) : Host.Outcome State Fault Refusal := .next (finish .phb {} s (push8 s.dbr s))

/-- PHD, rule R310: new-style. -/
def execPhd (s : State) : Host.Outcome State Fault Refusal := .next (finish .phd {} s (fixSH (push16N s.d s)))

/-- PHK, rule R311. -/
def execPhk (s : State) : Host.Outcome State Fault Refusal := .next (finish .phk {} s (push8 s.pbr s))

/-! Pulls (R312 to R317). -/

/-- PLA, rule R312. -/
def execPla (s : State) : Host.Outcome State Fault Refusal :=
  let r := pullW s.wM s
  .next (finish .pla {} s ((r.2.setAcc s.wM r.1).setNZ r.1))

/-- PLX, rule R313. -/
def execPlx (s : State) : Host.Outcome State Fault Refusal :=
  let r := pullW s.wX s
  .next (finish .plx {} s ((r.2.setX s.wX r.1).setNZ r.1))

/-- PLY, rule R314. -/
def execPly (s : State) : Host.Outcome State Fault Refusal :=
  let r := pullW s.wX s
  .next (finish .ply {} s ((r.2.setY s.wX r.1).setNZ r.1))

/-- PLP, rule R315: the widths follow, and take effect from the next instruction. -/
def execPlp (s : State) : Host.Outcome State Fault Refusal :=
  let r := pull8 s
  .next (finish .plp {} s (setPbyte r.1 r.2))

/-- PLB, rule R316: new-style. -/
def execPlb (s : State) : Host.Outcome State Fault Refusal :=
  let r := pull8N s
  .next (finish .plb {} s (fixSH ({ r.2 with dbr := r.1 }.setNZ r.1)))

/-- PLD, rule R317: new-style. -/
def execPld (s : State) : Host.Outcome State Fault Refusal :=
  let r := pull16N s
  .next (finish .pld {} s (fixSH ({ r.2 with d := r.1 }.setNZ r.1)))

/-! Push effective address (R318 to R320): new-style, always 16 bits. -/

/-- PEA, rule R318. -/
def execPea (imm : Word) (s : State) : Host.Outcome State Fault Refusal :=
  .next (finish (.pea imm) {} s (fixSH (push16N imm s)))

/-- PEI, rule R319: the pointer found in the direct page, read without the emulation page wrap. -/
def execPei (d : Byte) (s : State) : Host.Outcome State Fault Refusal :=
  let r := dpPointer d.toNat false s
  .next (finish (.pei d) {} s (fixSH (push16N r.1 r.2)))

/-- PER, rule R320. -/
def execPer (rel : Word) (s : State) : Host.Outcome State Fault Refusal :=
  .next (finish (.per rel) {} s (fixSH (push16N (s.pc + 3 + rel) s)))

end Sys2Proof.Machine
end

