-- ==== Sys2Proof/Machine/System.lean ====
section
/-! DEFINITION. Flag, mode, no-operation, stop, wait and block-move instructions
(spec/45_stack_status_system.md R321 to R337). -/

namespace Sys2Proof.Machine

/-! Single flags (R321 to R327): the carry is the logical one. -/

/-- An instruction whose only effect is on the flags, without the width fix-up. -/
def setFlags (i : Instr) (p : Status) (s : State) : State := finish i {} s { s with p := p }

/-- CLC, rule R321. -/
def execClc (s : State) : Host.Outcome State Fault Refusal := .next (setFlags .clc { s.p with c := false } s)

/-- SEC, rule R322. -/
def execSec (s : State) : Host.Outcome State Fault Refusal := .next (setFlags .sec { s.p with c := true } s)

/-- CLI, rule R323. -/
def execCli (s : State) : Host.Outcome State Fault Refusal := .next (setFlags .cli { s.p with i := false } s)

/-- SEI, rule R324. -/
def execSei (s : State) : Host.Outcome State Fault Refusal := .next (setFlags .sei { s.p with i := true } s)

/-- CLD, rule R325. -/
def execCld (s : State) : Host.Outcome State Fault Refusal := .next (setFlags .cld { s.p with d := false } s)

/-- SED, rule R326. -/
def execSed (s : State) : Host.Outcome State Fault Refusal := .next (setFlags .sed { s.p with d := true } s)

/-- CLV, rule R327. -/
def execClv (s : State) : Host.Outcome State Fault Refusal := .next (setFlags .clv { s.p with v := false } s)

/-! Several flags and the mode (R328 to R330). -/

/-- REP, rule R328: `reset_rep_byte` of rule R37. -/
def execRep (mask : Byte) (s : State) : Host.Outcome State Fault Refusal :=
  .next (finish (.rep mask) {} s (setPbyte (s.p.byte &&& ~~~mask) s))

/-- SEP, rule R329: `set_sep_byte` of rule R37. -/
def execSep (mask : Byte) (s : State) : Host.Outcome State Fault Refusal :=
  .next (finish (.sep mask) {} s (setPbyte (s.p.byte ||| mask) s))

/-- XCE, rule R330. -/
def execXce (s : State) : Host.Outcome State Fault Refusal :=
  .next (finish .xce {} s (fixWidths (exchangeCarryAndEmulation s)))

/-! No-operations, stop and wait (R331 to R334). -/

/-- NOP, rule R331. -/
def execNop (s : State) : Host.Outcome State Fault Refusal := .next (finish .nop {} s s)

/-- WDM, rule R332: the second byte is ignored. -/
def execWdm (sig : Byte) (s : State) : Host.Outcome State Fault Refusal := .next (finish (.wdm sig) {} s s)

/-- STP, rule R333. -/
def execStp (s : State) : Host.Outcome State Fault Refusal := .next (finish .stp {} s { s with stopped := true })

/-- WAI, rule R334. -/
def execWai (s : State) : Host.Outcome State Fault Refusal := .next (finish .wai {} s { s with waiting := true })

/-! Block moves (R335 to R337). -/

/-- An index register moved one step in the block move's direction, in its current width (rule R337). -/
def stepIndex (W : Width) (dir : MoveDir) (v : Word) : Word :=
  match dir with
  | .up => W.put v (W.take v + 1)
  | .down => W.put v (W.take v - 1)

/-- `MoveStep()` of rule R337, less its cycle count: one byte through the bus, the index registers, the 16-bit
count, and the end of the move. -/
def moveStep (s : State) : State :=
  let r := busRead (addrOf s.mv.src s.x) s
  let t := busWrite (addrOf s.mv.dst s.y) r.1 r.2
  let u := { t with
    x := stepIndex s.wX s.mv.dir s.x
    y := stepIndex s.wX s.mv.dir s.y
    a := s.a - 1 }
  if u.a = 0xFFFF then { u with moving := false, pc := s.pc + 3 } else u

/-- The latch of a block move and its first byte, in the instruction's own tick (rules R335, R336). -/
def startMove (dir : MoveDir) (dst src : Byte) (s : State) : State :=
  let t := { s with mv := { src := src, dst := dst, dir := dir }, moving := true, dbr := dst }
  spend (moveCycles t) (moveStep t)

/-- MVN, rule R335. -/
def execMvn (dst src : Byte) (s : State) : Host.Outcome State Fault Refusal := .next (startMove .up dst src s)

/-- MVP, rule R336. -/
def execMvp (dst src : Byte) (s : State) : Host.Outcome State Fault Refusal := .next (startMove .down dst src s)

end Sys2Proof.Machine
end

