-- ==== Sys2Proof/Machine/Dma.lean ====
section
/-! DEFINITION. The DMA channel controller's step (spec/46_dma_controller.md R351 to R360). -/

namespace Sys2Proof.Machine

/-- The lowest-numbered active channel (rule R354). -/
def State.servedChannel (s : State) : Option (Fin 8) :=
  [(0 : Fin 8), 1, 2, 3, 4, 5, 6, 7].find? fun n => s.ch[n].active

/-- `DmaActive()` of rule R351. -/
def State.dmaActive (s : State) : Bool := s.servedChannel.isSome

/-- The pattern of offsets of a format (rule R353). -/
def DmaFormat.pattern : DmaFormat → List Byte
  | .oneByteOneRegister => [0]
  | .twoBytesTwoRegisters => [0, 1]
  | .twoBytesOneRegister => [0, 0]
  | .fourBytesTwoRegisters => [0, 0, 1, 1]
  | .fourBytesFourRegisters => [0, 1, 2, 3]
  | .fourBytesTwoRegistersAlternating => [0, 1, 0, 1]

/-- The B-bus register of the channel's next byte (rules R353, R355). -/
def Channel.bReg (c : Channel) : Byte := c.bOff + c.format.pattern.getD c.idx 0

/-- The A-bus offset after a byte: it wraps inside its bank (rule R356). -/
def Channel.nextOffset (c : Channel) : Word :=
  match c.stride with
  | .increment => offsetOf c.aAddr + 1
  | .decrement => offsetOf c.aAddr - 1
  | .fixed => offsetOf c.aAddr

/-- The channel after one byte (rule R355): the counter is decremented, then tested (R358). -/
def Channel.advance (c : Channel) : Channel :=
  { c with
    count := c.count - 1
    idx := (c.idx + 1) % c.format.pattern.length
    aAddr := addrOf (bankOf c.aAddr) c.nextOffset
    active := c.count - 1 != 0 }

/-- The byte transfer of rule R355, both accesses with their side effects; a write to the A-bus does not start
DMA (R359). -/
def transferByte (c : Channel) (s : State) : State :=
  match c.dir with
  | .aToB =>
    let r := busRead c.aAddr s
    busWrite (bBusAddr c.bReg) r.1 r.2
  | .bToA =>
    let r := busRead (bBusAddr c.bReg) s
    storeByte c.aAddr r.1 r.2

/-- The write-back of a channel's address and counter to its registers, a direct update (rules R355, R359). -/
def writeBackChannel (n : Nat) (c : Channel) (s : State) : State :=
  (((s.setIreg (channelKey n 0x2) (lowByte (offsetOf c.aAddr))).setIreg (channelKey n 0x3)
    (highByte (offsetOf c.aAddr))).setIreg (channelKey n 0x5) (lowByte c.count)).setIreg
    (channelKey n 0x6) (highByte c.count)

/-- The step of channel `n` (rule R355), with the clearing of MDMAEN when it was the last (R360). -/
def stepChannel (n : Fin 8) (s : State) : State :=
  let c := s.ch[n].advance
  let t := transferByte s.ch[n] s
  let u := writeBackChannel n.val c { t with ch := t.ch.set n.val c n.isLt }
  if u.dmaActive then u else u.setIreg mdmaenKey 0x00

/-- `DmaStep()` of rule R355; nothing when no channel is active. -/
def dmaStep (s : State) : State :=
  match s.servedChannel with
  | some n => stepChannel n s
  | none => s

end Sys2Proof.Machine
end

