-- ==== Sys2Proof/Machine/Sequencer.lean ====
section
/-! DEFINITION. The tick-loop sequencer (spec/47_sequencer_and_cycles.md R380 to R384, spec/60_exceptions.md R421
to R426) and the placing of an instruction where the next tick fetches it. -/

namespace Sys2Proof.Machine

/-! Fetch (R100, R108 step 1, R382): every byte by the mutating bus read, in ascending order, once. -/

/-- Operand bytes `i`, `i + 1`, … of the instruction at `PC`, `k` of them. -/
def fetchOperands : (k i : Nat) → State → List Byte × State
  | 0, _, s => ([], s)
  | k + 1, i, s =>
    let b := busRead (s.pcAddr i) s
    let rest := fetchOperands k (i + 1) b.2
    (b.1 :: rest.1, rest.2)

/-- The opcode fetch. -/
def fetchOpcode (s : State) : Byte × State := busRead (s.pcAddr 0) s

/-- The instruction of opcode `op`, its operand bytes fetched in a state whose opcode fetch is done. -/
def fetchInstr (op : Byte) (s : State) : Instr × State :=
  let b := fetchOperands (opLength s.widths op - 1) 1 s
  (decodeOp op (b.1.getD 0 0) (b.1.getD 1 0) (b.1.getD 2 0), b.2)

/-- `Implemented(op)` (R110). -/
def State.implements (s : State) (op : Byte) : Bool := !s.cfg.unimplemented.contains op

/-- The unit of work of a tick that executes one instruction: fetch, dispatch, execute; an opcode outside
`Implemented` is the fatal condition, with no other change (R110, R435). -/
def runInstruction (s : State) : Host.Outcome State Fault Refusal :=
  let f := fetchOpcode s
  if s.implements f.1 then
    let r := fetchInstr f.1 f.2
    exec r.1 r.2
  else .fault (.unimplementedOpcode f.1)

/-! The choice of the unit of work (R380, R383, R425). -/

/-- The inputs of the coming tick: the oldest queued ones, or none asserted (R421; log 3). -/
def State.env (s : State) : Inputs := s.inputs.headD Inputs.quiet

/-- The inputs of this tick are used up. -/
def State.nextInputs (s : State) : State := { s with inputs := s.inputs.tail }

/-- The pulses of a tick's inputs latched (R421). -/
def latchInputs (env : Inputs) (s : State) : State :=
  { s with nmiFlag := s.nmiFlag || env.vblankStart, nmiPending := s.nmiPending || env.nmiEdge }

/-- The interrupt entry of a hardware interrupt as a unit of work: a block move is abandoned (R337), and the
entry's cycles are reported (R408). -/
def takeInterrupt (kind : Interrupt) (s : State) : State :=
  spend (interruptCycles s) (interruptEntry kind { s with moving := false })

/-- The unit of work of a processor that is neither stopped, waiting nor preempted by DMA: NMI, then IRQ, then
the block move in progress, then the next instruction (R380, R422 to R425). -/
def processorWork (irq : Bool) (s : State) : Host.Outcome State Fault Refusal :=
  if s.nmiPending then .next (takeInterrupt .nmi { s with nmiPending := false })
  else if irq && !s.p.i then .next (takeInterrupt .irq s)
  else if s.moving then .next (spend (moveCycles s) (moveStep s))
  else runInstruction s

/-- The unit of work of a tick: DMA first, then the idle step of a stopped or waiting processor, else the
processor's (R380, R381). An interrupt condition ends a wait (R426). -/
def unitOfWork (irq : Bool) (s : State) : Host.Outcome State Fault Refusal :=
  if s.dmaActive then .next (spend Config.dmaStepCycles (dmaStep s))
  else if s.stopped then .next (spend Config.idleStepCycles s)
  else if s.waiting && !(s.nmiPending || irq) then .next (spend Config.idleStepCycles s)
  else processorWork irq { s with waiting := false }

/-- `Tick(env)` of rule R380: the sticky fatal condition, then reset, then one unit of work. -/
def tick (s : State) : Host.Outcome State Fault Refusal :=
  match s.fatal with
  | some op => .fault (.unimplementedOpcode op)
  | none =>
    if s.env.resetLine then .next (resetProcedure s.nextInputs)
    else unitOfWork s.env.irqLine (latchInputs s.env s.nextInputs)

/-! Placing an instruction (log 13): what a load of the cartridge or of RAM before a tick does. -/

/-- The stored byte behind an address, written as a load writes it: without side effect, and into the cartridge
too. -/
def State.poke (s : State) (a : Addr) (v : Byte) : State := s.setIreg (storeKey s.cfg a) v

/-- `s` with the four bytes of the table word `v` (its bits above `nbits` zero) at `{PBR, PC}` and after it, and
with nothing pending that would make the next tick do anything but fetch there. -/
def placeTableWord (s : State) (nbits v : Nat) : State :=
  let u := v % 2 ^ nbits
  let t := (((s.poke (s.pcAddr 0) (byteOfNat u 0)).poke (s.pcAddr 1) (byteOfNat u 1)).poke (s.pcAddr 2)
    (byteOfNat u 2)).poke (s.pcAddr 3) (byteOfNat u 3)
  { t with
    fatal := none, stopped := false, waiting := false, moving := false, nmiPending := false
    ch := stopChannels t.ch
    inputs := [] }

end Sys2Proof.Machine
end

