-- ==== Sys2Proof/Safety.lean ====
section
/-! DEFINITION. The terms statements use: the invariant of every step, what a part of the state is and which parts a
change leaves alone, addresses behind which there is plain storage, and what ends an instruction. -/

namespace Sys2Proof.Machine

/-! The invariant. Each part is stated of every state and kept by every step. -/

/-- Rule R34: in emulation mode both width flags are set and the stack is in page 1. -/
def EmulationInv (s : State) : Prop := s.e = true → s.p.m = true ∧ s.p.x = true ∧ highByte s.sp = 0x01

/-- Rule R36: while the index registers are 8 bits wide their high bytes are zero. -/
def IndexInv (s : State) : Prop := s.p.x = true → highByte s.x = 0x00 ∧ highByte s.y = 0x00

/-- The stored bytes are in their canonical form (log 15). -/
def MemoryInv (s : State) : Prop := s.mem.wf

/-- Rule R44: a channel's place in its format's pattern exists. -/
def ChannelInv (s : State) : Prop := ∀ n : Fin 8, s.ch[n].idx < s.ch[n].format.pattern.length

/-- Rules R46, R352 and R360: while no channel is active MDMAEN is zero. -/
def MdmaenInv (s : State) : Prop := s.dmaActive = false → s.ireg mdmaenKey = 0x00

/-- Rules R38, R335 and R337: a block move in progress has bytes left, its destination bank is the data bank, and
the processor is neither stopped nor waiting. -/
def MoveInv (s : State) : Prop :=
  s.moving = true → s.a ≠ 0xFFFF ∧ s.dbr = s.mv.dst ∧ s.stopped = false ∧ s.waiting = false

/-- All of it. -/
structure Inv (s : State) : Prop where
  emulation : EmulationInv s
  index : IndexInv s
  memory : MemoryInv s
  channels : ChannelInv s
  mdmaen : MdmaenInv s
  move : MoveInv s

/-! Frames. -/

/-- A part of the state. -/
inductive Part where
  | a | x | y | sp | d | pc | pbr | dbr
  | flagN | flagV | flagM | flagX | flagD | flagI | flagZ | flagC
  | e | sel | stopped | waiting | moving | mv | fatal | cycles
  | nmiPending | nmiFlag | ch | mem | ppuDevice | cart | cfg | inputs | draws
  deriving DecidableEq, Repr

/-- Two states agree on a part. The state of a PPU device other than the latch array is the device's own
affair (rule R70); with the latch array it is no part of the machine and does not move. -/
def Part.same (s t : State) : Part → Prop
  | .a => t.a = s.a
  | .x => t.x = s.x
  | .y => t.y = s.y
  | .sp => t.sp = s.sp
  | .d => t.d = s.d
  | .pc => t.pc = s.pc
  | .pbr => t.pbr = s.pbr
  | .dbr => t.dbr = s.dbr
  | .flagN => t.p.n = s.p.n
  | .flagV => t.p.v = s.p.v
  | .flagM => t.p.m = s.p.m
  | .flagX => t.p.x = s.p.x
  | .flagD => t.p.d = s.p.d
  | .flagI => t.p.i = s.p.i
  | .flagZ => t.p.z = s.p.z
  | .flagC => t.p.c = s.p.c
  | .e => t.e = s.e
  | .sel => t.sel = s.sel
  | .stopped => t.stopped = s.stopped
  | .waiting => t.waiting = s.waiting
  | .moving => t.moving = s.moving
  | .mv => t.mv = s.mv
  | .fatal => t.fatal = s.fatal
  | .cycles => t.cycles = s.cycles
  | .nmiPending => t.nmiPending = s.nmiPending
  | .nmiFlag => t.nmiFlag = s.nmiFlag
  | .ch => t.ch = s.ch
  | .mem => t.mem = s.mem
  | .ppuDevice => s.cfg.ppuExternal = false → t.ppuExt = s.ppuExt
  | .cart => t.cart = s.cart
  | .cfg => t.cfg = s.cfg
  | .inputs => t.inputs = s.inputs
  | .draws => t.draws = s.draws

/-- From `s` to `t` nothing changes but the parts listed. -/
def ChangesOnly (l : List Part) (s t : State) : Prop := ∀ p : Part, p ∉ l → p.same s t

/-! Addresses. -/

/-- The address is neither RDNMI nor a register of a PPU device other than the latch array, so that reading it
changes nothing (rules R74, R81). -/
def Quiet (cfg : Cfg) (a : Addr) : Prop := isRdnmi a = false ∧ (mapAddress a = .ppu → cfg.ppuExternal = false)

/-- The address is one behind which a byte is stored that a bus write changes: WRAM, an internal register other
than RDNMI, or the PPU latch array (rules R75, R70). -/
def Stores (cfg : Cfg) (a : Addr) : Prop :=
  Quiet cfg a ∧ mapAddress a ≠ .joypad ∧ mapAddress a ≠ .cartridge

/-- The banks in which the registers and the WRAM mirror are decoded (rule R61). -/
abbrev IsSystemBank (b : Byte) : Prop := b ≤ 0x3F ∨ (0x80 ≤ b ∧ b ≤ 0xBF)

/-- A byte of WRAM is behind the address (rule R62). -/
def InWram (a : Addr) : Prop := mapAddress a = .wram

/-- The bytes behind two addresses are one byte (rules R62 to R64 and R68). -/
def SameByte (cfg : Cfg) (a b : Addr) : Prop := storeKey cfg a = storeKey cfg b

/-- A bus write to the address reaches a cartridge whose `CartWrite` is not the default, which may then change its
contents (rule R72). -/
def WritesCartridge (cfg : Cfg) (a : Addr) : Prop := mapAddress a = .cartridge ∧ cfg.cartWrites = true

/-- Every quiet address reads in `t` as it read in `s`, but for the bytes stored behind the addresses of `l` and, where one
of them reaches a cartridge that does not ignore writes, the contents of the cartridge. -/
def MemoryKept (l : List Addr) (s t : State) : Prop :=
  ∀ a : Addr, Quiet s.cfg a → (∀ b ∈ l, Stores s.cfg b → ¬ SameByte s.cfg a b) →
    (mapAddress a = .cartridge → ∀ b ∈ l, ¬ WritesCartridge s.cfg b) → t.peek a = s.peek a

/-- Register `r` of DMA channel `n` at its address in bank 0x00 (rule R42). -/
def channelReg (n : Fin 8) (r : Nat) : Addr := addrOf 0x00 (BitVec.ofNat 16 (0x4300 + 0x10 * n.val + r))

/-- The addresses of an operand of width `W` at a resolved address. -/
def Resolved.bytes (r : Resolved) (W : Width) : List Addr :=
  match W with
  | .w8 => [r.addr0]
  | .w16 => [r.addr0, r.addr1]

/-- Where the next byte of a channel goes: the register of the B-bus at 0x2100, or the address on the A-bus (rules R350,
R355). -/
def Channel.destination (c : Channel) : Addr :=
  match c.dir with
  | .aToB => addrOf 0x00 (wordOf 0x21 (c.bOff + c.format.pattern.getD c.idx 0))
  | .bToA => c.aAddr

/-! What an instruction's result is, and its frame. -/

/-- The register that held `old` holds `new`, the write of an operand of width `W`: an 8-bit write keeps the high
byte (rules R21, R22, R35). -/
def Written : (W : Width) → (old new : Word) → BitVec W.bits → Prop
  | .w8, old, new, v => lowByte new = v ∧ highByte new = highByte old
  | .w16, _, new, v => new = v

/-- N and Z are those of the value (`SetNZ` of rule R11). -/
def FlagsNZ {w : Nat} (v : BitVec w) (t : State) : Prop := t.p.n = v.msb ∧ (t.p.z = true ↔ v = 0)

/-- The program counter is past the instruction, its bank unchanged (rule R26). -/
def Advances (i : Instr) (s t : State) : Prop := t.pc = s.pc + BitVec.ofNat 16 (i.length s.widths)

/-- The frame of an instruction that stores nothing: but for the parts listed nothing changes, and every quiet
address reads as before. -/
def Frame (l : List Part) (s t : State) : Prop := ChangesOnly l s t ∧ MemoryKept [] s t

/-- The frame of an instruction that stores to the addresses listed: but for the parts listed, the stored bytes, where
MDMAEN is among the addresses the DMA channels, and where a cartridge that does not ignore writes is among them the
cartridge, nothing changes. -/
def StoreFrame (l : List Part) (stored : List Addr) (s t : State) : Prop :=
  ChangesOnly (.mem :: .ch :: .cart :: l) s t ∧ MemoryKept stored s t ∧
    ((∀ a ∈ stored, isMdmaen a = false) → t.ch = s.ch) ∧
    ((∀ a ∈ stored, ¬ WritesCartridge s.cfg a) → t.cart = s.cart)

/-- The bytes listed written through the bus, in order (rule R75). -/
def writeAll (l : List (Addr × Byte)) (s : State) : State := l.foldl (fun s p => busWrite p.1 p.2 s) s

/-- The bytes listed have been stored at their addresses: stored bytes, DMA channels and cartridge are what the bus writes
of them in the order listed leave, and where a byte is stored behind each address and no two are the same byte, each
address reads as the byte stored there. -/
def StoredBytes (l : List (Addr × Byte)) (s t : State) : Prop :=
  (t.mem = (writeAll l s).mem ∧ t.ch = (writeAll l s).ch ∧ t.cart = (writeAll l s).cart) ∧
    (MemoryInv s → (∀ p ∈ l, Stores s.cfg p.1) → l.Pairwise (fun p q => ¬ SameByte s.cfg p.1 q.1) →
      ∀ p ∈ l, t.peek p.1 = p.2)

/-- The bytes of an operand of width `W` with their addresses, the low one first. -/
def Resolved.cells (r : Resolved) : (W : Width) → BitVec W.bits → List (Addr × Byte)
  | .w8, v => [(r.addr0, Width.byte0 .w8 v)]
  | .w16, v => [(r.addr0, Width.byte0 .w16 v), (r.addr1, Width.byte1 .w16 v)]

/-! Decimal numbers (rules R163, R164). -/

/-- The number whose `n` decimal digits are the nibbles of `v`, the lowest first. -/
def decimalValue : (n v : Nat) → Nat
  | 0, _ => 0
  | n + 1, v => v % 16 + 10 * decimalValue n (v / 16)

/-- The `n` low nibbles of `v` are decimal digits. -/
def IsDecimal : (n v : Nat) → Prop
  | 0, _ => True
  | n + 1, v => v % 16 ≤ 9 ∧ IsDecimal n (v / 16)

/-! The stack pointer `k` bytes further down or up. -/

/-- `k` legacy pushes down: inside page 1 in emulation mode (rule R300). -/
def legacyDown (s : State) (k : Nat) : Word :=
  if s.e then wordOf (highByte s.sp) (lowByte s.sp - BitVec.ofNat 8 k) else s.sp - BitVec.ofNat 16 k

/-- `k` legacy pulls up (rule R301). -/
def legacyUp (s : State) (k : Nat) : Word :=
  if s.e then wordOf (highByte s.sp) (lowByte s.sp + BitVec.ofNat 8 k) else s.sp + BitVec.ofNat 16 k

/-- The stack pointer `v` with its page restored in emulation mode (rule R304). -/
def pageFixed (s : State) (v : Word) : Word := if s.e then wordOf 0x01 (lowByte v) else v

/-- Where the `k`-th byte (from 0) of a legacy push lands. -/
def legacySlot (s : State) (k : Nat) : Addr := addrOf 0x00 (legacyDown s k)

/-- Where the `k`-th byte (from 0) of a new-style push lands: 16 bits in either mode (rule R302). -/
def newSlot (s : State) (k : Nat) : Addr := addrOf 0x00 (s.sp - BitVec.ofNat 16 k)

/-- Where the `k`-th byte (from 1) of a legacy pull is. -/
def legacyTop (s : State) (k : Nat) : Addr := addrOf 0x00 (legacyUp s k)

/-- Where the `k`-th byte (from 1) of a new-style pull is. -/
def newTop (s : State) (k : Nat) : Addr := addrOf 0x00 (s.sp + BitVec.ofNat 16 k)

/-- The two bytes of a 16-bit legacy push of `v`: the high byte first. -/
def legacyWord (s : State) (k : Nat) (v : Word) : List (Addr × Byte) :=
  [(legacySlot s k, highByte v), (legacySlot s (k + 1), lowByte v)]

/-- The two bytes of a 16-bit new-style push of `v`. -/
def newWord (s : State) (k : Nat) (v : Word) : List (Addr × Byte) :=
  [(newSlot s k, highByte v), (newSlot s (k + 1), lowByte v)]

/-! Interrupts. -/

/-- The little-endian word at an offset of bank 0x00, as inspection reads it. -/
def wordAt (s : State) (off : Word) : Word := wordOf (s.peek (addrOf 0x00 (off + 1))) (s.peek (addrOf 0x00 off))

/-- The bytes an interrupt entry pushes, in order: the program bank in native mode, the return address, the status byte
(rule R424). -/
def interruptFrame (s : State) (ret : Word) (status : Byte) : List (Addr × Byte) :=
  if s.e then legacyWord s 0 ret ++ [(legacySlot s 2, status)]
  else (legacySlot s 0, s.pbr) :: (legacyWord s 1 ret ++ [(legacySlot s 3, status)])

/-- What taking an interrupt does from `s` to `t` (rule R424): the frame pushed, I set and D clear, the program bank
zero, the program counter from the vector; `l` lists what else may change. -/
def Enters (ret : Word) (status : Byte) (vec : Word) (l : List Part) (s t : State) : Prop :=
  t.pc = wordAt t vec ∧
    ((∀ p ∈ interruptFrame s ret status, ¬ WritesCartridge s.cfg p.1) → t.pc = wordAt s vec) ∧
    t.pbr = 0x00 ∧ t.p = { s.p with i := true, d := false } ∧ t.sp = legacyDown s (if s.e then 3 else 4) ∧
    StoredBytes (interruptFrame s ret status) s t ∧
    StoreFrame (.pc :: .pbr :: .flagI :: .flagD :: .sp :: .cycles :: l) ((interruptFrame s ret status).map Prod.fst) s t

/-- The tick that starts in `s` is one in which the processor core acts: no fatal condition, no reset, no active DMA
channel, not stopped (rules R380, R425). -/
def CoreActs (s : State) : Prop :=
  s.fatal = none ∧ s.env.resetLine = false ∧ s.dmaActive = false ∧ s.stopped = false

/-- The physical content of status bit 0 and the shadow register's (rule R30); no rule reads them. -/
def State.rawBit0 (s : State) : Bool := if s.sel = .selCarry then s.p.c else s.e

/-- The flag that is not exposed (rule R30). -/
def State.shadow (s : State) : Bool := if s.sel = .selCarry then s.e else s.p.c

/-! Cycles. -/

/-- No decimal-mode adjustment applies to an instruction that is neither ADC nor SBC (rule R406, line g, as read in
log 21). -/
def NoDecimalPenalty (s : State) : Prop := s.p.d = false ∨ s.cfg.decPenalty = [.arithmetic]

/-- The base counts are the default table of rule R404, and no decimal-mode adjustment applies. -/
def DefaultCycles (s : State) : Prop := s.cfg.baseCycles = none ∧ NoDecimalPenalty s

/-! The end of an instruction. -/

/-- `InstructionDone` of rule R386: the instruction of the tick that ended in `t` is complete. -/
def instructionDone (t : State) : Bool := !t.moving

end Sys2Proof.Machine
end

