-- ==== Sys2Proof/Certificates/Slice0/Obligations.lean ====
section
/-! DEFINITION. The statements for the provers, from the numbered rules of spec/. -/

open Sys2Proof Sys2Proof.Machine

/-! ## Encoding (spec/30_encoding.md) -/

/-- The encoding of each instruction listed, whatever the widths. -/
def Encodings (l : List (Instr × List Byte)) : Prop := ∀ w : Widths, ∀ p ∈ l, encode w p.1 = p.2

/-- Rules R100 to R104: decoding the encoding of a well-formed instruction, whatever bytes follow it, gives the
instruction back with every operand as it was. -/
def Obligations.DecodeOfEncode : Prop :=
  ∀ (w : Widths) (i : Instr) (rest : List Byte), WellFormed w i = true →
    decode w (encode w i ++ rest) = .ok (i, rest)

/-- Rules R100 to R104: what is decoded is a well-formed instruction, and its encoding is the bytes it was decoded from. -/
def Obligations.EncodeOfDecode : Prop :=
  ∀ (w : Widths) (bytes : List Byte) (i : Instr) (rest : List Byte), decode w bytes = .ok (i, rest) →
    WellFormed w i = true ∧ encode w i ++ rest = bytes

/-- Words written out from the table of rule R104 and the fields of R101, one a family, decode to what they stand for. -/
def Obligations.SampleWords : Prop :=
  decode ⟨.w8, .w8⟩ [0xA9#8, 0x00#8, 0xEA#8] = .ok (.lda (.imm 0x0000), [0xEA#8]) ∧
  decode ⟨.w16, .w8⟩ [0xA9#8, 0x00#8, 0xEA#8] = .ok (.lda (.imm 0xEA00), []) ∧
  decode ⟨.w8, .w8⟩ [0x8F#8, 0x56#8, 0x34#8, 0x12#8] = .ok (.sta (.long 0x123456), []) ∧
  decode ⟨.w8, .w16⟩ [0xE0#8, 0x00#8, 0x01#8] = .ok (.cpx (.imm 0x0100), []) ∧
  decode ⟨.w8, .w8⟩ [0x71#8, 0x20#8] = .ok (.adc (.mem (.dpIndY 0x20)), []) ∧
  decode ⟨.w8, .w8⟩ [0x6E#8, 0x34#8, 0x12#8] = .ok (.ror (.mem (.abs 0x1234)), []) ∧
  decode ⟨.w8, .w8⟩ [0xFC#8, 0x34#8, 0x12#8] = .ok (.jsr (.indX 0x1234), []) ∧
  decode ⟨.w8, .w8⟩ [0xD0#8, 0xFE#8] = .ok (.bne 0xFE, []) ∧
  decode ⟨.w8, .w8⟩ [0xD4#8, 0x10#8] = .ok (.pei 0x10, []) ∧
  decode ⟨.w8, .w8⟩ [0xC2#8, 0x30#8] = .ok (.rep 0x30, []) ∧
  decode ⟨.w8, .w8⟩ [0x54#8, 0x7E#8, 0x7F#8] = .ok (.mvn 0x7E 0x7F, []) ∧
  decode ⟨.w8, .w8⟩ [0x00#8, 0xEA#8] = .ok (.brk 0xEA, [])

/-! ## The step (spec/47_sequencer_and_cycles.md, spec/00_scope.md) -/

/-- Rules R380, R382: where no other unit of work comes first, the step fetches and executes one instruction in the state
with this tick's inputs taken in; and where the bytes it fetches can be read without a side effect and decode to `i`, whose
opcode is implemented, it is `i` executed in that state; where the opcode is not implemented, it is the fatal condition
(R110). -/
def Obligations.StepRunsTheDecodedInstruction : Prop :=
  ∀ (s : State) (i : Instr) (rest : List Byte), CoreActs s → s.nmiPending = false → s.env.nmiEdge = false →
    (s.env.irqLine = true → s.p.i = true) → (s.waiting = true → s.env.irqLine = true) → s.moving = false →
    let s' := { s with inputs := s.inputs.tail, nmiFlag := s.nmiFlag || s.env.vblankStart, waiting := false }
    step s = runInstruction s' ∧
    ((∀ k, k < opLength s.widths (s.peek (s.pcAddr 0)) → Quiet s.cfg (s.pcAddr k)) →
      decode s.widths [s.peek (s.pcAddr 0), s.peek (s.pcAddr 1), s.peek (s.pcAddr 2), s.peek (s.pcAddr 3)] =
        .ok (i, rest) →
      (s.peek (s.pcAddr 0) ∉ s.cfg.unimplemented → step s = exec i s') ∧
      (s.peek (s.pcAddr 0) ∈ s.cfg.unimplemented →
        step s = .fault (.unimplementedOpcode (s.peek (s.pcAddr 0)))))

/-- Rules R10, R110, R435: a tick gives the next state or the fatal condition, never anything else; the fatal condition
comes of an opcode outside `Implemented` or of a machine already in it, and in the latter always. -/
def Obligations.TwoOutcomes : Prop :=
  ∀ s : State,
    ((∃ t, step s = .next t) ∨
      ∃ op, step s = .fault (.unimplementedOpcode op) ∧ (s.fatal = some op ∨ s.fatal = none ∧ op ∈ s.cfg.unimplemented)) ∧
    (∀ op, s.fatal = some op → step s = .fault (.unimplementedOpcode op)) ∧
    (s.fatal = none → s.cfg.unimplemented = [] → ∃ t, step s = .next t)

/-- The invariant (rules R34, R36, R44, R46, R335, R337, R360; log 15) is kept by every step from every state. -/
def Obligations.StepKeepsInvariant : Prop := ∀ s t : State, Inv s → step s = .next t → Inv t

/-- The invariant holds after reset. -/
def Obligations.ResetMeetsInvariant : Prop := Inv State.reset

/-- Rules R45, R72: no step changes the configuration or, `CartWrite` being the default one, a byte of the cartridge. -/
def Obligations.ConfigurationIsConstant : Prop :=
  ∀ s t : State, step s = .next t →
    t.cfg = s.cfg ∧ (s.cfg.cartWrites = false →
      t.cart = s.cart ∧ ∀ a : Addr, mapAddress a = .cartridge → t.peek a = s.peek a)

/-- Rule R470: nothing but the counter depends on the counter: two machines that differ only in `cycles` step alike. -/
def Obligations.TimingIsNotFunctional : Prop :=
  ∀ (s : State) (k : Nat),
    (∀ t, step s = .next t → ∃ c, step { s with cycles := k } = .next { t with cycles := c }) ∧
    (∀ f, step s = .fault f → step { s with cycles := k } = .fault f)

/-! ## Memory and the bus (spec/20_memory.md) -/

/-- Rule R61: the region of every address, by its bank and offset. -/
def Obligations.RegionOfAddress : Prop :=
  ∀ (bank : Byte) (off : Word), mapAddress (addrOf bank off) =
    if bank = 0x7E ∨ bank = 0x7F then .wram
    else if IsSystemBank bank then
      if off ≤ 0x1FFF then .wram
      else if 0x2100 ≤ off ∧ off ≤ 0x21FF then .ppu
      else if off = 0x4016 ∨ off = 0x4017 then .joypad
      else if 0x4200 ≤ off ∧ off ≤ 0x43FF then .cpu
      else .cartridge
    else .cartridge

/-- Rules R62, R68: the first 0x2000 bytes of WRAM are visible in every system bank and in bank 0x7E, bank 0x7F shows
the same bytes as 0x7E when there are 65536, and a byte written at any of the three aliases of byte 0 is read at each. -/
def Obligations.WramIsMirrored : Prop :=
  (∀ (cfg : Cfg) (b1 b2 : Byte) (off : Word), IsSystemBank b1 → IsSystemBank b2 → off.toNat < 0x2000 →
    SameByte cfg (addrOf b1 off) (addrOf b2 off) ∧ SameByte cfg (addrOf b1 off) (addrOf 0x7E off)) ∧
  (∀ (cfg : Cfg) (off : Word), cfg.wram128 = false → SameByte cfg (addrOf 0x7F off) (addrOf 0x7E off)) ∧
  ∀ (s : State) (v : Byte) (a b : Addr), MemoryInv s → a ∈ [0x000000#24, 0x7E0000#24, 0x800000#24] →
    b ∈ [0x000000#24, 0x7E0000#24, 0x800000#24] → (busWrite a v s).peek b = v

/-- Rule R86: a bus read of a quiet address gives the value of the last write to the same byte, through any alias, and a
write to another byte does not matter to it. Rules R72, R75: a write to the cartridge changes nothing where `CartWrite` is
the default one; where it is another one the cartridge is what `CartWrite` makes of it, its contents at the addresses it
lists the last byte listed, and no other quiet byte changes. Rules R70, R74 to R76: a PPU device other than the latch
array is given every access to its registers, the low byte of the address naming the register: a read is its `read`, which
may change its state, a write its `write`, an inspection its `peek`; nothing else changes. -/
def Obligations.ReadsSeeTheLastWrite : Prop :=
  (∀ (s : State) (a : Addr) (v : Byte), s.cfg.ppuExternal = true → mapAddress a = .ppu →
    let reg := lowByte (offsetOf a)
    busRead a s = ((Config.ppuRead s.ppuExt reg).1, { s with ppuExt := (Config.ppuRead s.ppuExt reg).2 }) ∧
      busWrite a v s = { s with ppuExt := Config.ppuWrite s.ppuExt reg v } ∧ s.peek a = Config.ppuPeek s.ppuExt reg) ∧
  ∀ (s : State) (a b : Addr) (v : Byte), MemoryInv s → Quiet s.cfg b →
    (Stores s.cfg a →
      (SameByte s.cfg b a → (busRead b (busWrite a v s)).1 = v) ∧
      (¬ SameByte s.cfg b a → (busRead b (busWrite a v s)).1 = s.peek b)) ∧
    (mapAddress a = .cartridge →
      (s.cfg.cartWrites = false → busWrite a v s = s) ∧
      (s.cfg.cartWrites = true →
        (busWrite a v s).cart = (Config.cartWrite s.cart a v).1 ∧
        (busRead b (busWrite a v s)).1 = if mapAddress b = .cartridge
          then ((Config.cartWrite s.cart a v).2.reverse.lookup b).getD (s.peek b) else s.peek b))

/-- Rules R42, R74, R76, R81: LDA of RDNMI in 8-bit mode loads bit 7 as the flag and 0b0000010 below it and clears the
flag, so that a second one loads 0x02. -/
def Obligations.LoadOfRdnmiClearsIt : Prop :=
  ∀ s : State, s.wM = .w8 → IsSystemBank s.dbr →
    ∃ t u, exec (.lda (.mem (.abs 0x4210))) s = .next t ∧ exec (.lda (.mem (.abs 0x4210))) t = .next u ∧
      lowByte t.a = (if s.nmiFlag then 0x82 else 0x02) ∧ t.nmiFlag = false ∧ lowByte u.a = 0x02 ∧
      s.peek (addrOf s.dbr 0x4210) = lowByte t.a

/-- Rule R421: bit 7 of RDNMI is set by `VBlankStart` alone. -/
def Obligations.OnlyVBlankSetsTheNmiFlag : Prop :=
  ∀ s t : State, step s = .next t → t.nmiFlag = true → s.nmiFlag = true ∨ s.env.vblankStart = true

/-! ## Addressing modes (spec/40_addressing_modes.md) -/

/-- Rules R133, R141: a direct-page address is in bank 0x00; the forms of the older processor stay inside the page in
emulation mode with `DL` zero; otherwise the sum wraps at 16 bits. -/
def Obligations.DirectPageWrap : Prop :=
  ∀ (s : State) (o : Nat) (legacy : Bool),
    (legacy = true ∧ s.e = true ∧ lowByte s.d = 0x00 →
      (dpAddr s o legacy).toNat = s.d.toNat / 256 * 256 + o % 256) ∧
    (legacy = false ∨ s.e = false ∨ lowByte s.d ≠ 0x00 →
      (dpAddr s o legacy).toNat = (s.d.toNat + o) % 65536)

/-- Rules R136 to R140, R142, R148: the effective addresses of the forms without a pointer, as numbers; absolute and long data
carries into the next bank, stack-relative data stays in bank 0x00, and direct-page data is at the offset, with the index
of the form, by the function of R133, which DirectPageWrap gives as a number. -/
def Obligations.DirectEffectiveAddresses : Prop :=
  ∀ (s : State) (a : Word) (al : Addr) (r : Byte),
    (let q := resolve (.dp r) s
     q.addr0 = dpAddr s r.toNat true ∧ q.addr1 = dpAddr s (r.toNat + 1) true ∧ q.st = s) ∧
    (let q := resolve (.dpX r) s
     q.addr0 = dpAddr s (r.toNat + s.x.toNat) true ∧ q.addr1 = dpAddr s (r.toNat + s.x.toNat + 1) true ∧ q.st = s) ∧
    (let q := resolve (.dpY r) s
     q.addr0 = dpAddr s (r.toNat + s.y.toNat) true ∧ q.addr1 = dpAddr s (r.toNat + s.y.toNat + 1) true ∧ q.st = s) ∧
    (let q := resolve (.abs a) s
     q.addr0.toNat = s.dbr.toNat * 65536 + a.toNat ∧ q.addr1.toNat = (s.dbr.toNat * 65536 + a.toNat + 1) % 2 ^ 24 ∧ q.st = s) ∧
    (let q := resolve (.absX a) s
     q.addr0.toNat = (s.dbr.toNat * 65536 + a.toNat + s.x.toNat) % 2 ^ 24 ∧
       q.addr1.toNat = (s.dbr.toNat * 65536 + a.toNat + s.x.toNat + 1) % 2 ^ 24 ∧ q.st = s) ∧
    (let q := resolve (.absY a) s
     q.addr0.toNat = (s.dbr.toNat * 65536 + a.toNat + s.y.toNat) % 2 ^ 24 ∧
       q.addr1.toNat = (s.dbr.toNat * 65536 + a.toNat + s.y.toNat + 1) % 2 ^ 24 ∧ q.st = s) ∧
    (let q := resolve (.long al) s
     q.addr0 = al ∧ q.addr1.toNat = (al.toNat + 1) % 2 ^ 24 ∧ q.st = s) ∧
    (let q := resolve (.longX al) s
     q.addr0.toNat = (al.toNat + s.x.toNat) % 2 ^ 24 ∧ q.addr1.toNat = (al.toNat + s.x.toNat + 1) % 2 ^ 24 ∧ q.st = s) ∧
    (let q := resolve (.sr r) s
     q.addr0.toNat = (s.sp.toNat + r.toNat) % 65536 ∧ q.addr1.toNat = (s.sp.toNat + r.toNat + 1) % 65536 ∧ q.st = s)

/-- Rules R143 to R147, R149: the effective addresses of the forms with a pointer: the second byte of the operand is at
the next address of the 24-bit space, whatever the pointer; and where the bytes of the pointer are quiet, the pointer is
little-endian, and reading it changes nothing. -/
def Obligations.IndirectEffectiveAddresses : Prop :=
  ∀ (s : State) (d : Byte),
    (∀ m ∈ [Mem.dpInd d, .dpIndLong d, .dpXInd d, .dpIndY d, .dpIndLongY d, .srIndY d],
      (resolve m s).addr1.toNat = ((resolve m s).addr0.toNat + 1) % 2 ^ 24) ∧
    (let p := fun k => dpAddr s (d.toNat + k) true
     Quiet s.cfg (p 0) → Quiet s.cfg (p 1) →
       let base := s.dbr.toNat * 65536 + (s.peek (p 1)).toNat * 256 + (s.peek (p 0)).toNat
       (resolve (.dpInd d) s).addr0.toNat = base ∧ (resolve (.dpInd d) s).st = s ∧
       (resolve (.dpIndY d) s).addr0.toNat = (base + s.y.toNat) % 2 ^ 24 ∧ (resolve (.dpIndY d) s).st = s) ∧
    (let p := fun k => dpAddr s (d.toNat + s.x.toNat + k) true
     Quiet s.cfg (p 0) → Quiet s.cfg (p 1) →
       (resolve (.dpXInd d) s).addr0.toNat =
         s.dbr.toNat * 65536 + (s.peek (p 1)).toNat * 256 + (s.peek (p 0)).toNat ∧ (resolve (.dpXInd d) s).st = s) ∧
    (let p := fun k => dpAddr s (d.toNat + k) false
     Quiet s.cfg (p 0) → Quiet s.cfg (p 1) → Quiet s.cfg (p 2) →
       let base := (s.peek (p 2)).toNat * 65536 + (s.peek (p 1)).toNat * 256 + (s.peek (p 0)).toNat
       (resolve (.dpIndLong d) s).addr0.toNat = base ∧ (resolve (.dpIndLong d) s).st = s ∧
       (resolve (.dpIndLongY d) s).addr0.toNat = (base + s.y.toNat) % 2 ^ 24 ∧ (resolve (.dpIndLongY d) s).st = s) ∧
    (let p := fun k => srAddr s (d.toNat + k)
     Quiet s.cfg (p 0) → Quiet s.cfg (p 1) →
       (resolve (.srIndY d) s).addr0.toNat =
         (s.dbr.toNat * 65536 + (s.peek (p 1)).toNat * 256 + (s.peek (p 0)).toNat + s.y.toNat) % 2 ^ 24 ∧
       (resolve (.srIndY d) s).st = s)

/-! ## The arithmetic-logic unit (spec/41_alu.md) -/

/-- Rule R175: the subtraction without borrow undoes the addition without carry, at both widths and wraparound or not; with
the carry flag clear it gives one less; it borrows exactly when the addition carried. Rule R176: the shift and rotate
round trips. -/
def Obligations.AluRoundTrips : Prop :=
  ∀ (W : Width) (a v : BitVec W.bits) (c : Bool),
    ((sbcBin (adcBin a v false).r v true).r = a ∧ (sbcBin (adcBin a v false).r v false).r = a - 1 ∧
      (sbcBin (adcBin a v false).r v true).c = !(adcBin a v false).c) ∧
    ((lsr (asl v).r).r = v ↔ v.msb = false) ∧ (asl v).c = v.msb ∧
      (ror (rol v c).r (rol v c).c).r = v ∧ ((ror (rol v c).r c).r = v ↔ v.msb = c)

/-- Rules R163, R164: on operands that are decimal numbers, `adc_bcd` and `sbc_bcd` are decimal addition and subtraction,
C being the decimal carry and, subtracting, the absence of a borrow. Rule R165: V of the 8-bit operations, on any operands,
is set exactly when `a` and `u` (the operand, or its complement when subtracting) have one sign and bit 3 of the top digit
before its correction differs from it. -/
def Obligations.DecimalArithmetic : Prop :=
  (∀ (a v : Byte) (c : Bool),
    let overflow := fun (u limit : Nat) =>
      let top := (a.toNat / 16 + u / 16 + if limit < a.toNat % 16 + u % 16 + one c then 1 else 0) % 16
      (128 ≤ a.toNat ↔ 128 ≤ u) ∧ ¬ (128 ≤ a.toNat ↔ 8 ≤ top)
    ((adcBcd a v c).v = true ↔ overflow v.toNat 9) ∧ ((sbcBcd a v c).v = true ↔ overflow (255 - v.toNat) 15)) ∧
  ∀ (W : Width) (a v : BitVec W.bits) (c : Bool), IsDecimal (W.bits / 4) a.toNat → IsDecimal (W.bits / 4) v.toNat →
    (IsDecimal (W.bits / 4) (adcBcd a v c).r.toNat ∧
      decimalValue (W.bits / 4) (adcBcd a v c).r.toNat + 10 ^ (W.bits / 4) * one (adcBcd a v c).c =
        decimalValue (W.bits / 4) a.toNat + decimalValue (W.bits / 4) v.toNat + one c) ∧
    (IsDecimal (W.bits / 4) (sbcBcd a v c).r.toNat ∧
      decimalValue (W.bits / 4) (sbcBcd a v c).r.toNat + decimalValue (W.bits / 4) v.toNat + one (!c) =
        decimalValue (W.bits / 4) a.toNat + 10 ^ (W.bits / 4) * one (!(sbcBcd a v c).c))

/-! ## Loads, stores and transfers (spec/42_load_store_transfer.md) -/

/-- The instruction reads `src`, writes `v` of the value read to a register and sets N and Z from it; nothing else. -/
def ReadsInto (i : Instr) (src : Src) (W : Width) (reg : State → Word) (part : Part)
    (v : BitVec W.bits → BitVec W.bits) (s : State) : Prop :=
  ∃ t, exec i s = .next t ∧ Written W (reg s) (reg t) (v (readSrc src W s).val) ∧
    FlagsNZ (v (readSrc src W s).val) t ∧ Advances i s t ∧ t.nmiFlag = (readSrc src W s).st.nmiFlag ∧
    Frame [part, .flagN, .flagZ, .pc, .cycles, .nmiFlag] s t

/-- The instruction writes `v` to a register and sets N and Z from it; nothing else. -/
def WritesRegister (i : Instr) (W : Width) (reg : State → Word) (part : Part) (v : BitVec W.bits) (s : State) : Prop :=
  ∃ t, exec i s = .next t ∧ Written W (reg s) (reg t) v ∧ FlagsNZ v t ∧ Advances i s t ∧
    Frame [part, .flagN, .flagZ, .pc, .cycles] s t

/-- Rules R192 to R194, the operation and the flags: LDA, LDX and LDY load the operand they read, at the width of their
register, for every operand form. -/
def Obligations.LoadResult : Prop :=
  ∀ (src : Src) (s : State),
    ReadsInto (.lda src) src s.wM State.a .a id s ∧ ReadsInto (.ldx src) src s.wX State.x .x id s ∧
      ReadsInto (.ldy src) src s.wX State.y .y id s

/-- Rules R135, R155, R78, R80: what reading an operand gives, at either width: an immediate is the operand itself, cut to
the width, without an access; a memory operand is the byte at `DataAddr(0)` and, at 16 bits, the byte at `DataAddr(1)` above
it, read through the bus in this order in the state its resolving leaves, so that where both are quiet it is what they hold
and the reads change nothing more; the read of a read-modify-write instruction is this read. Rule R136: with it LDA of an
absolute operand loads the byte there and the byte at the next address of the 24-bit space. -/
def Obligations.OperandRead : Prop :=
  (∀ (W : Width) (v : Word) (s : State),
    (readSrc (.imm v) W s).val = W.take v ∧ (readSrc (.imm v) W s).val.toNat = v.toNat % 2 ^ W.bits ∧
      (readSrc (.imm v) W s).st = s) ∧
  (∀ (W : Width) (m : Mem) (s : State),
    let r := resolve m s
    let q := readSrc (.mem m) W s
    let lo := busRead r.addr0 r.st
    let hi := busRead r.addr1 lo.2
    (q.val, q.st) = readData W r r.st ∧
      q.val.toNat = (if W = .w16 then hi.1.toNat * 256 + lo.1.toNat else lo.1.toNat) ∧
      q.st = (if W = .w16 then hi.2 else lo.2) ∧
      (Quiet s.cfg r.addr0 → (W = .w16 → Quiet s.cfg r.addr1) →
        q.val.toNat = (if W = .w16 then (s.peek r.addr1).toNat * 256 else 0) + (s.peek r.addr0).toNat ∧ q.st = r.st)) ∧
  ∀ (a : Word) (s : State), Quiet s.cfg (addrOf s.dbr a) → Quiet s.cfg (addrOf s.dbr a + 1) →
    ∃ t, exec (.lda (.mem (.abs a))) s = .next t ∧ lowByte t.a = s.peek (addrOf s.dbr a) ∧
      highByte t.a = if s.wM = .w16 then s.peek (addrOf s.dbr a + 1) else highByte s.a

/-- The instruction stores `v` through the memory form `m`, little-endian, and changes no flag and no register. -/
def StoresOperand (i : Instr) (m : Mem) (W : Width) (v : BitVec W.bits) (s : State) : Prop :=
  ∃ t, exec i s = .next t ∧ StoredBytes ((resolve m s).cells W v) s t ∧ Advances i s t ∧
    t.nmiFlag = (resolve m s).st.nmiFlag ∧ StoreFrame [.pc, .cycles, .nmiFlag] ((resolve m s).bytes W) s t

/-- Rules R195 to R198, the operation and the flags: STA, STX, STY and STZ for every memory form; the bytes are written
through the bus, the low one first (R80), so that one stored to MDMAEN or to the cartridge has its effect there (R75). -/
def Obligations.StoreResult : Prop :=
  ∀ (m : Mem) (s : State),
    StoresOperand (.sta m) m s.wM (s.acc s.wM) s ∧ StoresOperand (.stx m) m s.wX (s.xOp s.wX) s ∧
      StoresOperand (.sty m) m s.wX (s.yOp s.wX) s ∧ StoresOperand (.stz m) m s.wM 0 s

/-- Rules R199 to R210: TAX, TAY, TXA, TYA, TXY, TYX and TSX copy at the width of the destination; TCD, TDC and TSC move
16 bits whatever the width; TXS and TCS set no flag and keep the page of the stack in emulation mode. -/
def Obligations.TransferResult : Prop :=
  Encodings [(.tax, [0xAA]), (.tay, [0xA8]), (.txa, [0x8A]), (.tya, [0x98]), (.txy, [0x9B]), (.tyx, [0xBB]), (.tsx, [0xBA]),
    (.txs, [0x9A]), (.tcd, [0x5B]), (.tdc, [0x7B]), (.tcs, [0x1B]), (.tsc, [0x3B])] ∧
  ∀ s : State,
    (WritesRegister .tax s.wX State.x .x (s.wX.take s.a) s ∧ WritesRegister .tay s.wX State.y .y (s.wX.take s.a) s ∧
      WritesRegister .txa s.wM State.a .a (s.wM.take s.x) s ∧ WritesRegister .tya s.wM State.a .a (s.wM.take s.y) s ∧
      WritesRegister .txy s.wX State.y .y (s.wX.take s.x) s ∧ WritesRegister .tyx s.wX State.x .x (s.wX.take s.y) s ∧
      WritesRegister .tsx s.wX State.x .x (s.wX.take s.sp) s) ∧
    (WritesRegister .tcd .w16 State.d .d s.a s ∧ WritesRegister .tdc .w16 State.a .a s.d s ∧
      WritesRegister .tsc .w16 State.a .a s.sp s) ∧
    (∃ t, exec .txs s = .next t ∧ t.sp = (if s.e then wordOf (highByte s.sp) (lowByte s.x) else s.x) ∧
      Advances .txs s t ∧ Frame [.sp, .pc, .cycles] s t) ∧
    ∃ t, exec .tcs s = .next t ∧ t.sp = (if s.e then wordOf (highByte s.sp) (lowByte s.a) else s.a) ∧
      Advances .tcs s t ∧ Frame [.sp, .pc, .cycles] s t

/-- Rule R211: XBA exchanges the bytes of the accumulator and sets N and Z from the new low one, whatever the width. -/
def Obligations.XbaResult : Prop :=
  Encodings [(.xba, [0xEB])] ∧
  ∀ s : State, ∃ t, exec .xba s = .next t ∧ lowByte t.a = highByte s.a ∧ highByte t.a = lowByte s.a ∧ FlagsNZ (highByte s.a) t ∧
      Advances .xba s t ∧ Frame [.a, .flagN, .flagZ, .pc, .cycles] s t

/-! ## Arithmetic and logic (spec/43_arithmetic_logic.md) -/

/-- What ADC and SBC share: the operand is read, the carry, the accumulator and N, V, Z, C change, and a 16-bit decimal
operation uses a free value for V (rule R165, log 7). -/
def AddShape (i : Instr) (src : Src) (s : State) (dec : AddOut s.wM.bits) (t : State) : Prop :=
  (s.wM = .w8 → highByte t.a = highByte s.a) ∧ FlagsNZ (t.acc s.wM) t ∧ Advances i s t ∧
    t.nmiFlag = (readSrc src s.wM s).st.nmiFlag ∧
    (s.p.d = true → t.acc s.wM = dec.r ∧ t.p.c = dec.c ∧
      (s.wM = .w8 → t.p.v = dec.v) ∧ (s.wM = .w16 → t.p.v = Config.bcd16V s.draws)) ∧
    t.draws = (if s.p.d = true ∧ s.wM = .w16 then s.draws + 1 else s.draws) ∧
    Frame [.a, .flagN, .flagV, .flagZ, .flagC, .pc, .cycles, .nmiFlag, .draws] s t

/-- Rules R161, R231: ADC. In binary mode the result is the sum modulo 2^w, C its carry out, V the signed overflow; in
decimal mode it is `adc_bcd`, whose V at 16 bits is the free value of log 7. -/
def Obligations.AdcResult : Prop :=
  ∀ (src : Src) (s : State),
    let v := (readSrc src s.wM s).val
    ∃ t, exec (.adc src) s = .next t ∧ AddShape (.adc src) src s (adcBcd (s.acc s.wM) v s.p.c) t ∧
      (s.p.d = false →
        (t.acc s.wM).toNat = ((s.acc s.wM).toNat + v.toNat + one s.p.c) % 2 ^ s.wM.bits ∧
        (t.p.c = true ↔ 2 ^ s.wM.bits ≤ (s.acc s.wM).toNat + v.toNat + one s.p.c) ∧
        (t.p.v = true ↔ (s.acc s.wM).toInt + v.toInt + one s.p.c < -2 ^ (s.wM.bits - 1) ∨
          2 ^ (s.wM.bits - 1) ≤ (s.acc s.wM).toInt + v.toInt + one s.p.c))

/-- Rules R162, R232: SBC. In binary mode the result is the difference less one when C was clear, modulo 2^w, C the absence
of a borrow, V the signed overflow; in decimal mode it is `sbc_bcd`, whose V at 16 bits is the free value of log 7. -/
def Obligations.SbcResult : Prop :=
  ∀ (src : Src) (s : State),
    let v := (readSrc src s.wM s).val
    ∃ t, exec (.sbc src) s = .next t ∧ AddShape (.sbc src) src s (sbcBcd (s.acc s.wM) v s.p.c) t ∧
      (s.p.d = false →
        ((t.acc s.wM).toNat : Int) = ((s.acc s.wM).toNat - v.toNat - one (!s.p.c)) % 2 ^ s.wM.bits ∧
        (t.p.c = true ↔ v.toNat + one (!s.p.c) ≤ (s.acc s.wM).toNat) ∧
        (t.p.v = true ↔ (s.acc s.wM).toInt - v.toInt - one (!s.p.c) < -2 ^ (s.wM.bits - 1) ∨
          2 ^ (s.wM.bits - 1) ≤ (s.acc s.wM).toInt - v.toInt - one (!s.p.c)))

/-- Rules R233 to R235, the operation and the flags: AND, ORA and EOR for every operand form. -/
def Obligations.LogicResult : Prop :=
  ∀ (src : Src) (s : State),
    ReadsInto (.and src) src s.wM State.a .a (fun v => s.acc s.wM &&& v) s ∧
      ReadsInto (.ora src) src s.wM State.a .a (fun v => s.acc s.wM ||| v) s ∧
      ReadsInto (.eor src) src s.wM State.a .a (fun v => s.acc s.wM ^^^ v) s

/-- The instruction compares the operand `reg` with the one it reads: C exactly when `reg` is not below it, Z exactly when
they are equal, N the sign of the difference; nothing else. -/
def Compares (i : Instr) (src : Src) (W : Width) (reg : BitVec W.bits) (s : State) : Prop :=
  ∃ t, exec i s = .next t ∧ (t.p.c = true ↔ (readSrc src W s).val ≤ reg) ∧
    (t.p.z = true ↔ reg = (readSrc src W s).val) ∧ t.p.n = (reg - (readSrc src W s).val).msb ∧ Advances i s t ∧
    t.nmiFlag = (readSrc src W s).st.nmiFlag ∧ Frame [.flagN, .flagZ, .flagC, .pc, .cycles, .nmiFlag] s t

/-- Rules R236 to R239, the operation and the flags: CMP, CPX, CPY, and BIT, whose N and V come from the operand's two top
bits unless it is immediate, for every operand form. -/
def Obligations.CompareAndBitResult : Prop :=
  ∀ (src : Src) (s : State),
    Compares (.cmp src) src s.wM (s.acc s.wM) s ∧ Compares (.cpx src) src s.wX (s.xOp s.wX) s ∧
      Compares (.cpy src) src s.wX (s.yOp s.wX) s ∧
    ∃ t, exec (.bit src) s = .next t ∧ (t.p.z = true ↔ s.acc s.wM &&& (readSrc src s.wM s).val = 0) ∧
      (match src with
       | .imm _ => t.p.n = s.p.n ∧ t.p.v = s.p.v
       | .mem _ => t.p.n = (readSrc src s.wM s).val.getLsbD (s.wM.bits - 1) ∧
          t.p.v = (readSrc src s.wM s).val.getLsbD (s.wM.bits - 2)) ∧
      Advances (.bit src) s t ∧ t.nmiFlag = (readSrc src s.wM s).st.nmiFlag ∧
      Frame [.flagN, .flagV, .flagZ, .pc, .cycles, .nmiFlag] s t

/-- The value and the carry a shift or rotate of `m` gives: the bits of `m` and the carry-in as one string of w + 1 bits,
shifted by one (rules R168 to R171). -/
def shifted {w : Nat} (mnemonic : String) (m : BitVec w) (c : Bool) : Option (BitVec w × Bool) :=
  match mnemonic with
  | "ASL" => some ((m.concat false).setWidth w, m.getLsbD (w - 1))
  | "ROL" => some ((m.concat c).setWidth w, m.getLsbD (w - 1))
  | "LSR" => some ((BitVec.cons false m).extractLsb' 1 w, m.getLsbD 0)
  | "ROR" => some ((BitVec.cons c m).extractLsb' 1 w, m.getLsbD 0)
  | _ => none

/-- Rules R240 to R249 in accumulator mode and R242 to R245: INC, DEC, ASL, LSR, ROL, ROR on the accumulator and INX, INY,
DEX, DEY, at the current width. -/
def Obligations.RegisterModifyResult : Prop :=
  Encodings [(.inx, [0xE8]), (.iny, [0xC8]), (.dex, [0xCA]), (.dey, [0x88])] ∧
  ∀ s : State,
    (WritesRegister (.inc .acc) s.wM State.a .a (s.acc s.wM + 1) s ∧ WritesRegister (.dec .acc) s.wM State.a .a (s.acc s.wM - 1) s ∧
      WritesRegister .inx s.wX State.x .x (s.xOp s.wX + 1) s ∧ WritesRegister .iny s.wX State.y .y (s.yOp s.wX + 1) s ∧
      WritesRegister .dex s.wX State.x .x (s.xOp s.wX - 1) s ∧ WritesRegister .dey s.wX State.y .y (s.yOp s.wX - 1) s) ∧
    ∀ i ∈ [Instr.asl .acc, .lsr .acc, .rol .acc, .ror .acc],
      ∃ t r c, exec i s = .next t ∧ shifted i.mnemonic (s.acc s.wM) s.p.c = some (r, c) ∧ Written s.wM s.a t.a r ∧
        FlagsNZ r t ∧ t.p.c = c ∧ Advances i s t ∧ Frame [.a, .flagN, .flagZ, .flagC, .pc, .cycles] s t

/-- The instruction reads the operand at the memory form `m`, stores `f` of it at the same addresses and changes no
register; its flags are `g`. -/
def ModifiesMemory (i : Instr) (m : Mem) (l : List Part) (s : State) (f : BitVec s.wM.bits → BitVec s.wM.bits)
    (g : BitVec s.wM.bits → State → Prop) : Prop :=
  ∃ t, exec i s = .next t ∧
    (let r := resolve m s
     let d := readData s.wM r r.st
     StoredBytes (r.cells s.wM (f d.1)).reverse s t ∧ g d.1 t ∧ t.nmiFlag = d.2.nmiFlag ∧
       StoreFrame (.pc :: .cycles :: .nmiFlag :: l) (r.bytes s.wM) s t) ∧
    Advances i s t

/-- Rules R240, R241, R246 to R251 on memory, the operation and the flags: INC, DEC, the shifts and rotates, TSB and TRB, for
every memory form, the effective address resolved once and the high byte written back first. -/
def Obligations.MemoryModifyResult : Prop :=
  ∀ (m : Mem) (s : State),
    ModifiesMemory (.inc (.mem m)) m [.flagN, .flagZ] s (· + 1) (fun v t => FlagsNZ (v + 1) t) ∧
    ModifiesMemory (.dec (.mem m)) m [.flagN, .flagZ] s (· - 1) (fun v t => FlagsNZ (v - 1) t) ∧
    (∀ i ∈ [Instr.asl (.mem m), .lsr (.mem m), .rol (.mem m), .ror (.mem m)],
      ModifiesMemory i m [.flagN, .flagZ, .flagC] s
        (fun v => ((shifted i.mnemonic v s.p.c).getD (v, false)).1)
        (fun v t => FlagsNZ ((shifted i.mnemonic v s.p.c).getD (v, false)).1 t ∧
          t.p.c = ((shifted i.mnemonic v s.p.c).getD (v, false)).2)) ∧
    ModifiesMemory (.tsb m) m [.flagZ] s (fun v => v ||| s.acc s.wM) (fun v t => t.p.z = true ↔ s.acc s.wM &&& v = 0) ∧
    ModifiesMemory (.trb m) m [.flagZ] s (fun v => v &&& ~~~(s.acc s.wM)) (fun v t => t.p.z = true ↔ s.acc s.wM &&& v = 0)

/-! ## Control transfer (spec/44_control_transfer.md) -/

/-- The instruction branches by the 8-bit displacement `rel` exactly when `cond` holds, inside the program bank; it writes
no flag (rule R270). -/
def Branches (i : Instr) (rel : Byte) (cond : Prop) (s : State) : Prop :=
  ∃ t, exec i s = .next t ∧ Frame [.pc, .cycles] s t ∧
    (cond → (t.pc.toNat : Int) =
      (s.pc.toNat + 2 + (if rel.toNat < 0x80 then (rel.toNat : Int) else rel.toNat - 256)) % 65536) ∧
    (¬ cond → t.pc.toNat = (s.pc.toNat + 2) % 65536)

/-- Rules R270 to R280: the nine REL8 branches and BRL. -/
def Obligations.BranchResult : Prop :=
  (∀ rel : Byte, Encodings [(.bcc rel, [0x90, rel]), (.bcs rel, [0xB0, rel]), (.beq rel, [0xF0, rel]), (.bne rel, [0xD0, rel]),
    (.bmi rel, [0x30, rel]), (.bpl rel, [0x10, rel]), (.bvc rel, [0x50, rel]), (.bvs rel, [0x70, rel])]) ∧
  ∀ (s : State) (rel : Byte) (rel16 : Word),
    Branches (.bcc rel) rel (s.p.c = false) s ∧ Branches (.bcs rel) rel (s.p.c = true) s ∧
      Branches (.beq rel) rel (s.p.z = true) s ∧ Branches (.bne rel) rel (s.p.z = false) s ∧
      Branches (.bmi rel) rel (s.p.n = true) s ∧ Branches (.bpl rel) rel (s.p.n = false) s ∧
      Branches (.bvc rel) rel (s.p.v = false) s ∧ Branches (.bvs rel) rel (s.p.v = true) s ∧
      Branches (.bra rel) rel True s ∧
    ∃ t, exec (.brl rel16) s = .next t ∧ t.pc.toNat = (s.pc.toNat + 3 + rel16.toNat) % 65536 ∧ Frame [.pc, .cycles] s t

/-- Rules R281, R282: JMP stays in the program bank, the pointer of `(a)` in bank 0x00 and that of `(a,X)` in the program
bank; JML sets both, its pointer in bank 0x00; quiet pointers are read little-endian. -/
def Obligations.JumpResult : Prop :=
  ∀ (s : State) (a : Word) (al : Addr),
    (∃ t, exec (.jmp (.abs a)) s = .next t ∧ t.pc = a ∧ Frame [.pc, .cycles] s t) ∧
    (∃ t, exec (.jmp (.ind a)) s = .next t ∧ t.pc = (readWordW 0x00 a s).1 ∧ Frame [.pc, .cycles, .nmiFlag] s t ∧
      (Quiet s.cfg (addrOf 0x00 a) → Quiet s.cfg (addrOf 0x00 (a + 1)) →
        t.pc = wordOf (s.peek (addrOf 0x00 (a + 1))) (s.peek (addrOf 0x00 a)) ∧ t.nmiFlag = s.nmiFlag)) ∧
    (∃ t, exec (.jmp (.indX a)) s = .next t ∧ t.pc = (readWordW s.pbr (a + s.x) s).1 ∧ Frame [.pc, .cycles, .nmiFlag] s t ∧
      (Quiet s.cfg (addrOf s.pbr (a + s.x)) → Quiet s.cfg (addrOf s.pbr (a + s.x + 1)) →
        t.pc = wordOf (s.peek (addrOf s.pbr (a + s.x + 1))) (s.peek (addrOf s.pbr (a + s.x))) ∧ t.nmiFlag = s.nmiFlag)) ∧
    (∃ t, exec (.jml (.long al)) s = .next t ∧ t.pc = offsetOf al ∧ t.pbr = bankOf al ∧ Frame [.pc, .pbr, .cycles] s t) ∧
    ∃ t, exec (.jml (.indLong a)) s = .next t ∧ addrOf t.pbr t.pc = (readLongW 0x00 a s).1 ∧
      Frame [.pc, .pbr, .cycles, .nmiFlag] s t ∧
      (Quiet s.cfg (addrOf 0x00 a) → Quiet s.cfg (addrOf 0x00 (a + 1)) → Quiet s.cfg (addrOf 0x00 (a + 2)) →
        t.pc = wordOf (s.peek (addrOf 0x00 (a + 1))) (s.peek (addrOf 0x00 a)) ∧ t.pbr = s.peek (addrOf 0x00 (a + 2)) ∧
          t.nmiFlag = s.nmiFlag)

/-- Rules R283, R284: JSR and JSL push the address of their own last byte, high byte first, JSL after the program bank; JSR
of opcode 20 by the legacy rule, the others with the 16-bit stack pointer and the page restored at the end. -/
def Obligations.CallResult : Prop :=
  ∀ (s : State) (a : Word) (al : Addr),
    (∃ t, exec (.jsr (.abs a)) s = .next t ∧ t.pc = a ∧ t.sp = legacyDown s 2 ∧
      StoredBytes (legacyWord s 0 (s.pc + 2)) s t ∧
      StoreFrame [.pc, .sp, .cycles] ((legacyWord s 0 (s.pc + 2)).map Prod.fst) s t) ∧
    (∃ t, exec (.jsr (.indX a)) s = .next t ∧ t.pc = (readWordW s.pbr (a + s.x) (push16N (s.pc + 2) s)).1 ∧
      t.sp = pageFixed s (s.sp - 2) ∧ StoredBytes (newWord s 0 (s.pc + 2)) s t ∧
      StoreFrame [.pc, .sp, .cycles, .nmiFlag] ((newWord s 0 (s.pc + 2)).map Prod.fst) s t) ∧
    ∃ t, exec (.jsl al) s = .next t ∧ t.pc = offsetOf al ∧ t.pbr = bankOf al ∧ t.sp = pageFixed s (s.sp - 3) ∧
      StoredBytes ((newSlot s 0, s.pbr) :: newWord s 1 (s.pc + 3)) s t ∧
      StoreFrame [.pc, .pbr, .sp, .cycles] (((newSlot s 0, s.pbr) :: newWord s 1 (s.pc + 3)).map Prod.fst) s t

/-- Rules R285, R286: RTS pulls the program counter and adds one inside the bank; RTL does so with the 16-bit stack pointer
and then pulls the program bank. -/
def Obligations.ReturnResult : Prop :=
  Encodings [(.rts, [0x60]), (.rtl, [0x6B])] ∧
  ∀ s : State,
    (∃ t, exec .rts s = .next t ∧ t.pc = (pull16 s).1 + 1 ∧ t.sp = legacyUp s 2 ∧ Frame [.pc, .sp, .cycles, .nmiFlag] s t ∧
      (Quiet s.cfg (legacyTop s 1) → Quiet s.cfg (legacyTop s 2) →
        t.pc = wordOf (s.peek (legacyTop s 2)) (s.peek (legacyTop s 1)) + 1 ∧ t.nmiFlag = s.nmiFlag)) ∧
    ∃ t, exec .rtl s = .next t ∧ t.pc = (pull16N s).1 + 1 ∧ t.pbr = (pull8N (pull16N s).2).1 ∧
      t.sp = pageFixed s (s.sp + 3) ∧ Frame [.pc, .pbr, .sp, .cycles, .nmiFlag] s t ∧
      (Quiet s.cfg (newTop s 1) → Quiet s.cfg (newTop s 2) → Quiet s.cfg (newTop s 3) →
        t.pc = wordOf (s.peek (newTop s 2)) (s.peek (newTop s 1)) + 1 ∧ t.pbr = s.peek (newTop s 3) ∧
          t.nmiFlag = s.nmiFlag)

/-- Rules R283 to R286: with the stack bytes in RAM, RTS after JSR and RTL after JSL continue after the call, with the
program bank and the stack pointer as before it; in emulation mode RTL where the three bytes of the call leave the stack
pointer in page 1. -/
def Obligations.CallsReturn : Prop :=
  ∀ (s : State) (a : Word) (al : Addr), Inv s →
    ((∀ k, k < 2 → InWram (legacySlot s k)) → ¬ SameByte s.cfg (legacySlot s 0) (legacySlot s 1) →
      ∃ t u, exec (.jsr (.abs a)) s = .next t ∧ exec .rts t = .next u ∧ u.pc = s.pc + 3 ∧ u.pbr = s.pbr ∧ u.sp = s.sp) ∧
    ((∀ k, k < 3 → InWram (newSlot s k)) → s.e = false ∨ 3 ≤ (lowByte s.sp).toNat →
      (∀ j k, j < k → k < 3 → ¬ SameByte s.cfg (newSlot s j) (newSlot s k)) →
      ∃ t u, exec (.jsl al) s = .next t ∧ exec .rtl t = .next u ∧ u.pc = s.pc + 4 ∧ u.pbr = s.pbr ∧ u.sp = s.sp)

/-! ## Stack, status, mode and system instructions (spec/45_stack_status_system.md) -/

/-- The instruction pushes the bytes listed, leaving the stack pointer at `sp`; nothing else. -/
def Pushes (i : Instr) (l : List (Addr × Byte)) (sp : Word) (s : State) : Prop :=
  ∃ t, exec i s = .next t ∧ t.sp = sp ∧ StoredBytes l s t ∧ Advances i s t ∧ StoreFrame [.sp, .pc, .cycles] (l.map Prod.fst) s t

/-- Rules R300, R305 to R309, R311: the legacy pushes, PHA, PHX and PHY at their current width; the byte PHP pushes has bits
5 and 4 set in emulation mode. -/
def Obligations.LegacyPushResult : Prop :=
  Encodings [(.pha, [0x48]), (.phx, [0xDA]), (.phy, [0x5A]), (.php, [0x08]), (.phb, [0x8B]), (.phk, [0x4B])] ∧
  ∀ s : State,
    Pushes .php [(legacySlot s 0, s.p.byte)] (legacyDown s 1) s ∧ Pushes .phb [(legacySlot s 0, s.dbr)] (legacyDown s 1) s ∧
      Pushes .phk [(legacySlot s 0, s.pbr)] (legacyDown s 1) s ∧
    (EmulationInv s → s.e = true → s.p.byte &&& 0x30 = 0x30) ∧
    (s.wM = .w8 → Pushes .pha [(legacySlot s 0, lowByte s.a)] (legacyDown s 1) s) ∧
    (s.wM = .w16 → Pushes .pha (legacyWord s 0 s.a) (legacyDown s 2) s) ∧
    (s.wX = .w8 → Pushes .phx [(legacySlot s 0, lowByte s.x)] (legacyDown s 1) s ∧
      Pushes .phy [(legacySlot s 0, lowByte s.y)] (legacyDown s 1) s) ∧
    (s.wX = .w16 → Pushes .phx (legacyWord s 0 s.x) (legacyDown s 2) s ∧
      Pushes .phy (legacyWord s 0 s.y) (legacyDown s 2) s)

/-- Rules R302, R304, R310, R318 to R320: PHD, PEA and PER push 16 bits with the 16-bit stack pointer and restore its page
in emulation mode; PEI pushes the little-endian word its direct-page operand holds, without the emulation page wrap. -/
def Obligations.NewPushResult : Prop :=
  ∀ (s : State) (v : Word) (d : Byte),
    Encodings [(.phd, [0x0B]), (.pea v, [0xF4, lowByte v, highByte v]), (.per v, [0x62, lowByte v, highByte v])] ∧
    Pushes .phd (newWord s 0 s.d) (pageFixed s (s.sp - 2)) s ∧ Pushes (.pea v) (newWord s 0 v) (pageFixed s (s.sp - 2)) s ∧
      Pushes (.per v) (newWord s 0 (s.pc + 3 + v)) (pageFixed s (s.sp - 2)) s ∧
    (∃ t, exec (.pei d) s = .next t ∧ t.sp = pageFixed s (s.sp - 2) ∧ Advances (.pei d) s t ∧
      StoreFrame [.sp, .pc, .cycles, .nmiFlag] [newSlot s 0, newSlot s 1] s t) ∧
    (Quiet s.cfg (dpAddr s d.toNat false) → Quiet s.cfg (dpAddr s (d.toNat + 1) false) →
      Pushes (.pei d) (newWord s 0 (wordOf (s.peek (dpAddr s (d.toNat + 1) false)) (s.peek (dpAddr s d.toNat false))))
        (pageFixed s (s.sp - 2)) s)

/-- The instruction writes the operand `v` it pulls to a register and sets N and Z from it, leaving the stack pointer at
`sp`; nothing else; where the addresses `a1` (of its low byte) and `a2` are quiet, `v` is what they hold. -/
def Pulls (i : Instr) (W : Width) (reg : State → Word) (part : Part) (v : BitVec W.bits × State) (a1 a2 : Addr) (sp : Word)
    (s : State) : Prop :=
  ∃ t, exec i s = .next t ∧ t.sp = sp ∧ Written W (reg s) (reg t) v.1 ∧ FlagsNZ v.1 t ∧ Advances i s t ∧
    t.nmiFlag = v.2.nmiFlag ∧ Frame [part, .flagN, .flagZ, .sp, .pc, .cycles, .nmiFlag] s t ∧
    (Quiet s.cfg a1 → (W = .w16 → Quiet s.cfg a2) →
      v.1 = W.ofBytes (s.peek a1) (s.peek a2) ∧ v.2.nmiFlag = s.nmiFlag)

/-- Rules R301, R303, R304, R312 to R314, R316, R317: PLA, PLX and PLY at their current width by the legacy rule, PLD and
PLB with the 16-bit stack pointer and the page restored. -/
def Obligations.PullResult : Prop :=
  Encodings [(.pla, [0x68]), (.plx, [0xFA]), (.ply, [0x7A]), (.plb, [0xAB]), (.pld, [0x2B])] ∧
  ∀ s : State,
    Pulls .pla s.wM State.a .a (pullW s.wM s) (legacyTop s 1) (legacyTop s 2) (legacyUp s (if s.wM = .w8 then 1 else 2)) s ∧
      Pulls .plx s.wX State.x .x (pullW s.wX s) (legacyTop s 1) (legacyTop s 2)
        (legacyUp s (if s.wX = .w8 then 1 else 2)) s ∧
      Pulls .ply s.wX State.y .y (pullW s.wX s) (legacyTop s 1) (legacyTop s 2)
        (legacyUp s (if s.wX = .w8 then 1 else 2)) s ∧
      Pulls .pld .w16 State.d .d (pull16N s) (newTop s 1) (newTop s 2) (pageFixed s (s.sp + 2)) s ∧
    ∃ t, exec .plb s = .next t ∧ t.dbr = (pull8N s).1 ∧ t.sp = pageFixed s (s.sp + 1) ∧ FlagsNZ t.dbr t ∧
      Advances .plb s t ∧ Frame [.dbr, .flagN, .flagZ, .sp, .pc, .cycles, .nmiFlag] s t ∧
      (Quiet s.cfg (newTop s 1) → t.dbr = s.peek (newTop s 1) ∧ t.nmiFlag = s.nmiFlag)

/-- The status byte `v` has been written whole from `s` to `t` (rule R28), with the width fix-up of R34 and R36: in
emulation mode M and X stay set and the stack stays in page 1; where X is set the index high bytes are zero. -/
def StatusWritten (v : Byte) (s t : State) : Prop :=
  t.p.n = v.getLsbD 7 ∧ t.p.v = v.getLsbD 6 ∧ t.p.d = v.getLsbD 3 ∧ t.p.i = v.getLsbD 2 ∧ t.p.z = v.getLsbD 1 ∧
    t.p.c = v.getLsbD 0 ∧ t.p.m = (s.e || v.getLsbD 5) ∧ t.p.x = (s.e || v.getLsbD 4) ∧
    (t.p.x = true → t.x = wordOf 0x00 (lowByte s.x) ∧ t.y = wordOf 0x00 (lowByte s.y)) ∧
    (t.p.x = false → t.x = s.x ∧ t.y = s.y)

/-- The parts a write of the whole status byte may change, the stack pointer apart. -/
def statusParts : List Part := [.flagN, .flagV, .flagM, .flagX, .flagD, .flagI, .flagZ, .flagC, .x, .y]

/-- Rules R37, R315, R328, R329: REP clears and SEP sets exactly the flags of the mask, bit 0 being the logical carry, and
PLP writes the byte it pulls, each with the width fix-up; the emulation flag never changes. -/
def Obligations.StatusByteResult : Prop :=
  ∀ (s : State) (mask : Byte),
    Encodings [(.rep mask, [0xC2, mask]), (.sep mask, [0xE2, mask]), (.plp, [0x28])] ∧
    (∃ t, exec (.rep mask) s = .next t ∧ StatusWritten (s.p.byte &&& ~~~mask) s t ∧ t.sp = pageFixed s s.sp ∧
      Advances (.rep mask) s t ∧ Frame (.sp :: .pc :: .cycles :: statusParts) s t) ∧
    (∃ t, exec (.sep mask) s = .next t ∧ StatusWritten (s.p.byte ||| mask) s t ∧ t.sp = pageFixed s s.sp ∧
      Advances (.sep mask) s t ∧ Frame (.sp :: .pc :: .cycles :: statusParts) s t) ∧
    ∃ t, exec .plp s = .next t ∧ StatusWritten (pull8 s).1 s t ∧
      (Quiet s.cfg (legacyTop s 1) → (pull8 s).1 = s.peek (legacyTop s 1)) ∧
      t.sp = pageFixed s (legacyUp s 1) ∧ Advances .plp s t ∧
      Frame (.sp :: .pc :: .cycles :: .nmiFlag :: statusParts) s t

/-- Rules R32, R34, R330: XCE exchanges the carry and the emulation flag and toggles the selector, so that the two physical
bits of R30 keep their content; entering emulation forces M, X, the stack's page and the index high bytes, and leaving it
keeps M and X, and no register moves. -/
def Obligations.XceResult : Prop :=
  Encodings [(.xce, [0xFB])] ∧
  ∀ s : State, ∃ t, exec .xce s = .next t ∧ t.p.c = s.e ∧ t.e = s.p.c ∧ t.sel ≠ s.sel ∧
    t.rawBit0 = s.rawBit0 ∧ t.shadow = s.shadow ∧
    (t.e = true → t.p.m = true ∧ t.p.x = true ∧ t.sp = wordOf 0x01 (lowByte s.sp)) ∧
    (t.e = false → t.p.m = s.p.m ∧ t.p.x = s.p.x ∧ t.sp = s.sp) ∧
    (t.p.x = true → t.x = wordOf 0x00 (lowByte s.x) ∧ t.y = wordOf 0x00 (lowByte s.y)) ∧
    (t.p.x = false → t.x = s.x ∧ t.y = s.y) ∧ Advances .xce s t ∧
    Frame [.flagC, .flagM, .flagX, .e, .sel, .sp, .x, .y, .pc, .cycles] s t

/-- The instruction gives the one flag `part` the value `v`; nothing else. -/
def SetsFlag (i : Instr) (flag : Status → Bool) (part : Part) (v : Bool) (s : State) : Prop :=
  ∃ t, exec i s = .next t ∧ flag t.p = v ∧ Advances i s t ∧ Frame [part, .pc, .cycles] s t

/-- Rules R321 to R327, R331, R332: the single-flag instructions, NOP, and WDM, which only advances past its two bytes. -/
def Obligations.FlagAndNopResult : Prop :=
  Encodings [(.clc, [0x18]), (.sec, [0x38]), (.cli, [0x58]), (.sei, [0x78]), (.cld, [0xD8]), (.sed, [0xF8]), (.clv, [0xB8]),
    (.nop, [0xEA])] ∧
  ∀ (s : State) (b : Byte),
    SetsFlag .clc Status.c .flagC false s ∧ SetsFlag .sec Status.c .flagC true s ∧ SetsFlag .cli Status.i .flagI false s ∧
      SetsFlag .sei Status.i .flagI true s ∧ SetsFlag .cld Status.d .flagD false s ∧ SetsFlag .sed Status.d .flagD true s ∧
      SetsFlag .clv Status.v .flagV false s ∧
    (∃ t, exec .nop s = .next t ∧ t.pc = s.pc + 1 ∧ Frame [.pc, .cycles] s t) ∧
    ∃ t, exec (.wdm b) s = .next t ∧ t.pc = s.pc + 2 ∧ Frame [.pc, .cycles] s t

/-- Rules R333, R334, R381, R445: STP stops and WAI waits; a stopped processor stays as it is in every tick without reset or
DMA, whatever the interrupt inputs, and a waiting one as long as no interrupt condition is there; only the counter and the
inputs move, whose pulses are latched (R421) and which are used up; a PPU device is told the cycles of
each (R384). -/
def Obligations.StopAndWait : Prop :=
  (∀ s : State,
    (∃ t, exec .stp s = .next t ∧ t.stopped = true ∧ Advances .stp s t ∧ Frame [.stopped, .pc, .cycles] s t ∧
      (s.cfg.ppuExternal = true → t.ppuExt = Config.ppuTick s.ppuExt (t.cycles - s.cycles))) ∧
    (∃ t, exec .wai s = .next t ∧ t.waiting = true ∧ Advances .wai s t ∧ Frame [.waiting, .pc, .cycles] s t ∧
      (s.cfg.ppuExternal = true → t.ppuExt = Config.ppuTick s.ppuExt (t.cycles - s.cycles)))) ∧
  ∀ s : State, s.fatal = none → s.env.resetLine = false → s.dmaActive = false →
    s.stopped = true ∨ (s.waiting = true ∧ s.nmiPending = false ∧ s.env.nmiEdge = false ∧ s.env.irqLine = false) →
    ∃ t, step s = .next t ∧ t.cycles = s.cycles + Config.idleStepCycles ∧
      t.nmiFlag = (s.nmiFlag || s.env.vblankStart) ∧ t.nmiPending = (s.nmiPending || s.env.nmiEdge) ∧
      t.inputs = s.inputs.tail ∧ (s.cfg.ppuExternal = true → t.ppuExt = Config.ppuTick s.ppuExt Config.idleStepCycles) ∧
      ChangesOnly [.cycles, .inputs, .nmiFlag, .nmiPending] s t

/-- The base count of the opcode of a block move (rules R337, R404). -/
def moveOpcodeCycles (cfg : Cfg) : MoveDir → Nat
  | .up => baseCycles cfg 0x54
  | .down => baseCycles cfg 0x44

/-- Rules R335 to R337: the first byte of MVN and MVP: the latch, the data bank, one byte moved from the source bank at X
to the destination bank at Y, the index registers one step in their width, the 16-bit count less one, and the end of the
move when it passes zero. -/
def Obligations.BlockMoveStarts : Prop :=
  ∀ (s : State) (dst src : Byte) (dir : MoveDir),
    let i := match dir with
      | .up => Instr.mvn dst src
      | .down => Instr.mvp dst src
    ∃ t, exec i s = .next t ∧ t.dbr = dst ∧ t.mv = { src := src, dst := dst, dir := dir } ∧ t.a = s.a - 1 ∧
      (t.moving = true ↔ s.a ≠ 0) ∧ t.pc = (if s.a = 0 then s.pc + 3 else s.pc) ∧ t.cycles = s.cycles + moveOpcodeCycles s.cfg dir ∧
      (s.cfg.baseCycles = none → t.cycles = s.cycles + 7) ∧
      (match dir with
       | .up => Written s.wX s.x t.x (s.wX.take s.x + 1) ∧ Written s.wX s.y t.y (s.wX.take s.y + 1)
       | .down => Written s.wX s.x t.x (s.wX.take s.x - 1) ∧ Written s.wX s.y t.y (s.wX.take s.y - 1)) ∧
      (Quiet s.cfg (addrOf src s.x) → StoredBytes [(addrOf dst s.y, s.peek (addrOf src s.x))] s t) ∧
      StoreFrame [.a, .x, .y, .dbr, .mv, .moving, .pc, .cycles, .nmiFlag] [addrOf dst s.y] s t

/-- One byte of the block move in progress in `s` (rule R337): moved from the source bank at X to the destination bank at
Y, the index registers one step in their width, the 16-bit count less one; when it passes zero the move ends and the
program counter goes past the instruction. -/
def MovesOneByte (s t : State) : Prop :=
  t.a = s.a - 1 ∧ (t.moving = true ↔ s.a ≠ 0) ∧ t.pc = (if s.a = 0 then s.pc + 3 else s.pc) ∧
    (match s.mv.dir with
     | .up => Written s.wX s.x t.x (s.wX.take s.x + 1) ∧ Written s.wX s.y t.y (s.wX.take s.y + 1)
     | .down => Written s.wX s.x t.x (s.wX.take s.x - 1) ∧ Written s.wX s.y t.y (s.wX.take s.y - 1)) ∧
    (Quiet s.cfg (addrOf s.mv.src s.x) → StoredBytes [(addrOf s.mv.dst s.y, s.peek (addrOf s.mv.src s.x))] s t)

/-- Rule R337: a move in progress with `A` bytes still to count ends after `A + 1` steps, not before, with `A` 0xFFFF and the
program counter past the instruction; a step moves one byte; and a tick with no interrupt, reset or DMA is one such step,
of the base count of the instruction, 7 cycles by default. -/
def Obligations.BlockMoveEnds : Prop :=
  (∀ s : State, s.moving = true →
    (∀ k, k ≤ s.a.toNat → (moveStep^[k] s).moving = true ∧ (moveStep^[k] s).pc = s.pc) ∧
    (moveStep^[s.a.toNat + 1] s).moving = false ∧ (moveStep^[s.a.toNat + 1] s).a = 0xFFFF ∧
      (moveStep^[s.a.toNat + 1] s).pc = s.pc + 3 ∧
    MovesOneByte s (moveStep s) ∧ StoreFrame [.a, .x, .y, .moving, .pc, .nmiFlag] [addrOf s.mv.dst s.y] s (moveStep s)) ∧
  ∀ s : State, CoreActs s → s.nmiPending = false → s.env.nmiEdge = false → (s.env.irqLine = true → s.p.i = true) →
    (s.waiting = true → s.env.irqLine = true) → s.moving = true →
    let s' := { latchInputs s.env s.nextInputs with waiting := false }
    step s = .next (spend (moveCycles s) (moveStep s')) ∧
    (moveCycles s = moveOpcodeCycles s.cfg s.mv.dir ∧ (s.cfg.baseCycles = none → moveCycles s = 7)) ∧
    ∃ t, step s = .next t ∧ MovesOneByte s t ∧ t.cycles = s.cycles + moveCycles s ∧
      StoreFrame [.a, .x, .y, .moving, .pc, .cycles, .nmiFlag, .inputs, .waiting] [addrOf s.mv.dst s.y] s t

/-! ## Which instruction may change what -/

/-- Rule R20: D, the banks, the emulation flag and its selector are written only by the instructions the table of registers
names. -/
def Obligations.RegisterWriters : Prop :=
  ∀ (i : Instr) (s t : State), exec i s = .next t →
    (t.d ≠ s.d → i.mnemonic ∈ ["TCD", "PLD"]) ∧
    (t.pbr ≠ s.pbr → i.mnemonic ∈ ["JML", "JSL", "RTL", "RTI", "BRK", "COP"]) ∧
    (t.dbr ≠ s.dbr → i.mnemonic ∈ ["PLB", "MVN", "MVP"]) ∧
    (t.e ≠ s.e ∨ t.sel ≠ s.sel → i.mnemonic = "XCE") ∧
    (t.a ≠ s.a → i.mnemonic ∈ ["LDA", "ADC", "SBC", "AND", "ORA", "EOR", "INC", "DEC", "ASL", "LSR", "ROL", "ROR", "PLA",
      "TXA", "TYA", "TDC", "TSC", "XBA", "MVN", "MVP"]) ∧
    (t.stopped ≠ s.stopped → i.mnemonic = "STP") ∧ (t.waiting ≠ s.waiting → i.mnemonic = "WAI")

/-- The instructions that may write N (the table of rule R29). -/
def writesN : List String :=
  ["LDA", "LDX", "LDY", "PLA", "PLX", "PLY", "PLB", "PLD", "TAX", "TAY", "TXA", "TYA", "TXY", "TYX", "TSX", "TCD", "TDC", "TSC",
    "XBA", "ADC", "SBC", "AND", "ORA", "EOR", "CMP", "CPX", "CPY", "BIT", "INC", "DEC", "INX", "INY", "DEX", "DEY", "ASL", "LSR",
    "ROL", "ROR", "REP", "SEP", "PLP", "RTI"]

/-- Rule R29: each flag is written only by the instructions its table names (the interrupt entries of BRK and COP for D
and I). -/
def Obligations.FlagWriters : Prop :=
  ∀ (i : Instr) (s t : State), exec i s = .next t →
    (t.p.n ≠ s.p.n → i.mnemonic ∈ writesN) ∧ (t.p.z ≠ s.p.z → i.mnemonic ∈ "TSB" :: "TRB" :: writesN) ∧
    (t.p.v ≠ s.p.v → i.mnemonic ∈ ["ADC", "SBC", "BIT", "CLV", "REP", "SEP", "PLP", "RTI"]) ∧
    (t.p.m ≠ s.p.m → i.mnemonic ∈ ["REP", "SEP", "PLP", "RTI", "XCE"]) ∧
    (t.p.x ≠ s.p.x → i.mnemonic ∈ ["REP", "SEP", "PLP", "RTI", "XCE"]) ∧
    (t.p.d ≠ s.p.d → i.mnemonic ∈ ["SED", "CLD", "REP", "SEP", "PLP", "RTI", "BRK", "COP"]) ∧
    (t.p.i ≠ s.p.i → i.mnemonic ∈ ["SEI", "CLI", "REP", "SEP", "PLP", "RTI", "BRK", "COP"]) ∧
    (t.p.c ≠ s.p.c → i.mnemonic ∈ ["ADC", "SBC", "CMP", "CPX", "CPY", "ASL", "LSR", "ROL", "ROR", "CLC", "SEC", "XCE",
      "REP", "SEP", "PLP", "RTI"])

/-- Rules R33, R34, R36, R441: whatever state they start in, the writers of `P` or `E` leave M and X set and the stack in
page 1 where the machine is in emulation mode, and zero index high bytes where X is set; and in emulation mode both widths
are 8. -/
def Obligations.WritersOfModeFixWidths : Prop :=
  (∀ (i : Instr) (s t : State), i.mnemonic ∈ ["REP", "SEP", "PLP", "RTI", "XCE"] → exec i s = .next t →
    EmulationInv t ∧ IndexInv t) ∧
  ∀ s : State, (s.wM = .w8 ↔ s.e = true ∨ s.p.m = true) ∧ (s.wX = .w8 ↔ s.e = true ∨ s.p.x = true)

/-! ## Interrupts and reset (spec/60_exceptions.md, spec/70_reset_and_hazards.md) -/

/-- Rules R424, R430, R431, R84: BRK and COP take their exception: the frame with the address after the signature byte and
the status byte as it is, and the vector of the current mode. -/
def Obligations.SoftwareInterruptResult : Prop :=
  ∀ (s : State) (sig : Byte),
    Encodings [(.brk sig, [0x00, sig]), (.cop sig, [0x02, sig])] ∧
    (∃ t, exec (.brk sig) s = .next t ∧ Enters (s.pc + 2) s.p.byte (if s.e then 0xFFFE else 0xFFE6) [] s t ∧
      (DefaultCycles s → t.cycles = s.cycles + if s.e then 7 else 8)) ∧
    ∃ t, exec (.cop sig) s = .next t ∧ Enters (s.pc + 2) s.p.byte (if s.e then 0xFFF4 else 0xFFE4) [] s t ∧
      (DefaultCycles s → t.cycles = s.cycles + if s.e then 7 else 8)

/-- Rules R422 to R425: in a tick in which the core acts a pending NMI is taken whatever `P.I` is, and clears the request;
an IRQ is taken when no NMI is pending and `P.I` is clear. The saved address is that of the next instruction, the saved
status has its break bit clear in emulation mode, a wait and a block move end. -/
def Obligations.HardwareInterruptsAreTaken : Prop :=
  ∀ s : State, CoreActs s →
    (s.nmiPending = true ∨ s.env.nmiEdge = true →
      ∃ t, step s = .next t ∧ t.nmiPending = false ∧ t.waiting = false ∧ t.moving = false ∧
        Enters s.pc (if s.e then s.p.byte &&& 0xEF else s.p.byte) (if s.e then 0xFFFA else 0xFFEA)
          [.nmiPending, .waiting, .moving, .inputs, .nmiFlag] s t ∧
        t.cycles = s.cycles + if s.e then 7 else 8) ∧
    (s.nmiPending = false → s.env.nmiEdge = false → s.env.irqLine = true → s.p.i = false →
      ∃ t, step s = .next t ∧ t.waiting = false ∧ t.moving = false ∧
        Enters s.pc (if s.e then s.p.byte &&& 0xEF else s.p.byte) (if s.e then 0xFFFE else 0xFFEE)
          [.waiting, .moving, .inputs, .nmiFlag] s t ∧
        t.cycles = s.cycles + if s.e then 7 else 8)

/-- Rule R432: RTI pulls the status byte, with the width fix-up, then the program counter, with no addition, then in native
mode the program bank. -/
def Obligations.RtiResult : Prop :=
  Encodings [(.rti, [0x40])] ∧
  ∀ s : State, ∃ t, exec .rti s = .next t ∧ StatusWritten (pull8 s).1 s t ∧
    Frame (.sp :: .pc :: .pbr :: .cycles :: .nmiFlag :: statusParts) s t ∧ (s.e = true → t.pbr = s.pbr) ∧
    (EmulationInv s → t.sp = legacyUp s (if s.e then 3 else 4)) ∧
    (EmulationInv s → (∀ k, 1 ≤ k → k ≤ 4 → Quiet s.cfg (legacyTop s k)) →
      (pull8 s).1 = s.peek (legacyTop s 1) ∧ t.pc = wordOf (s.peek (legacyTop s 3)) (s.peek (legacyTop s 2)) ∧
        (s.e = false → t.pbr = s.peek (legacyTop s 4)) ∧ t.nmiFlag = s.nmiFlag)

/-- Rules R424, R432: with the frame in RAM, RTI after BRK continues after the signature byte with the status, the
registers, the stack pointer and, in native mode, the program bank as they were before BRK. -/
def Obligations.InterruptReturns : Prop :=
  ∀ (s : State) (sig : Byte), Inv s → (∀ k, k < 4 → InWram (legacySlot s k)) →
    (∀ j k, j < k → k < 4 → ¬ SameByte s.cfg (legacySlot s j) (legacySlot s k)) →
    ∃ t u, exec (.brk sig) s = .next t ∧ exec .rti t = .next u ∧ u.pc = s.pc + 2 ∧ u.p = s.p ∧ u.sp = s.sp ∧
      u.pbr = (if s.e then 0x00 else s.pbr) ∧ u.a = s.a ∧ u.x = s.x ∧ u.y = s.y ∧ u.d = s.d ∧ u.dbr = s.dbr ∧ u.e = s.e

/-- Rule R426: an interrupt condition, masked or not, ends a wait: the tick is the one the same machine would take were it
not waiting, and the next instruction is executed where the condition is a masked IRQ. -/
def Obligations.InterruptConditionEndsWait : Prop :=
  ∀ s : State, CoreActs s → s.waiting = true →
    s.nmiPending = true ∨ s.env.nmiEdge = true ∨ s.env.irqLine = true →
    step s = step { s with waiting := false } ∧
    (s.nmiPending = false → s.env.nmiEdge = false → s.p.i = true → s.moving = false →
      step s = runInstruction { s with inputs := s.inputs.tail, nmiFlag := s.nmiFlag || s.env.vblankStart, waiting := false })

/-- Rules R460, R461: a reset tick sets what the procedure writes, the program counter from the reset vector, and keeps
what it does not write: A, the low index bytes, the four result flags and every quiet byte but MDMAEN and HDMAEN.
That the bytes of the PPU latch array and a cartridge's own state are among what it keeps is the model's choice (log 23). -/
def Obligations.ResetResult : Prop :=
  ∀ s : State, s.fatal = none → s.env.resetLine = true →
    ∃ t, step s = .next t ∧ t.e = true ∧ t.sel = .selCarry ∧ t.p = { s.p with m := true, x := true, i := true, d := false } ∧
      t.x = wordOf 0x00 (lowByte s.x) ∧ t.y = wordOf 0x00 (lowByte s.y) ∧ highByte t.sp = 0x01 ∧ t.d = 0x0000 ∧
      t.dbr = 0x00 ∧ t.pbr = 0x00 ∧ t.stopped = false ∧ t.waiting = false ∧ t.moving = false ∧ t.nmiPending = false ∧
      t.nmiFlag = false ∧ t.dmaActive = false ∧ t.cycles = 0 ∧ t.pc = wordAt s 0xFFFC ∧
      (MemoryInv s → t.ireg mdmaenKey = 0x00 ∧ t.ireg hdmaenKey = 0x00) ∧ MemoryKept [0x00420B, 0x00420C] s t ∧
      ChangesOnly [.e, .sel, .flagM, .flagX, .flagI, .flagD, .x, .y, .sp, .d, .dbr, .pbr, .pc, .stopped, .waiting, .moving,
        .nmiPending, .nmiFlag, .ch, .mem, .cycles, .inputs, .draws] s t

/-- Rule R46: what the spec states of the machine after reset. -/
def Obligations.PowerOnState : Prop :=
  State.reset.e = true ∧ State.reset.sel = .selCarry ∧ State.reset.p.m = true ∧ State.reset.p.x = true ∧
    State.reset.p.i = true ∧ State.reset.p.d = false ∧ highByte State.reset.x = 0x00 ∧ highByte State.reset.y = 0x00 ∧
    highByte State.reset.sp = 0x01 ∧ State.reset.d = 0x0000 ∧ State.reset.dbr = 0x00 ∧ State.reset.pbr = 0x00 ∧
    State.reset.pc = wordAt State.reset 0xFFFC ∧ State.reset.stopped = false ∧ State.reset.waiting = false ∧
    State.reset.moving = false ∧ State.reset.fatal = none ∧ State.reset.cycles = 0 ∧ State.reset.nmiPending = false ∧
    State.reset.nmiFlag = false ∧ State.reset.dmaActive = false ∧ State.reset.ireg mdmaenKey = 0x00 ∧
    State.reset.ireg hdmaenKey = 0x00

/-! ## DMA (spec/46_dma_controller.md) -/

/-- The patterns of the eight modes of a channel (rule R353). -/
def modePattern : Nat → List Byte
  | 0 => [0]
  | 1 => [0, 1]
  | 2 => [0, 0]
  | 3 => [0, 0, 1, 1]
  | 4 => [0, 1, 2, 3]
  | 5 => [0, 1, 0, 1]
  | 6 => [0, 0]
  | _ => [0, 0, 1, 1]

/-- The byte `v` in MDMAEN has made exactly the channels of its set bits active, each latched fresh from its registers
(rules R43, R352). -/
def StartsChannels (v : Byte) (s t : State) : Prop :=
  ∀ n : Fin 8,
    (v.getLsbD n.val = false → t.ch[n] = { s.ch[n] with active := false }) ∧
    (v.getLsbD n.val = true →
      let c := t.ch[n]
      let p := s.peek (channelReg n 0)
      c.active = true ∧ c.idx = 0 ∧ (c.dir = .bToA ↔ p.getLsbD 7 = true) ∧ c.indirect = p.getLsbD 6 ∧
        (c.stride = .increment ↔ p.getLsbD 4 = false ∧ p.getLsbD 3 = false) ∧
        (c.stride = .decrement ↔ p.getLsbD 4 = true ∧ p.getLsbD 3 = false) ∧
        c.format = formatOfMode (p.toNat % 8) ∧ c.format.pattern = modePattern (p.toNat % 8) ∧
        c.bOff = s.peek (channelReg n 1) ∧
        c.aAddr.toNat = (s.peek (channelReg n 4)).toNat * 65536 + (s.peek (channelReg n 3)).toNat * 256 +
          (s.peek (channelReg n 2)).toNat ∧
        c.count.toNat = (s.peek (channelReg n 6)).toNat * 256 + (s.peek (channelReg n 5)).toNat)

/-- The store of `v` by `i` through the memory form `m` starts the channels if one of its bytes is stored to MDMAEN. -/
def StoreStarts (i : Instr) (m : Mem) (W : Width) (v : BitVec W.bits) (s : State) : Prop :=
  ∀ p ∈ (resolve m s).cells W v, isMdmaen p.1 = true → ∃ t, exec i s = .next t ∧ StartsChannels p.2 s t

/-- Rules R352, R353: a bus write to MDMAEN stores the byte and makes exactly the channels of its set bits active, each
latched fresh from its registers, with the pattern of its mode; no byte moves. A store of STA, STX, STY or STZ that
reaches MDMAEN, at either width and through any form, does the same (rules R75, R195 to R198). -/
def Obligations.MdmaenStartsChannels : Prop :=
  (∀ (s : State) (a : Addr) (v : Byte), MemoryInv s → isMdmaen a = true →
    (busWrite a v s).peek a = v ∧ MemoryKept [a] s (busWrite a v s) ∧ StartsChannels v s (busWrite a v s)) ∧
  ∀ (s : State) (m : Mem), MemoryInv s →
    StoreStarts (.sta m) m s.wM (s.acc s.wM) s ∧ StoreStarts (.stx m) m s.wX (s.xOp s.wX) s ∧
      StoreStarts (.sty m) m s.wX (s.yOp s.wX) s ∧ StoreStarts (.stz m) m s.wM 0 s

/-- Rules R351, R354, R361, R362: a tick with an active channel is one DMA step, of the lowest-numbered one; no register
of the processor changes, no other channel does, and no byte but the one transferred, the channel's address and counter
registers and MDMAEN. -/
def Obligations.DmaPreemptsTheCore : Prop :=
  ∀ s : State, s.fatal = none → s.env.resetLine = false → s.dmaActive = true →
    step s = .next (spend Config.dmaStepCycles (dmaStep (latchInputs s.env s.nextInputs))) ∧
    ∃ (t : State) (n : Fin 8), step s = .next t ∧ s.ch[n].active = true ∧ (∀ k : Fin 8, k < n → s.ch[k].active = false) ∧
      (∀ k : Fin 8, k ≠ n → t.ch[k] = s.ch[k]) ∧ t.ch[n].count = s.ch[n].count - 1 ∧
      t.cycles = s.cycles + Config.dmaStepCycles ∧
      ChangesOnly [.cycles, .inputs, .nmiFlag, .nmiPending, .mem, .ch, .cart] s t ∧
      (¬ WritesCartridge s.cfg s.ch[n].destination → t.cart = s.cart) ∧
      MemoryKept [s.ch[n].destination, channelReg n 2, channelReg n 3, channelReg n 5, channelReg n 6, 0x00420B] s t

/-- Rules R353, R355: a DMA step from the A-bus to the B-bus moves the byte at the channel's address to B-bus register
`b_off` plus the pattern's offset, modulo 256 (with the default PPU latch array), and leaves the new address and counter
in the channel's registers. -/
def Obligations.DmaStepMovesAByte : Prop :=
  ∀ (s : State) (n : Fin 8), MemoryInv s → s.cfg.ppuExternal = false → s.ch[n].active = true →
    (∀ k : Fin 8, k < n → s.ch[k].active = false) →
    let c := s.ch[n]
    let t := dmaStep s
    let b := addrOf 0x00 (wordOf 0x21 (c.bOff + c.format.pattern.getD c.idx 0))
    (c.dir = .aToB → Quiet s.cfg c.aAddr → t.peek b = s.peek c.aAddr) ∧
    (c.dir = .bToA → Stores s.cfg c.aAddr → isMdmaen c.aAddr = false →
      (∀ r ∈ [2, 3, 5, 6], ¬ SameByte s.cfg c.aAddr (channelReg n r)) → t.peek c.aAddr = s.peek b) ∧
    (t.ch[n].aAddr.toNat = c.aAddr.toNat / 65536 * 65536 + (match c.stride with
      | .increment => (c.aAddr.toNat + 1) % 65536
      | .decrement => (c.aAddr.toNat + 65535) % 65536
      | .fixed => c.aAddr.toNat % 65536)) ∧
    t.ch[n].idx = (c.idx + 1) % c.format.pattern.length ∧
    t.peek (channelReg n 2) = lowByte (offsetOf t.ch[n].aAddr) ∧
    t.peek (channelReg n 3) = highByte (offsetOf t.ch[n].aAddr) ∧
    t.peek (channelReg n 5) = lowByte t.ch[n].count ∧ t.peek (channelReg n 6) = highByte t.ch[n].count

/-- Rules R358, R360, R362: when one channel is active with latched count `c`, exactly `c` DMA steps, 65536 when `c` is
zero, make the controller inactive; before the last one it is active, the count is `c` less the steps taken; after it
MDMAEN is zero and the channel's count register, DASn, reads 0x0000. -/
def Obligations.TransferLength : Prop :=
  ∀ (s : State) (n : Fin 8), MemoryInv s → s.ch[n].active = true → (∀ k : Fin 8, k ≠ n → s.ch[k].active = false) →
    let total := if s.ch[n].count = 0 then 65536 else s.ch[n].count.toNat
    (∀ k, k < total → (dmaStep^[k] s).dmaActive = true ∧ (dmaStep^[k] s).ch[n].count = s.ch[n].count - BitVec.ofNat 16 k) ∧
      (dmaStep^[total] s).dmaActive = false ∧ (dmaStep^[total] s).ireg mdmaenKey = 0x00 ∧
      (dmaStep^[total] s).peek (channelReg n 5) = 0x00 ∧ (dmaStep^[total] s).peek (channelReg n 6) = 0x00

/-! ## Cycles (spec/47_sequencer_and_cycles.md) -/

/-- Rule R407: a conditional branch takes 2 cycles, one more when taken and one more when it is taken to another page than
that of the following instruction; BRA 3, or 4 to another page; BRL always 4. -/
def Obligations.BranchCycles : Prop :=
  ∀ (s : State) (rel : Byte) (rel16 : Word), DefaultCycles s →
    let cross := highByte (s.pc + 2 + rel.signExtend 16) != highByte (s.pc + 2)
    (∀ b ∈ [(Instr.bcc rel, !s.p.c), (.bcs rel, s.p.c), (.bne rel, !s.p.z), (.beq rel, s.p.z), (.bpl rel, !s.p.n),
        (.bmi rel, s.p.n), (.bvc rel, !s.p.v), (.bvs rel, s.p.v)],
      ∀ t, exec b.1 s = .next t → t.cycles = s.cycles + (if b.2 then (if cross then 4 else 3) else 2)) ∧
    (∀ t, exec (.bra rel) s = .next t → t.cycles = s.cycles + if cross then 4 else 3) ∧
    ∀ t, exec (.brl rel16) s = .next t → t.cycles = s.cycles + 4

/-- The instruction takes its base count and `n` more, and one more in decimal mode where its class pays for it (rules R400,
R404, R406, line g). That every form of a class in the parameter pays is the model's reading (log 21, DEDUCED). -/
def Takes (i : Instr) (c : InstrClass) (n : Nat) (s : State) : Prop :=
  ∀ (op : Byte) (t : State), i.opcode = some op → exec i s = .next t →
    t.cycles = s.cycles + baseCycles s.cfg op + n + if s.p.d = true ∧ c ∈ s.cfg.decPenalty then 1 else 0

/-- One more for a 16-bit operand (rule R406, lines a to d, h and i). -/
def wide (W : Width) : Nat := if W = .w16 then 1 else 0

/-- One more where the low byte of D is not zero (rule R406, line e). -/
def offPage (s : State) : Nat := if lowByte s.d = 0x00 then 0 else 1

/-- Line e of rule R406 for the form of an operand. -/
def directPageCycles (m : Mem) (s : State) : Nat :=
  match m with
  | .dp _ | .dpX _ | .dpY _ | .dpInd _ | .dpIndLong _ | .dpXInd _ | .dpIndY _ | .dpIndLongY _ => offPage s
  | .abs _ | .absX _ | .absY _ | .long _ | .longX _ | .sr _ | .srIndY _ => 0

/-- The index carries `base` into another 256-byte page, or the index registers are 16 bits wide (rules R153, R406). -/
def crossCycles (base index : Word) (s : State) : Nat :=
  if (base.toNat + index.toNat) / 256 % 256 ≠ base.toNat / 256 ∨ s.wX = .w16 then 1 else 0

/-- Lines a, b, c, e and f of rule R406 for an operand of width `W` that is read. -/
def readCycles (src : Src) (W : Width) (s : State) : Nat :=
  wide W + match src with
    | .imm _ => 0
    | .mem m => directPageCycles m s + match m with
      | .absX a => crossCycles a s.x s
      | .absY a => crossCycles a s.y s
      | .dpIndY d => crossCycles (dpPointer d.toNat true s).1 s.y s
      | _ => 0

/-- Rules R400, R404, R406: the cycles of every instruction that is no branch and no block move (those are in BranchCycles
and BlockMoveStarts), its base count by the table of base counts and the adjustments a to j; and the instructions no
adjustment applies to take their base count. Line g is charged for every class in `DEC_PENALTY_CLASSES`, in accumulator mode
too, where R406 says that no adjustment applies: the model's reading (log 21, DEDUCED). -/
def Obligations.InstructionCycles : Prop :=
  (∀ (src : Src) (s : State),
    (∀ p ∈ [(Instr.adc src, InstrClass.arithmetic), (.sbc src, .arithmetic), (.and src, .bitwise), (.ora src, .bitwise),
        (.eor src, .bitwise), (.cmp src, .compare), (.bit src, .bittest), (.lda src, .load)],
      Takes p.1 p.2 (readCycles src s.wM s) s) ∧
    ∀ p ∈ [(Instr.ldx src, InstrClass.load), (.ldy src, .load), (.cpx src, .compare), (.cpy src, .compare)],
      Takes p.1 p.2 (readCycles src s.wX s) s) ∧
  (∀ (m : Mem) (s : State),
    (∀ i ∈ [Instr.sta m, .stz m], Takes i .store (wide s.wM + directPageCycles m s) s) ∧
    (∀ i ∈ [Instr.stx m, .sty m], Takes i .store (wide s.wX + directPageCycles m s) s) ∧
    ∀ p ∈ [(Instr.asl (.mem m), InstrClass.shift), (.lsr (.mem m), .shift), (.rol (.mem m), .shift), (.ror (.mem m), .shift),
        (.inc (.mem m), .incdec), (.dec (.mem m), .incdec), (.tsb m, .bittest), (.trb m, .bittest)],
      Takes p.1 p.2 (2 * wide s.wM + directPageCycles m s) s) ∧
  (∀ (s : State) (d sig : Byte),
    (∀ p ∈ [(Instr.asl .acc, InstrClass.shift), (.lsr .acc, .shift), (.rol .acc, .shift), (.ror .acc, .shift),
        (.inc .acc, .incdec), (.dec .acc, .incdec)], Takes p.1 p.2 0 s) ∧
    Takes (.pei d) .push (offPage s) s ∧ Takes .pha .push (wide s.wM) s ∧ Takes .pla .pull (wide s.wM) s ∧
    (∀ p ∈ [(Instr.phx, InstrClass.push), (.phy, .push), (.plx, .pull), (.ply, .pull)], Takes p.1 p.2 (wide s.wX) s) ∧
    ∀ i ∈ [Instr.brk sig, .cop sig, .rti], Takes i .interrupt (if s.e then 0 else 1) s) ∧
  ∀ (i : Instr) (op : Byte) (s t : State), i.opcode = some op → NoDecimalPenalty s →
    i.mnemonic ∈ ["TAX", "TAY", "TXA", "TYA", "TXY", "TYX", "TSX", "TXS", "TCD", "TDC", "TCS", "TSC", "XBA", "CLC", "SEC",
      "CLI", "SEI", "CLD", "SED", "CLV", "REP", "SEP", "XCE", "NOP", "WDM", "STP", "WAI", "JMP", "JML", "JSR", "JSL", "RTS",
      "RTL", "BRL", "PEA", "PER", "PHB", "PHD", "PHK", "PHP", "PLB", "PLD", "PLP", "INX", "INY", "DEX", "DEY"] →
    exec i s = .next t → t.cycles = s.cycles + baseCycles s.cfg op
end

