-- ==== Sys2Proof/Laws/Bits.lean ====
section
/-! SUPPORT. Bytes of words and addresses: taking apart what was put together. -/

namespace Sys2Proof.Machine

theorem toNat_wordOf (hi lo : Byte) : (wordOf hi lo).toNat = 256 * hi.toNat + lo.toNat := by
  unfold wordOf
  rw [BitVec.toNat_append, Nat.shiftLeft_eq, Nat.mul_comm, ← Nat.two_pow_add_eq_or_of_lt lo.isLt hi.toNat]

theorem toNat_addrOf (bank : Byte) (off : Word) : (addrOf bank off).toNat = 65536 * bank.toNat + off.toNat := by
  unfold addrOf
  rw [BitVec.toNat_append, Nat.shiftLeft_eq, Nat.mul_comm, ← Nat.two_pow_add_eq_or_of_lt off.isLt bank.toNat]

theorem toNat_lowByte (v : Word) : (lowByte v).toNat = v.toNat % 256 := by simp [lowByte]

theorem toNat_highByte (v : Word) : (highByte v).toNat = v.toNat / 256 := by
  have := v.isLt
  simp only [highByte, BitVec.extractLsb'_toNat, Nat.shiftRight_eq_div_pow]
  omega

theorem toNat_bankOf (a : Addr) : (bankOf a).toNat = a.toNat / 65536 := by
  have := a.isLt
  simp only [bankOf, BitVec.extractLsb'_toNat, Nat.shiftRight_eq_div_pow]
  omega

theorem toNat_offsetOf (a : Addr) : (offsetOf a).toNat = a.toNat % 65536 := by simp [offsetOf]

@[simp] theorem lowByte_wordOf (hi lo : Byte) : lowByte (wordOf hi lo) = lo := by
  apply BitVec.eq_of_toNat_eq
  rw [toNat_lowByte, toNat_wordOf]
  omega

@[simp] theorem highByte_wordOf (hi lo : Byte) : highByte (wordOf hi lo) = hi := by
  apply BitVec.eq_of_toNat_eq
  rw [toNat_highByte, toNat_wordOf]
  omega

@[simp] theorem wordOf_high_low (v : Word) : wordOf (highByte v) (lowByte v) = v := by
  apply BitVec.eq_of_toNat_eq
  rw [toNat_wordOf, toNat_highByte, toNat_lowByte]
  omega

@[simp] theorem lowByte_setLow (v : Word) (b : Byte) : lowByte (setLow v b) = b := by simp [setLow]
@[simp] theorem highByte_setLow (v : Word) (b : Byte) : highByte (setLow v b) = highByte v := by simp [setLow]
@[simp] theorem lowByte_setHigh (v : Word) (b : Byte) : lowByte (setHigh v b) = lowByte v := by simp [setHigh]
@[simp] theorem highByte_setHigh (v : Word) (b : Byte) : highByte (setHigh v b) = b := by simp [setHigh]

/-- A word is its two bytes. -/
theorem word_ext {v w : Word} (h : highByte v = highByte w) (l : lowByte v = lowByte w) : v = w := by
  rw [← wordOf_high_low v, ← wordOf_high_low w, h, l]

@[simp] theorem bankOf_addrOf (bank : Byte) (off : Word) : bankOf (addrOf bank off) = bank := by
  apply BitVec.eq_of_toNat_eq
  rw [toNat_bankOf, toNat_addrOf]
  omega

@[simp] theorem offsetOf_addrOf (bank : Byte) (off : Word) : offsetOf (addrOf bank off) = off := by
  apply BitVec.eq_of_toNat_eq
  rw [toNat_offsetOf, toNat_addrOf]
  omega

@[simp] theorem addrOf_bank_offset (a : Addr) : addrOf (bankOf a) (offsetOf a) = a := by
  apply BitVec.eq_of_toNat_eq
  rw [toNat_addrOf, toNat_bankOf, toNat_offsetOf]
  omega

theorem wordOf_zero_low {v : Word} (h : v.toNat < 256) : wordOf 0x00 (lowByte v) = v := by
  apply BitVec.eq_of_toNat_eq
  rw [toNat_wordOf, toNat_lowByte]
  simp
  omega

end Sys2Proof.Machine

namespace Sys2Proof

open Sys2Proof.Machine

@[simp] theorem Width.take_w8 (v : Word) : Width.take .w8 v = lowByte v := rfl
@[simp] theorem Width.take_w16 (v : Word) : Width.take .w16 v = v := by simp [Width.take]
@[simp] theorem Width.put_w8 (v : Word) (b : Byte) : Width.put .w8 v b = setLow v b := rfl
@[simp] theorem Width.put_w16 (v w : Word) : Width.put .w16 v w = w := rfl

/-- What was written is what is read. -/
@[simp] theorem Width.take_put (W : Width) (old : Word) (v : BitVec W.bits) : W.take (W.put old v) = v := by
  cases W
  · exact lowByte_setLow old v
  · simp [Width.put]

/-- A write of what is there changes nothing. -/
@[simp] theorem Width.put_take (W : Width) (v : Word) : W.put v (W.take v) = v := by
  cases W
  · simp [setLow]
  · simp

/-- An 8-bit write keeps the high byte. -/
theorem Width.highByte_put {W : Width} (h : W = .w8) (old : Word) (v : BitVec W.bits) :
    highByte (W.put old v) = highByte old := by
  subst h; exact highByte_setLow old v

@[simp] theorem Width.byte0_w8 (v : Byte) : Width.byte0 .w8 v = v := by simp [Width.byte0]
@[simp] theorem Width.byte0_w16 (v : Word) : Width.byte0 .w16 v = lowByte v := rfl
@[simp] theorem Width.byte1_w16 (v : Word) : Width.byte1 .w16 v = highByte v := by
  unfold Width.byte1 highByte
  ext i hi
  simp

@[simp] theorem Width.ofBytes_w8 (lo hi : Byte) : Width.ofBytes .w8 lo hi = lo := lowByte_wordOf hi lo
@[simp] theorem Width.ofBytes_w16 (lo hi : Byte) : Width.ofBytes .w16 lo hi = wordOf hi lo := by
  simp [Width.ofBytes]

end Sys2Proof
end

