-- ==== Sys2Proof/Laws/Alu.lean ====
section
/-! SUPPORT. The arithmetic-logic unit in numbers and in bits (rules R161, R162, R168 to R172). -/

namespace Sys2Proof.Machine

/-- A difference is zero exactly when its operands are equal. -/
theorem bitVec_sub_eq_zero {w : Nat} (x y : BitVec w) : x - y = 0 ↔ x = y := by
  constructor
  · intro h
    have := BitVec.sub_add_cancel x y
    rw [h] at this
    simpa using this.symm
  · rintro rfl; exact BitVec.sub_self _

/-- V after an addition: the exact signed sum does not fit (rule R161). -/
theorem adcBin_v (W : Width) (a v : BitVec W.bits) (c : Bool) :
    (adcBin a v c).v = true ↔
      a.toInt + v.toInt + one c < -2 ^ (W.bits - 1) ∨ 2 ^ (W.bits - 1) ≤ a.toInt + v.toInt + one c := by
  have hc : one c ≤ 1 := by unfold one; split <;> omega
  have ha := a.isLt
  have hv := v.isLt
  cases W
  all_goals
    simp only [Width.bits, adcBin, BitVec.msb_eq_decide, BitVec.toInt_eq_toNat_cond,
      Bool.and_eq_true, beq_iff_eq, bne_iff_ne, ne_eq, decide_eq_decide, BitVec.toNat_ofNat]
    simp only [Nat.reducePow, Nat.reduceSub, Int.reducePow, Width.bits] at *
    generalize one c = n at *
    generalize a.toNat = x at *
    generalize v.toNat = y at *
    split <;> split <;> omega

/-- V after a subtraction: the exact signed difference does not fit (rule R162). -/
theorem sbcBin_v (W : Width) (a v : BitVec W.bits) (c : Bool) :
    (sbcBin a v c).v = true ↔
      a.toInt - v.toInt - one (!c) < -2 ^ (W.bits - 1) ∨ 2 ^ (W.bits - 1) ≤ a.toInt - v.toInt - one (!c) := by
  rw [sbcBin, adcBin_v]
  have h1 : (~~~v).toInt = - v.toInt - 1 := by
    rw [BitVec.toInt_not]
    cases W
    all_goals
      have := v.toInt_lt
      have := v.le_toInt
      have := v.isLt
      simp only [Width.bits, BitVec.toInt_eq_toNat_cond, Int.bmod_def, Nat.reducePow, Nat.reduceSub, Int.reducePow] at *
      split <;> split <;> omega
  have h2 : (one c : Int) = 1 - one (!c) := by cases c <;> rfl
  rw [h1, h2]
  constructor <;> intro h <;> omega

/-- The difference and its carry in numbers (rule R162). -/
theorem sbcBin_r (W : Width) (a v : BitVec W.bits) (c : Bool) :
    ((sbcBin a v c).r.toNat : Int) = (a.toNat - v.toNat - one (!c)) % 2 ^ W.bits ∧
    ((sbcBin a v c).c = true ↔ v.toNat + one (!c) ≤ a.toNat) := by
  have ha := a.isLt
  have hv := v.isLt
  have h2 : one c = 1 - one (!c) := by cases c <;> rfl
  have hc : one (!c) ≤ 1 := by unfold one; split <;> omega
  cases W
  all_goals
    simp only [Width.bits, sbcBin, adcBin, BitVec.toNat_ofNat, BitVec.toNat_not, decide_eq_true_eq] at *
    rw [h2]
    simp only [Nat.reducePow, Int.reducePow] at *
    constructor <;> omega

/-- ASL as the string of bits with 0 at its end (rule R168). -/
theorem asl_r {w : Nat} (v : BitVec w) : (asl v).r = (v.concat false).setWidth w := by
  ext i hi
  simp [asl, BitVec.getElem_setWidth, BitVec.getElem_shiftLeft, BitVec.getLsbD_concat]
  cases i <;> simp 
  rename_i n; exact (BitVec.getLsbD_eq_getElem (by omega)).symm

/-- ROL as the string of bits with the carry at its end (rule R170). -/
theorem rol_r (W : Width) (v : BitVec W.bits) (c : Bool) : (rol v c).r = (v.concat c).setWidth W.bits := by
  unfold rol
  cases W
  all_goals
    apply BitVec.eq_of_toNat_eq
    simp only [Width.bits, BitVec.toNat_or, BitVec.toNat_setWidth, BitVec.toNat_concat,
      BitVec.toNat_shiftLeft, BitVec.toNat_ofNat] at *
    have hv := v.isLt
    simp only [Width.bits] at hv
    rw [Nat.shiftLeft_eq]
    cases c
    · simp [one]
    · have h := Nat.two_pow_add_eq_or_of_lt (i := 1) (b := 1) (by omega) (v.toNat % 2^(Width.bits .w8 - 1))
      have h2 := Nat.two_pow_add_eq_or_of_lt (i := 1) (b := 1) (by omega) (v.toNat % 2^(Width.bits .w16 - 1))
      simp [one, Width.bits] at h h2 ⊢
      first
      | rw [show v.toNat * 2 % 256 = 2 * (v.toNat % 128) by omega, ← h]; omega
      | rw [show v.toNat * 2 % 65536 = 2 * (v.toNat % 32768) by omega, ← h2]; omega

/-- LSR as the string of bits with 0 at its head (rule R169). -/
theorem lsr_r {w : Nat} (v : BitVec w) : (lsr v).r = (BitVec.cons false v).extractLsb' 1 w := by
  apply BitVec.eq_of_toNat_eq
  have := v.isLt
  have : v.toNat / 2 < 2 ^ w := by omega
  simp [lsr, Nat.shiftRight_eq_div_pow, Nat.mod_eq_of_lt this]

/-- ROR as the string of bits with the carry at its head (rule R171). -/
theorem ror_r (W : Width) (v : BitVec W.bits) (c : Bool) : (ror v c).r = (BitVec.cons c v).extractLsb' 1 W.bits := by
  apply BitVec.eq_of_getLsbD_eq
  intro i hi
  have hW : 0 < W.bits := by cases W <;> decide
  simp only [ror, BitVec.getLsbD_or, BitVec.getLsbD_ushiftRight, BitVec.getLsbD_shiftLeft, BitVec.getLsbD_ofNat,
    BitVec.getLsbD_extractLsb', BitVec.getLsbD_cons, hi, decide_true, Bool.true_and]
  by_cases h : 1 + i = W.bits
  · have h1 : ¬ i < W.bits - 1 := by omega
    have h2 : i - (W.bits - 1) = 0 := by omega
    rw [if_pos h, h]
    simp [h1, h2, hW]
    cases c <;> simp [one]
  · rw [if_neg h]
    simp [show i < W.bits - 1 by omega]

end Sys2Proof.Machine
end

