-- ==== Sys2Proof/Laws/Memory.lean ====
section
/-! SUPPORT. The memory list: a read after a write, and that every operation keeps the canonical form. -/

namespace Sys2Proof.Machine

theorem Memory.read_cons (k : Nat) (v : Byte) (t : Memory) (j : Nat) (ht : t.read k = Memory.unlisted k) :
    (Memory.cons k v t).read j = if j = k then v else t.read j := by
  unfold Memory.cons
  split
  · rename_i h; split
    · rename_i hj; rw [hj, ht, h]
    · rfl
  · by_cases h : k = j
    · simp [Memory.read, h]
    · simp [Memory.read, h, Ne.symm h]

/-- A key below every listed one reads as unlisted. -/
theorem Memory.read_of_lt : ∀ (m : Memory) (k : Nat), (∀ c ∈ m, k < c.1) → m.read k = Memory.unlisted k
  | [], _, _ => rfl
  | (a, b) :: t, k, h => by
    have ha : k < a := h (a, b) List.mem_cons_self
    simp only [Memory.read, if_neg (Nat.ne_of_gt ha)]
    exact Memory.read_of_lt t k fun c hc => h c (List.mem_cons_of_mem _ hc)

/-- What a key reads as after a write. -/
theorem Memory.read_write : ∀ (m : Memory), m.wf → ∀ (k : Nat) (v : Byte) (j : Nat),
    (m.write k v).read j = if j = k then v else m.read j
  | [], _, k, v, j => by
    rw [Memory.write, Memory.read_cons k v [] j rfl]
  | (a, b) :: t, hw, k, v, j => by
    obtain ⟨hp, hu⟩ := hw
    rw [List.pairwise_cons] at hp
    have ht : Memory.wf t := ⟨hp.2, fun c hc => hu c (List.mem_cons_of_mem _ hc)⟩
    rw [Memory.write]
    split
    · rename_i hk
      refine Memory.read_cons k v _ j (Memory.read_of_lt _ _ fun c hc => ?_)
      rcases List.mem_cons.mp hc with rfl | hc
      · exact hk
      · exact hk.trans (hp.1 c hc)
    · split
      · rename_i hka; subst hka
        rw [Memory.read_cons k v t j (Memory.read_of_lt _ _ hp.1)]
        by_cases h : j = k
        · simp [h]
        · simp [Memory.read, h, Ne.symm h]
      · rename_i hk hka
        simp only [Memory.read]
        rw [Memory.read_write t ht k v j]
        by_cases h : a = j
        · subst h; simp [Ne.symm hka]
        · simp [h]

theorem Memory.read_write_same (m : Memory) (hw : m.wf) (k : Nat) (v : Byte) : (m.write k v).read k = v := by
  simp [Memory.read_write m hw]

theorem Memory.read_cons_other {k j : Nat} (v : Byte) (t : Memory) (h : j ≠ k) : (Memory.cons k v t).read j = t.read j := by
  unfold Memory.cons
  split
  · rfl
  · simp [Memory.read, h.symm]

/-- A write leaves every other key alone, whatever list it is given. -/
theorem Memory.read_write_other : ∀ (m : Memory) {k j : Nat} (v : Byte), j ≠ k → (m.write k v).read j = m.read j
  | [], _, _, v, h => Memory.read_cons_other v [] h
  | (a, b) :: t, k, j, v, h => by
    rw [Memory.write]
    split
    · exact Memory.read_cons_other v _ h
    · split
      · rename_i hka
        rw [Memory.read_cons_other v t h]
        simp [Memory.read, ← hka, h.symm]
      · simp only [Memory.read]
        rw [Memory.read_write_other t v h]

theorem Memory.mem_cons {k : Nat} {v : Byte} {t : Memory} {c : Host.Cell} (h : c ∈ Memory.cons k v t) :
    (c = (k, v) ∧ v ≠ Memory.unlisted k) ∨ c ∈ t := by
  unfold Memory.cons at h
  split at h
  · exact .inr h
  · rename_i hv
    rcases List.mem_cons.mp h with h | h
    · exact .inl ⟨h, hv⟩
    · exact .inr h

theorem Memory.cons_wf {k : Nat} {v : Byte} {t : Memory} (ht : Memory.wf t) (hk : ∀ c ∈ t, k < c.1) :
    Memory.wf (Memory.cons k v t) := by
  refine ⟨?_, fun c hc => ?_⟩
  · unfold Memory.cons
    split
    · exact ht.1
    · exact List.pairwise_cons.mpr ⟨hk, ht.1⟩
  · rcases Memory.mem_cons hc with ⟨rfl, hv⟩ | hc
    · exact hv
    · exact ht.2 c hc

theorem Memory.mem_write : ∀ {m : Memory} {k : Nat} {v : Byte} {c : Host.Cell}, c ∈ m.write k v →
    c.1 = k ∨ c ∈ m
  | [], k, v, c, h => by
    rcases Memory.mem_cons h with ⟨rfl, _⟩ | h
    · exact .inl rfl
    · exact .inr h
  | (a, b) :: t, k, v, c, h => by
    rw [Memory.write] at h
    split at h
    · rcases Memory.mem_cons h with ⟨rfl, _⟩ | h
      · exact .inl rfl
      · exact .inr h
    · split at h
      · rcases Memory.mem_cons h with ⟨rfl, _⟩ | h
        · exact .inl rfl
        · exact .inr (List.mem_cons_of_mem _ h)
      · rcases List.mem_cons.mp h with h | h
        · exact .inr (h ▸ List.mem_cons_self)
        · exact (Memory.mem_write h).imp id (List.mem_cons_of_mem _)

/-- A write keeps the canonical form. -/
theorem Memory.write_wf : ∀ {m : Memory} (k : Nat) (v : Byte), m.wf → (m.write k v).wf
  | [], k, v, _ => Memory.cons_wf ⟨List.Pairwise.nil, fun _ h => nomatch h⟩ fun _ h => nomatch h
  | (a, b) :: t, k, v, hw => by
    obtain ⟨hp, hu⟩ := hw
    have hp' := List.pairwise_cons.mp hp
    have ht : Memory.wf t := ⟨hp'.2, fun c hc => hu c (List.mem_cons_of_mem _ hc)⟩
    rw [Memory.write]
    split
    · rename_i hk
      refine Memory.cons_wf ⟨hp, hu⟩ fun c hc => ?_
      rcases List.mem_cons.mp hc with rfl | hc
      · exact hk
      · exact hk.trans (hp'.1 c hc)
    · split
      · rename_i hka; subst hka
        exact Memory.cons_wf ht hp'.1
      · have h1 := Memory.write_wf k v ht
        refine ⟨List.pairwise_cons.mpr ⟨fun c hc => ?_, h1.1⟩, fun c hc => ?_⟩
        · rcases Memory.mem_write hc with h | h
          · show a < c.1; omega
          · exact hp'.1 c h
        · rcases List.mem_cons.mp hc with rfl | hc
          · exact hu _ List.mem_cons_self
          · exact h1.2 c hc

/-! New cartridge contents. -/

@[simp] theorem Memory.load_nil (m : Memory) : m.load [] = m := rfl

theorem Memory.load_cons (m : Memory) (p : Addr × Byte) (l : List (Addr × Byte)) :
    m.load (p :: l) = (if mapAddress p.1 = .cartridge then m.write p.1.toNat p.2 else m).load l := rfl

/-- Loading the cartridge keeps the canonical form. -/
theorem Memory.load_wf : ∀ (l : List (Addr × Byte)) {m : Memory}, m.wf → (m.load l).wf
  | [], _, h => h
  | p :: l, m, h => by
    rw [Memory.load_cons]
    split
    · exact Memory.load_wf l (Memory.write_wf _ _ h)
    · exact Memory.load_wf l h

/-- Loading the cartridge leaves every byte alone whose key is no cartridge address. -/
theorem Memory.read_load {k : Nat} (hk : ∀ a : Addr, mapAddress a = .cartridge → k ≠ a.toNat) :
    ∀ (l : List (Addr × Byte)) (m : Memory), (m.load l).read k = m.read k
  | [], _ => rfl
  | p :: l, m => by
    rw [Memory.load_cons, Memory.read_load hk l]
    split
    · rename_i h; exact Memory.read_write_other _ _ (hk _ h)
    · rfl

/-- What a cartridge address reads as after a load: the last byte listed for it, or what it was. -/
theorem Memory.read_load_cartridge {a : Addr} (ha : mapAddress a = .cartridge) : ∀ (l : List (Addr × Byte)) {m : Memory},
    m.wf → (m.load l).read a.toNat = (l.reverse.lookup a).getD (m.read a.toNat)
  | [], _, _ => rfl
  | p :: l, m, h => by
    obtain ⟨b, v⟩ := p
    rw [Memory.load_cons, List.reverse_cons, List.lookup_append]
    have hw : Memory.wf (if mapAddress b = .cartridge then m.write b.toNat v else m) := by
      split
      · exact Memory.write_wf _ _ h
      · exact h
    rw [Memory.read_load_cartridge ha l hw]
    cases hl : l.reverse.lookup a with
    | some u => simp
    | none =>
      simp only [Option.getD_none, Option.none_or]
      by_cases hb : a = b
      · subst hb
        simp [ha, Memory.read_write_same _ h, List.lookup]
      · have hne : (a == b) = false := by simpa using hb
        simp only [List.lookup, hne, Option.getD_none]
        split
        · exact Memory.read_write_other _ _ fun hk => hb (BitVec.eq_of_toNat_eq hk)
        · rfl

/-- Equal reads are equal lists: the form is canonical. -/
theorem Memory.ext_of_read : ∀ {m n : Memory}, m.wf → n.wf → (∀ k, m.read k = n.read k) → m = n
  | [], [], _, _, _ => rfl
  | [], (a, b) :: t, _, hn, h => by
    have := h a
    simp only [Memory.read, if_true] at this
    exact absurd this.symm (hn.2 (a, b) List.mem_cons_self)
  | (a, b) :: t, [], hm, _, h => by
    have := h a
    simp only [Memory.read, if_true] at this
    exact absurd this (hm.2 (a, b) List.mem_cons_self)
  | (a, b) :: t, (a', b') :: t', hm, hn, h => by
    have hm' := List.pairwise_cons.mp hm.1
    have hn' := List.pairwise_cons.mp hn.1
    have ht : Memory.wf t := ⟨hm'.2, fun c hc => hm.2 c (List.mem_cons_of_mem _ hc)⟩
    have ht' : Memory.wf t' := ⟨hn'.2, fun c hc => hn.2 c (List.mem_cons_of_mem _ hc)⟩
    rcases Nat.lt_trichotomy a a' with hlt | rfl | hlt
    · have h1 := h a
      rw [Memory.read_of_lt ((a', b') :: t') a (fun c hc => by
        rcases List.mem_cons.mp hc with rfl | hc
        · exact hlt
        · exact hlt.trans (hn'.1 c hc))] at h1
      simp only [Memory.read, if_true] at h1
      exact absurd h1 (hm.2 (a, b) List.mem_cons_self)
    · have hb : b = b' := by simpa [Memory.read] using h a
      subst hb
      have : t = t' := Memory.ext_of_read ht ht' fun k => by
        by_cases hk : a = k
        · subst hk
          rw [Memory.read_of_lt t a hm'.1, Memory.read_of_lt t' a hn'.1]
        · simpa [Memory.read, hk] using h k
      rw [this]
    · have h1 := h a'
      rw [Memory.read_of_lt ((a, b) :: t) a' (fun c hc => by
        rcases List.mem_cons.mp hc with rfl | hc
        · exact hlt
        · exact hlt.trans (hm'.1 c hc))] at h1
      simp only [Memory.read, if_true] at h1
      exact absurd h1.symm (hn.2 (a', b') List.mem_cons_self)

end Sys2Proof.Machine
end

