-- ==== Sys2Proof/Laws/State.lean ====
section
/-! SUPPORT. One lemma for each field and each update of the state, so that no later proof unfolds a record update. -/

namespace Sys2Proof.Machine

variable (s : State)

/-! `State.setAcc`. -/

@[simp] theorem State.setAcc_a (W : Width) (v : BitVec W.bits) :
    (s.setAcc W v).a = W.put s.a v := rfl
@[simp] theorem State.setAcc_x (W : Width) (v : BitVec W.bits) : (s.setAcc W v).x = s.x := rfl
@[simp] theorem State.setAcc_y (W : Width) (v : BitVec W.bits) : (s.setAcc W v).y = s.y := rfl
@[simp] theorem State.setAcc_sp (W : Width) (v : BitVec W.bits) : (s.setAcc W v).sp = s.sp := rfl
@[simp] theorem State.setAcc_d (W : Width) (v : BitVec W.bits) : (s.setAcc W v).d = s.d := rfl
@[simp] theorem State.setAcc_pc (W : Width) (v : BitVec W.bits) : (s.setAcc W v).pc = s.pc := rfl
@[simp] theorem State.setAcc_pbr (W : Width) (v : BitVec W.bits) : (s.setAcc W v).pbr = s.pbr := rfl
@[simp] theorem State.setAcc_dbr (W : Width) (v : BitVec W.bits) : (s.setAcc W v).dbr = s.dbr := rfl
@[simp] theorem State.setAcc_p (W : Width) (v : BitVec W.bits) : (s.setAcc W v).p = s.p := rfl
@[simp] theorem State.setAcc_e (W : Width) (v : BitVec W.bits) : (s.setAcc W v).e = s.e := rfl
@[simp] theorem State.setAcc_sel (W : Width) (v : BitVec W.bits) : (s.setAcc W v).sel = s.sel := rfl
@[simp] theorem State.setAcc_stopped (W : Width) (v : BitVec W.bits) :
    (s.setAcc W v).stopped = s.stopped := rfl
@[simp] theorem State.setAcc_waiting (W : Width) (v : BitVec W.bits) :
    (s.setAcc W v).waiting = s.waiting := rfl
@[simp] theorem State.setAcc_moving (W : Width) (v : BitVec W.bits) :
    (s.setAcc W v).moving = s.moving := rfl
@[simp] theorem State.setAcc_mv (W : Width) (v : BitVec W.bits) : (s.setAcc W v).mv = s.mv := rfl
@[simp] theorem State.setAcc_fatal (W : Width) (v : BitVec W.bits) :
    (s.setAcc W v).fatal = s.fatal := rfl
@[simp] theorem State.setAcc_cycles (W : Width) (v : BitVec W.bits) :
    (s.setAcc W v).cycles = s.cycles := rfl
@[simp] theorem State.setAcc_nmiPending (W : Width) (v : BitVec W.bits) :
    (s.setAcc W v).nmiPending = s.nmiPending := rfl
@[simp] theorem State.setAcc_nmiFlag (W : Width) (v : BitVec W.bits) :
    (s.setAcc W v).nmiFlag = s.nmiFlag := rfl
@[simp] theorem State.setAcc_ch (W : Width) (v : BitVec W.bits) : (s.setAcc W v).ch = s.ch := rfl
@[simp] theorem State.setAcc_mem (W : Width) (v : BitVec W.bits) : (s.setAcc W v).mem = s.mem := rfl
@[simp] theorem State.setAcc_ppuExt (W : Width) (v : BitVec W.bits) :
    (s.setAcc W v).ppuExt = s.ppuExt := rfl
@[simp] theorem State.setAcc_cfg (W : Width) (v : BitVec W.bits) : (s.setAcc W v).cfg = s.cfg := rfl
@[simp] theorem State.setAcc_cart (W : Width) (v : BitVec W.bits) :
    (s.setAcc W v).cart = s.cart := rfl
@[simp] theorem State.setAcc_inputs (W : Width) (v : BitVec W.bits) :
    (s.setAcc W v).inputs = s.inputs := rfl
@[simp] theorem State.setAcc_draws (W : Width) (v : BitVec W.bits) :
    (s.setAcc W v).draws = s.draws := rfl

/-! `State.setX`. -/

@[simp] theorem State.setX_a (W : Width) (v : BitVec W.bits) : (s.setX W v).a = s.a := rfl
@[simp] theorem State.setX_x (W : Width) (v : BitVec W.bits) :
    (s.setX W v).x = W.put s.x v := rfl
@[simp] theorem State.setX_y (W : Width) (v : BitVec W.bits) : (s.setX W v).y = s.y := rfl
@[simp] theorem State.setX_sp (W : Width) (v : BitVec W.bits) : (s.setX W v).sp = s.sp := rfl
@[simp] theorem State.setX_d (W : Width) (v : BitVec W.bits) : (s.setX W v).d = s.d := rfl
@[simp] theorem State.setX_pc (W : Width) (v : BitVec W.bits) : (s.setX W v).pc = s.pc := rfl
@[simp] theorem State.setX_pbr (W : Width) (v : BitVec W.bits) : (s.setX W v).pbr = s.pbr := rfl
@[simp] theorem State.setX_dbr (W : Width) (v : BitVec W.bits) : (s.setX W v).dbr = s.dbr := rfl
@[simp] theorem State.setX_p (W : Width) (v : BitVec W.bits) : (s.setX W v).p = s.p := rfl
@[simp] theorem State.setX_e (W : Width) (v : BitVec W.bits) : (s.setX W v).e = s.e := rfl
@[simp] theorem State.setX_sel (W : Width) (v : BitVec W.bits) : (s.setX W v).sel = s.sel := rfl
@[simp] theorem State.setX_stopped (W : Width) (v : BitVec W.bits) :
    (s.setX W v).stopped = s.stopped := rfl
@[simp] theorem State.setX_waiting (W : Width) (v : BitVec W.bits) :
    (s.setX W v).waiting = s.waiting := rfl
@[simp] theorem State.setX_moving (W : Width) (v : BitVec W.bits) :
    (s.setX W v).moving = s.moving := rfl
@[simp] theorem State.setX_mv (W : Width) (v : BitVec W.bits) : (s.setX W v).mv = s.mv := rfl
@[simp] theorem State.setX_fatal (W : Width) (v : BitVec W.bits) : (s.setX W v).fatal = s.fatal := rfl
@[simp] theorem State.setX_cycles (W : Width) (v : BitVec W.bits) :
    (s.setX W v).cycles = s.cycles := rfl
@[simp] theorem State.setX_nmiPending (W : Width) (v : BitVec W.bits) :
    (s.setX W v).nmiPending = s.nmiPending := rfl
@[simp] theorem State.setX_nmiFlag (W : Width) (v : BitVec W.bits) :
    (s.setX W v).nmiFlag = s.nmiFlag := rfl
@[simp] theorem State.setX_ch (W : Width) (v : BitVec W.bits) : (s.setX W v).ch = s.ch := rfl
@[simp] theorem State.setX_mem (W : Width) (v : BitVec W.bits) : (s.setX W v).mem = s.mem := rfl
@[simp] theorem State.setX_ppuExt (W : Width) (v : BitVec W.bits) :
    (s.setX W v).ppuExt = s.ppuExt := rfl
@[simp] theorem State.setX_cfg (W : Width) (v : BitVec W.bits) : (s.setX W v).cfg = s.cfg := rfl
@[simp] theorem State.setX_cart (W : Width) (v : BitVec W.bits) :
    (s.setX W v).cart = s.cart := rfl
@[simp] theorem State.setX_inputs (W : Width) (v : BitVec W.bits) :
    (s.setX W v).inputs = s.inputs := rfl
@[simp] theorem State.setX_draws (W : Width) (v : BitVec W.bits) : (s.setX W v).draws = s.draws := rfl

/-! `State.setY`. -/

@[simp] theorem State.setY_a (W : Width) (v : BitVec W.bits) : (s.setY W v).a = s.a := rfl
@[simp] theorem State.setY_x (W : Width) (v : BitVec W.bits) : (s.setY W v).x = s.x := rfl
@[simp] theorem State.setY_y (W : Width) (v : BitVec W.bits) :
    (s.setY W v).y = W.put s.y v := rfl
@[simp] theorem State.setY_sp (W : Width) (v : BitVec W.bits) : (s.setY W v).sp = s.sp := rfl
@[simp] theorem State.setY_d (W : Width) (v : BitVec W.bits) : (s.setY W v).d = s.d := rfl
@[simp] theorem State.setY_pc (W : Width) (v : BitVec W.bits) : (s.setY W v).pc = s.pc := rfl
@[simp] theorem State.setY_pbr (W : Width) (v : BitVec W.bits) : (s.setY W v).pbr = s.pbr := rfl
@[simp] theorem State.setY_dbr (W : Width) (v : BitVec W.bits) : (s.setY W v).dbr = s.dbr := rfl
@[simp] theorem State.setY_p (W : Width) (v : BitVec W.bits) : (s.setY W v).p = s.p := rfl
@[simp] theorem State.setY_e (W : Width) (v : BitVec W.bits) : (s.setY W v).e = s.e := rfl
@[simp] theorem State.setY_sel (W : Width) (v : BitVec W.bits) : (s.setY W v).sel = s.sel := rfl
@[simp] theorem State.setY_stopped (W : Width) (v : BitVec W.bits) :
    (s.setY W v).stopped = s.stopped := rfl
@[simp] theorem State.setY_waiting (W : Width) (v : BitVec W.bits) :
    (s.setY W v).waiting = s.waiting := rfl
@[simp] theorem State.setY_moving (W : Width) (v : BitVec W.bits) :
    (s.setY W v).moving = s.moving := rfl
@[simp] theorem State.setY_mv (W : Width) (v : BitVec W.bits) : (s.setY W v).mv = s.mv := rfl
@[simp] theorem State.setY_fatal (W : Width) (v : BitVec W.bits) : (s.setY W v).fatal = s.fatal := rfl
@[simp] theorem State.setY_cycles (W : Width) (v : BitVec W.bits) :
    (s.setY W v).cycles = s.cycles := rfl
@[simp] theorem State.setY_nmiPending (W : Width) (v : BitVec W.bits) :
    (s.setY W v).nmiPending = s.nmiPending := rfl
@[simp] theorem State.setY_nmiFlag (W : Width) (v : BitVec W.bits) :
    (s.setY W v).nmiFlag = s.nmiFlag := rfl
@[simp] theorem State.setY_ch (W : Width) (v : BitVec W.bits) : (s.setY W v).ch = s.ch := rfl
@[simp] theorem State.setY_mem (W : Width) (v : BitVec W.bits) : (s.setY W v).mem = s.mem := rfl
@[simp] theorem State.setY_ppuExt (W : Width) (v : BitVec W.bits) :
    (s.setY W v).ppuExt = s.ppuExt := rfl
@[simp] theorem State.setY_cfg (W : Width) (v : BitVec W.bits) : (s.setY W v).cfg = s.cfg := rfl
@[simp] theorem State.setY_cart (W : Width) (v : BitVec W.bits) :
    (s.setY W v).cart = s.cart := rfl
@[simp] theorem State.setY_inputs (W : Width) (v : BitVec W.bits) :
    (s.setY W v).inputs = s.inputs := rfl
@[simp] theorem State.setY_draws (W : Width) (v : BitVec W.bits) : (s.setY W v).draws = s.draws := rfl

/-! `State.setNZ`. -/

@[simp] theorem State.setNZ_a {w : Nat} (v : BitVec w) : (s.setNZ v).a = s.a := rfl
@[simp] theorem State.setNZ_x {w : Nat} (v : BitVec w) : (s.setNZ v).x = s.x := rfl
@[simp] theorem State.setNZ_y {w : Nat} (v : BitVec w) : (s.setNZ v).y = s.y := rfl
@[simp] theorem State.setNZ_sp {w : Nat} (v : BitVec w) : (s.setNZ v).sp = s.sp := rfl
@[simp] theorem State.setNZ_d {w : Nat} (v : BitVec w) : (s.setNZ v).d = s.d := rfl
@[simp] theorem State.setNZ_pc {w : Nat} (v : BitVec w) : (s.setNZ v).pc = s.pc := rfl
@[simp] theorem State.setNZ_pbr {w : Nat} (v : BitVec w) : (s.setNZ v).pbr = s.pbr := rfl
@[simp] theorem State.setNZ_dbr {w : Nat} (v : BitVec w) : (s.setNZ v).dbr = s.dbr := rfl
@[simp] theorem State.setNZ_p {w : Nat} (v : BitVec w) : (s.setNZ v).p = s.p.setNZ v := rfl
@[simp] theorem State.setNZ_e {w : Nat} (v : BitVec w) : (s.setNZ v).e = s.e := rfl
@[simp] theorem State.setNZ_sel {w : Nat} (v : BitVec w) : (s.setNZ v).sel = s.sel := rfl
@[simp] theorem State.setNZ_stopped {w : Nat} (v : BitVec w) : (s.setNZ v).stopped = s.stopped := rfl
@[simp] theorem State.setNZ_waiting {w : Nat} (v : BitVec w) : (s.setNZ v).waiting = s.waiting := rfl
@[simp] theorem State.setNZ_moving {w : Nat} (v : BitVec w) : (s.setNZ v).moving = s.moving := rfl
@[simp] theorem State.setNZ_mv {w : Nat} (v : BitVec w) : (s.setNZ v).mv = s.mv := rfl
@[simp] theorem State.setNZ_fatal {w : Nat} (v : BitVec w) : (s.setNZ v).fatal = s.fatal := rfl
@[simp] theorem State.setNZ_cycles {w : Nat} (v : BitVec w) : (s.setNZ v).cycles = s.cycles := rfl
@[simp] theorem State.setNZ_nmiPending {w : Nat} (v : BitVec w) : (s.setNZ v).nmiPending = s.nmiPending := rfl
@[simp] theorem State.setNZ_nmiFlag {w : Nat} (v : BitVec w) : (s.setNZ v).nmiFlag = s.nmiFlag := rfl
@[simp] theorem State.setNZ_ch {w : Nat} (v : BitVec w) : (s.setNZ v).ch = s.ch := rfl
@[simp] theorem State.setNZ_mem {w : Nat} (v : BitVec w) : (s.setNZ v).mem = s.mem := rfl
@[simp] theorem State.setNZ_ppuExt {w : Nat} (v : BitVec w) : (s.setNZ v).ppuExt = s.ppuExt := rfl
@[simp] theorem State.setNZ_cfg {w : Nat} (v : BitVec w) : (s.setNZ v).cfg = s.cfg := rfl
@[simp] theorem State.setNZ_cart {w : Nat} (v : BitVec w) : (s.setNZ v).cart = s.cart := rfl
@[simp] theorem State.setNZ_inputs {w : Nat} (v : BitVec w) : (s.setNZ v).inputs = s.inputs := rfl
@[simp] theorem State.setNZ_draws {w : Nat} (v : BitVec w) : (s.setNZ v).draws = s.draws := rfl

/-! `State.setIreg`. -/

@[simp] theorem State.setIreg_a (k : Nat) (v : Byte) : (s.setIreg k v).a = s.a := rfl
@[simp] theorem State.setIreg_x (k : Nat) (v : Byte) : (s.setIreg k v).x = s.x := rfl
@[simp] theorem State.setIreg_y (k : Nat) (v : Byte) : (s.setIreg k v).y = s.y := rfl
@[simp] theorem State.setIreg_sp (k : Nat) (v : Byte) : (s.setIreg k v).sp = s.sp := rfl
@[simp] theorem State.setIreg_d (k : Nat) (v : Byte) : (s.setIreg k v).d = s.d := rfl
@[simp] theorem State.setIreg_pc (k : Nat) (v : Byte) : (s.setIreg k v).pc = s.pc := rfl
@[simp] theorem State.setIreg_pbr (k : Nat) (v : Byte) : (s.setIreg k v).pbr = s.pbr := rfl
@[simp] theorem State.setIreg_dbr (k : Nat) (v : Byte) : (s.setIreg k v).dbr = s.dbr := rfl
@[simp] theorem State.setIreg_p (k : Nat) (v : Byte) : (s.setIreg k v).p = s.p := rfl
@[simp] theorem State.setIreg_e (k : Nat) (v : Byte) : (s.setIreg k v).e = s.e := rfl
@[simp] theorem State.setIreg_sel (k : Nat) (v : Byte) : (s.setIreg k v).sel = s.sel := rfl
@[simp] theorem State.setIreg_stopped (k : Nat) (v : Byte) : (s.setIreg k v).stopped = s.stopped := rfl
@[simp] theorem State.setIreg_waiting (k : Nat) (v : Byte) : (s.setIreg k v).waiting = s.waiting := rfl
@[simp] theorem State.setIreg_moving (k : Nat) (v : Byte) : (s.setIreg k v).moving = s.moving := rfl
@[simp] theorem State.setIreg_mv (k : Nat) (v : Byte) : (s.setIreg k v).mv = s.mv := rfl
@[simp] theorem State.setIreg_fatal (k : Nat) (v : Byte) : (s.setIreg k v).fatal = s.fatal := rfl
@[simp] theorem State.setIreg_cycles (k : Nat) (v : Byte) : (s.setIreg k v).cycles = s.cycles := rfl
@[simp] theorem State.setIreg_nmiPending (k : Nat) (v : Byte) : (s.setIreg k v).nmiPending = s.nmiPending := rfl
@[simp] theorem State.setIreg_nmiFlag (k : Nat) (v : Byte) : (s.setIreg k v).nmiFlag = s.nmiFlag := rfl
@[simp] theorem State.setIreg_ch (k : Nat) (v : Byte) : (s.setIreg k v).ch = s.ch := rfl
@[simp] theorem State.setIreg_mem (k : Nat) (v : Byte) : (s.setIreg k v).mem = s.mem.write k v := rfl
@[simp] theorem State.setIreg_ppuExt (k : Nat) (v : Byte) : (s.setIreg k v).ppuExt = s.ppuExt := rfl
@[simp] theorem State.setIreg_cfg (k : Nat) (v : Byte) : (s.setIreg k v).cfg = s.cfg := rfl
@[simp] theorem State.setIreg_cart (k : Nat) (v : Byte) : (s.setIreg k v).cart = s.cart := rfl
@[simp] theorem State.setIreg_inputs (k : Nat) (v : Byte) : (s.setIreg k v).inputs = s.inputs := rfl
@[simp] theorem State.setIreg_draws (k : Nat) (v : Byte) : (s.setIreg k v).draws = s.draws := rfl

/-! `spend`. -/

@[simp] theorem spend_a (n : Nat) : (spend n s).a = s.a := rfl
@[simp] theorem spend_x (n : Nat) : (spend n s).x = s.x := rfl
@[simp] theorem spend_y (n : Nat) : (spend n s).y = s.y := rfl
@[simp] theorem spend_sp (n : Nat) : (spend n s).sp = s.sp := rfl
@[simp] theorem spend_d (n : Nat) : (spend n s).d = s.d := rfl
@[simp] theorem spend_pc (n : Nat) : (spend n s).pc = s.pc := rfl
@[simp] theorem spend_pbr (n : Nat) : (spend n s).pbr = s.pbr := rfl
@[simp] theorem spend_dbr (n : Nat) : (spend n s).dbr = s.dbr := rfl
@[simp] theorem spend_p (n : Nat) : (spend n s).p = s.p := rfl
@[simp] theorem spend_e (n : Nat) : (spend n s).e = s.e := rfl
@[simp] theorem spend_sel (n : Nat) : (spend n s).sel = s.sel := rfl
@[simp] theorem spend_stopped (n : Nat) : (spend n s).stopped = s.stopped := rfl
@[simp] theorem spend_waiting (n : Nat) : (spend n s).waiting = s.waiting := rfl
@[simp] theorem spend_moving (n : Nat) : (spend n s).moving = s.moving := rfl
@[simp] theorem spend_mv (n : Nat) : (spend n s).mv = s.mv := rfl
@[simp] theorem spend_fatal (n : Nat) : (spend n s).fatal = s.fatal := rfl
@[simp] theorem spend_cycles (n : Nat) : (spend n s).cycles = s.cycles + n := rfl
@[simp] theorem spend_nmiPending (n : Nat) : (spend n s).nmiPending = s.nmiPending := rfl
@[simp] theorem spend_nmiFlag (n : Nat) : (spend n s).nmiFlag = s.nmiFlag := rfl
@[simp] theorem spend_ch (n : Nat) : (spend n s).ch = s.ch := rfl
@[simp] theorem spend_mem (n : Nat) : (spend n s).mem = s.mem := rfl
@[simp] theorem spend_ppuExt (n : Nat) :
    (spend n s).ppuExt = if s.cfg.ppuExternal then Config.ppuTick s.ppuExt n else s.ppuExt := rfl
@[simp] theorem spend_cfg (n : Nat) : (spend n s).cfg = s.cfg := rfl
@[simp] theorem spend_cart (n : Nat) : (spend n s).cart = s.cart := rfl
@[simp] theorem spend_inputs (n : Nat) : (spend n s).inputs = s.inputs := rfl
@[simp] theorem spend_draws (n : Nat) : (spend n s).draws = s.draws := rfl

/-! `dmaStart`. -/

@[simp] theorem dmaStart_a (v : Byte) : (dmaStart v s).a = s.a := rfl
@[simp] theorem dmaStart_x (v : Byte) : (dmaStart v s).x = s.x := rfl
@[simp] theorem dmaStart_y (v : Byte) : (dmaStart v s).y = s.y := rfl
@[simp] theorem dmaStart_sp (v : Byte) : (dmaStart v s).sp = s.sp := rfl
@[simp] theorem dmaStart_d (v : Byte) : (dmaStart v s).d = s.d := rfl
@[simp] theorem dmaStart_pc (v : Byte) : (dmaStart v s).pc = s.pc := rfl
@[simp] theorem dmaStart_pbr (v : Byte) : (dmaStart v s).pbr = s.pbr := rfl
@[simp] theorem dmaStart_dbr (v : Byte) : (dmaStart v s).dbr = s.dbr := rfl
@[simp] theorem dmaStart_p (v : Byte) : (dmaStart v s).p = s.p := rfl
@[simp] theorem dmaStart_e (v : Byte) : (dmaStart v s).e = s.e := rfl
@[simp] theorem dmaStart_sel (v : Byte) : (dmaStart v s).sel = s.sel := rfl
@[simp] theorem dmaStart_stopped (v : Byte) : (dmaStart v s).stopped = s.stopped := rfl
@[simp] theorem dmaStart_waiting (v : Byte) : (dmaStart v s).waiting = s.waiting := rfl
@[simp] theorem dmaStart_moving (v : Byte) : (dmaStart v s).moving = s.moving := rfl
@[simp] theorem dmaStart_mv (v : Byte) : (dmaStart v s).mv = s.mv := rfl
@[simp] theorem dmaStart_fatal (v : Byte) : (dmaStart v s).fatal = s.fatal := rfl
@[simp] theorem dmaStart_cycles (v : Byte) : (dmaStart v s).cycles = s.cycles := rfl
@[simp] theorem dmaStart_nmiPending (v : Byte) : (dmaStart v s).nmiPending = s.nmiPending := rfl
@[simp] theorem dmaStart_nmiFlag (v : Byte) : (dmaStart v s).nmiFlag = s.nmiFlag := rfl
@[simp] theorem dmaStart_mem (v : Byte) : (dmaStart v s).mem = s.mem := rfl
@[simp] theorem dmaStart_ppuExt (v : Byte) : (dmaStart v s).ppuExt = s.ppuExt := rfl
@[simp] theorem dmaStart_cfg (v : Byte) : (dmaStart v s).cfg = s.cfg := rfl
@[simp] theorem dmaStart_cart (v : Byte) : (dmaStart v s).cart = s.cart := rfl
@[simp] theorem dmaStart_inputs (v : Byte) : (dmaStart v s).inputs = s.inputs := rfl
@[simp] theorem dmaStart_draws (v : Byte) : (dmaStart v s).draws = s.draws := rfl

/-! `exchangeCarryAndEmulation`. -/

@[simp] theorem exchangeCarryAndEmulation_a  : (exchangeCarryAndEmulation s).a = s.a := rfl
@[simp] theorem exchangeCarryAndEmulation_x  : (exchangeCarryAndEmulation s).x = s.x := rfl
@[simp] theorem exchangeCarryAndEmulation_y  : (exchangeCarryAndEmulation s).y = s.y := rfl
@[simp] theorem exchangeCarryAndEmulation_sp  : (exchangeCarryAndEmulation s).sp = s.sp := rfl
@[simp] theorem exchangeCarryAndEmulation_d  : (exchangeCarryAndEmulation s).d = s.d := rfl
@[simp] theorem exchangeCarryAndEmulation_pc  : (exchangeCarryAndEmulation s).pc = s.pc := rfl
@[simp] theorem exchangeCarryAndEmulation_pbr  : (exchangeCarryAndEmulation s).pbr = s.pbr := rfl
@[simp] theorem exchangeCarryAndEmulation_dbr  : (exchangeCarryAndEmulation s).dbr = s.dbr := rfl
@[simp] theorem exchangeCarryAndEmulation_p  : (exchangeCarryAndEmulation s).p = { s.p with c := s.e } := rfl
@[simp] theorem exchangeCarryAndEmulation_e  : (exchangeCarryAndEmulation s).e = s.p.c := rfl
@[simp] theorem exchangeCarryAndEmulation_stopped  : (exchangeCarryAndEmulation s).stopped = s.stopped := rfl
@[simp] theorem exchangeCarryAndEmulation_waiting  : (exchangeCarryAndEmulation s).waiting = s.waiting := rfl
@[simp] theorem exchangeCarryAndEmulation_moving  : (exchangeCarryAndEmulation s).moving = s.moving := rfl
@[simp] theorem exchangeCarryAndEmulation_mv  : (exchangeCarryAndEmulation s).mv = s.mv := rfl
@[simp] theorem exchangeCarryAndEmulation_fatal  : (exchangeCarryAndEmulation s).fatal = s.fatal := rfl
@[simp] theorem exchangeCarryAndEmulation_cycles  : (exchangeCarryAndEmulation s).cycles = s.cycles := rfl
@[simp] theorem exchangeCarryAndEmulation_nmiPending  : (exchangeCarryAndEmulation s).nmiPending = s.nmiPending := rfl
@[simp] theorem exchangeCarryAndEmulation_nmiFlag  : (exchangeCarryAndEmulation s).nmiFlag = s.nmiFlag := rfl
@[simp] theorem exchangeCarryAndEmulation_ch  : (exchangeCarryAndEmulation s).ch = s.ch := rfl
@[simp] theorem exchangeCarryAndEmulation_mem  : (exchangeCarryAndEmulation s).mem = s.mem := rfl
@[simp] theorem exchangeCarryAndEmulation_ppuExt  : (exchangeCarryAndEmulation s).ppuExt = s.ppuExt := rfl
@[simp] theorem exchangeCarryAndEmulation_cfg  : (exchangeCarryAndEmulation s).cfg = s.cfg := rfl
@[simp] theorem exchangeCarryAndEmulation_cart  : (exchangeCarryAndEmulation s).cart = s.cart := rfl
@[simp] theorem exchangeCarryAndEmulation_inputs  : (exchangeCarryAndEmulation s).inputs = s.inputs := rfl
@[simp] theorem exchangeCarryAndEmulation_draws  : (exchangeCarryAndEmulation s).draws = s.draws := rfl

/-! `State.nextInputs`. -/

@[simp] theorem State.nextInputs_a  : s.nextInputs.a = s.a := rfl
@[simp] theorem State.nextInputs_x  : s.nextInputs.x = s.x := rfl
@[simp] theorem State.nextInputs_y  : s.nextInputs.y = s.y := rfl
@[simp] theorem State.nextInputs_sp  : s.nextInputs.sp = s.sp := rfl
@[simp] theorem State.nextInputs_d  : s.nextInputs.d = s.d := rfl
@[simp] theorem State.nextInputs_pc  : s.nextInputs.pc = s.pc := rfl
@[simp] theorem State.nextInputs_pbr  : s.nextInputs.pbr = s.pbr := rfl
@[simp] theorem State.nextInputs_dbr  : s.nextInputs.dbr = s.dbr := rfl
@[simp] theorem State.nextInputs_p  : s.nextInputs.p = s.p := rfl
@[simp] theorem State.nextInputs_e  : s.nextInputs.e = s.e := rfl
@[simp] theorem State.nextInputs_sel  : s.nextInputs.sel = s.sel := rfl
@[simp] theorem State.nextInputs_stopped  : s.nextInputs.stopped = s.stopped := rfl
@[simp] theorem State.nextInputs_waiting  : s.nextInputs.waiting = s.waiting := rfl
@[simp] theorem State.nextInputs_moving  : s.nextInputs.moving = s.moving := rfl
@[simp] theorem State.nextInputs_mv  : s.nextInputs.mv = s.mv := rfl
@[simp] theorem State.nextInputs_fatal  : s.nextInputs.fatal = s.fatal := rfl
@[simp] theorem State.nextInputs_cycles  : s.nextInputs.cycles = s.cycles := rfl
@[simp] theorem State.nextInputs_nmiPending  : s.nextInputs.nmiPending = s.nmiPending := rfl
@[simp] theorem State.nextInputs_nmiFlag  : s.nextInputs.nmiFlag = s.nmiFlag := rfl
@[simp] theorem State.nextInputs_ch  : s.nextInputs.ch = s.ch := rfl
@[simp] theorem State.nextInputs_mem  : s.nextInputs.mem = s.mem := rfl
@[simp] theorem State.nextInputs_ppuExt  : s.nextInputs.ppuExt = s.ppuExt := rfl
@[simp] theorem State.nextInputs_cfg  : s.nextInputs.cfg = s.cfg := rfl
@[simp] theorem State.nextInputs_cart  : s.nextInputs.cart = s.cart := rfl
@[simp] theorem State.nextInputs_inputs  : s.nextInputs.inputs = s.inputs.tail := rfl
@[simp] theorem State.nextInputs_draws  : s.nextInputs.draws = s.draws := rfl

/-! `latchInputs`. -/

@[simp] theorem latchInputs_a (env : Inputs) : (latchInputs env s).a = s.a := rfl
@[simp] theorem latchInputs_x (env : Inputs) : (latchInputs env s).x = s.x := rfl
@[simp] theorem latchInputs_y (env : Inputs) : (latchInputs env s).y = s.y := rfl
@[simp] theorem latchInputs_sp (env : Inputs) : (latchInputs env s).sp = s.sp := rfl
@[simp] theorem latchInputs_d (env : Inputs) : (latchInputs env s).d = s.d := rfl
@[simp] theorem latchInputs_pc (env : Inputs) : (latchInputs env s).pc = s.pc := rfl
@[simp] theorem latchInputs_pbr (env : Inputs) : (latchInputs env s).pbr = s.pbr := rfl
@[simp] theorem latchInputs_dbr (env : Inputs) : (latchInputs env s).dbr = s.dbr := rfl
@[simp] theorem latchInputs_p (env : Inputs) : (latchInputs env s).p = s.p := rfl
@[simp] theorem latchInputs_e (env : Inputs) : (latchInputs env s).e = s.e := rfl
@[simp] theorem latchInputs_sel (env : Inputs) : (latchInputs env s).sel = s.sel := rfl
@[simp] theorem latchInputs_stopped (env : Inputs) : (latchInputs env s).stopped = s.stopped := rfl
@[simp] theorem latchInputs_waiting (env : Inputs) : (latchInputs env s).waiting = s.waiting := rfl
@[simp] theorem latchInputs_moving (env : Inputs) : (latchInputs env s).moving = s.moving := rfl
@[simp] theorem latchInputs_mv (env : Inputs) : (latchInputs env s).mv = s.mv := rfl
@[simp] theorem latchInputs_fatal (env : Inputs) : (latchInputs env s).fatal = s.fatal := rfl
@[simp] theorem latchInputs_cycles (env : Inputs) : (latchInputs env s).cycles = s.cycles := rfl
@[simp] theorem latchInputs_nmiPending (env : Inputs) :
    (latchInputs env s).nmiPending = (s.nmiPending || env.nmiEdge) := rfl
@[simp] theorem latchInputs_nmiFlag (env : Inputs) :
    (latchInputs env s).nmiFlag = (s.nmiFlag || env.vblankStart) := rfl
@[simp] theorem latchInputs_ch (env : Inputs) : (latchInputs env s).ch = s.ch := rfl
@[simp] theorem latchInputs_mem (env : Inputs) : (latchInputs env s).mem = s.mem := rfl
@[simp] theorem latchInputs_ppuExt (env : Inputs) : (latchInputs env s).ppuExt = s.ppuExt := rfl
@[simp] theorem latchInputs_cfg (env : Inputs) : (latchInputs env s).cfg = s.cfg := rfl
@[simp] theorem latchInputs_cart (env : Inputs) : (latchInputs env s).cart = s.cart := rfl
@[simp] theorem latchInputs_inputs (env : Inputs) : (latchInputs env s).inputs = s.inputs := rfl
@[simp] theorem latchInputs_draws (env : Inputs) : (latchInputs env s).draws = s.draws := rfl

/-! `finish` and `report`: the end of an instruction that started in `s0`. -/

@[simp] theorem finish_a (i : Instr) (info : CycleInfo) (s0 : State) :
    (finish i info s0 s).a = s.a := rfl
@[simp] theorem finish_x (i : Instr) (info : CycleInfo) (s0 : State) :
    (finish i info s0 s).x = s.x := rfl
@[simp] theorem finish_y (i : Instr) (info : CycleInfo) (s0 : State) :
    (finish i info s0 s).y = s.y := rfl
@[simp] theorem finish_sp (i : Instr) (info : CycleInfo) (s0 : State) :
    (finish i info s0 s).sp = s.sp := rfl
@[simp] theorem finish_d (i : Instr) (info : CycleInfo) (s0 : State) :
    (finish i info s0 s).d = s.d := rfl
@[simp] theorem finish_pc (i : Instr) (info : CycleInfo) (s0 : State) :
    (finish i info s0 s).pc = s0.pc + BitVec.ofNat 16 (i.length s0.widths) := rfl
@[simp] theorem finish_pbr (i : Instr) (info : CycleInfo) (s0 : State) :
    (finish i info s0 s).pbr = s.pbr := rfl
@[simp] theorem finish_dbr (i : Instr) (info : CycleInfo) (s0 : State) :
    (finish i info s0 s).dbr = s.dbr := rfl
@[simp] theorem finish_p (i : Instr) (info : CycleInfo) (s0 : State) :
    (finish i info s0 s).p = s.p := rfl
@[simp] theorem finish_e (i : Instr) (info : CycleInfo) (s0 : State) :
    (finish i info s0 s).e = s.e := rfl
@[simp] theorem finish_sel (i : Instr) (info : CycleInfo) (s0 : State) :
    (finish i info s0 s).sel = s.sel := rfl
@[simp] theorem finish_stopped (i : Instr) (info : CycleInfo) (s0 : State) :
    (finish i info s0 s).stopped = s.stopped := rfl
@[simp] theorem finish_waiting (i : Instr) (info : CycleInfo) (s0 : State) :
    (finish i info s0 s).waiting = s.waiting := rfl
@[simp] theorem finish_moving (i : Instr) (info : CycleInfo) (s0 : State) :
    (finish i info s0 s).moving = s.moving := rfl
@[simp] theorem finish_mv (i : Instr) (info : CycleInfo) (s0 : State) :
    (finish i info s0 s).mv = s.mv := rfl
@[simp] theorem finish_fatal (i : Instr) (info : CycleInfo) (s0 : State) :
    (finish i info s0 s).fatal = s.fatal := rfl
@[simp] theorem finish_cycles (i : Instr) (info : CycleInfo) (s0 : State) :
    (finish i info s0 s).cycles = s.cycles + cyclesOf i info s0 := rfl
@[simp] theorem finish_nmiPending (i : Instr) (info : CycleInfo) (s0 : State) :
    (finish i info s0 s).nmiPending = s.nmiPending := rfl
@[simp] theorem finish_nmiFlag (i : Instr) (info : CycleInfo) (s0 : State) :
    (finish i info s0 s).nmiFlag = s.nmiFlag := rfl
@[simp] theorem finish_ch (i : Instr) (info : CycleInfo) (s0 : State) :
    (finish i info s0 s).ch = s.ch := rfl
@[simp] theorem finish_mem (i : Instr) (info : CycleInfo) (s0 : State) :
    (finish i info s0 s).mem = s.mem := rfl
@[simp] theorem finish_ppuExt (i : Instr) (info : CycleInfo) (s0 : State) :
    (finish i info s0 s).ppuExt = 
      if s.cfg.ppuExternal then Config.ppuTick s.ppuExt (cyclesOf i info s0) else s.ppuExt := rfl
@[simp] theorem finish_cfg (i : Instr) (info : CycleInfo) (s0 : State) :
    (finish i info s0 s).cfg = s.cfg := rfl
@[simp] theorem finish_cart (i : Instr) (info : CycleInfo) (s0 : State) :
    (finish i info s0 s).cart = s.cart := rfl
@[simp] theorem finish_inputs (i : Instr) (info : CycleInfo) (s0 : State) :
    (finish i info s0 s).inputs = s.inputs := rfl
@[simp] theorem finish_draws (i : Instr) (info : CycleInfo) (s0 : State) :
    (finish i info s0 s).draws = s.draws := rfl

@[simp] theorem report_a (i : Instr) (info : CycleInfo) (s0 : State) :
    (report i info s0 s).a = s.a := rfl
@[simp] theorem report_x (i : Instr) (info : CycleInfo) (s0 : State) :
    (report i info s0 s).x = s.x := rfl
@[simp] theorem report_y (i : Instr) (info : CycleInfo) (s0 : State) :
    (report i info s0 s).y = s.y := rfl
@[simp] theorem report_sp (i : Instr) (info : CycleInfo) (s0 : State) :
    (report i info s0 s).sp = s.sp := rfl
@[simp] theorem report_d (i : Instr) (info : CycleInfo) (s0 : State) :
    (report i info s0 s).d = s.d := rfl
@[simp] theorem report_pc (i : Instr) (info : CycleInfo) (s0 : State) :
    (report i info s0 s).pc = s.pc := rfl
@[simp] theorem report_pbr (i : Instr) (info : CycleInfo) (s0 : State) :
    (report i info s0 s).pbr = s.pbr := rfl
@[simp] theorem report_dbr (i : Instr) (info : CycleInfo) (s0 : State) :
    (report i info s0 s).dbr = s.dbr := rfl
@[simp] theorem report_p (i : Instr) (info : CycleInfo) (s0 : State) :
    (report i info s0 s).p = s.p := rfl
@[simp] theorem report_e (i : Instr) (info : CycleInfo) (s0 : State) :
    (report i info s0 s).e = s.e := rfl
@[simp] theorem report_sel (i : Instr) (info : CycleInfo) (s0 : State) :
    (report i info s0 s).sel = s.sel := rfl
@[simp] theorem report_stopped (i : Instr) (info : CycleInfo) (s0 : State) :
    (report i info s0 s).stopped = s.stopped := rfl
@[simp] theorem report_waiting (i : Instr) (info : CycleInfo) (s0 : State) :
    (report i info s0 s).waiting = s.waiting := rfl
@[simp] theorem report_moving (i : Instr) (info : CycleInfo) (s0 : State) :
    (report i info s0 s).moving = s.moving := rfl
@[simp] theorem report_mv (i : Instr) (info : CycleInfo) (s0 : State) :
    (report i info s0 s).mv = s.mv := rfl
@[simp] theorem report_fatal (i : Instr) (info : CycleInfo) (s0 : State) :
    (report i info s0 s).fatal = s.fatal := rfl
@[simp] theorem report_cycles (i : Instr) (info : CycleInfo) (s0 : State) :
    (report i info s0 s).cycles = s.cycles + cyclesOf i info s0 := rfl
@[simp] theorem report_nmiPending (i : Instr) (info : CycleInfo) (s0 : State) :
    (report i info s0 s).nmiPending = s.nmiPending := rfl
@[simp] theorem report_nmiFlag (i : Instr) (info : CycleInfo) (s0 : State) :
    (report i info s0 s).nmiFlag = s.nmiFlag := rfl
@[simp] theorem report_ch (i : Instr) (info : CycleInfo) (s0 : State) :
    (report i info s0 s).ch = s.ch := rfl
@[simp] theorem report_mem (i : Instr) (info : CycleInfo) (s0 : State) :
    (report i info s0 s).mem = s.mem := rfl
@[simp] theorem report_ppuExt (i : Instr) (info : CycleInfo) (s0 : State) :
    (report i info s0 s).ppuExt = 
      if s.cfg.ppuExternal then Config.ppuTick s.ppuExt (cyclesOf i info s0) else s.ppuExt := rfl
@[simp] theorem report_cfg (i : Instr) (info : CycleInfo) (s0 : State) :
    (report i info s0 s).cfg = s.cfg := rfl
@[simp] theorem report_cart (i : Instr) (info : CycleInfo) (s0 : State) :
    (report i info s0 s).cart = s.cart := rfl
@[simp] theorem report_inputs (i : Instr) (info : CycleInfo) (s0 : State) :
    (report i info s0 s).inputs = s.inputs := rfl
@[simp] theorem report_draws (i : Instr) (info : CycleInfo) (s0 : State) :
    (report i info s0 s).draws = s.draws := rfl

/-! The flags of `Status.setNZ` and `Status.setCNZ`. -/

@[simp] theorem Status.setNZ_n {w : Nat} (p : Status) (v : BitVec w) : (p.setNZ v).n = v.msb := rfl
@[simp] theorem Status.setNZ_v {w : Nat} (p : Status) (v : BitVec w) : (p.setNZ v).v = p.v := rfl
@[simp] theorem Status.setNZ_m {w : Nat} (p : Status) (v : BitVec w) : (p.setNZ v).m = p.m := rfl
@[simp] theorem Status.setNZ_x {w : Nat} (p : Status) (v : BitVec w) : (p.setNZ v).x = p.x := rfl
@[simp] theorem Status.setNZ_d {w : Nat} (p : Status) (v : BitVec w) : (p.setNZ v).d = p.d := rfl
@[simp] theorem Status.setNZ_i {w : Nat} (p : Status) (v : BitVec w) : (p.setNZ v).i = p.i := rfl
@[simp] theorem Status.setNZ_z {w : Nat} (p : Status) (v : BitVec w) : (p.setNZ v).z = (v == 0) := rfl
@[simp] theorem Status.setNZ_c {w : Nat} (p : Status) (v : BitVec w) : (p.setNZ v).c = p.c := rfl
@[simp] theorem Status.setCNZ_n {w : Nat} (p : Status) (o : ShiftOut w) : (p.setCNZ o).n = o.n := rfl
@[simp] theorem Status.setCNZ_v {w : Nat} (p : Status) (o : ShiftOut w) : (p.setCNZ o).v = p.v := rfl
@[simp] theorem Status.setCNZ_m {w : Nat} (p : Status) (o : ShiftOut w) : (p.setCNZ o).m = p.m := rfl
@[simp] theorem Status.setCNZ_x {w : Nat} (p : Status) (o : ShiftOut w) : (p.setCNZ o).x = p.x := rfl
@[simp] theorem Status.setCNZ_d {w : Nat} (p : Status) (o : ShiftOut w) : (p.setCNZ o).d = p.d := rfl
@[simp] theorem Status.setCNZ_i {w : Nat} (p : Status) (o : ShiftOut w) : (p.setCNZ o).i = p.i := rfl
@[simp] theorem Status.setCNZ_z {w : Nat} (p : Status) (o : ShiftOut w) : (p.setCNZ o).z = o.z := rfl
@[simp] theorem Status.setCNZ_c {w : Nat} (p : Status) (o : ShiftOut w) : (p.setCNZ o).c = o.c := rfl

end Sys2Proof.Machine
end

