-- ==== Sys2Proof/Laws/Bus.lean ====
section
/-! SUPPORT. The bus: what a read and a write of a byte can do, once for each operation (rules R74 to R76, R81). -/

namespace Sys2Proof.Machine

variable (s : State)

/-! Fields `busRead` does not change. -/

@[simp] theorem busRead_a (a : Addr) :
    (busRead a s).2.a = s.a := by
  unfold busRead; split <;> (try split) <;> rfl
@[simp] theorem busRead_x (a : Addr) :
    (busRead a s).2.x = s.x := by
  unfold busRead; split <;> (try split) <;> rfl
@[simp] theorem busRead_y (a : Addr) :
    (busRead a s).2.y = s.y := by
  unfold busRead; split <;> (try split) <;> rfl
@[simp] theorem busRead_sp (a : Addr) :
    (busRead a s).2.sp = s.sp := by
  unfold busRead; split <;> (try split) <;> rfl
@[simp] theorem busRead_d (a : Addr) :
    (busRead a s).2.d = s.d := by
  unfold busRead; split <;> (try split) <;> rfl
@[simp] theorem busRead_pc (a : Addr) :
    (busRead a s).2.pc = s.pc := by
  unfold busRead; split <;> (try split) <;> rfl
@[simp] theorem busRead_pbr (a : Addr) :
    (busRead a s).2.pbr = s.pbr := by
  unfold busRead; split <;> (try split) <;> rfl
@[simp] theorem busRead_dbr (a : Addr) :
    (busRead a s).2.dbr = s.dbr := by
  unfold busRead; split <;> (try split) <;> rfl
@[simp] theorem busRead_p (a : Addr) :
    (busRead a s).2.p = s.p := by
  unfold busRead; split <;> (try split) <;> rfl
@[simp] theorem busRead_e (a : Addr) :
    (busRead a s).2.e = s.e := by
  unfold busRead; split <;> (try split) <;> rfl
@[simp] theorem busRead_sel (a : Addr) :
    (busRead a s).2.sel = s.sel := by
  unfold busRead; split <;> (try split) <;> rfl
@[simp] theorem busRead_stopped (a : Addr) :
    (busRead a s).2.stopped = s.stopped := by
  unfold busRead; split <;> (try split) <;> rfl
@[simp] theorem busRead_waiting (a : Addr) :
    (busRead a s).2.waiting = s.waiting := by
  unfold busRead; split <;> (try split) <;> rfl
@[simp] theorem busRead_moving (a : Addr) :
    (busRead a s).2.moving = s.moving := by
  unfold busRead; split <;> (try split) <;> rfl
@[simp] theorem busRead_mv (a : Addr) :
    (busRead a s).2.mv = s.mv := by
  unfold busRead; split <;> (try split) <;> rfl
@[simp] theorem busRead_fatal (a : Addr) :
    (busRead a s).2.fatal = s.fatal := by
  unfold busRead; split <;> (try split) <;> rfl
@[simp] theorem busRead_cycles (a : Addr) :
    (busRead a s).2.cycles = s.cycles := by
  unfold busRead; split <;> (try split) <;> rfl
@[simp] theorem busRead_nmiPending (a : Addr) :
    (busRead a s).2.nmiPending = s.nmiPending := by
  unfold busRead; split <;> (try split) <;> rfl
@[simp] theorem busRead_ch (a : Addr) :
    (busRead a s).2.ch = s.ch := by
  unfold busRead; split <;> (try split) <;> rfl
@[simp] theorem busRead_mem (a : Addr) :
    (busRead a s).2.mem = s.mem := by
  unfold busRead; split <;> (try split) <;> rfl
@[simp] theorem busRead_cfg (a : Addr) :
    (busRead a s).2.cfg = s.cfg := by
  unfold busRead; split <;> (try split) <;> rfl
@[simp] theorem busRead_cart (a : Addr) :
    (busRead a s).2.cart = s.cart := by
  unfold busRead; split <;> (try split) <;> rfl
@[simp] theorem busRead_inputs (a : Addr) :
    (busRead a s).2.inputs = s.inputs := by
  unfold busRead; split <;> (try split) <;> rfl
@[simp] theorem busRead_draws (a : Addr) :
    (busRead a s).2.draws = s.draws := by
  unfold busRead; split <;> (try split) <;> rfl
/-! Fields `storeByte` does not change. -/

@[simp] theorem storeByte_a (a : Addr) (v : Byte) :
    (storeByte a v s).a = s.a := by
  unfold storeByte cartWrite; split <;> (try split) <;> rfl
@[simp] theorem storeByte_x (a : Addr) (v : Byte) :
    (storeByte a v s).x = s.x := by
  unfold storeByte cartWrite; split <;> (try split) <;> rfl
@[simp] theorem storeByte_y (a : Addr) (v : Byte) :
    (storeByte a v s).y = s.y := by
  unfold storeByte cartWrite; split <;> (try split) <;> rfl
@[simp] theorem storeByte_sp (a : Addr) (v : Byte) :
    (storeByte a v s).sp = s.sp := by
  unfold storeByte cartWrite; split <;> (try split) <;> rfl
@[simp] theorem storeByte_d (a : Addr) (v : Byte) :
    (storeByte a v s).d = s.d := by
  unfold storeByte cartWrite; split <;> (try split) <;> rfl
@[simp] theorem storeByte_pc (a : Addr) (v : Byte) :
    (storeByte a v s).pc = s.pc := by
  unfold storeByte cartWrite; split <;> (try split) <;> rfl
@[simp] theorem storeByte_pbr (a : Addr) (v : Byte) :
    (storeByte a v s).pbr = s.pbr := by
  unfold storeByte cartWrite; split <;> (try split) <;> rfl
@[simp] theorem storeByte_dbr (a : Addr) (v : Byte) :
    (storeByte a v s).dbr = s.dbr := by
  unfold storeByte cartWrite; split <;> (try split) <;> rfl
@[simp] theorem storeByte_p (a : Addr) (v : Byte) :
    (storeByte a v s).p = s.p := by
  unfold storeByte cartWrite; split <;> (try split) <;> rfl
@[simp] theorem storeByte_e (a : Addr) (v : Byte) :
    (storeByte a v s).e = s.e := by
  unfold storeByte cartWrite; split <;> (try split) <;> rfl
@[simp] theorem storeByte_sel (a : Addr) (v : Byte) :
    (storeByte a v s).sel = s.sel := by
  unfold storeByte cartWrite; split <;> (try split) <;> rfl
@[simp] theorem storeByte_stopped (a : Addr) (v : Byte) :
    (storeByte a v s).stopped = s.stopped := by
  unfold storeByte cartWrite; split <;> (try split) <;> rfl
@[simp] theorem storeByte_waiting (a : Addr) (v : Byte) :
    (storeByte a v s).waiting = s.waiting := by
  unfold storeByte cartWrite; split <;> (try split) <;> rfl
@[simp] theorem storeByte_moving (a : Addr) (v : Byte) :
    (storeByte a v s).moving = s.moving := by
  unfold storeByte cartWrite; split <;> (try split) <;> rfl
@[simp] theorem storeByte_mv (a : Addr) (v : Byte) :
    (storeByte a v s).mv = s.mv := by
  unfold storeByte cartWrite; split <;> (try split) <;> rfl
@[simp] theorem storeByte_fatal (a : Addr) (v : Byte) :
    (storeByte a v s).fatal = s.fatal := by
  unfold storeByte cartWrite; split <;> (try split) <;> rfl
@[simp] theorem storeByte_cycles (a : Addr) (v : Byte) :
    (storeByte a v s).cycles = s.cycles := by
  unfold storeByte cartWrite; split <;> (try split) <;> rfl
@[simp] theorem storeByte_nmiPending (a : Addr) (v : Byte) :
    (storeByte a v s).nmiPending = s.nmiPending := by
  unfold storeByte cartWrite; split <;> (try split) <;> rfl
@[simp] theorem storeByte_nmiFlag (a : Addr) (v : Byte) :
    (storeByte a v s).nmiFlag = s.nmiFlag := by
  unfold storeByte cartWrite; split <;> (try split) <;> rfl
@[simp] theorem storeByte_ch (a : Addr) (v : Byte) :
    (storeByte a v s).ch = s.ch := by
  unfold storeByte cartWrite; split <;> (try split) <;> rfl
@[simp] theorem storeByte_cfg (a : Addr) (v : Byte) :
    (storeByte a v s).cfg = s.cfg := by
  unfold storeByte cartWrite; split <;> (try split) <;> rfl
@[simp] theorem storeByte_inputs (a : Addr) (v : Byte) :
    (storeByte a v s).inputs = s.inputs := by
  unfold storeByte cartWrite; split <;> (try split) <;> rfl
@[simp] theorem storeByte_draws (a : Addr) (v : Byte) :
    (storeByte a v s).draws = s.draws := by
  unfold storeByte cartWrite; split <;> (try split) <;> rfl
/-! Fields `busWrite` does not change. -/

@[simp] theorem busWrite_a (a : Addr) (v : Byte) :
    (busWrite a v s).a = s.a := by
  unfold busWrite; split <;> simp
@[simp] theorem busWrite_x (a : Addr) (v : Byte) :
    (busWrite a v s).x = s.x := by
  unfold busWrite; split <;> simp
@[simp] theorem busWrite_y (a : Addr) (v : Byte) :
    (busWrite a v s).y = s.y := by
  unfold busWrite; split <;> simp
@[simp] theorem busWrite_sp (a : Addr) (v : Byte) :
    (busWrite a v s).sp = s.sp := by
  unfold busWrite; split <;> simp
@[simp] theorem busWrite_d (a : Addr) (v : Byte) :
    (busWrite a v s).d = s.d := by
  unfold busWrite; split <;> simp
@[simp] theorem busWrite_pc (a : Addr) (v : Byte) :
    (busWrite a v s).pc = s.pc := by
  unfold busWrite; split <;> simp
@[simp] theorem busWrite_pbr (a : Addr) (v : Byte) :
    (busWrite a v s).pbr = s.pbr := by
  unfold busWrite; split <;> simp
@[simp] theorem busWrite_dbr (a : Addr) (v : Byte) :
    (busWrite a v s).dbr = s.dbr := by
  unfold busWrite; split <;> simp
@[simp] theorem busWrite_p (a : Addr) (v : Byte) :
    (busWrite a v s).p = s.p := by
  unfold busWrite; split <;> simp
@[simp] theorem busWrite_e (a : Addr) (v : Byte) :
    (busWrite a v s).e = s.e := by
  unfold busWrite; split <;> simp
@[simp] theorem busWrite_sel (a : Addr) (v : Byte) :
    (busWrite a v s).sel = s.sel := by
  unfold busWrite; split <;> simp
@[simp] theorem busWrite_stopped (a : Addr) (v : Byte) :
    (busWrite a v s).stopped = s.stopped := by
  unfold busWrite; split <;> simp
@[simp] theorem busWrite_waiting (a : Addr) (v : Byte) :
    (busWrite a v s).waiting = s.waiting := by
  unfold busWrite; split <;> simp
@[simp] theorem busWrite_moving (a : Addr) (v : Byte) :
    (busWrite a v s).moving = s.moving := by
  unfold busWrite; split <;> simp
@[simp] theorem busWrite_mv (a : Addr) (v : Byte) :
    (busWrite a v s).mv = s.mv := by
  unfold busWrite; split <;> simp
@[simp] theorem busWrite_fatal (a : Addr) (v : Byte) :
    (busWrite a v s).fatal = s.fatal := by
  unfold busWrite; split <;> simp
@[simp] theorem busWrite_cycles (a : Addr) (v : Byte) :
    (busWrite a v s).cycles = s.cycles := by
  unfold busWrite; split <;> simp
@[simp] theorem busWrite_nmiPending (a : Addr) (v : Byte) :
    (busWrite a v s).nmiPending = s.nmiPending := by
  unfold busWrite; split <;> simp
@[simp] theorem busWrite_nmiFlag (a : Addr) (v : Byte) :
    (busWrite a v s).nmiFlag = s.nmiFlag := by
  unfold busWrite; split <;> simp
@[simp] theorem busWrite_cfg (a : Addr) (v : Byte) :
    (busWrite a v s).cfg = s.cfg := by
  unfold busWrite; split <;> simp
@[simp] theorem busWrite_inputs (a : Addr) (v : Byte) :
    (busWrite a v s).inputs = s.inputs := by
  unfold busWrite; split <;> simp
@[simp] theorem busWrite_draws (a : Addr) (v : Byte) :
    (busWrite a v s).draws = s.draws := by
  unfold busWrite; split <;> simp
/-! Fields `readWordW` does not change. -/

@[simp] theorem readWordW_a (b : Byte) (o : Word) :
    (readWordW b o s).2.a = s.a := by
  simp [readWordW]
@[simp] theorem readWordW_x (b : Byte) (o : Word) :
    (readWordW b o s).2.x = s.x := by
  simp [readWordW]
@[simp] theorem readWordW_y (b : Byte) (o : Word) :
    (readWordW b o s).2.y = s.y := by
  simp [readWordW]
@[simp] theorem readWordW_sp (b : Byte) (o : Word) :
    (readWordW b o s).2.sp = s.sp := by
  simp [readWordW]
@[simp] theorem readWordW_d (b : Byte) (o : Word) :
    (readWordW b o s).2.d = s.d := by
  simp [readWordW]
@[simp] theorem readWordW_pc (b : Byte) (o : Word) :
    (readWordW b o s).2.pc = s.pc := by
  simp [readWordW]
@[simp] theorem readWordW_pbr (b : Byte) (o : Word) :
    (readWordW b o s).2.pbr = s.pbr := by
  simp [readWordW]
@[simp] theorem readWordW_dbr (b : Byte) (o : Word) :
    (readWordW b o s).2.dbr = s.dbr := by
  simp [readWordW]
@[simp] theorem readWordW_p (b : Byte) (o : Word) :
    (readWordW b o s).2.p = s.p := by
  simp [readWordW]
@[simp] theorem readWordW_e (b : Byte) (o : Word) :
    (readWordW b o s).2.e = s.e := by
  simp [readWordW]
@[simp] theorem readWordW_sel (b : Byte) (o : Word) :
    (readWordW b o s).2.sel = s.sel := by
  simp [readWordW]
@[simp] theorem readWordW_stopped (b : Byte) (o : Word) :
    (readWordW b o s).2.stopped = s.stopped := by
  simp [readWordW]
@[simp] theorem readWordW_waiting (b : Byte) (o : Word) :
    (readWordW b o s).2.waiting = s.waiting := by
  simp [readWordW]
@[simp] theorem readWordW_moving (b : Byte) (o : Word) :
    (readWordW b o s).2.moving = s.moving := by
  simp [readWordW]
@[simp] theorem readWordW_mv (b : Byte) (o : Word) :
    (readWordW b o s).2.mv = s.mv := by
  simp [readWordW]
@[simp] theorem readWordW_fatal (b : Byte) (o : Word) :
    (readWordW b o s).2.fatal = s.fatal := by
  simp [readWordW]
@[simp] theorem readWordW_cycles (b : Byte) (o : Word) :
    (readWordW b o s).2.cycles = s.cycles := by
  simp [readWordW]
@[simp] theorem readWordW_nmiPending (b : Byte) (o : Word) :
    (readWordW b o s).2.nmiPending = s.nmiPending := by
  simp [readWordW]
@[simp] theorem readWordW_ch (b : Byte) (o : Word) :
    (readWordW b o s).2.ch = s.ch := by
  simp [readWordW]
@[simp] theorem readWordW_mem (b : Byte) (o : Word) :
    (readWordW b o s).2.mem = s.mem := by
  simp [readWordW]
@[simp] theorem readWordW_cfg (b : Byte) (o : Word) :
    (readWordW b o s).2.cfg = s.cfg := by
  simp [readWordW]
@[simp] theorem readWordW_cart (b : Byte) (o : Word) :
    (readWordW b o s).2.cart = s.cart := by
  simp [readWordW]
@[simp] theorem readWordW_inputs (b : Byte) (o : Word) :
    (readWordW b o s).2.inputs = s.inputs := by
  simp [readWordW]
@[simp] theorem readWordW_draws (b : Byte) (o : Word) :
    (readWordW b o s).2.draws = s.draws := by
  simp [readWordW]
/-! Fields `readLongW` does not change. -/

@[simp] theorem readLongW_a (b : Byte) (o : Word) :
    (readLongW b o s).2.a = s.a := by
  simp [readLongW]
@[simp] theorem readLongW_x (b : Byte) (o : Word) :
    (readLongW b o s).2.x = s.x := by
  simp [readLongW]
@[simp] theorem readLongW_y (b : Byte) (o : Word) :
    (readLongW b o s).2.y = s.y := by
  simp [readLongW]
@[simp] theorem readLongW_sp (b : Byte) (o : Word) :
    (readLongW b o s).2.sp = s.sp := by
  simp [readLongW]
@[simp] theorem readLongW_d (b : Byte) (o : Word) :
    (readLongW b o s).2.d = s.d := by
  simp [readLongW]
@[simp] theorem readLongW_pc (b : Byte) (o : Word) :
    (readLongW b o s).2.pc = s.pc := by
  simp [readLongW]
@[simp] theorem readLongW_pbr (b : Byte) (o : Word) :
    (readLongW b o s).2.pbr = s.pbr := by
  simp [readLongW]
@[simp] theorem readLongW_dbr (b : Byte) (o : Word) :
    (readLongW b o s).2.dbr = s.dbr := by
  simp [readLongW]
@[simp] theorem readLongW_p (b : Byte) (o : Word) :
    (readLongW b o s).2.p = s.p := by
  simp [readLongW]
@[simp] theorem readLongW_e (b : Byte) (o : Word) :
    (readLongW b o s).2.e = s.e := by
  simp [readLongW]
@[simp] theorem readLongW_sel (b : Byte) (o : Word) :
    (readLongW b o s).2.sel = s.sel := by
  simp [readLongW]
@[simp] theorem readLongW_stopped (b : Byte) (o : Word) :
    (readLongW b o s).2.stopped = s.stopped := by
  simp [readLongW]
@[simp] theorem readLongW_waiting (b : Byte) (o : Word) :
    (readLongW b o s).2.waiting = s.waiting := by
  simp [readLongW]
@[simp] theorem readLongW_moving (b : Byte) (o : Word) :
    (readLongW b o s).2.moving = s.moving := by
  simp [readLongW]
@[simp] theorem readLongW_mv (b : Byte) (o : Word) :
    (readLongW b o s).2.mv = s.mv := by
  simp [readLongW]
@[simp] theorem readLongW_fatal (b : Byte) (o : Word) :
    (readLongW b o s).2.fatal = s.fatal := by
  simp [readLongW]
@[simp] theorem readLongW_cycles (b : Byte) (o : Word) :
    (readLongW b o s).2.cycles = s.cycles := by
  simp [readLongW]
@[simp] theorem readLongW_nmiPending (b : Byte) (o : Word) :
    (readLongW b o s).2.nmiPending = s.nmiPending := by
  simp [readLongW]
@[simp] theorem readLongW_ch (b : Byte) (o : Word) :
    (readLongW b o s).2.ch = s.ch := by
  simp [readLongW]
@[simp] theorem readLongW_mem (b : Byte) (o : Word) :
    (readLongW b o s).2.mem = s.mem := by
  simp [readLongW]
@[simp] theorem readLongW_cfg (b : Byte) (o : Word) :
    (readLongW b o s).2.cfg = s.cfg := by
  simp [readLongW]
@[simp] theorem readLongW_cart (b : Byte) (o : Word) :
    (readLongW b o s).2.cart = s.cart := by
  simp [readLongW]
@[simp] theorem readLongW_inputs (b : Byte) (o : Word) :
    (readLongW b o s).2.inputs = s.inputs := by
  simp [readLongW]
@[simp] theorem readLongW_draws (b : Byte) (o : Word) :
    (readLongW b o s).2.draws = s.draws := by
  simp [readLongW]

/-! Reads. -/

variable {s}

theorem busRead_nmiFlag (a : Addr) : (busRead a s).2.nmiFlag = (s.nmiFlag && !isRdnmi a) := by
  unfold busRead
  split <;> rename_i h <;> (try split) <;> simp_all [isRdnmi]

theorem busRead_ppuExt (a : Addr) (h : s.cfg.ppuExternal = false) : (busRead a s).2.ppuExt = s.ppuExt := by
  unfold busRead
  split <;> (try split) <;> simp_all

/-- What a read answers, but for a PPU device other than the latch array. -/
theorem busRead_fst {a : Addr} (h : mapAddress a = .ppu → s.cfg.ppuExternal = false) :
    (busRead a s).1 = s.peek a := by
  unfold busRead State.peek
  split <;> rename_i hr <;> (try split) <;> simp_all

/-- A read of a quiet address answers the byte there and changes nothing. -/
theorem busRead_quiet {a : Addr} (h : Quiet s.cfg a) : busRead a s = (s.peek a, s) := by
  obtain ⟨h1, h2⟩ := h
  unfold busRead State.peek
  split <;> rename_i hr <;> simp_all

/-- A read of RDNMI answers the flag and clears it (rules R42, R74). -/
theorem busRead_rdnmi {a : Addr} (h : isRdnmi a = true) :
    busRead a s = (if s.nmiFlag then 0x82 else 0x02, { s with nmiFlag := false }) := by
  have : mapAddress a = .cpu := by simp [isRdnmi] at h; exact h.1
  simp [busRead, this, h, State.rdnmi]

/-- A quiet address reads the same wherever the stored bytes and the configuration are the same. -/
theorem peek_congr {s t : State} {a : Addr} (hq : Quiet s.cfg a) (hm : t.mem = s.mem) (hc : t.cfg = s.cfg) :
    t.peek a = s.peek a := by
  obtain ⟨h1, h2⟩ := hq
  unfold State.peek State.stored
  rw [hc, hm]
  split <;> rename_i hr <;> simp_all

/-- Reading two quiet bytes of a bank reads a little-endian word and changes nothing (rules R11, R78). -/
theorem readWordW_quiet {b : Byte} {o : Word} (h0 : Quiet s.cfg (addrOf b o)) (h1 : Quiet s.cfg (addrOf b (o + 1))) :
    readWordW b o s = (wordOf (s.peek (addrOf b (o + 1))) (s.peek (addrOf b o)), s) := by
  simp only [readWordW, busRead_quiet h0, busRead_quiet h1]

theorem readLongW_quiet {b : Byte} {o : Word} (h0 : Quiet s.cfg (addrOf b o)) (h1 : Quiet s.cfg (addrOf b (o + 1)))
    (h2 : Quiet s.cfg (addrOf b (o + 2))) :
    readLongW b o s = (addrOf (s.peek (addrOf b (o + 2))) (wordOf (s.peek (addrOf b (o + 1))) (s.peek (addrOf b o))), s) := by
  simp only [readLongW, readWordW_quiet h0 h1, busRead_quiet h2]

/-! Writes. -/

theorem busWrite_of_not_mdmaen {a : Addr} (v : Byte) (h : isMdmaen a = false) : busWrite a v s = storeByte a v s := by
  simp [busWrite, h]

theorem isMdmaen_false_of_region {a : Addr} (h : mapAddress a ≠ .cpu) : isMdmaen a = false := by
  simp [isMdmaen, h]

theorem isRdnmi_false_of_region {a : Addr} (h : mapAddress a ≠ .cpu) : isRdnmi a = false := by
  simp [isRdnmi, h]

theorem quiet_of_wram {cfg : Cfg} {a : Addr} (h : mapAddress a = .wram) : Quiet cfg a :=
  ⟨isRdnmi_false_of_region (by simp [h]), by simp [h]⟩

theorem quiet_of_cartridge {cfg : Cfg} {a : Addr} (h : mapAddress a = .cartridge) : Quiet cfg a :=
  ⟨isRdnmi_false_of_region (by simp [h]), by simp [h]⟩

theorem stores_of_wram {cfg : Cfg} {a : Addr} (h : mapAddress a = .wram) : Stores cfg a :=
  ⟨quiet_of_wram h, by simp [h], by simp [h]⟩

/-- A write to an address behind which a byte is stored. -/
theorem storeByte_stores {a : Addr} (v : Byte) (h : Stores s.cfg a) :
    storeByte a v s = { s with mem := s.mem.write (storeKey s.cfg a) v } := by
  obtain ⟨⟨h1, h2⟩, h3, h4⟩ := h
  unfold storeByte
  split <;> simp_all

theorem busWrite_wram {a : Addr} (v : Byte) (h : mapAddress a = .wram) :
    busWrite a v s = { s with mem := s.mem.write (storeKey s.cfg a) v } := by
  rw [busWrite_of_not_mdmaen v (isMdmaen_false_of_region (by simp [h])), storeByte_stores v (stores_of_wram h)]

/-- The writes that are ignored: the joypad ports, RDNMI and the default cartridge (rules R65, R42, R72). -/
theorem busWrite_ignored {a : Addr} (v : Byte)
    (h : mapAddress a = .joypad ∨ isRdnmi a = true ∨ mapAddress a = .cartridge ∧ s.cfg.cartWrites = false) :
    busWrite a v s = s := by
  rcases h with h | h | ⟨h, hc⟩
  · simp [busWrite, storeByte, isMdmaen, h]
  · have hr : mapAddress a = .cpu ∧ a.toNat % 0x10000 = 0x4210 := by simpa [isRdnmi] using h
    simp [busWrite, storeByte, isMdmaen, hr.1, h, hr.2]
  · simp [busWrite, storeByte, cartWrite, isMdmaen, h, hc]

theorem storeByte_ppuExt (a : Addr) (v : Byte) (h : s.cfg.ppuExternal = false) :
    (storeByte a v s).ppuExt = s.ppuExt := by
  unfold storeByte cartWrite; split <;> (try split) <;> simp_all

theorem busWrite_ppuExt (a : Addr) (v : Byte) (h : s.cfg.ppuExternal = false) :
    (busWrite a v s).ppuExt = s.ppuExt := by
  unfold busWrite; split <;> simp [storeByte_ppuExt a v h]

theorem storeByte_cart (a : Addr) (v : Byte) (h : ¬ WritesCartridge s.cfg a) : (storeByte a v s).cart = s.cart := by
  unfold storeByte cartWrite; split <;> (try split) <;> simp_all [WritesCartridge]

theorem busWrite_cart (a : Addr) (v : Byte) (h : ¬ WritesCartridge s.cfg a) : (busWrite a v s).cart = s.cart := by
  unfold busWrite; split <;> simp [storeByte_cart a v h]

theorem busWrite_mem (a : Addr) (v : Byte) : (busWrite a v s).mem = (storeByte a v s).mem := by
  unfold busWrite; split <;> simp

theorem busWrite_ch (a : Addr) (v : Byte) (h : isMdmaen a = false) : (busWrite a v s).ch = s.ch := by
  simp [busWrite, h]

/-- The stored bytes after a write: as before, or with the byte of that address written, or with new contents of a
cartridge that does not ignore writes. -/
theorem storeByte_mem_cases (a : Addr) (v : Byte) :
    (storeByte a v s).mem = s.mem ∨
      Stores s.cfg a ∧ (storeByte a v s).mem = s.mem.write (storeKey s.cfg a) v ∨
      WritesCartridge s.cfg a ∧ ∃ l, (storeByte a v s).mem = s.mem.load l := by
  unfold storeByte cartWrite Stores Quiet WritesCartridge
  split <;> rename_i hr <;> (try split) <;> simp_all [isRdnmi]

theorem storeByte_wf {a : Addr} {v : Byte} (h : s.mem.wf) : (storeByte a v s).mem.wf := by
  rcases storeByte_mem_cases (s := s) a v with h1 | ⟨_, h1⟩ | ⟨_, l, h1⟩ <;> rw [h1]
  · exact h
  · exact Memory.write_wf _ _ h
  · exact Memory.load_wf l h

theorem busWrite_wf {a : Addr} {v : Byte} (h : s.mem.wf) : (busWrite a v s).mem.wf := by
  rw [busWrite_mem]; exact storeByte_wf h

theorem setIreg_wf {k : Nat} {v : Byte} (h : s.mem.wf) : (s.setIreg k v).mem.wf := Memory.write_wf _ _ h

/-- A read after a write to the same place gives the value written. -/
theorem peek_busWrite_same {a : Addr} {v : Byte} (hw : s.mem.wf) (h : Stores s.cfg a) :
    (busWrite a v s).peek a = v := by
  obtain ⟨⟨h1, h2⟩, h3, h4⟩ := id h
  have hm : (busWrite a v s).mem = s.mem.write (storeKey s.cfg a) v := by
    rw [busWrite_mem, storeByte_stores v h]
  unfold State.peek State.stored
  rw [hm, busWrite_cfg, Memory.read_write_same _ hw]
  split <;> simp_all

/-- A quiet address reads the same wherever its stored byte and the configuration are the same. -/
theorem peek_of_stored {s t : State} {a : Addr} (hq : Quiet s.cfg a) (hm : t.stored a = s.stored a) (hc : t.cfg = s.cfg) :
    t.peek a = s.peek a := by
  obtain ⟨h1, h2⟩ := hq
  unfold State.peek
  rw [hc, hm]
  split <;> rename_i hr <;> simp_all

/-! Keys. -/

theorem mapAddress_system {a : Addr} (h : mapAddress a = .ppu ∨ mapAddress a = .cpu ∨ mapAddress a = .joypad) :
    (a.toNat / 0x10000 ≤ 0x3F ∨ (0x80 ≤ a.toNat / 0x10000 ∧ a.toNat / 0x10000 ≤ 0xBF)) ∧
      0x2100 ≤ a.toNat % 0x10000 ∧ a.toNat % 0x10000 ≤ 0x43FF := by
  unfold mapAddress at h
  simp only at h
  split at h
  · simp at h
  · split at h
    · rename_i hb
      refine ⟨hb, ?_⟩
      repeat' (first | (split at h) | (simp at h; done) | omega)
    · simp at h

theorem mapAddress_ppu_range {a : Addr} (h : mapAddress a = .ppu) :
    0x2100 ≤ a.toNat % 0x10000 ∧ a.toNat % 0x10000 ≤ 0x21FF := by
  unfold mapAddress at h
  simp only at h
  repeat' (first | (split at h) | (simp at h; done) | omega)

theorem mapAddress_cpu_range {a : Addr} (h : mapAddress a = .cpu) :
    0x4200 ≤ a.toNat % 0x10000 ∧ a.toNat % 0x10000 ≤ 0x43FF := by
  unfold mapAddress at h
  simp only at h
  repeat' (first | (split at h) | (simp at h; done) | omega)

/-- Only MDMAEN's addresses lead to MDMAEN's key. -/
theorem storeKey_ne_mdmaen {cfg : Cfg} {a : Addr} (hs : Stores cfg a) (h : isMdmaen a = false) :
    storeKey cfg a ≠ mdmaenKey := by
  obtain ⟨_, h3, h4⟩ := hs
  unfold storeKey mdmaenKey
  split
  · omega
  · rename_i hr; have := mapAddress_ppu_range hr; omega
  · rename_i hr
    intro hk
    simp [isMdmaen, hr, hk] at h
  · contradiction
  · contradiction

theorem storeKey_mdmaen {cfg : Cfg} {a : Addr} (h : isMdmaen a = true) : storeKey cfg a = mdmaenKey ∧ Stores cfg a := by
  have hr : mapAddress a = .cpu ∧ a.toNat % 0x10000 = 0x420B := by simpa [isMdmaen] using h
  refine ⟨by simp [storeKey, hr.1, hr.2, mdmaenKey], ⟨by simp [isRdnmi, hr.2], by simp [hr.1]⟩, by simp [hr.1], by simp [hr.1]⟩

/-- A DMA channel's registers are no part of MDMAEN. -/
theorem channelKey_ne_mdmaen (n r : Nat) : mdmaenKey ≠ channelKey n r := by
  unfold mdmaenKey channelKey; omega

theorem wramIndex_lt (cfg : Cfg) (a : Addr) : wramIndex cfg a < 0x20000 := by
  unfold wramIndex wramSize
  simp only
  split
  · split
    · exact Nat.mod_lt _ (by decide)
    · exact Nat.lt_trans (Nat.mod_lt _ (by decide)) (by decide)
  · omega

theorem mapAddress_low_bank {a : Addr} {k : Nat} (h : a.toNat = k) (hk : k < 0x10000) : mapAddress a =
    if k ≤ 0x1FFF then .wram else if 0x2100 ≤ k ∧ k ≤ 0x21FF then .ppu
      else if k = 0x4016 ∨ k = 0x4017 then .joypad else if 0x4200 ≤ k ∧ k ≤ 0x43FF then .cpu else .cartridge := by
  subst h
  unfold mapAddress
  simp only [Nat.div_eq_of_lt hk, Nat.mod_eq_of_lt hk]
  rfl

theorem mapAddress_high_bank {a : Addr} (h : 0x7E0000 ≤ a.toNat) (h' : a.toNat < 0x800000) : mapAddress a = .wram := by
  unfold mapAddress
  simp only
  rw [if_pos (by omega)]

/-- A key in the range of each region. -/
theorem storeKey_range (cfg : Cfg) (a : Addr) :
    match mapAddress a with
    | .wram => 0x7E0000 ≤ storeKey cfg a ∧ storeKey cfg a < 0x800000
    | .ppu => 0x2100 ≤ storeKey cfg a ∧ storeKey cfg a ≤ 0x21FF
    | .joypad => storeKey cfg a = 0x4016 ∨ storeKey cfg a = 0x4017
    | .cpu => 0x4200 ≤ storeKey cfg a ∧ storeKey cfg a ≤ 0x43FF
    | .cartridge => storeKey cfg a = a.toNat := by
  unfold storeKey
  cases h : mapAddress a
  · have := wramIndex_lt cfg a
    simp only
    omega
  · exact mapAddress_ppu_range h
  · exact mapAddress_cpu_range h
  · unfold mapAddress at h
    simp only at h ⊢
    repeat' (first | (split at h) | (simp at h; done) | omega)
  · rfl

/-- Two addresses with one byte behind them are in one region. -/
theorem sameByte_region {cfg : Cfg} {a b : Addr} (h : SameByte cfg a b) : mapAddress a = mapAddress b := by
  have ha := storeKey_range cfg a
  have hb := storeKey_range cfg b
  have hk : storeKey cfg a = storeKey cfg b := h
  rw [hk] at ha
  have aux : ∀ {r : Region} {c d : Addr}, mapAddress c = .cartridge → mapAddress d = r → r ≠ .cartridge →
      storeKey cfg d = c.toNat → False := by
    intro r c d hc hd hr hk
    have hd' := storeKey_range cfg d
    rw [hd, hk] at hd'
    cases r
    · exact absurd (mapAddress_high_bank hd'.1 hd'.2) (by simp [hc])
    · simp only at hd'
      rw [mapAddress_low_bank rfl (by omega), if_neg (by omega), if_pos hd'] at hc
      simp at hc
    · simp only at hd'
      rw [mapAddress_low_bank rfl (by omega), if_neg (by omega), if_neg (by omega), if_neg (by omega), if_pos hd'] at hc
      simp at hc
    · simp only at hd'
      rw [mapAddress_low_bank rfl (by omega), if_neg (by omega), if_neg (by omega), if_pos hd'] at hc
      simp at hc
    · exact hr rfl
  cases h1 : mapAddress a <;> cases h2 : mapAddress b <;> rw [h1] at ha <;> rw [h2] at hb <;> try rfl
  all_goals first
    | (exfalso; simp only at ha hb; omega)
    | exact absurd (aux h1 h2 (by decide) (hk ▸ ha ▸ rfl)) id
    | exact absurd (aux h2 h1 (by decide) (hk.trans hb)) id
    | exact absurd (aux h1 h2 (by decide) ha) id

/-- No key of another region is a cartridge address. -/
theorem storeKey_ne_cartridge {cfg : Cfg} {b : Addr} (hb : mapAddress b ≠ .cartridge) (a : Addr)
    (ha : mapAddress a = .cartridge) : storeKey cfg b ≠ a.toNat := by
  intro hk
  have : SameByte cfg b a := by unfold SameByte; rw [hk]; simp [storeKey, ha]
  exact hb ((sameByte_region this).trans ha)

/-- What MDMAEN reads as after a write without the start of DMA. -/
theorem storeByte_mdmaen (hw : s.mem.wf) (a : Addr) (v : Byte) :
    (storeByte a v s).ireg mdmaenKey = if isMdmaen a then v else s.ireg mdmaenKey := by
  unfold State.ireg
  by_cases h : isMdmaen a = true
  · obtain ⟨hk, hs⟩ := storeKey_mdmaen (cfg := s.cfg) h
    simp [storeByte_stores v hs, hk, h, Memory.read_write_same _ hw]
  · have h' : isMdmaen a = false := by simpa using h
    simp only [h', Bool.false_eq_true, if_false]
    rcases storeByte_mem_cases (s := s) a v with hm | ⟨hs, hm⟩ | ⟨_, l, hm⟩ <;> rw [hm]
    · exact Memory.read_write_other _ _ (Ne.symm (storeKey_ne_mdmaen hs h'))
    · refine Memory.read_load (fun b hb hk => ?_) l _
      rw [mapAddress_low_bank hk.symm (by decide)] at hb
      exact absurd hb (by decide)

/-- A write leaves every other quiet address alone, but for the contents of a cartridge that does not ignore writes. -/
theorem peek_storeByte_kept {a b : Addr} {v : Byte} (hq : Quiet s.cfg b)
    (h : Stores s.cfg a → ¬ SameByte s.cfg b a) (hc : mapAddress b = .cartridge → ¬ WritesCartridge s.cfg a) :
    (storeByte a v s).peek b = s.peek b := by
  refine peek_of_stored hq ?_ (by simp)
  unfold State.stored
  rw [storeByte_cfg]
  rcases storeByte_mem_cases (s := s) a v with hm | ⟨hs, hm⟩ | ⟨hw, l, hm⟩ <;> rw [hm]
  · exact Memory.read_write_other _ _ (h hs)
  · exact Memory.read_load (storeKey_ne_cartridge fun hb => hc hb hw) l _

theorem peek_busWrite_kept {a b : Addr} {v : Byte} (hq : Quiet s.cfg b)
    (h : Stores s.cfg a → ¬ SameByte s.cfg b a) (hc : mapAddress b = .cartridge → ¬ WritesCartridge s.cfg a) :
    (busWrite a v s).peek b = s.peek b := by
  rw [← peek_storeByte_kept (v := v) hq h hc]
  exact peek_congr (by simpa using hq) (busWrite_mem a v) (by simp)

/-- A write behind which a byte is stored leaves every other quiet address alone. -/
theorem peek_busWrite_other {a b : Addr} {v : Byte} (hq : Quiet s.cfg b) (hs : Stores s.cfg a)
    (h : ¬ SameByte s.cfg b a) : (busWrite a v s).peek b = s.peek b :=
  peek_busWrite_kept hq (fun _ => h) fun _ hw => hs.2.2 hw.1

/-- A write changes no byte of a cartridge that ignores writes (rule R72, the default `CartWrite`). -/
theorem peek_busWrite_cartridge {a b : Addr} {v : Byte} (h : mapAddress b = .cartridge) (hc : ¬ WritesCartridge s.cfg a) :
    (busWrite a v s).peek b = s.peek b :=
  peek_busWrite_kept (quiet_of_cartridge h) (fun hs hsame => hs.2.2 (by rw [← sameByte_region hsame, h])) fun _ => hc

end Sys2Proof.Machine
end

