-- ==== Sys2Proof/Laws/Ops.lean ====
section
/-! SUPPORT. The named operations: which fields each leaves alone, what it does to the others, and that it keeps the parts
of the invariant it could break. -/

namespace Sys2Proof.Machine

variable (s : State)

/-! Fields `fixWidths` does not change. -/

@[simp] theorem fixWidths_a  :
    (fixWidths s).a = s.a := by
  unfold fixWidths; split <;> simp only <;> split <;> rfl
@[simp] theorem fixWidths_d  :
    (fixWidths s).d = s.d := by
  unfold fixWidths; split <;> simp only <;> split <;> rfl
@[simp] theorem fixWidths_pc  :
    (fixWidths s).pc = s.pc := by
  unfold fixWidths; split <;> simp only <;> split <;> rfl
@[simp] theorem fixWidths_pbr  :
    (fixWidths s).pbr = s.pbr := by
  unfold fixWidths; split <;> simp only <;> split <;> rfl
@[simp] theorem fixWidths_dbr  :
    (fixWidths s).dbr = s.dbr := by
  unfold fixWidths; split <;> simp only <;> split <;> rfl
@[simp] theorem fixWidths_e  :
    (fixWidths s).e = s.e := by
  unfold fixWidths; split <;> simp only <;> split <;> rfl
@[simp] theorem fixWidths_sel  :
    (fixWidths s).sel = s.sel := by
  unfold fixWidths; split <;> simp only <;> split <;> rfl
@[simp] theorem fixWidths_stopped  :
    (fixWidths s).stopped = s.stopped := by
  unfold fixWidths; split <;> simp only <;> split <;> rfl
@[simp] theorem fixWidths_waiting  :
    (fixWidths s).waiting = s.waiting := by
  unfold fixWidths; split <;> simp only <;> split <;> rfl
@[simp] theorem fixWidths_moving  :
    (fixWidths s).moving = s.moving := by
  unfold fixWidths; split <;> simp only <;> split <;> rfl
@[simp] theorem fixWidths_mv  :
    (fixWidths s).mv = s.mv := by
  unfold fixWidths; split <;> simp only <;> split <;> rfl
@[simp] theorem fixWidths_fatal  :
    (fixWidths s).fatal = s.fatal := by
  unfold fixWidths; split <;> simp only <;> split <;> rfl
@[simp] theorem fixWidths_cycles  :
    (fixWidths s).cycles = s.cycles := by
  unfold fixWidths; split <;> simp only <;> split <;> rfl
@[simp] theorem fixWidths_nmiPending  :
    (fixWidths s).nmiPending = s.nmiPending := by
  unfold fixWidths; split <;> simp only <;> split <;> rfl
@[simp] theorem fixWidths_nmiFlag  :
    (fixWidths s).nmiFlag = s.nmiFlag := by
  unfold fixWidths; split <;> simp only <;> split <;> rfl
@[simp] theorem fixWidths_ch  :
    (fixWidths s).ch = s.ch := by
  unfold fixWidths; split <;> simp only <;> split <;> rfl
@[simp] theorem fixWidths_mem  :
    (fixWidths s).mem = s.mem := by
  unfold fixWidths; split <;> simp only <;> split <;> rfl
@[simp] theorem fixWidths_ppuExt  :
    (fixWidths s).ppuExt = s.ppuExt := by
  unfold fixWidths; split <;> simp only <;> split <;> rfl
@[simp] theorem fixWidths_cfg  :
    (fixWidths s).cfg = s.cfg := by
  unfold fixWidths; split <;> simp only <;> split <;> rfl
@[simp] theorem fixWidths_cart  :
    (fixWidths s).cart = s.cart := by
  unfold fixWidths; split <;> simp only <;> split <;> rfl
@[simp] theorem fixWidths_inputs  :
    (fixWidths s).inputs = s.inputs := by
  unfold fixWidths; split <;> simp only <;> split <;> rfl
@[simp] theorem fixWidths_draws  :
    (fixWidths s).draws = s.draws := by
  unfold fixWidths; split <;> simp only <;> split <;> rfl
/-! Fields `setPbyte` does not change. -/

@[simp] theorem setPbyte_a (v : Byte) :
    (setPbyte v s).a = s.a := by
  simp [setPbyte]
@[simp] theorem setPbyte_d (v : Byte) :
    (setPbyte v s).d = s.d := by
  simp [setPbyte]
@[simp] theorem setPbyte_pc (v : Byte) :
    (setPbyte v s).pc = s.pc := by
  simp [setPbyte]
@[simp] theorem setPbyte_pbr (v : Byte) :
    (setPbyte v s).pbr = s.pbr := by
  simp [setPbyte]
@[simp] theorem setPbyte_dbr (v : Byte) :
    (setPbyte v s).dbr = s.dbr := by
  simp [setPbyte]
@[simp] theorem setPbyte_e (v : Byte) :
    (setPbyte v s).e = s.e := by
  simp [setPbyte]
@[simp] theorem setPbyte_sel (v : Byte) :
    (setPbyte v s).sel = s.sel := by
  simp [setPbyte]
@[simp] theorem setPbyte_stopped (v : Byte) :
    (setPbyte v s).stopped = s.stopped := by
  simp [setPbyte]
@[simp] theorem setPbyte_waiting (v : Byte) :
    (setPbyte v s).waiting = s.waiting := by
  simp [setPbyte]
@[simp] theorem setPbyte_moving (v : Byte) :
    (setPbyte v s).moving = s.moving := by
  simp [setPbyte]
@[simp] theorem setPbyte_mv (v : Byte) :
    (setPbyte v s).mv = s.mv := by
  simp [setPbyte]
@[simp] theorem setPbyte_fatal (v : Byte) :
    (setPbyte v s).fatal = s.fatal := by
  simp [setPbyte]
@[simp] theorem setPbyte_cycles (v : Byte) :
    (setPbyte v s).cycles = s.cycles := by
  simp [setPbyte]
@[simp] theorem setPbyte_nmiPending (v : Byte) :
    (setPbyte v s).nmiPending = s.nmiPending := by
  simp [setPbyte]
@[simp] theorem setPbyte_nmiFlag (v : Byte) :
    (setPbyte v s).nmiFlag = s.nmiFlag := by
  simp [setPbyte]
@[simp] theorem setPbyte_ch (v : Byte) :
    (setPbyte v s).ch = s.ch := by
  simp [setPbyte]
@[simp] theorem setPbyte_mem (v : Byte) :
    (setPbyte v s).mem = s.mem := by
  simp [setPbyte]
@[simp] theorem setPbyte_ppuExt (v : Byte) :
    (setPbyte v s).ppuExt = s.ppuExt := by
  simp [setPbyte]
@[simp] theorem setPbyte_cfg (v : Byte) :
    (setPbyte v s).cfg = s.cfg := by
  simp [setPbyte]
@[simp] theorem setPbyte_cart (v : Byte) :
    (setPbyte v s).cart = s.cart := by
  simp [setPbyte]
@[simp] theorem setPbyte_inputs (v : Byte) :
    (setPbyte v s).inputs = s.inputs := by
  simp [setPbyte]
@[simp] theorem setPbyte_draws (v : Byte) :
    (setPbyte v s).draws = s.draws := by
  simp [setPbyte]
/-! Fields `fixSH` does not change. -/

@[simp] theorem fixSH_a  :
    (fixSH s).a = s.a := by
  unfold fixSH; split <;> rfl
@[simp] theorem fixSH_x  :
    (fixSH s).x = s.x := by
  unfold fixSH; split <;> rfl
@[simp] theorem fixSH_y  :
    (fixSH s).y = s.y := by
  unfold fixSH; split <;> rfl
@[simp] theorem fixSH_d  :
    (fixSH s).d = s.d := by
  unfold fixSH; split <;> rfl
@[simp] theorem fixSH_pc  :
    (fixSH s).pc = s.pc := by
  unfold fixSH; split <;> rfl
@[simp] theorem fixSH_pbr  :
    (fixSH s).pbr = s.pbr := by
  unfold fixSH; split <;> rfl
@[simp] theorem fixSH_dbr  :
    (fixSH s).dbr = s.dbr := by
  unfold fixSH; split <;> rfl
@[simp] theorem fixSH_p  :
    (fixSH s).p = s.p := by
  unfold fixSH; split <;> rfl
@[simp] theorem fixSH_e  :
    (fixSH s).e = s.e := by
  unfold fixSH; split <;> rfl
@[simp] theorem fixSH_sel  :
    (fixSH s).sel = s.sel := by
  unfold fixSH; split <;> rfl
@[simp] theorem fixSH_stopped  :
    (fixSH s).stopped = s.stopped := by
  unfold fixSH; split <;> rfl
@[simp] theorem fixSH_waiting  :
    (fixSH s).waiting = s.waiting := by
  unfold fixSH; split <;> rfl
@[simp] theorem fixSH_moving  :
    (fixSH s).moving = s.moving := by
  unfold fixSH; split <;> rfl
@[simp] theorem fixSH_mv  :
    (fixSH s).mv = s.mv := by
  unfold fixSH; split <;> rfl
@[simp] theorem fixSH_fatal  :
    (fixSH s).fatal = s.fatal := by
  unfold fixSH; split <;> rfl
@[simp] theorem fixSH_cycles  :
    (fixSH s).cycles = s.cycles := by
  unfold fixSH; split <;> rfl
@[simp] theorem fixSH_nmiPending  :
    (fixSH s).nmiPending = s.nmiPending := by
  unfold fixSH; split <;> rfl
@[simp] theorem fixSH_nmiFlag  :
    (fixSH s).nmiFlag = s.nmiFlag := by
  unfold fixSH; split <;> rfl
@[simp] theorem fixSH_ch  :
    (fixSH s).ch = s.ch := by
  unfold fixSH; split <;> rfl
@[simp] theorem fixSH_mem  :
    (fixSH s).mem = s.mem := by
  unfold fixSH; split <;> rfl
@[simp] theorem fixSH_ppuExt  :
    (fixSH s).ppuExt = s.ppuExt := by
  unfold fixSH; split <;> rfl
@[simp] theorem fixSH_cfg  :
    (fixSH s).cfg = s.cfg := by
  unfold fixSH; split <;> rfl
@[simp] theorem fixSH_cart  :
    (fixSH s).cart = s.cart := by
  unfold fixSH; split <;> rfl
@[simp] theorem fixSH_inputs  :
    (fixSH s).inputs = s.inputs := by
  unfold fixSH; split <;> rfl
@[simp] theorem fixSH_draws  :
    (fixSH s).draws = s.draws := by
  unfold fixSH; split <;> rfl
/-! Fields `push8` does not change. -/

@[simp] theorem push8_a (v : Byte) :
    (push8 v s).a = s.a := by
  simp [push8]
@[simp] theorem push8_x (v : Byte) :
    (push8 v s).x = s.x := by
  simp [push8]
@[simp] theorem push8_y (v : Byte) :
    (push8 v s).y = s.y := by
  simp [push8]
@[simp] theorem push8_d (v : Byte) :
    (push8 v s).d = s.d := by
  simp [push8]
@[simp] theorem push8_pc (v : Byte) :
    (push8 v s).pc = s.pc := by
  simp [push8]
@[simp] theorem push8_pbr (v : Byte) :
    (push8 v s).pbr = s.pbr := by
  simp [push8]
@[simp] theorem push8_dbr (v : Byte) :
    (push8 v s).dbr = s.dbr := by
  simp [push8]
@[simp] theorem push8_p (v : Byte) :
    (push8 v s).p = s.p := by
  simp [push8]
@[simp] theorem push8_e (v : Byte) :
    (push8 v s).e = s.e := by
  simp [push8]
@[simp] theorem push8_sel (v : Byte) :
    (push8 v s).sel = s.sel := by
  simp [push8]
@[simp] theorem push8_stopped (v : Byte) :
    (push8 v s).stopped = s.stopped := by
  simp [push8]
@[simp] theorem push8_waiting (v : Byte) :
    (push8 v s).waiting = s.waiting := by
  simp [push8]
@[simp] theorem push8_moving (v : Byte) :
    (push8 v s).moving = s.moving := by
  simp [push8]
@[simp] theorem push8_mv (v : Byte) :
    (push8 v s).mv = s.mv := by
  simp [push8]
@[simp] theorem push8_fatal (v : Byte) :
    (push8 v s).fatal = s.fatal := by
  simp [push8]
@[simp] theorem push8_cycles (v : Byte) :
    (push8 v s).cycles = s.cycles := by
  simp [push8]
@[simp] theorem push8_nmiPending (v : Byte) :
    (push8 v s).nmiPending = s.nmiPending := by
  simp [push8]
@[simp] theorem push8_nmiFlag (v : Byte) :
    (push8 v s).nmiFlag = s.nmiFlag := by
  simp [push8]
@[simp] theorem push8_cfg (v : Byte) :
    (push8 v s).cfg = s.cfg := by
  simp [push8]
@[simp] theorem push8_inputs (v : Byte) :
    (push8 v s).inputs = s.inputs := by
  simp [push8]
@[simp] theorem push8_draws (v : Byte) :
    (push8 v s).draws = s.draws := by
  simp [push8]
/-! Fields `push8N` does not change. -/

@[simp] theorem push8N_a (v : Byte) :
    (push8N v s).a = s.a := by
  simp [push8N]
@[simp] theorem push8N_x (v : Byte) :
    (push8N v s).x = s.x := by
  simp [push8N]
@[simp] theorem push8N_y (v : Byte) :
    (push8N v s).y = s.y := by
  simp [push8N]
@[simp] theorem push8N_d (v : Byte) :
    (push8N v s).d = s.d := by
  simp [push8N]
@[simp] theorem push8N_pc (v : Byte) :
    (push8N v s).pc = s.pc := by
  simp [push8N]
@[simp] theorem push8N_pbr (v : Byte) :
    (push8N v s).pbr = s.pbr := by
  simp [push8N]
@[simp] theorem push8N_dbr (v : Byte) :
    (push8N v s).dbr = s.dbr := by
  simp [push8N]
@[simp] theorem push8N_p (v : Byte) :
    (push8N v s).p = s.p := by
  simp [push8N]
@[simp] theorem push8N_e (v : Byte) :
    (push8N v s).e = s.e := by
  simp [push8N]
@[simp] theorem push8N_sel (v : Byte) :
    (push8N v s).sel = s.sel := by
  simp [push8N]
@[simp] theorem push8N_stopped (v : Byte) :
    (push8N v s).stopped = s.stopped := by
  simp [push8N]
@[simp] theorem push8N_waiting (v : Byte) :
    (push8N v s).waiting = s.waiting := by
  simp [push8N]
@[simp] theorem push8N_moving (v : Byte) :
    (push8N v s).moving = s.moving := by
  simp [push8N]
@[simp] theorem push8N_mv (v : Byte) :
    (push8N v s).mv = s.mv := by
  simp [push8N]
@[simp] theorem push8N_fatal (v : Byte) :
    (push8N v s).fatal = s.fatal := by
  simp [push8N]
@[simp] theorem push8N_cycles (v : Byte) :
    (push8N v s).cycles = s.cycles := by
  simp [push8N]
@[simp] theorem push8N_nmiPending (v : Byte) :
    (push8N v s).nmiPending = s.nmiPending := by
  simp [push8N]
@[simp] theorem push8N_nmiFlag (v : Byte) :
    (push8N v s).nmiFlag = s.nmiFlag := by
  simp [push8N]
@[simp] theorem push8N_cfg (v : Byte) :
    (push8N v s).cfg = s.cfg := by
  simp [push8N]
@[simp] theorem push8N_inputs (v : Byte) :
    (push8N v s).inputs = s.inputs := by
  simp [push8N]
@[simp] theorem push8N_draws (v : Byte) :
    (push8N v s).draws = s.draws := by
  simp [push8N]
/-! Fields `push16` does not change. -/

@[simp] theorem push16_a (v : Word) :
    (push16 v s).a = s.a := by
  simp [push16]
@[simp] theorem push16_x (v : Word) :
    (push16 v s).x = s.x := by
  simp [push16]
@[simp] theorem push16_y (v : Word) :
    (push16 v s).y = s.y := by
  simp [push16]
@[simp] theorem push16_d (v : Word) :
    (push16 v s).d = s.d := by
  simp [push16]
@[simp] theorem push16_pc (v : Word) :
    (push16 v s).pc = s.pc := by
  simp [push16]
@[simp] theorem push16_pbr (v : Word) :
    (push16 v s).pbr = s.pbr := by
  simp [push16]
@[simp] theorem push16_dbr (v : Word) :
    (push16 v s).dbr = s.dbr := by
  simp [push16]
@[simp] theorem push16_p (v : Word) :
    (push16 v s).p = s.p := by
  simp [push16]
@[simp] theorem push16_e (v : Word) :
    (push16 v s).e = s.e := by
  simp [push16]
@[simp] theorem push16_sel (v : Word) :
    (push16 v s).sel = s.sel := by
  simp [push16]
@[simp] theorem push16_stopped (v : Word) :
    (push16 v s).stopped = s.stopped := by
  simp [push16]
@[simp] theorem push16_waiting (v : Word) :
    (push16 v s).waiting = s.waiting := by
  simp [push16]
@[simp] theorem push16_moving (v : Word) :
    (push16 v s).moving = s.moving := by
  simp [push16]
@[simp] theorem push16_mv (v : Word) :
    (push16 v s).mv = s.mv := by
  simp [push16]
@[simp] theorem push16_fatal (v : Word) :
    (push16 v s).fatal = s.fatal := by
  simp [push16]
@[simp] theorem push16_cycles (v : Word) :
    (push16 v s).cycles = s.cycles := by
  simp [push16]
@[simp] theorem push16_nmiPending (v : Word) :
    (push16 v s).nmiPending = s.nmiPending := by
  simp [push16]
@[simp] theorem push16_nmiFlag (v : Word) :
    (push16 v s).nmiFlag = s.nmiFlag := by
  simp [push16]
@[simp] theorem push16_cfg (v : Word) :
    (push16 v s).cfg = s.cfg := by
  simp [push16]
@[simp] theorem push16_inputs (v : Word) :
    (push16 v s).inputs = s.inputs := by
  simp [push16]
@[simp] theorem push16_draws (v : Word) :
    (push16 v s).draws = s.draws := by
  simp [push16]
/-! Fields `push16N` does not change. -/

@[simp] theorem push16N_a (v : Word) :
    (push16N v s).a = s.a := by
  simp [push16N]
@[simp] theorem push16N_x (v : Word) :
    (push16N v s).x = s.x := by
  simp [push16N]
@[simp] theorem push16N_y (v : Word) :
    (push16N v s).y = s.y := by
  simp [push16N]
@[simp] theorem push16N_d (v : Word) :
    (push16N v s).d = s.d := by
  simp [push16N]
@[simp] theorem push16N_pc (v : Word) :
    (push16N v s).pc = s.pc := by
  simp [push16N]
@[simp] theorem push16N_pbr (v : Word) :
    (push16N v s).pbr = s.pbr := by
  simp [push16N]
@[simp] theorem push16N_dbr (v : Word) :
    (push16N v s).dbr = s.dbr := by
  simp [push16N]
@[simp] theorem push16N_p (v : Word) :
    (push16N v s).p = s.p := by
  simp [push16N]
@[simp] theorem push16N_e (v : Word) :
    (push16N v s).e = s.e := by
  simp [push16N]
@[simp] theorem push16N_sel (v : Word) :
    (push16N v s).sel = s.sel := by
  simp [push16N]
@[simp] theorem push16N_stopped (v : Word) :
    (push16N v s).stopped = s.stopped := by
  simp [push16N]
@[simp] theorem push16N_waiting (v : Word) :
    (push16N v s).waiting = s.waiting := by
  simp [push16N]
@[simp] theorem push16N_moving (v : Word) :
    (push16N v s).moving = s.moving := by
  simp [push16N]
@[simp] theorem push16N_mv (v : Word) :
    (push16N v s).mv = s.mv := by
  simp [push16N]
@[simp] theorem push16N_fatal (v : Word) :
    (push16N v s).fatal = s.fatal := by
  simp [push16N]
@[simp] theorem push16N_cycles (v : Word) :
    (push16N v s).cycles = s.cycles := by
  simp [push16N]
@[simp] theorem push16N_nmiPending (v : Word) :
    (push16N v s).nmiPending = s.nmiPending := by
  simp [push16N]
@[simp] theorem push16N_nmiFlag (v : Word) :
    (push16N v s).nmiFlag = s.nmiFlag := by
  simp [push16N]
@[simp] theorem push16N_cfg (v : Word) :
    (push16N v s).cfg = s.cfg := by
  simp [push16N]
@[simp] theorem push16N_inputs (v : Word) :
    (push16N v s).inputs = s.inputs := by
  simp [push16N]
@[simp] theorem push16N_draws (v : Word) :
    (push16N v s).draws = s.draws := by
  simp [push16N]
/-! Fields `pushW` does not change. -/

@[simp] theorem pushW_a (W : Width) (v : BitVec W.bits) :
    (pushW W v s).a = s.a := by
  cases W <;> simp [pushW]
@[simp] theorem pushW_x (W : Width) (v : BitVec W.bits) :
    (pushW W v s).x = s.x := by
  cases W <;> simp [pushW]
@[simp] theorem pushW_y (W : Width) (v : BitVec W.bits) :
    (pushW W v s).y = s.y := by
  cases W <;> simp [pushW]
@[simp] theorem pushW_d (W : Width) (v : BitVec W.bits) :
    (pushW W v s).d = s.d := by
  cases W <;> simp [pushW]
@[simp] theorem pushW_pc (W : Width) (v : BitVec W.bits) :
    (pushW W v s).pc = s.pc := by
  cases W <;> simp [pushW]
@[simp] theorem pushW_pbr (W : Width) (v : BitVec W.bits) :
    (pushW W v s).pbr = s.pbr := by
  cases W <;> simp [pushW]
@[simp] theorem pushW_dbr (W : Width) (v : BitVec W.bits) :
    (pushW W v s).dbr = s.dbr := by
  cases W <;> simp [pushW]
@[simp] theorem pushW_p (W : Width) (v : BitVec W.bits) :
    (pushW W v s).p = s.p := by
  cases W <;> simp [pushW]
@[simp] theorem pushW_e (W : Width) (v : BitVec W.bits) :
    (pushW W v s).e = s.e := by
  cases W <;> simp [pushW]
@[simp] theorem pushW_sel (W : Width) (v : BitVec W.bits) :
    (pushW W v s).sel = s.sel := by
  cases W <;> simp [pushW]
@[simp] theorem pushW_stopped (W : Width) (v : BitVec W.bits) :
    (pushW W v s).stopped = s.stopped := by
  cases W <;> simp [pushW]
@[simp] theorem pushW_waiting (W : Width) (v : BitVec W.bits) :
    (pushW W v s).waiting = s.waiting := by
  cases W <;> simp [pushW]
@[simp] theorem pushW_moving (W : Width) (v : BitVec W.bits) :
    (pushW W v s).moving = s.moving := by
  cases W <;> simp [pushW]
@[simp] theorem pushW_mv (W : Width) (v : BitVec W.bits) :
    (pushW W v s).mv = s.mv := by
  cases W <;> simp [pushW]
@[simp] theorem pushW_fatal (W : Width) (v : BitVec W.bits) :
    (pushW W v s).fatal = s.fatal := by
  cases W <;> simp [pushW]
@[simp] theorem pushW_cycles (W : Width) (v : BitVec W.bits) :
    (pushW W v s).cycles = s.cycles := by
  cases W <;> simp [pushW]
@[simp] theorem pushW_nmiPending (W : Width) (v : BitVec W.bits) :
    (pushW W v s).nmiPending = s.nmiPending := by
  cases W <;> simp [pushW]
@[simp] theorem pushW_nmiFlag (W : Width) (v : BitVec W.bits) :
    (pushW W v s).nmiFlag = s.nmiFlag := by
  cases W <;> simp [pushW]
@[simp] theorem pushW_cfg (W : Width) (v : BitVec W.bits) :
    (pushW W v s).cfg = s.cfg := by
  cases W <;> simp [pushW]
@[simp] theorem pushW_inputs (W : Width) (v : BitVec W.bits) :
    (pushW W v s).inputs = s.inputs := by
  cases W <;> simp [pushW]
@[simp] theorem pushW_draws (W : Width) (v : BitVec W.bits) :
    (pushW W v s).draws = s.draws := by
  cases W <;> simp [pushW]
/-! Fields `pull8` does not change. -/

@[simp] theorem pull8_a  :
    (pull8 s).2.a = s.a := by
  simp [pull8]
@[simp] theorem pull8_x  :
    (pull8 s).2.x = s.x := by
  simp [pull8]
@[simp] theorem pull8_y  :
    (pull8 s).2.y = s.y := by
  simp [pull8]
@[simp] theorem pull8_d  :
    (pull8 s).2.d = s.d := by
  simp [pull8]
@[simp] theorem pull8_pc  :
    (pull8 s).2.pc = s.pc := by
  simp [pull8]
@[simp] theorem pull8_pbr  :
    (pull8 s).2.pbr = s.pbr := by
  simp [pull8]
@[simp] theorem pull8_dbr  :
    (pull8 s).2.dbr = s.dbr := by
  simp [pull8]
@[simp] theorem pull8_p  :
    (pull8 s).2.p = s.p := by
  simp [pull8]
@[simp] theorem pull8_e  :
    (pull8 s).2.e = s.e := by
  simp [pull8]
@[simp] theorem pull8_sel  :
    (pull8 s).2.sel = s.sel := by
  simp [pull8]
@[simp] theorem pull8_stopped  :
    (pull8 s).2.stopped = s.stopped := by
  simp [pull8]
@[simp] theorem pull8_waiting  :
    (pull8 s).2.waiting = s.waiting := by
  simp [pull8]
@[simp] theorem pull8_moving  :
    (pull8 s).2.moving = s.moving := by
  simp [pull8]
@[simp] theorem pull8_mv  :
    (pull8 s).2.mv = s.mv := by
  simp [pull8]
@[simp] theorem pull8_fatal  :
    (pull8 s).2.fatal = s.fatal := by
  simp [pull8]
@[simp] theorem pull8_cycles  :
    (pull8 s).2.cycles = s.cycles := by
  simp [pull8]
@[simp] theorem pull8_nmiPending  :
    (pull8 s).2.nmiPending = s.nmiPending := by
  simp [pull8]
@[simp] theorem pull8_ch  :
    (pull8 s).2.ch = s.ch := by
  simp [pull8]
@[simp] theorem pull8_mem  :
    (pull8 s).2.mem = s.mem := by
  simp [pull8]
@[simp] theorem pull8_cfg  :
    (pull8 s).2.cfg = s.cfg := by
  simp [pull8]
@[simp] theorem pull8_cart  :
    (pull8 s).2.cart = s.cart := by
  simp [pull8]
@[simp] theorem pull8_inputs  :
    (pull8 s).2.inputs = s.inputs := by
  simp [pull8]
@[simp] theorem pull8_draws  :
    (pull8 s).2.draws = s.draws := by
  simp [pull8]
/-! Fields `pull16` does not change. -/

@[simp] theorem pull16_a  :
    (pull16 s).2.a = s.a := by
  simp [pull16]
@[simp] theorem pull16_x  :
    (pull16 s).2.x = s.x := by
  simp [pull16]
@[simp] theorem pull16_y  :
    (pull16 s).2.y = s.y := by
  simp [pull16]
@[simp] theorem pull16_d  :
    (pull16 s).2.d = s.d := by
  simp [pull16]
@[simp] theorem pull16_pc  :
    (pull16 s).2.pc = s.pc := by
  simp [pull16]
@[simp] theorem pull16_pbr  :
    (pull16 s).2.pbr = s.pbr := by
  simp [pull16]
@[simp] theorem pull16_dbr  :
    (pull16 s).2.dbr = s.dbr := by
  simp [pull16]
@[simp] theorem pull16_p  :
    (pull16 s).2.p = s.p := by
  simp [pull16]
@[simp] theorem pull16_e  :
    (pull16 s).2.e = s.e := by
  simp [pull16]
@[simp] theorem pull16_sel  :
    (pull16 s).2.sel = s.sel := by
  simp [pull16]
@[simp] theorem pull16_stopped  :
    (pull16 s).2.stopped = s.stopped := by
  simp [pull16]
@[simp] theorem pull16_waiting  :
    (pull16 s).2.waiting = s.waiting := by
  simp [pull16]
@[simp] theorem pull16_moving  :
    (pull16 s).2.moving = s.moving := by
  simp [pull16]
@[simp] theorem pull16_mv  :
    (pull16 s).2.mv = s.mv := by
  simp [pull16]
@[simp] theorem pull16_fatal  :
    (pull16 s).2.fatal = s.fatal := by
  simp [pull16]
@[simp] theorem pull16_cycles  :
    (pull16 s).2.cycles = s.cycles := by
  simp [pull16]
@[simp] theorem pull16_nmiPending  :
    (pull16 s).2.nmiPending = s.nmiPending := by
  simp [pull16]
@[simp] theorem pull16_ch  :
    (pull16 s).2.ch = s.ch := by
  simp [pull16]
@[simp] theorem pull16_mem  :
    (pull16 s).2.mem = s.mem := by
  simp [pull16]
@[simp] theorem pull16_cfg  :
    (pull16 s).2.cfg = s.cfg := by
  simp [pull16]
@[simp] theorem pull16_cart  :
    (pull16 s).2.cart = s.cart := by
  simp [pull16]
@[simp] theorem pull16_inputs  :
    (pull16 s).2.inputs = s.inputs := by
  simp [pull16]
@[simp] theorem pull16_draws  :
    (pull16 s).2.draws = s.draws := by
  simp [pull16]
/-! Fields `pull8N` does not change. -/

@[simp] theorem pull8N_a  :
    (pull8N s).2.a = s.a := by
  simp [pull8N]
@[simp] theorem pull8N_x  :
    (pull8N s).2.x = s.x := by
  simp [pull8N]
@[simp] theorem pull8N_y  :
    (pull8N s).2.y = s.y := by
  simp [pull8N]
@[simp] theorem pull8N_d  :
    (pull8N s).2.d = s.d := by
  simp [pull8N]
@[simp] theorem pull8N_pc  :
    (pull8N s).2.pc = s.pc := by
  simp [pull8N]
@[simp] theorem pull8N_pbr  :
    (pull8N s).2.pbr = s.pbr := by
  simp [pull8N]
@[simp] theorem pull8N_dbr  :
    (pull8N s).2.dbr = s.dbr := by
  simp [pull8N]
@[simp] theorem pull8N_p  :
    (pull8N s).2.p = s.p := by
  simp [pull8N]
@[simp] theorem pull8N_e  :
    (pull8N s).2.e = s.e := by
  simp [pull8N]
@[simp] theorem pull8N_sel  :
    (pull8N s).2.sel = s.sel := by
  simp [pull8N]
@[simp] theorem pull8N_stopped  :
    (pull8N s).2.stopped = s.stopped := by
  simp [pull8N]
@[simp] theorem pull8N_waiting  :
    (pull8N s).2.waiting = s.waiting := by
  simp [pull8N]
@[simp] theorem pull8N_moving  :
    (pull8N s).2.moving = s.moving := by
  simp [pull8N]
@[simp] theorem pull8N_mv  :
    (pull8N s).2.mv = s.mv := by
  simp [pull8N]
@[simp] theorem pull8N_fatal  :
    (pull8N s).2.fatal = s.fatal := by
  simp [pull8N]
@[simp] theorem pull8N_cycles  :
    (pull8N s).2.cycles = s.cycles := by
  simp [pull8N]
@[simp] theorem pull8N_nmiPending  :
    (pull8N s).2.nmiPending = s.nmiPending := by
  simp [pull8N]
@[simp] theorem pull8N_ch  :
    (pull8N s).2.ch = s.ch := by
  simp [pull8N]
@[simp] theorem pull8N_mem  :
    (pull8N s).2.mem = s.mem := by
  simp [pull8N]
@[simp] theorem pull8N_cfg  :
    (pull8N s).2.cfg = s.cfg := by
  simp [pull8N]
@[simp] theorem pull8N_cart  :
    (pull8N s).2.cart = s.cart := by
  simp [pull8N]
@[simp] theorem pull8N_inputs  :
    (pull8N s).2.inputs = s.inputs := by
  simp [pull8N]
@[simp] theorem pull8N_draws  :
    (pull8N s).2.draws = s.draws := by
  simp [pull8N]
/-! Fields `pull16N` does not change. -/

@[simp] theorem pull16N_a  :
    (pull16N s).2.a = s.a := by
  simp [pull16N]
@[simp] theorem pull16N_x  :
    (pull16N s).2.x = s.x := by
  simp [pull16N]
@[simp] theorem pull16N_y  :
    (pull16N s).2.y = s.y := by
  simp [pull16N]
@[simp] theorem pull16N_d  :
    (pull16N s).2.d = s.d := by
  simp [pull16N]
@[simp] theorem pull16N_pc  :
    (pull16N s).2.pc = s.pc := by
  simp [pull16N]
@[simp] theorem pull16N_pbr  :
    (pull16N s).2.pbr = s.pbr := by
  simp [pull16N]
@[simp] theorem pull16N_dbr  :
    (pull16N s).2.dbr = s.dbr := by
  simp [pull16N]
@[simp] theorem pull16N_p  :
    (pull16N s).2.p = s.p := by
  simp [pull16N]
@[simp] theorem pull16N_e  :
    (pull16N s).2.e = s.e := by
  simp [pull16N]
@[simp] theorem pull16N_sel  :
    (pull16N s).2.sel = s.sel := by
  simp [pull16N]
@[simp] theorem pull16N_stopped  :
    (pull16N s).2.stopped = s.stopped := by
  simp [pull16N]
@[simp] theorem pull16N_waiting  :
    (pull16N s).2.waiting = s.waiting := by
  simp [pull16N]
@[simp] theorem pull16N_moving  :
    (pull16N s).2.moving = s.moving := by
  simp [pull16N]
@[simp] theorem pull16N_mv  :
    (pull16N s).2.mv = s.mv := by
  simp [pull16N]
@[simp] theorem pull16N_fatal  :
    (pull16N s).2.fatal = s.fatal := by
  simp [pull16N]
@[simp] theorem pull16N_cycles  :
    (pull16N s).2.cycles = s.cycles := by
  simp [pull16N]
@[simp] theorem pull16N_nmiPending  :
    (pull16N s).2.nmiPending = s.nmiPending := by
  simp [pull16N]
@[simp] theorem pull16N_ch  :
    (pull16N s).2.ch = s.ch := by
  simp [pull16N]
@[simp] theorem pull16N_mem  :
    (pull16N s).2.mem = s.mem := by
  simp [pull16N]
@[simp] theorem pull16N_cfg  :
    (pull16N s).2.cfg = s.cfg := by
  simp [pull16N]
@[simp] theorem pull16N_cart  :
    (pull16N s).2.cart = s.cart := by
  simp [pull16N]
@[simp] theorem pull16N_inputs  :
    (pull16N s).2.inputs = s.inputs := by
  simp [pull16N]
@[simp] theorem pull16N_draws  :
    (pull16N s).2.draws = s.draws := by
  simp [pull16N]
/-! Fields `pullW` does not change. -/

@[simp] theorem pullW_a (W : Width) :
    (pullW W s).2.a = s.a := by
  cases W <;> simp [pullW]
@[simp] theorem pullW_x (W : Width) :
    (pullW W s).2.x = s.x := by
  cases W <;> simp [pullW]
@[simp] theorem pullW_y (W : Width) :
    (pullW W s).2.y = s.y := by
  cases W <;> simp [pullW]
@[simp] theorem pullW_d (W : Width) :
    (pullW W s).2.d = s.d := by
  cases W <;> simp [pullW]
@[simp] theorem pullW_pc (W : Width) :
    (pullW W s).2.pc = s.pc := by
  cases W <;> simp [pullW]
@[simp] theorem pullW_pbr (W : Width) :
    (pullW W s).2.pbr = s.pbr := by
  cases W <;> simp [pullW]
@[simp] theorem pullW_dbr (W : Width) :
    (pullW W s).2.dbr = s.dbr := by
  cases W <;> simp [pullW]
@[simp] theorem pullW_p (W : Width) :
    (pullW W s).2.p = s.p := by
  cases W <;> simp [pullW]
@[simp] theorem pullW_e (W : Width) :
    (pullW W s).2.e = s.e := by
  cases W <;> simp [pullW]
@[simp] theorem pullW_sel (W : Width) :
    (pullW W s).2.sel = s.sel := by
  cases W <;> simp [pullW]
@[simp] theorem pullW_stopped (W : Width) :
    (pullW W s).2.stopped = s.stopped := by
  cases W <;> simp [pullW]
@[simp] theorem pullW_waiting (W : Width) :
    (pullW W s).2.waiting = s.waiting := by
  cases W <;> simp [pullW]
@[simp] theorem pullW_moving (W : Width) :
    (pullW W s).2.moving = s.moving := by
  cases W <;> simp [pullW]
@[simp] theorem pullW_mv (W : Width) :
    (pullW W s).2.mv = s.mv := by
  cases W <;> simp [pullW]
@[simp] theorem pullW_fatal (W : Width) :
    (pullW W s).2.fatal = s.fatal := by
  cases W <;> simp [pullW]
@[simp] theorem pullW_cycles (W : Width) :
    (pullW W s).2.cycles = s.cycles := by
  cases W <;> simp [pullW]
@[simp] theorem pullW_nmiPending (W : Width) :
    (pullW W s).2.nmiPending = s.nmiPending := by
  cases W <;> simp [pullW]
@[simp] theorem pullW_ch (W : Width) :
    (pullW W s).2.ch = s.ch := by
  cases W <;> simp [pullW]
@[simp] theorem pullW_mem (W : Width) :
    (pullW W s).2.mem = s.mem := by
  cases W <;> simp [pullW]
@[simp] theorem pullW_cfg (W : Width) :
    (pullW W s).2.cfg = s.cfg := by
  cases W <;> simp [pullW]
@[simp] theorem pullW_cart (W : Width) :
    (pullW W s).2.cart = s.cart := by
  cases W <;> simp [pullW]
@[simp] theorem pullW_inputs (W : Width) :
    (pullW W s).2.inputs = s.inputs := by
  cases W <;> simp [pullW]
@[simp] theorem pullW_draws (W : Width) :
    (pullW W s).2.draws = s.draws := by
  cases W <;> simp [pullW]
/-! Fields `interruptEntry` does not change. -/

@[simp] theorem interruptEntry_a (kind : Interrupt) :
    (interruptEntry kind s).a = s.a := by
  unfold interruptEntry; split <;> simp
@[simp] theorem interruptEntry_x (kind : Interrupt) :
    (interruptEntry kind s).x = s.x := by
  unfold interruptEntry; split <;> simp
@[simp] theorem interruptEntry_y (kind : Interrupt) :
    (interruptEntry kind s).y = s.y := by
  unfold interruptEntry; split <;> simp
@[simp] theorem interruptEntry_d (kind : Interrupt) :
    (interruptEntry kind s).d = s.d := by
  unfold interruptEntry; split <;> simp
@[simp] theorem interruptEntry_dbr (kind : Interrupt) :
    (interruptEntry kind s).dbr = s.dbr := by
  unfold interruptEntry; split <;> simp
@[simp] theorem interruptEntry_e (kind : Interrupt) :
    (interruptEntry kind s).e = s.e := by
  unfold interruptEntry; split <;> simp
@[simp] theorem interruptEntry_sel (kind : Interrupt) :
    (interruptEntry kind s).sel = s.sel := by
  unfold interruptEntry; split <;> simp
@[simp] theorem interruptEntry_stopped (kind : Interrupt) :
    (interruptEntry kind s).stopped = s.stopped := by
  unfold interruptEntry; split <;> simp
@[simp] theorem interruptEntry_waiting (kind : Interrupt) :
    (interruptEntry kind s).waiting = s.waiting := by
  unfold interruptEntry; split <;> simp
@[simp] theorem interruptEntry_moving (kind : Interrupt) :
    (interruptEntry kind s).moving = s.moving := by
  unfold interruptEntry; split <;> simp
@[simp] theorem interruptEntry_mv (kind : Interrupt) :
    (interruptEntry kind s).mv = s.mv := by
  unfold interruptEntry; split <;> simp
@[simp] theorem interruptEntry_fatal (kind : Interrupt) :
    (interruptEntry kind s).fatal = s.fatal := by
  unfold interruptEntry; split <;> simp
@[simp] theorem interruptEntry_cycles (kind : Interrupt) :
    (interruptEntry kind s).cycles = s.cycles := by
  unfold interruptEntry; split <;> simp
@[simp] theorem interruptEntry_nmiPending (kind : Interrupt) :
    (interruptEntry kind s).nmiPending = s.nmiPending := by
  unfold interruptEntry; split <;> simp
@[simp] theorem interruptEntry_cfg (kind : Interrupt) :
    (interruptEntry kind s).cfg = s.cfg := by
  unfold interruptEntry; split <;> simp
@[simp] theorem interruptEntry_inputs (kind : Interrupt) :
    (interruptEntry kind s).inputs = s.inputs := by
  unfold interruptEntry; split <;> simp
@[simp] theorem interruptEntry_draws (kind : Interrupt) :
    (interruptEntry kind s).draws = s.draws := by
  unfold interruptEntry; split <;> simp
/-! Fields `interruptReturn` does not change. -/

@[simp] theorem interruptReturn_a  :
    (interruptReturn s).a = s.a := by
  unfold interruptReturn; split <;> simp
@[simp] theorem interruptReturn_d  :
    (interruptReturn s).d = s.d := by
  unfold interruptReturn; split <;> simp
@[simp] theorem interruptReturn_dbr  :
    (interruptReturn s).dbr = s.dbr := by
  unfold interruptReturn; split <;> simp
@[simp] theorem interruptReturn_e  :
    (interruptReturn s).e = s.e := by
  unfold interruptReturn; split <;> simp
@[simp] theorem interruptReturn_sel  :
    (interruptReturn s).sel = s.sel := by
  unfold interruptReturn; split <;> simp
@[simp] theorem interruptReturn_stopped  :
    (interruptReturn s).stopped = s.stopped := by
  unfold interruptReturn; split <;> simp
@[simp] theorem interruptReturn_waiting  :
    (interruptReturn s).waiting = s.waiting := by
  unfold interruptReturn; split <;> simp
@[simp] theorem interruptReturn_moving  :
    (interruptReturn s).moving = s.moving := by
  unfold interruptReturn; split <;> simp
@[simp] theorem interruptReturn_mv  :
    (interruptReturn s).mv = s.mv := by
  unfold interruptReturn; split <;> simp
@[simp] theorem interruptReturn_fatal  :
    (interruptReturn s).fatal = s.fatal := by
  unfold interruptReturn; split <;> simp
@[simp] theorem interruptReturn_cycles  :
    (interruptReturn s).cycles = s.cycles := by
  unfold interruptReturn; split <;> simp
@[simp] theorem interruptReturn_nmiPending  :
    (interruptReturn s).nmiPending = s.nmiPending := by
  unfold interruptReturn; split <;> simp
@[simp] theorem interruptReturn_ch  :
    (interruptReturn s).ch = s.ch := by
  unfold interruptReturn; split <;> simp
@[simp] theorem interruptReturn_mem  :
    (interruptReturn s).mem = s.mem := by
  unfold interruptReturn; split <;> simp
@[simp] theorem interruptReturn_cfg  :
    (interruptReturn s).cfg = s.cfg := by
  unfold interruptReturn; split <;> simp
@[simp] theorem interruptReturn_cart  :
    (interruptReturn s).cart = s.cart := by
  unfold interruptReturn; split <;> simp
@[simp] theorem interruptReturn_inputs  :
    (interruptReturn s).inputs = s.inputs := by
  unfold interruptReturn; split <;> simp
@[simp] theorem interruptReturn_draws  :
    (interruptReturn s).draws = s.draws := by
  unfold interruptReturn; split <;> simp

variable {s}

/-! Widths. -/

theorem wM_w8_iff : s.wM = .w8 ↔ s.e = true ∨ s.p.m = true := by
  cases he : s.e <;> cases hw : s.p.m <;> simp [State.wM, he, hw]

theorem wM_w16_iff : s.wM = .w16 ↔ s.e = false ∧ s.p.m = false := by
  cases he : s.e <;> cases hw : s.p.m <;> simp [State.wM, he, hw]

theorem wX_w8_iff : s.wX = .w8 ↔ s.e = true ∨ s.p.x = true := by
  cases he : s.e <;> cases hw : s.p.x <;> simp [State.wX, he, hw]

theorem wX_w16_iff : s.wX = .w16 ↔ s.e = false ∧ s.p.x = false := by
  cases he : s.e <;> cases hw : s.p.x <;> simp [State.wX, he, hw]

/-! The width fix-up (rules R34, R36). -/

theorem fixWidths_p : (fixWidths s).p = if s.e then { s.p with m := true, x := true } else s.p := by
  unfold fixWidths; split <;> simp only <;> split <;> rfl

theorem fixWidths_sp : (fixWidths s).sp = if s.e then setHigh s.sp 0x01 else s.sp := by
  unfold fixWidths; split <;> simp only <;> split <;> rfl

theorem fixWidths_x : (fixWidths s).x = if s.e || s.p.x then setHigh s.x 0x00 else s.x := by
  unfold fixWidths; cases s.e <;> cases h : s.p.x <;> simp [h]

theorem fixWidths_y : (fixWidths s).y = if s.e || s.p.x then setHigh s.y 0x00 else s.y := by
  unfold fixWidths; cases s.e <;> cases h : s.p.x <;> simp [h]

/-- The width fix-up establishes the two invariants of the widths, whatever state it is given. -/
theorem fixWidths_emulation : EmulationInv (fixWidths s) := by
  intro h
  simp only [fixWidths_e] at h
  simp [fixWidths_p, fixWidths_sp, h]

theorem fixWidths_index : IndexInv (fixWidths s) := by
  intro h
  rw [fixWidths_p] at h
  rw [fixWidths_x, fixWidths_y]
  cases he : s.e <;> simp_all

theorem setPbyte_p (v : Byte) : (setPbyte v s).p =
    if s.e then { Status.ofByte v with m := true, x := true } else Status.ofByte v := by
  simp [setPbyte, fixWidths_p]

theorem setPbyte_sp (v : Byte) : (setPbyte v s).sp = if s.e then setHigh s.sp 0x01 else s.sp := by
  simp [setPbyte, fixWidths_sp]

theorem setPbyte_x (v : Byte) : (setPbyte v s).x = if s.e || v.getLsbD 4 then setHigh s.x 0x00 else s.x := by
  simp [setPbyte, fixWidths_x, Status.ofByte]

theorem setPbyte_y (v : Byte) : (setPbyte v s).y = if s.e || v.getLsbD 4 then setHigh s.y 0x00 else s.y := by
  simp [setPbyte, fixWidths_y, Status.ofByte]

theorem setPbyte_emulation (v : Byte) : EmulationInv (setPbyte v s) := fixWidths_emulation
theorem setPbyte_index (v : Byte) : IndexInv (setPbyte v s) := fixWidths_index

theorem fixSH_sp : (fixSH s).sp = if s.e then setHigh s.sp 0x01 else s.sp := by
  unfold fixSH; split <;> rfl

theorem setHigh_self {v : Word} {b : Byte} (h : highByte v = b) : setHigh v b = v := by
  subst h; simp [setHigh]

/-- With the stack in page 1, as in every emulation-mode state a run reaches, `FixSH` changes nothing. -/
theorem fixSH_eq (h : s.e = true → highByte s.sp = 0x01) : fixSH s = s := by
  unfold fixSH
  split
  · rename_i he
    rw [setHigh_self (h he)]
  · rfl

/-! The status byte (rule R28). -/

theorem Status.byte_ofByte (v : Byte) : (Status.ofByte v).byte = v := by
  revert v; decide

theorem Status.ofByte_byte (p : Status) : Status.ofByte p.byte = p := by
  obtain ⟨n, v, m, x, d, i, z, c⟩ := p
  revert n v m x d i z c; decide

/-! The stack pointer after pushes and pulls (rules R300 to R303). -/

theorem push8_sp (v : Byte) : (push8 v s).sp = s.spDown := by simp [push8, State.spDown]
theorem push8N_sp (v : Byte) : (push8N v s).sp = s.sp - 1 := by simp [push8N]
theorem pull8_sp : (pull8 s).2.sp = s.spUp := by simp [pull8]
theorem pull8N_sp : (pull8N s).2.sp = s.sp + 1 := by simp [pull8N]

theorem push16N_sp (v : Word) : (push16N v s).sp = s.sp - 1 - 1 := by simp [push16N, push8N_sp]
theorem pull16N_sp : (pull16N s).2.sp = s.sp + 1 + 1 := by simp [pull16N, pull8N_sp]

/-- In emulation mode a legacy push or pull keeps the stack's page (rules R300, R301). -/
theorem highByte_spDown (h : s.e = true) : highByte s.spDown = highByte s.sp := by simp [State.spDown, h]
theorem highByte_spUp (h : s.e = true) : highByte s.spUp = highByte s.sp := by simp [State.spUp, h]

theorem highByte_push8 (v : Byte) (h : s.e = true) : highByte (push8 v s).sp = highByte s.sp := by
  rw [push8_sp, highByte_spDown h]

theorem highByte_push16 (v : Word) (h : s.e = true) : highByte (push16 v s).sp = highByte s.sp := by
  rw [push16, highByte_push8 _ (by simpa using h), highByte_push8 _ h]

theorem highByte_pushW (W : Width) (v : BitVec W.bits) (h : s.e = true) :
    highByte (pushW W v s).sp = highByte s.sp := by
  cases W
  · exact highByte_push8 v h
  · exact highByte_push16 v h

theorem highByte_pull8 (h : s.e = true) : highByte (pull8 s).2.sp = highByte s.sp := by
  rw [pull8_sp, highByte_spUp h]

theorem highByte_pull16 (h : s.e = true) : highByte (pull16 s).2.sp = highByte s.sp := by
  show highByte (pull8 (pull8 s).2).2.sp = _
  rw [highByte_pull8 (by simpa using h), highByte_pull8 h]

theorem highByte_pullW (W : Width) (h : s.e = true) : highByte (pullW W s).2.sp = highByte s.sp := by
  cases W
  · exact highByte_pull8 h
  · exact highByte_pull16 h

/-- A pull undoes a push of the stack pointer. -/
theorem setLow_setLow (v : Word) (a b : Byte) : setLow (setLow v a) b = setLow v b := by simp [setLow]

theorem spUp_push8 (v : Byte) : (push8 v s).spUp = s.sp := by
  unfold State.spUp
  rw [push8_e, push8_sp]
  unfold State.spDown
  split
  · rw [lowByte_setLow, setLow_setLow, BitVec.sub_add_cancel, setLow, wordOf_high_low]
  · rw [BitVec.sub_add_cancel]

/-! What a push writes when the stack is in RAM. -/

theorem push8_wram (v : Byte) (h : mapAddress s.stackAddr = .wram) :
    push8 v s = { s with mem := s.mem.write (storeKey s.cfg s.stackAddr) v, sp := s.spDown } := by
  simp [push8, busWrite_wram v h, State.spDown]

theorem push8N_wram (v : Byte) (h : mapAddress s.stackAddr = .wram) :
    push8N v s = { s with mem := s.mem.write (storeKey s.cfg s.stackAddr) v, sp := s.sp - 1 } := by
  simp [push8N, busWrite_wram v h]

theorem pull8_quiet (h : Quiet s.cfg (addrOf 0x00 s.spUp)) :
    pull8 s = (s.peek (addrOf 0x00 s.spUp), { s with sp := s.spUp }) := by
  have h' : Quiet ({ s with sp := s.spUp } : State).cfg (addrOf 0x00 s.spUp) := h
  unfold pull8 State.stackAddr
  exact busRead_quiet h'

/-- Bank 0x00 below 0x2000 is RAM (rule R61): page 1, where the emulation-mode stack is, among it. -/
theorem mapAddress_low {o : Word} (h : o.toNat < 0x2000) : mapAddress (addrOf 0x00 o) = .wram := by
  unfold mapAddress
  rw [toNat_addrOf]
  have hz : BitVec.toNat (0x00 : Byte) = 0 := rfl
  rw [hz]
  simp only
  rw [if_neg (by omega), if_pos (by omega), if_pos (by omega)]

/-! The bus's part of the invariant: it rests on the stored bytes and the channels alone. -/

/-- The parts of the invariant that bus writes and DMA could break. -/
def BusInv (s : State) : Prop := MemoryInv s ∧ ChannelInv s ∧ MdmaenInv s

theorem BusInv.congr {t : State} (h : BusInv s) (hm : t.mem = s.mem) (hc : t.ch = s.ch) : BusInv t := by
  obtain ⟨h1, h2, h3⟩ := h
  refine ⟨?_, ?_, ?_⟩
  · unfold MemoryInv; rw [hm]; exact h1
  · unfold ChannelInv; rw [hc]; exact h2
  · unfold MdmaenInv State.dmaActive State.servedChannel State.ireg
    rw [hm, hc]; exact h3

theorem dmaActive_congr {t : State} (hc : t.ch = s.ch) : t.dmaActive = s.dmaActive := by
  unfold State.dmaActive State.servedChannel
  rw [hc]

theorem dmaActive_iff : s.dmaActive = true ↔ ∃ n : Fin 8, s.ch[n].active = true := by
  unfold State.dmaActive State.servedChannel
  rw [List.find?_isSome]
  constructor
  · rintro ⟨n, _, h⟩; exact ⟨n, h⟩
  · rintro ⟨n, h⟩; exact ⟨n, by clear h; revert n; decide, h⟩

theorem dmaStart_getElem (v : Byte) (n : Fin 8) :
    (dmaStart v s).ch[n] = if v.getLsbD n.val then s.latchChannel n.val else { s.ch[n] with active := false } := by
  simp [dmaStart]

theorem dmaStart_active (v : Byte) (n : Fin 8) : (dmaStart v s).ch[n].active = v.getLsbD n.val := by
  rw [dmaStart_getElem]
  split <;> simp_all [State.latchChannel]

theorem DmaFormat.pattern_pos (f : DmaFormat) : 0 < f.pattern.length := by cases f <;> decide

theorem dmaStart_channels (v : Byte) (h : ChannelInv s) : ChannelInv (dmaStart v s) := by
  intro n
  rw [dmaStart_getElem]
  split
  · exact DmaFormat.pattern_pos _
  · exact h n

theorem busWrite_busInv {a : Addr} {v : Byte} (h : BusInv s) : BusInv (busWrite a v s) := by
  obtain ⟨h1, h2, h3⟩ := h
  have hch : ChannelInv (storeByte a v s) := fun n => by
    rw [storeByte_ch]; exact h2 n
  refine ⟨busWrite_wf h1, ?_, ?_⟩
  · unfold busWrite
    split
    · exact dmaStart_channels v hch
    · exact hch
  · have hmd := storeByte_mdmaen h1 a v
    unfold MdmaenInv
    unfold busWrite
    split
    · rename_i hm
      intro hd
      show (storeByte a v s).ireg mdmaenKey = 0
      rw [hmd, if_pos hm]
      apply BitVec.eq_of_getLsbD_eq
      intro i hi
      have := mt dmaActive_iff.mpr (by rw [hd]; decide)
      simp only [not_exists, dmaStart_active] at this
      simpa using this ⟨i, hi⟩
    · rename_i hm
      intro hd
      simp only [hmd, hm, Bool.false_eq_true, if_false]
      exact h3 (by rw [← hd]; exact (dmaActive_congr (by simp)).symm)

theorem push8_busInv {v : Byte} (h : BusInv s) : BusInv (push8 v s) :=
  (busWrite_busInv h).congr rfl rfl

theorem push16_busInv {v : Word} (h : BusInv s) : BusInv (push16 v s) := push8_busInv (push8_busInv h)

theorem push8N_busInv {v : Byte} (h : BusInv s) : BusInv (push8N v s) :=
  (busWrite_busInv h).congr rfl rfl

theorem push16N_busInv {v : Word} (h : BusInv s) : BusInv (push16N v s) := push8N_busInv (push8N_busInv h)

theorem pushW_busInv {W : Width} {v : BitVec W.bits} (h : BusInv s) : BusInv (pushW W v s) := by
  cases W
  · exact push8_busInv h
  · exact push16_busInv h

/-! Taking an interrupt and returning from one (rules R424, R432). -/

/-- The stored bytes and the channels are those after the pushes. -/
theorem interruptEntry_mem (kind : Interrupt) : (interruptEntry kind s).mem =
    (push8 (savedStatus kind s) (push16 (returnAddress kind s) (if s.e then s else push8 s.pbr s))).mem := by
  simp [interruptEntry]

theorem interruptEntry_ch (kind : Interrupt) : (interruptEntry kind s).ch =
    (push8 (savedStatus kind s) (push16 (returnAddress kind s) (if s.e then s else push8 s.pbr s))).ch := by
  simp [interruptEntry]

theorem interruptEntry_busInv {kind : Interrupt} (h : BusInv s) : BusInv (interruptEntry kind s) := by
  have h0 : BusInv (if s.e then s else push8 s.pbr s) := by
    split
    · exact h
    · exact push8_busInv h
  exact (push8_busInv (push16_busInv h0)).congr (interruptEntry_mem kind) (interruptEntry_ch kind)

theorem interruptEntry_pbr (kind : Interrupt) : (interruptEntry kind s).pbr = 0x00 := by simp [interruptEntry]

/-- The flags after an interrupt entry: I set, D clear, the others as they were. -/
theorem interruptEntry_p (kind : Interrupt) : (interruptEntry kind s).p = { s.p with i := true, d := false } := by
  unfold interruptEntry; split <;> simp

theorem interruptEntry_sp (kind : Interrupt) : (interruptEntry kind s).sp =
    (push8 (savedStatus kind s) (push16 (returnAddress kind s) (if s.e then s else push8 s.pbr s))).sp := by
  simp [interruptEntry]

theorem interruptEntry_page (kind : Interrupt) (h : s.e = true) :
    highByte (interruptEntry kind s).sp = highByte s.sp := by
  rw [interruptEntry_sp, if_pos h, highByte_push8 _ (by simpa using h), highByte_push16 _ h]

end Sys2Proof.Machine
end

