-- ==== Sys2Proof/Laws/Dma.lean ====
section
/-! SUPPORT. DMA steps and block-move steps: which fields each leaves alone, and that each keeps the invariant's parts
it could break (rules R337, R351 to R360). -/

namespace Sys2Proof.Machine

variable (s : State)

/-! Fields `transferByte` does not change. -/

@[simp] theorem transferByte_a (c : Channel) :
    (transferByte c s).a = s.a := by
  unfold transferByte; split <;> simp
@[simp] theorem transferByte_x (c : Channel) :
    (transferByte c s).x = s.x := by
  unfold transferByte; split <;> simp
@[simp] theorem transferByte_y (c : Channel) :
    (transferByte c s).y = s.y := by
  unfold transferByte; split <;> simp
@[simp] theorem transferByte_sp (c : Channel) :
    (transferByte c s).sp = s.sp := by
  unfold transferByte; split <;> simp
@[simp] theorem transferByte_d (c : Channel) :
    (transferByte c s).d = s.d := by
  unfold transferByte; split <;> simp
@[simp] theorem transferByte_pc (c : Channel) :
    (transferByte c s).pc = s.pc := by
  unfold transferByte; split <;> simp
@[simp] theorem transferByte_pbr (c : Channel) :
    (transferByte c s).pbr = s.pbr := by
  unfold transferByte; split <;> simp
@[simp] theorem transferByte_dbr (c : Channel) :
    (transferByte c s).dbr = s.dbr := by
  unfold transferByte; split <;> simp
@[simp] theorem transferByte_p (c : Channel) :
    (transferByte c s).p = s.p := by
  unfold transferByte; split <;> simp
@[simp] theorem transferByte_e (c : Channel) :
    (transferByte c s).e = s.e := by
  unfold transferByte; split <;> simp
@[simp] theorem transferByte_sel (c : Channel) :
    (transferByte c s).sel = s.sel := by
  unfold transferByte; split <;> simp
@[simp] theorem transferByte_stopped (c : Channel) :
    (transferByte c s).stopped = s.stopped := by
  unfold transferByte; split <;> simp
@[simp] theorem transferByte_waiting (c : Channel) :
    (transferByte c s).waiting = s.waiting := by
  unfold transferByte; split <;> simp
@[simp] theorem transferByte_moving (c : Channel) :
    (transferByte c s).moving = s.moving := by
  unfold transferByte; split <;> simp
@[simp] theorem transferByte_mv (c : Channel) :
    (transferByte c s).mv = s.mv := by
  unfold transferByte; split <;> simp
@[simp] theorem transferByte_fatal (c : Channel) :
    (transferByte c s).fatal = s.fatal := by
  unfold transferByte; split <;> simp
@[simp] theorem transferByte_cycles (c : Channel) :
    (transferByte c s).cycles = s.cycles := by
  unfold transferByte; split <;> simp
@[simp] theorem transferByte_nmiPending (c : Channel) :
    (transferByte c s).nmiPending = s.nmiPending := by
  unfold transferByte; split <;> simp
@[simp] theorem transferByte_cfg (c : Channel) :
    (transferByte c s).cfg = s.cfg := by
  unfold transferByte; split <;> simp
@[simp] theorem transferByte_inputs (c : Channel) :
    (transferByte c s).inputs = s.inputs := by
  unfold transferByte; split <;> simp
@[simp] theorem transferByte_draws (c : Channel) :
    (transferByte c s).draws = s.draws := by
  unfold transferByte; split <;> simp
/-! Fields `writeBackChannel` does not change. -/

@[simp] theorem writeBackChannel_a (n : Nat) (c : Channel) :
    (writeBackChannel n c s).a = s.a := by
  simp [writeBackChannel]
@[simp] theorem writeBackChannel_x (n : Nat) (c : Channel) :
    (writeBackChannel n c s).x = s.x := by
  simp [writeBackChannel]
@[simp] theorem writeBackChannel_y (n : Nat) (c : Channel) :
    (writeBackChannel n c s).y = s.y := by
  simp [writeBackChannel]
@[simp] theorem writeBackChannel_sp (n : Nat) (c : Channel) :
    (writeBackChannel n c s).sp = s.sp := by
  simp [writeBackChannel]
@[simp] theorem writeBackChannel_d (n : Nat) (c : Channel) :
    (writeBackChannel n c s).d = s.d := by
  simp [writeBackChannel]
@[simp] theorem writeBackChannel_pc (n : Nat) (c : Channel) :
    (writeBackChannel n c s).pc = s.pc := by
  simp [writeBackChannel]
@[simp] theorem writeBackChannel_pbr (n : Nat) (c : Channel) :
    (writeBackChannel n c s).pbr = s.pbr := by
  simp [writeBackChannel]
@[simp] theorem writeBackChannel_dbr (n : Nat) (c : Channel) :
    (writeBackChannel n c s).dbr = s.dbr := by
  simp [writeBackChannel]
@[simp] theorem writeBackChannel_p (n : Nat) (c : Channel) :
    (writeBackChannel n c s).p = s.p := by
  simp [writeBackChannel]
@[simp] theorem writeBackChannel_e (n : Nat) (c : Channel) :
    (writeBackChannel n c s).e = s.e := by
  simp [writeBackChannel]
@[simp] theorem writeBackChannel_sel (n : Nat) (c : Channel) :
    (writeBackChannel n c s).sel = s.sel := by
  simp [writeBackChannel]
@[simp] theorem writeBackChannel_stopped (n : Nat) (c : Channel) :
    (writeBackChannel n c s).stopped = s.stopped := by
  simp [writeBackChannel]
@[simp] theorem writeBackChannel_waiting (n : Nat) (c : Channel) :
    (writeBackChannel n c s).waiting = s.waiting := by
  simp [writeBackChannel]
@[simp] theorem writeBackChannel_moving (n : Nat) (c : Channel) :
    (writeBackChannel n c s).moving = s.moving := by
  simp [writeBackChannel]
@[simp] theorem writeBackChannel_mv (n : Nat) (c : Channel) :
    (writeBackChannel n c s).mv = s.mv := by
  simp [writeBackChannel]
@[simp] theorem writeBackChannel_fatal (n : Nat) (c : Channel) :
    (writeBackChannel n c s).fatal = s.fatal := by
  simp [writeBackChannel]
@[simp] theorem writeBackChannel_cycles (n : Nat) (c : Channel) :
    (writeBackChannel n c s).cycles = s.cycles := by
  simp [writeBackChannel]
@[simp] theorem writeBackChannel_nmiPending (n : Nat) (c : Channel) :
    (writeBackChannel n c s).nmiPending = s.nmiPending := by
  simp [writeBackChannel]
@[simp] theorem writeBackChannel_nmiFlag (n : Nat) (c : Channel) :
    (writeBackChannel n c s).nmiFlag = s.nmiFlag := by
  simp [writeBackChannel]
@[simp] theorem writeBackChannel_ch (n : Nat) (c : Channel) :
    (writeBackChannel n c s).ch = s.ch := by
  simp [writeBackChannel]
@[simp] theorem writeBackChannel_ppuExt (n : Nat) (c : Channel) :
    (writeBackChannel n c s).ppuExt = s.ppuExt := by
  simp [writeBackChannel]
@[simp] theorem writeBackChannel_cfg (n : Nat) (c : Channel) :
    (writeBackChannel n c s).cfg = s.cfg := by
  simp [writeBackChannel]
@[simp] theorem writeBackChannel_cart (n : Nat) (c : Channel) :
    (writeBackChannel n c s).cart = s.cart := by
  simp [writeBackChannel]
@[simp] theorem writeBackChannel_inputs (n : Nat) (c : Channel) :
    (writeBackChannel n c s).inputs = s.inputs := by
  simp [writeBackChannel]
@[simp] theorem writeBackChannel_draws (n : Nat) (c : Channel) :
    (writeBackChannel n c s).draws = s.draws := by
  simp [writeBackChannel]
/-! Fields `stepChannel` does not change. -/

@[simp] theorem stepChannel_a (n : Fin 8) :
    (stepChannel n s).a = s.a := by
  unfold stepChannel; simp only; split <;> simp
@[simp] theorem stepChannel_x (n : Fin 8) :
    (stepChannel n s).x = s.x := by
  unfold stepChannel; simp only; split <;> simp
@[simp] theorem stepChannel_y (n : Fin 8) :
    (stepChannel n s).y = s.y := by
  unfold stepChannel; simp only; split <;> simp
@[simp] theorem stepChannel_sp (n : Fin 8) :
    (stepChannel n s).sp = s.sp := by
  unfold stepChannel; simp only; split <;> simp
@[simp] theorem stepChannel_d (n : Fin 8) :
    (stepChannel n s).d = s.d := by
  unfold stepChannel; simp only; split <;> simp
@[simp] theorem stepChannel_pc (n : Fin 8) :
    (stepChannel n s).pc = s.pc := by
  unfold stepChannel; simp only; split <;> simp
@[simp] theorem stepChannel_pbr (n : Fin 8) :
    (stepChannel n s).pbr = s.pbr := by
  unfold stepChannel; simp only; split <;> simp
@[simp] theorem stepChannel_dbr (n : Fin 8) :
    (stepChannel n s).dbr = s.dbr := by
  unfold stepChannel; simp only; split <;> simp
@[simp] theorem stepChannel_p (n : Fin 8) :
    (stepChannel n s).p = s.p := by
  unfold stepChannel; simp only; split <;> simp
@[simp] theorem stepChannel_e (n : Fin 8) :
    (stepChannel n s).e = s.e := by
  unfold stepChannel; simp only; split <;> simp
@[simp] theorem stepChannel_sel (n : Fin 8) :
    (stepChannel n s).sel = s.sel := by
  unfold stepChannel; simp only; split <;> simp
@[simp] theorem stepChannel_stopped (n : Fin 8) :
    (stepChannel n s).stopped = s.stopped := by
  unfold stepChannel; simp only; split <;> simp
@[simp] theorem stepChannel_waiting (n : Fin 8) :
    (stepChannel n s).waiting = s.waiting := by
  unfold stepChannel; simp only; split <;> simp
@[simp] theorem stepChannel_moving (n : Fin 8) :
    (stepChannel n s).moving = s.moving := by
  unfold stepChannel; simp only; split <;> simp
@[simp] theorem stepChannel_mv (n : Fin 8) :
    (stepChannel n s).mv = s.mv := by
  unfold stepChannel; simp only; split <;> simp
@[simp] theorem stepChannel_fatal (n : Fin 8) :
    (stepChannel n s).fatal = s.fatal := by
  unfold stepChannel; simp only; split <;> simp
@[simp] theorem stepChannel_cycles (n : Fin 8) :
    (stepChannel n s).cycles = s.cycles := by
  unfold stepChannel; simp only; split <;> simp
@[simp] theorem stepChannel_nmiPending (n : Fin 8) :
    (stepChannel n s).nmiPending = s.nmiPending := by
  unfold stepChannel; simp only; split <;> simp
@[simp] theorem stepChannel_cfg (n : Fin 8) :
    (stepChannel n s).cfg = s.cfg := by
  unfold stepChannel; simp only; split <;> simp
@[simp] theorem stepChannel_inputs (n : Fin 8) :
    (stepChannel n s).inputs = s.inputs := by
  unfold stepChannel; simp only; split <;> simp
@[simp] theorem stepChannel_draws (n : Fin 8) :
    (stepChannel n s).draws = s.draws := by
  unfold stepChannel; simp only; split <;> simp
/-! Fields `dmaStep` does not change. -/

@[simp] theorem dmaStep_a  :
    (dmaStep s).a = s.a := by
  unfold dmaStep; split <;> simp
@[simp] theorem dmaStep_x  :
    (dmaStep s).x = s.x := by
  unfold dmaStep; split <;> simp
@[simp] theorem dmaStep_y  :
    (dmaStep s).y = s.y := by
  unfold dmaStep; split <;> simp
@[simp] theorem dmaStep_sp  :
    (dmaStep s).sp = s.sp := by
  unfold dmaStep; split <;> simp
@[simp] theorem dmaStep_d  :
    (dmaStep s).d = s.d := by
  unfold dmaStep; split <;> simp
@[simp] theorem dmaStep_pc  :
    (dmaStep s).pc = s.pc := by
  unfold dmaStep; split <;> simp
@[simp] theorem dmaStep_pbr  :
    (dmaStep s).pbr = s.pbr := by
  unfold dmaStep; split <;> simp
@[simp] theorem dmaStep_dbr  :
    (dmaStep s).dbr = s.dbr := by
  unfold dmaStep; split <;> simp
@[simp] theorem dmaStep_p  :
    (dmaStep s).p = s.p := by
  unfold dmaStep; split <;> simp
@[simp] theorem dmaStep_e  :
    (dmaStep s).e = s.e := by
  unfold dmaStep; split <;> simp
@[simp] theorem dmaStep_sel  :
    (dmaStep s).sel = s.sel := by
  unfold dmaStep; split <;> simp
@[simp] theorem dmaStep_stopped  :
    (dmaStep s).stopped = s.stopped := by
  unfold dmaStep; split <;> simp
@[simp] theorem dmaStep_waiting  :
    (dmaStep s).waiting = s.waiting := by
  unfold dmaStep; split <;> simp
@[simp] theorem dmaStep_moving  :
    (dmaStep s).moving = s.moving := by
  unfold dmaStep; split <;> simp
@[simp] theorem dmaStep_mv  :
    (dmaStep s).mv = s.mv := by
  unfold dmaStep; split <;> simp
@[simp] theorem dmaStep_fatal  :
    (dmaStep s).fatal = s.fatal := by
  unfold dmaStep; split <;> simp
@[simp] theorem dmaStep_cycles  :
    (dmaStep s).cycles = s.cycles := by
  unfold dmaStep; split <;> simp
@[simp] theorem dmaStep_nmiPending  :
    (dmaStep s).nmiPending = s.nmiPending := by
  unfold dmaStep; split <;> simp
@[simp] theorem dmaStep_cfg  :
    (dmaStep s).cfg = s.cfg := by
  unfold dmaStep; split <;> simp
@[simp] theorem dmaStep_inputs  :
    (dmaStep s).inputs = s.inputs := by
  unfold dmaStep; split <;> simp
@[simp] theorem dmaStep_draws  :
    (dmaStep s).draws = s.draws := by
  unfold dmaStep; split <;> simp
/-! Fields `moveStep` does not change. -/

@[simp] theorem moveStep_sp  :
    (moveStep s).sp = s.sp := by
  unfold moveStep; simp only; split <;> simp
@[simp] theorem moveStep_d  :
    (moveStep s).d = s.d := by
  unfold moveStep; simp only; split <;> simp
@[simp] theorem moveStep_pbr  :
    (moveStep s).pbr = s.pbr := by
  unfold moveStep; simp only; split <;> simp
@[simp] theorem moveStep_dbr  :
    (moveStep s).dbr = s.dbr := by
  unfold moveStep; simp only; split <;> simp
@[simp] theorem moveStep_p  :
    (moveStep s).p = s.p := by
  unfold moveStep; simp only; split <;> simp
@[simp] theorem moveStep_e  :
    (moveStep s).e = s.e := by
  unfold moveStep; simp only; split <;> simp
@[simp] theorem moveStep_sel  :
    (moveStep s).sel = s.sel := by
  unfold moveStep; simp only; split <;> simp
@[simp] theorem moveStep_stopped  :
    (moveStep s).stopped = s.stopped := by
  unfold moveStep; simp only; split <;> simp
@[simp] theorem moveStep_waiting  :
    (moveStep s).waiting = s.waiting := by
  unfold moveStep; simp only; split <;> simp
@[simp] theorem moveStep_mv  :
    (moveStep s).mv = s.mv := by
  unfold moveStep; simp only; split <;> simp
@[simp] theorem moveStep_fatal  :
    (moveStep s).fatal = s.fatal := by
  unfold moveStep; simp only; split <;> simp
@[simp] theorem moveStep_cycles  :
    (moveStep s).cycles = s.cycles := by
  unfold moveStep; simp only; split <;> simp
@[simp] theorem moveStep_nmiPending  :
    (moveStep s).nmiPending = s.nmiPending := by
  unfold moveStep; simp only; split <;> simp
@[simp] theorem moveStep_cfg  :
    (moveStep s).cfg = s.cfg := by
  unfold moveStep; simp only; split <;> simp
@[simp] theorem moveStep_inputs  :
    (moveStep s).inputs = s.inputs := by
  unfold moveStep; simp only; split <;> simp
@[simp] theorem moveStep_draws  :
    (moveStep s).draws = s.draws := by
  unfold moveStep; simp only; split <;> simp
/-! Fields `startMove` does not change. -/

@[simp] theorem startMove_sp (dir : MoveDir) (dst src : Byte) :
    (startMove dir dst src s).sp = s.sp := by
  simp [startMove]
@[simp] theorem startMove_d (dir : MoveDir) (dst src : Byte) :
    (startMove dir dst src s).d = s.d := by
  simp [startMove]
@[simp] theorem startMove_pbr (dir : MoveDir) (dst src : Byte) :
    (startMove dir dst src s).pbr = s.pbr := by
  simp [startMove]
@[simp] theorem startMove_p (dir : MoveDir) (dst src : Byte) :
    (startMove dir dst src s).p = s.p := by
  simp [startMove]
@[simp] theorem startMove_e (dir : MoveDir) (dst src : Byte) :
    (startMove dir dst src s).e = s.e := by
  simp [startMove]
@[simp] theorem startMove_sel (dir : MoveDir) (dst src : Byte) :
    (startMove dir dst src s).sel = s.sel := by
  simp [startMove]
@[simp] theorem startMove_stopped (dir : MoveDir) (dst src : Byte) :
    (startMove dir dst src s).stopped = s.stopped := by
  simp [startMove]
@[simp] theorem startMove_waiting (dir : MoveDir) (dst src : Byte) :
    (startMove dir dst src s).waiting = s.waiting := by
  simp [startMove]
@[simp] theorem startMove_fatal (dir : MoveDir) (dst src : Byte) :
    (startMove dir dst src s).fatal = s.fatal := by
  simp [startMove]
@[simp] theorem startMove_nmiPending (dir : MoveDir) (dst src : Byte) :
    (startMove dir dst src s).nmiPending = s.nmiPending := by
  simp [startMove]
@[simp] theorem startMove_cfg (dir : MoveDir) (dst src : Byte) :
    (startMove dir dst src s).cfg = s.cfg := by
  simp [startMove]
@[simp] theorem startMove_inputs (dir : MoveDir) (dst src : Byte) :
    (startMove dir dst src s).inputs = s.inputs := by
  simp [startMove]
@[simp] theorem startMove_draws (dir : MoveDir) (dst src : Byte) :
    (startMove dir dst src s).draws = s.draws := by
  simp [startMove]

variable {s}

/-! The channel of a step (rules R354, R355). -/

/-- With no channel active there is nothing to do. -/
theorem dmaStep_idle (h : s.dmaActive = false) : dmaStep s = s := by
  have : s.servedChannel = none := by simpa [State.dmaActive] using h
  simp [dmaStep, this]

theorem dmaStep_served {n : Fin 8} (h : s.servedChannel = some n) : dmaStep s = stepChannel n s := by
  simp [dmaStep, h]

/-- The served channel is active, and every channel of a lower number is not. -/
theorem servedChannel_spec {n : Fin 8} (h : s.servedChannel = some n) :
    s.ch[n].active = true ∧ ∀ k : Fin 8, k < n → s.ch[k].active = false := by
  obtain ⟨h1, as, bs, heq, h2⟩ := List.find?_eq_some_iff_append.mp h
  refine ⟨by simpa using h1, fun k hk => ?_⟩
  have : k ∈ as := by
    revert heq hk; clear h h1 h2
    intro heq hk
    have hs : ([0, 1, 2, 3, 4, 5, 6, 7] : List (Fin 8)).Pairwise (· < ·) := by decide
    rw [heq] at hs
    have hk' : k ∈ ([0, 1, 2, 3, 4, 5, 6, 7] : List (Fin 8)) := by clear heq hk hs; revert k; decide
    rw [heq] at hk'
    rcases List.mem_append.mp hk' with h | h
    · exact h
    · rcases List.mem_cons.mp h with rfl | h
      · exact absurd hk (lt_irrefl _)
      · have := List.rel_of_pairwise_cons (List.pairwise_append.mp hs).2.1 h
        exact absurd (hk.trans this) (lt_irrefl _)
  simpa using h2 k this

theorem mapAddress_bBus (o : Byte) : mapAddress (bBusAddr o) = .ppu := by revert o; decide

/-- A DMA transfer never starts DMA (rule R359): the B-bus holds no MDMAEN, and A-bus writes only store. -/
theorem transferByte_ch (c : Channel) : (transferByte c s).ch = s.ch := by
  unfold transferByte
  split
  · rw [busWrite_ch _ _ (isMdmaen_false_of_region (by rw [mapAddress_bBus]; decide))]; simp
  · simp

theorem transferByte_wf {c : Channel} (h : s.mem.wf) : (transferByte c s).mem.wf := by
  unfold transferByte
  split
  · exact busWrite_wf (by simpa only [busRead_mem] using h)
  · exact storeByte_wf (by simpa only [busRead_mem] using h)

theorem writeBackChannel_wf {n : Nat} {c : Channel} (h : s.mem.wf) : (writeBackChannel n c s).mem.wf :=
  setIreg_wf (setIreg_wf (setIreg_wf (setIreg_wf h)))

/-- The channels after the step of channel `n`. -/
theorem stepChannel_ch (n : Fin 8) : (stepChannel n s).ch = s.ch.set n.val s.ch[n].advance n.isLt := by
  unfold stepChannel
  simp only
  split <;> simp [transferByte_ch]

theorem advance_idx (c : Channel) : c.advance.idx < c.advance.format.pattern.length :=
  Nat.mod_lt _ (DmaFormat.pattern_pos _)

theorem stepChannel_channels (n : Fin 8) (h : ChannelInv s) : ChannelInv (stepChannel n s) := by
  intro k
  rw [stepChannel_ch]
  by_cases hk : n = k
  · subst hk
    simpa using advance_idx s.ch[n]
  · have : n.val ≠ k.val := fun h => hk (Fin.ext h)
    simpa [this] using h k

theorem stepChannel_wf {n : Fin 8} (h : s.mem.wf) : (stepChannel n s).mem.wf := by
  unfold stepChannel
  simp only
  split
  · exact writeBackChannel_wf (transferByte_wf h)
  · exact setIreg_wf (writeBackChannel_wf (transferByte_wf h))

/-- When the last channel ends MDMAEN is cleared (rule R360). -/
theorem stepChannel_mdmaen (n : Fin 8) (hw : s.mem.wf) : MdmaenInv (stepChannel n s) := by
  unfold stepChannel
  simp only
  split
  · rename_i h; intro h'; rw [h] at h'; simp at h'
  · intro _
    unfold State.ireg
    rw [State.setIreg_mem]
    rw [Memory.read_write_same]
    exact writeBackChannel_wf (transferByte_wf hw)

theorem dmaStep_busInv (h : BusInv s) : BusInv (dmaStep s) := by
  unfold dmaStep
  split
  · exact ⟨stepChannel_wf h.1, stepChannel_channels _ h.2.1, stepChannel_mdmaen _ h.1⟩
  · exact h

/-! Block-move steps (rule R337). -/

theorem moveStep_a : (moveStep s).a = s.a - 1 := by
  unfold moveStep; simp only; split <;> rfl

theorem moveStep_moving : (moveStep s).moving = (s.moving && s.a - 1 != 0xFFFF) := by
  unfold moveStep; simp only; split <;> simp_all

theorem moveStep_pc : (moveStep s).pc = if s.a - 1 = 0xFFFF then s.pc + 3 else s.pc := by
  unfold moveStep; simp only; split <;> simp_all

theorem moveStep_x : (moveStep s).x = stepIndex s.wX s.mv.dir s.x := by
  unfold moveStep; simp only; split <;> rfl

theorem moveStep_y : (moveStep s).y = stepIndex s.wX s.mv.dir s.y := by
  unfold moveStep; simp only; split <;> rfl

theorem moveStep_mem : (moveStep s).mem =
    (busWrite (addrOf s.mv.dst s.y) (busRead (addrOf s.mv.src s.x) s).1 (busRead (addrOf s.mv.src s.x) s).2).mem := by
  unfold moveStep; simp only; split <;> rfl

theorem moveStep_ch : (moveStep s).ch =
    (busWrite (addrOf s.mv.dst s.y) (busRead (addrOf s.mv.src s.x) s).1 (busRead (addrOf s.mv.src s.x) s).2).ch := by
  unfold moveStep; simp only; split <;> rfl

theorem moveStep_busInv (h : BusInv s) : BusInv (moveStep s) :=
  (busWrite_busInv (h.congr (by simp) (by simp))).congr moveStep_mem moveStep_ch

/-- An 8-bit index register keeps its zero high byte. -/
theorem highByte_stepIndex {W : Width} (h : W = .w8) (dir : MoveDir) (v : Word) :
    highByte (stepIndex W dir v) = highByte v := by
  subst h
  cases dir <;> simp [stepIndex, Width.put]

theorem moveStep_index (h : IndexInv s) : IndexInv (moveStep s) := by
  intro hx
  have hx' : s.p.x = true := by simpa using hx
  have hw : s.wX = .w8 := wX_w8_iff.mpr (.inr hx')
  rw [moveStep_x, moveStep_y, highByte_stepIndex hw, highByte_stepIndex hw]
  exact h hx'

end Sys2Proof.Machine
end

