-- ==== Sys2Proof/Laws/Operands.lean ====
section
/-! SUPPORT. The addressing-mode resolver and operand accesses: which fields each leaves alone, and what reading and
writing quiet addresses gives (rules R131 to R155). -/

namespace Sys2Proof.Machine

variable (s : State)

/-! Fields `dpPointer` does not change. -/

@[simp] theorem dpPointer_a (o : Nat) (l : Bool) :
    (dpPointer o l s).2.a = s.a := by
  simp [dpPointer]
@[simp] theorem dpPointer_x (o : Nat) (l : Bool) :
    (dpPointer o l s).2.x = s.x := by
  simp [dpPointer]
@[simp] theorem dpPointer_y (o : Nat) (l : Bool) :
    (dpPointer o l s).2.y = s.y := by
  simp [dpPointer]
@[simp] theorem dpPointer_sp (o : Nat) (l : Bool) :
    (dpPointer o l s).2.sp = s.sp := by
  simp [dpPointer]
@[simp] theorem dpPointer_d (o : Nat) (l : Bool) :
    (dpPointer o l s).2.d = s.d := by
  simp [dpPointer]
@[simp] theorem dpPointer_pc (o : Nat) (l : Bool) :
    (dpPointer o l s).2.pc = s.pc := by
  simp [dpPointer]
@[simp] theorem dpPointer_pbr (o : Nat) (l : Bool) :
    (dpPointer o l s).2.pbr = s.pbr := by
  simp [dpPointer]
@[simp] theorem dpPointer_dbr (o : Nat) (l : Bool) :
    (dpPointer o l s).2.dbr = s.dbr := by
  simp [dpPointer]
@[simp] theorem dpPointer_p (o : Nat) (l : Bool) :
    (dpPointer o l s).2.p = s.p := by
  simp [dpPointer]
@[simp] theorem dpPointer_e (o : Nat) (l : Bool) :
    (dpPointer o l s).2.e = s.e := by
  simp [dpPointer]
@[simp] theorem dpPointer_sel (o : Nat) (l : Bool) :
    (dpPointer o l s).2.sel = s.sel := by
  simp [dpPointer]
@[simp] theorem dpPointer_stopped (o : Nat) (l : Bool) :
    (dpPointer o l s).2.stopped = s.stopped := by
  simp [dpPointer]
@[simp] theorem dpPointer_waiting (o : Nat) (l : Bool) :
    (dpPointer o l s).2.waiting = s.waiting := by
  simp [dpPointer]
@[simp] theorem dpPointer_moving (o : Nat) (l : Bool) :
    (dpPointer o l s).2.moving = s.moving := by
  simp [dpPointer]
@[simp] theorem dpPointer_mv (o : Nat) (l : Bool) :
    (dpPointer o l s).2.mv = s.mv := by
  simp [dpPointer]
@[simp] theorem dpPointer_fatal (o : Nat) (l : Bool) :
    (dpPointer o l s).2.fatal = s.fatal := by
  simp [dpPointer]
@[simp] theorem dpPointer_cycles (o : Nat) (l : Bool) :
    (dpPointer o l s).2.cycles = s.cycles := by
  simp [dpPointer]
@[simp] theorem dpPointer_nmiPending (o : Nat) (l : Bool) :
    (dpPointer o l s).2.nmiPending = s.nmiPending := by
  simp [dpPointer]
@[simp] theorem dpPointer_ch (o : Nat) (l : Bool) :
    (dpPointer o l s).2.ch = s.ch := by
  simp [dpPointer]
@[simp] theorem dpPointer_mem (o : Nat) (l : Bool) :
    (dpPointer o l s).2.mem = s.mem := by
  simp [dpPointer]
@[simp] theorem dpPointer_cfg (o : Nat) (l : Bool) :
    (dpPointer o l s).2.cfg = s.cfg := by
  simp [dpPointer]
@[simp] theorem dpPointer_cart (o : Nat) (l : Bool) :
    (dpPointer o l s).2.cart = s.cart := by
  simp [dpPointer]
@[simp] theorem dpPointer_inputs (o : Nat) (l : Bool) :
    (dpPointer o l s).2.inputs = s.inputs := by
  simp [dpPointer]
@[simp] theorem dpPointer_draws (o : Nat) (l : Bool) :
    (dpPointer o l s).2.draws = s.draws := by
  simp [dpPointer]
/-! Fields `dpPointerLong` does not change. -/

@[simp] theorem dpPointerLong_a (o : Nat) :
    (dpPointerLong o s).2.a = s.a := by
  simp [dpPointerLong]
@[simp] theorem dpPointerLong_x (o : Nat) :
    (dpPointerLong o s).2.x = s.x := by
  simp [dpPointerLong]
@[simp] theorem dpPointerLong_y (o : Nat) :
    (dpPointerLong o s).2.y = s.y := by
  simp [dpPointerLong]
@[simp] theorem dpPointerLong_sp (o : Nat) :
    (dpPointerLong o s).2.sp = s.sp := by
  simp [dpPointerLong]
@[simp] theorem dpPointerLong_d (o : Nat) :
    (dpPointerLong o s).2.d = s.d := by
  simp [dpPointerLong]
@[simp] theorem dpPointerLong_pc (o : Nat) :
    (dpPointerLong o s).2.pc = s.pc := by
  simp [dpPointerLong]
@[simp] theorem dpPointerLong_pbr (o : Nat) :
    (dpPointerLong o s).2.pbr = s.pbr := by
  simp [dpPointerLong]
@[simp] theorem dpPointerLong_dbr (o : Nat) :
    (dpPointerLong o s).2.dbr = s.dbr := by
  simp [dpPointerLong]
@[simp] theorem dpPointerLong_p (o : Nat) :
    (dpPointerLong o s).2.p = s.p := by
  simp [dpPointerLong]
@[simp] theorem dpPointerLong_e (o : Nat) :
    (dpPointerLong o s).2.e = s.e := by
  simp [dpPointerLong]
@[simp] theorem dpPointerLong_sel (o : Nat) :
    (dpPointerLong o s).2.sel = s.sel := by
  simp [dpPointerLong]
@[simp] theorem dpPointerLong_stopped (o : Nat) :
    (dpPointerLong o s).2.stopped = s.stopped := by
  simp [dpPointerLong]
@[simp] theorem dpPointerLong_waiting (o : Nat) :
    (dpPointerLong o s).2.waiting = s.waiting := by
  simp [dpPointerLong]
@[simp] theorem dpPointerLong_moving (o : Nat) :
    (dpPointerLong o s).2.moving = s.moving := by
  simp [dpPointerLong]
@[simp] theorem dpPointerLong_mv (o : Nat) :
    (dpPointerLong o s).2.mv = s.mv := by
  simp [dpPointerLong]
@[simp] theorem dpPointerLong_fatal (o : Nat) :
    (dpPointerLong o s).2.fatal = s.fatal := by
  simp [dpPointerLong]
@[simp] theorem dpPointerLong_cycles (o : Nat) :
    (dpPointerLong o s).2.cycles = s.cycles := by
  simp [dpPointerLong]
@[simp] theorem dpPointerLong_nmiPending (o : Nat) :
    (dpPointerLong o s).2.nmiPending = s.nmiPending := by
  simp [dpPointerLong]
@[simp] theorem dpPointerLong_ch (o : Nat) :
    (dpPointerLong o s).2.ch = s.ch := by
  simp [dpPointerLong]
@[simp] theorem dpPointerLong_mem (o : Nat) :
    (dpPointerLong o s).2.mem = s.mem := by
  simp [dpPointerLong]
@[simp] theorem dpPointerLong_cfg (o : Nat) :
    (dpPointerLong o s).2.cfg = s.cfg := by
  simp [dpPointerLong]
@[simp] theorem dpPointerLong_cart (o : Nat) :
    (dpPointerLong o s).2.cart = s.cart := by
  simp [dpPointerLong]
@[simp] theorem dpPointerLong_inputs (o : Nat) :
    (dpPointerLong o s).2.inputs = s.inputs := by
  simp [dpPointerLong]
@[simp] theorem dpPointerLong_draws (o : Nat) :
    (dpPointerLong o s).2.draws = s.draws := by
  simp [dpPointerLong]
/-! Fields `resolve` does not change. -/

@[simp] theorem resolve_a (m : Mem) :
    (resolve m s).st.a = s.a := by
  cases m <;> simp [resolve, linear]
@[simp] theorem resolve_x (m : Mem) :
    (resolve m s).st.x = s.x := by
  cases m <;> simp [resolve, linear]
@[simp] theorem resolve_y (m : Mem) :
    (resolve m s).st.y = s.y := by
  cases m <;> simp [resolve, linear]
@[simp] theorem resolve_sp (m : Mem) :
    (resolve m s).st.sp = s.sp := by
  cases m <;> simp [resolve, linear]
@[simp] theorem resolve_d (m : Mem) :
    (resolve m s).st.d = s.d := by
  cases m <;> simp [resolve, linear]
@[simp] theorem resolve_pc (m : Mem) :
    (resolve m s).st.pc = s.pc := by
  cases m <;> simp [resolve, linear]
@[simp] theorem resolve_pbr (m : Mem) :
    (resolve m s).st.pbr = s.pbr := by
  cases m <;> simp [resolve, linear]
@[simp] theorem resolve_dbr (m : Mem) :
    (resolve m s).st.dbr = s.dbr := by
  cases m <;> simp [resolve, linear]
@[simp] theorem resolve_p (m : Mem) :
    (resolve m s).st.p = s.p := by
  cases m <;> simp [resolve, linear]
@[simp] theorem resolve_e (m : Mem) :
    (resolve m s).st.e = s.e := by
  cases m <;> simp [resolve, linear]
@[simp] theorem resolve_sel (m : Mem) :
    (resolve m s).st.sel = s.sel := by
  cases m <;> simp [resolve, linear]
@[simp] theorem resolve_stopped (m : Mem) :
    (resolve m s).st.stopped = s.stopped := by
  cases m <;> simp [resolve, linear]
@[simp] theorem resolve_waiting (m : Mem) :
    (resolve m s).st.waiting = s.waiting := by
  cases m <;> simp [resolve, linear]
@[simp] theorem resolve_moving (m : Mem) :
    (resolve m s).st.moving = s.moving := by
  cases m <;> simp [resolve, linear]
@[simp] theorem resolve_mv (m : Mem) :
    (resolve m s).st.mv = s.mv := by
  cases m <;> simp [resolve, linear]
@[simp] theorem resolve_fatal (m : Mem) :
    (resolve m s).st.fatal = s.fatal := by
  cases m <;> simp [resolve, linear]
@[simp] theorem resolve_cycles (m : Mem) :
    (resolve m s).st.cycles = s.cycles := by
  cases m <;> simp [resolve, linear]
@[simp] theorem resolve_nmiPending (m : Mem) :
    (resolve m s).st.nmiPending = s.nmiPending := by
  cases m <;> simp [resolve, linear]
@[simp] theorem resolve_ch (m : Mem) :
    (resolve m s).st.ch = s.ch := by
  cases m <;> simp [resolve, linear]
@[simp] theorem resolve_mem (m : Mem) :
    (resolve m s).st.mem = s.mem := by
  cases m <;> simp [resolve, linear]
@[simp] theorem resolve_cfg (m : Mem) :
    (resolve m s).st.cfg = s.cfg := by
  cases m <;> simp [resolve, linear]
@[simp] theorem resolve_cart (m : Mem) :
    (resolve m s).st.cart = s.cart := by
  cases m <;> simp [resolve, linear]
@[simp] theorem resolve_inputs (m : Mem) :
    (resolve m s).st.inputs = s.inputs := by
  cases m <;> simp [resolve, linear]
@[simp] theorem resolve_draws (m : Mem) :
    (resolve m s).st.draws = s.draws := by
  cases m <;> simp [resolve, linear]
/-! Fields `readData` does not change. -/

@[simp] theorem readData_a (W : Width) (r : Resolved) :
    (readData W r s).2.a = s.a := by
  cases W <;> simp [readData]
@[simp] theorem readData_x (W : Width) (r : Resolved) :
    (readData W r s).2.x = s.x := by
  cases W <;> simp [readData]
@[simp] theorem readData_y (W : Width) (r : Resolved) :
    (readData W r s).2.y = s.y := by
  cases W <;> simp [readData]
@[simp] theorem readData_sp (W : Width) (r : Resolved) :
    (readData W r s).2.sp = s.sp := by
  cases W <;> simp [readData]
@[simp] theorem readData_d (W : Width) (r : Resolved) :
    (readData W r s).2.d = s.d := by
  cases W <;> simp [readData]
@[simp] theorem readData_pc (W : Width) (r : Resolved) :
    (readData W r s).2.pc = s.pc := by
  cases W <;> simp [readData]
@[simp] theorem readData_pbr (W : Width) (r : Resolved) :
    (readData W r s).2.pbr = s.pbr := by
  cases W <;> simp [readData]
@[simp] theorem readData_dbr (W : Width) (r : Resolved) :
    (readData W r s).2.dbr = s.dbr := by
  cases W <;> simp [readData]
@[simp] theorem readData_p (W : Width) (r : Resolved) :
    (readData W r s).2.p = s.p := by
  cases W <;> simp [readData]
@[simp] theorem readData_e (W : Width) (r : Resolved) :
    (readData W r s).2.e = s.e := by
  cases W <;> simp [readData]
@[simp] theorem readData_sel (W : Width) (r : Resolved) :
    (readData W r s).2.sel = s.sel := by
  cases W <;> simp [readData]
@[simp] theorem readData_stopped (W : Width) (r : Resolved) :
    (readData W r s).2.stopped = s.stopped := by
  cases W <;> simp [readData]
@[simp] theorem readData_waiting (W : Width) (r : Resolved) :
    (readData W r s).2.waiting = s.waiting := by
  cases W <;> simp [readData]
@[simp] theorem readData_moving (W : Width) (r : Resolved) :
    (readData W r s).2.moving = s.moving := by
  cases W <;> simp [readData]
@[simp] theorem readData_mv (W : Width) (r : Resolved) :
    (readData W r s).2.mv = s.mv := by
  cases W <;> simp [readData]
@[simp] theorem readData_fatal (W : Width) (r : Resolved) :
    (readData W r s).2.fatal = s.fatal := by
  cases W <;> simp [readData]
@[simp] theorem readData_cycles (W : Width) (r : Resolved) :
    (readData W r s).2.cycles = s.cycles := by
  cases W <;> simp [readData]
@[simp] theorem readData_nmiPending (W : Width) (r : Resolved) :
    (readData W r s).2.nmiPending = s.nmiPending := by
  cases W <;> simp [readData]
@[simp] theorem readData_ch (W : Width) (r : Resolved) :
    (readData W r s).2.ch = s.ch := by
  cases W <;> simp [readData]
@[simp] theorem readData_mem (W : Width) (r : Resolved) :
    (readData W r s).2.mem = s.mem := by
  cases W <;> simp [readData]
@[simp] theorem readData_cfg (W : Width) (r : Resolved) :
    (readData W r s).2.cfg = s.cfg := by
  cases W <;> simp [readData]
@[simp] theorem readData_cart (W : Width) (r : Resolved) :
    (readData W r s).2.cart = s.cart := by
  cases W <;> simp [readData]
@[simp] theorem readData_inputs (W : Width) (r : Resolved) :
    (readData W r s).2.inputs = s.inputs := by
  cases W <;> simp [readData]
@[simp] theorem readData_draws (W : Width) (r : Resolved) :
    (readData W r s).2.draws = s.draws := by
  cases W <;> simp [readData]
/-! Fields `readSrc` does not change. -/

@[simp] theorem readSrc_a (src : Src) (W : Width) :
    (readSrc src W s).st.a = s.a := by
  cases src <;> simp [readSrc]
@[simp] theorem readSrc_x (src : Src) (W : Width) :
    (readSrc src W s).st.x = s.x := by
  cases src <;> simp [readSrc]
@[simp] theorem readSrc_y (src : Src) (W : Width) :
    (readSrc src W s).st.y = s.y := by
  cases src <;> simp [readSrc]
@[simp] theorem readSrc_sp (src : Src) (W : Width) :
    (readSrc src W s).st.sp = s.sp := by
  cases src <;> simp [readSrc]
@[simp] theorem readSrc_d (src : Src) (W : Width) :
    (readSrc src W s).st.d = s.d := by
  cases src <;> simp [readSrc]
@[simp] theorem readSrc_pc (src : Src) (W : Width) :
    (readSrc src W s).st.pc = s.pc := by
  cases src <;> simp [readSrc]
@[simp] theorem readSrc_pbr (src : Src) (W : Width) :
    (readSrc src W s).st.pbr = s.pbr := by
  cases src <;> simp [readSrc]
@[simp] theorem readSrc_dbr (src : Src) (W : Width) :
    (readSrc src W s).st.dbr = s.dbr := by
  cases src <;> simp [readSrc]
@[simp] theorem readSrc_p (src : Src) (W : Width) :
    (readSrc src W s).st.p = s.p := by
  cases src <;> simp [readSrc]
@[simp] theorem readSrc_e (src : Src) (W : Width) :
    (readSrc src W s).st.e = s.e := by
  cases src <;> simp [readSrc]
@[simp] theorem readSrc_sel (src : Src) (W : Width) :
    (readSrc src W s).st.sel = s.sel := by
  cases src <;> simp [readSrc]
@[simp] theorem readSrc_stopped (src : Src) (W : Width) :
    (readSrc src W s).st.stopped = s.stopped := by
  cases src <;> simp [readSrc]
@[simp] theorem readSrc_waiting (src : Src) (W : Width) :
    (readSrc src W s).st.waiting = s.waiting := by
  cases src <;> simp [readSrc]
@[simp] theorem readSrc_moving (src : Src) (W : Width) :
    (readSrc src W s).st.moving = s.moving := by
  cases src <;> simp [readSrc]
@[simp] theorem readSrc_mv (src : Src) (W : Width) :
    (readSrc src W s).st.mv = s.mv := by
  cases src <;> simp [readSrc]
@[simp] theorem readSrc_fatal (src : Src) (W : Width) :
    (readSrc src W s).st.fatal = s.fatal := by
  cases src <;> simp [readSrc]
@[simp] theorem readSrc_cycles (src : Src) (W : Width) :
    (readSrc src W s).st.cycles = s.cycles := by
  cases src <;> simp [readSrc]
@[simp] theorem readSrc_nmiPending (src : Src) (W : Width) :
    (readSrc src W s).st.nmiPending = s.nmiPending := by
  cases src <;> simp [readSrc]
@[simp] theorem readSrc_ch (src : Src) (W : Width) :
    (readSrc src W s).st.ch = s.ch := by
  cases src <;> simp [readSrc]
@[simp] theorem readSrc_mem (src : Src) (W : Width) :
    (readSrc src W s).st.mem = s.mem := by
  cases src <;> simp [readSrc]
@[simp] theorem readSrc_cfg (src : Src) (W : Width) :
    (readSrc src W s).st.cfg = s.cfg := by
  cases src <;> simp [readSrc]
@[simp] theorem readSrc_cart (src : Src) (W : Width) :
    (readSrc src W s).st.cart = s.cart := by
  cases src <;> simp [readSrc]
@[simp] theorem readSrc_inputs (src : Src) (W : Width) :
    (readSrc src W s).st.inputs = s.inputs := by
  cases src <;> simp [readSrc]
@[simp] theorem readSrc_draws (src : Src) (W : Width) :
    (readSrc src W s).st.draws = s.draws := by
  cases src <;> simp [readSrc]
/-! Fields `writeData` does not change. -/

@[simp] theorem writeData_a (W : Width) (r : Resolved) (v : BitVec W.bits) :
    (writeData W r v s).a = s.a := by
  unfold writeData; split <;> simp
@[simp] theorem writeData_x (W : Width) (r : Resolved) (v : BitVec W.bits) :
    (writeData W r v s).x = s.x := by
  unfold writeData; split <;> simp
@[simp] theorem writeData_y (W : Width) (r : Resolved) (v : BitVec W.bits) :
    (writeData W r v s).y = s.y := by
  unfold writeData; split <;> simp
@[simp] theorem writeData_sp (W : Width) (r : Resolved) (v : BitVec W.bits) :
    (writeData W r v s).sp = s.sp := by
  unfold writeData; split <;> simp
@[simp] theorem writeData_d (W : Width) (r : Resolved) (v : BitVec W.bits) :
    (writeData W r v s).d = s.d := by
  unfold writeData; split <;> simp
@[simp] theorem writeData_pc (W : Width) (r : Resolved) (v : BitVec W.bits) :
    (writeData W r v s).pc = s.pc := by
  unfold writeData; split <;> simp
@[simp] theorem writeData_pbr (W : Width) (r : Resolved) (v : BitVec W.bits) :
    (writeData W r v s).pbr = s.pbr := by
  unfold writeData; split <;> simp
@[simp] theorem writeData_dbr (W : Width) (r : Resolved) (v : BitVec W.bits) :
    (writeData W r v s).dbr = s.dbr := by
  unfold writeData; split <;> simp
@[simp] theorem writeData_p (W : Width) (r : Resolved) (v : BitVec W.bits) :
    (writeData W r v s).p = s.p := by
  unfold writeData; split <;> simp
@[simp] theorem writeData_e (W : Width) (r : Resolved) (v : BitVec W.bits) :
    (writeData W r v s).e = s.e := by
  unfold writeData; split <;> simp
@[simp] theorem writeData_sel (W : Width) (r : Resolved) (v : BitVec W.bits) :
    (writeData W r v s).sel = s.sel := by
  unfold writeData; split <;> simp
@[simp] theorem writeData_stopped (W : Width) (r : Resolved) (v : BitVec W.bits) :
    (writeData W r v s).stopped = s.stopped := by
  unfold writeData; split <;> simp
@[simp] theorem writeData_waiting (W : Width) (r : Resolved) (v : BitVec W.bits) :
    (writeData W r v s).waiting = s.waiting := by
  unfold writeData; split <;> simp
@[simp] theorem writeData_moving (W : Width) (r : Resolved) (v : BitVec W.bits) :
    (writeData W r v s).moving = s.moving := by
  unfold writeData; split <;> simp
@[simp] theorem writeData_mv (W : Width) (r : Resolved) (v : BitVec W.bits) :
    (writeData W r v s).mv = s.mv := by
  unfold writeData; split <;> simp
@[simp] theorem writeData_fatal (W : Width) (r : Resolved) (v : BitVec W.bits) :
    (writeData W r v s).fatal = s.fatal := by
  unfold writeData; split <;> simp
@[simp] theorem writeData_cycles (W : Width) (r : Resolved) (v : BitVec W.bits) :
    (writeData W r v s).cycles = s.cycles := by
  unfold writeData; split <;> simp
@[simp] theorem writeData_nmiPending (W : Width) (r : Resolved) (v : BitVec W.bits) :
    (writeData W r v s).nmiPending = s.nmiPending := by
  unfold writeData; split <;> simp
@[simp] theorem writeData_nmiFlag (W : Width) (r : Resolved) (v : BitVec W.bits) :
    (writeData W r v s).nmiFlag = s.nmiFlag := by
  unfold writeData; split <;> simp
@[simp] theorem writeData_cfg (W : Width) (r : Resolved) (v : BitVec W.bits) :
    (writeData W r v s).cfg = s.cfg := by
  unfold writeData; split <;> simp
@[simp] theorem writeData_inputs (W : Width) (r : Resolved) (v : BitVec W.bits) :
    (writeData W r v s).inputs = s.inputs := by
  unfold writeData; split <;> simp
@[simp] theorem writeData_draws (W : Width) (r : Resolved) (v : BitVec W.bits) :
    (writeData W r v s).draws = s.draws := by
  unfold writeData; split <;> simp
/-! Fields `writeBack` does not change. -/

@[simp] theorem writeBack_a (W : Width) (r : Resolved) (v : BitVec W.bits) :
    (writeBack W r v s).a = s.a := by
  unfold writeBack; split <;> simp
@[simp] theorem writeBack_x (W : Width) (r : Resolved) (v : BitVec W.bits) :
    (writeBack W r v s).x = s.x := by
  unfold writeBack; split <;> simp
@[simp] theorem writeBack_y (W : Width) (r : Resolved) (v : BitVec W.bits) :
    (writeBack W r v s).y = s.y := by
  unfold writeBack; split <;> simp
@[simp] theorem writeBack_sp (W : Width) (r : Resolved) (v : BitVec W.bits) :
    (writeBack W r v s).sp = s.sp := by
  unfold writeBack; split <;> simp
@[simp] theorem writeBack_d (W : Width) (r : Resolved) (v : BitVec W.bits) :
    (writeBack W r v s).d = s.d := by
  unfold writeBack; split <;> simp
@[simp] theorem writeBack_pc (W : Width) (r : Resolved) (v : BitVec W.bits) :
    (writeBack W r v s).pc = s.pc := by
  unfold writeBack; split <;> simp
@[simp] theorem writeBack_pbr (W : Width) (r : Resolved) (v : BitVec W.bits) :
    (writeBack W r v s).pbr = s.pbr := by
  unfold writeBack; split <;> simp
@[simp] theorem writeBack_dbr (W : Width) (r : Resolved) (v : BitVec W.bits) :
    (writeBack W r v s).dbr = s.dbr := by
  unfold writeBack; split <;> simp
@[simp] theorem writeBack_p (W : Width) (r : Resolved) (v : BitVec W.bits) :
    (writeBack W r v s).p = s.p := by
  unfold writeBack; split <;> simp
@[simp] theorem writeBack_e (W : Width) (r : Resolved) (v : BitVec W.bits) :
    (writeBack W r v s).e = s.e := by
  unfold writeBack; split <;> simp
@[simp] theorem writeBack_sel (W : Width) (r : Resolved) (v : BitVec W.bits) :
    (writeBack W r v s).sel = s.sel := by
  unfold writeBack; split <;> simp
@[simp] theorem writeBack_stopped (W : Width) (r : Resolved) (v : BitVec W.bits) :
    (writeBack W r v s).stopped = s.stopped := by
  unfold writeBack; split <;> simp
@[simp] theorem writeBack_waiting (W : Width) (r : Resolved) (v : BitVec W.bits) :
    (writeBack W r v s).waiting = s.waiting := by
  unfold writeBack; split <;> simp
@[simp] theorem writeBack_moving (W : Width) (r : Resolved) (v : BitVec W.bits) :
    (writeBack W r v s).moving = s.moving := by
  unfold writeBack; split <;> simp
@[simp] theorem writeBack_mv (W : Width) (r : Resolved) (v : BitVec W.bits) :
    (writeBack W r v s).mv = s.mv := by
  unfold writeBack; split <;> simp
@[simp] theorem writeBack_fatal (W : Width) (r : Resolved) (v : BitVec W.bits) :
    (writeBack W r v s).fatal = s.fatal := by
  unfold writeBack; split <;> simp
@[simp] theorem writeBack_cycles (W : Width) (r : Resolved) (v : BitVec W.bits) :
    (writeBack W r v s).cycles = s.cycles := by
  unfold writeBack; split <;> simp
@[simp] theorem writeBack_nmiPending (W : Width) (r : Resolved) (v : BitVec W.bits) :
    (writeBack W r v s).nmiPending = s.nmiPending := by
  unfold writeBack; split <;> simp
@[simp] theorem writeBack_nmiFlag (W : Width) (r : Resolved) (v : BitVec W.bits) :
    (writeBack W r v s).nmiFlag = s.nmiFlag := by
  unfold writeBack; split <;> simp
@[simp] theorem writeBack_cfg (W : Width) (r : Resolved) (v : BitVec W.bits) :
    (writeBack W r v s).cfg = s.cfg := by
  unfold writeBack; split <;> simp
@[simp] theorem writeBack_inputs (W : Width) (r : Resolved) (v : BitVec W.bits) :
    (writeBack W r v s).inputs = s.inputs := by
  unfold writeBack; split <;> simp
@[simp] theorem writeBack_draws (W : Width) (r : Resolved) (v : BitVec W.bits) :
    (writeBack W r v s).draws = s.draws := by
  unfold writeBack; split <;> simp
/-! Fields `jumpTarget` does not change. -/

@[simp] theorem jumpTarget_a (t : JumpTarget) :
    (jumpTarget t s).2.a = s.a := by
  cases t <;> simp [jumpTarget]
@[simp] theorem jumpTarget_x (t : JumpTarget) :
    (jumpTarget t s).2.x = s.x := by
  cases t <;> simp [jumpTarget]
@[simp] theorem jumpTarget_y (t : JumpTarget) :
    (jumpTarget t s).2.y = s.y := by
  cases t <;> simp [jumpTarget]
@[simp] theorem jumpTarget_sp (t : JumpTarget) :
    (jumpTarget t s).2.sp = s.sp := by
  cases t <;> simp [jumpTarget]
@[simp] theorem jumpTarget_d (t : JumpTarget) :
    (jumpTarget t s).2.d = s.d := by
  cases t <;> simp [jumpTarget]
@[simp] theorem jumpTarget_pc (t : JumpTarget) :
    (jumpTarget t s).2.pc = s.pc := by
  cases t <;> simp [jumpTarget]
@[simp] theorem jumpTarget_pbr (t : JumpTarget) :
    (jumpTarget t s).2.pbr = s.pbr := by
  cases t <;> simp [jumpTarget]
@[simp] theorem jumpTarget_dbr (t : JumpTarget) :
    (jumpTarget t s).2.dbr = s.dbr := by
  cases t <;> simp [jumpTarget]
@[simp] theorem jumpTarget_p (t : JumpTarget) :
    (jumpTarget t s).2.p = s.p := by
  cases t <;> simp [jumpTarget]
@[simp] theorem jumpTarget_e (t : JumpTarget) :
    (jumpTarget t s).2.e = s.e := by
  cases t <;> simp [jumpTarget]
@[simp] theorem jumpTarget_sel (t : JumpTarget) :
    (jumpTarget t s).2.sel = s.sel := by
  cases t <;> simp [jumpTarget]
@[simp] theorem jumpTarget_stopped (t : JumpTarget) :
    (jumpTarget t s).2.stopped = s.stopped := by
  cases t <;> simp [jumpTarget]
@[simp] theorem jumpTarget_waiting (t : JumpTarget) :
    (jumpTarget t s).2.waiting = s.waiting := by
  cases t <;> simp [jumpTarget]
@[simp] theorem jumpTarget_moving (t : JumpTarget) :
    (jumpTarget t s).2.moving = s.moving := by
  cases t <;> simp [jumpTarget]
@[simp] theorem jumpTarget_mv (t : JumpTarget) :
    (jumpTarget t s).2.mv = s.mv := by
  cases t <;> simp [jumpTarget]
@[simp] theorem jumpTarget_fatal (t : JumpTarget) :
    (jumpTarget t s).2.fatal = s.fatal := by
  cases t <;> simp [jumpTarget]
@[simp] theorem jumpTarget_cycles (t : JumpTarget) :
    (jumpTarget t s).2.cycles = s.cycles := by
  cases t <;> simp [jumpTarget]
@[simp] theorem jumpTarget_nmiPending (t : JumpTarget) :
    (jumpTarget t s).2.nmiPending = s.nmiPending := by
  cases t <;> simp [jumpTarget]
@[simp] theorem jumpTarget_ch (t : JumpTarget) :
    (jumpTarget t s).2.ch = s.ch := by
  cases t <;> simp [jumpTarget]
@[simp] theorem jumpTarget_mem (t : JumpTarget) :
    (jumpTarget t s).2.mem = s.mem := by
  cases t <;> simp [jumpTarget]
@[simp] theorem jumpTarget_cfg (t : JumpTarget) :
    (jumpTarget t s).2.cfg = s.cfg := by
  cases t <;> simp [jumpTarget]
@[simp] theorem jumpTarget_cart (t : JumpTarget) :
    (jumpTarget t s).2.cart = s.cart := by
  cases t <;> simp [jumpTarget]
@[simp] theorem jumpTarget_inputs (t : JumpTarget) :
    (jumpTarget t s).2.inputs = s.inputs := by
  cases t <;> simp [jumpTarget]
@[simp] theorem jumpTarget_draws (t : JumpTarget) :
    (jumpTarget t s).2.draws = s.draws := by
  cases t <;> simp [jumpTarget]
/-! Fields `longTarget` does not change. -/

@[simp] theorem longTarget_a (t : LongTarget) :
    (longTarget t s).2.a = s.a := by
  cases t <;> simp [longTarget]
@[simp] theorem longTarget_x (t : LongTarget) :
    (longTarget t s).2.x = s.x := by
  cases t <;> simp [longTarget]
@[simp] theorem longTarget_y (t : LongTarget) :
    (longTarget t s).2.y = s.y := by
  cases t <;> simp [longTarget]
@[simp] theorem longTarget_sp (t : LongTarget) :
    (longTarget t s).2.sp = s.sp := by
  cases t <;> simp [longTarget]
@[simp] theorem longTarget_d (t : LongTarget) :
    (longTarget t s).2.d = s.d := by
  cases t <;> simp [longTarget]
@[simp] theorem longTarget_pc (t : LongTarget) :
    (longTarget t s).2.pc = s.pc := by
  cases t <;> simp [longTarget]
@[simp] theorem longTarget_pbr (t : LongTarget) :
    (longTarget t s).2.pbr = s.pbr := by
  cases t <;> simp [longTarget]
@[simp] theorem longTarget_dbr (t : LongTarget) :
    (longTarget t s).2.dbr = s.dbr := by
  cases t <;> simp [longTarget]
@[simp] theorem longTarget_p (t : LongTarget) :
    (longTarget t s).2.p = s.p := by
  cases t <;> simp [longTarget]
@[simp] theorem longTarget_e (t : LongTarget) :
    (longTarget t s).2.e = s.e := by
  cases t <;> simp [longTarget]
@[simp] theorem longTarget_sel (t : LongTarget) :
    (longTarget t s).2.sel = s.sel := by
  cases t <;> simp [longTarget]
@[simp] theorem longTarget_stopped (t : LongTarget) :
    (longTarget t s).2.stopped = s.stopped := by
  cases t <;> simp [longTarget]
@[simp] theorem longTarget_waiting (t : LongTarget) :
    (longTarget t s).2.waiting = s.waiting := by
  cases t <;> simp [longTarget]
@[simp] theorem longTarget_moving (t : LongTarget) :
    (longTarget t s).2.moving = s.moving := by
  cases t <;> simp [longTarget]
@[simp] theorem longTarget_mv (t : LongTarget) :
    (longTarget t s).2.mv = s.mv := by
  cases t <;> simp [longTarget]
@[simp] theorem longTarget_fatal (t : LongTarget) :
    (longTarget t s).2.fatal = s.fatal := by
  cases t <;> simp [longTarget]
@[simp] theorem longTarget_cycles (t : LongTarget) :
    (longTarget t s).2.cycles = s.cycles := by
  cases t <;> simp [longTarget]
@[simp] theorem longTarget_nmiPending (t : LongTarget) :
    (longTarget t s).2.nmiPending = s.nmiPending := by
  cases t <;> simp [longTarget]
@[simp] theorem longTarget_ch (t : LongTarget) :
    (longTarget t s).2.ch = s.ch := by
  cases t <;> simp [longTarget]
@[simp] theorem longTarget_mem (t : LongTarget) :
    (longTarget t s).2.mem = s.mem := by
  cases t <;> simp [longTarget]
@[simp] theorem longTarget_cfg (t : LongTarget) :
    (longTarget t s).2.cfg = s.cfg := by
  cases t <;> simp [longTarget]
@[simp] theorem longTarget_cart (t : LongTarget) :
    (longTarget t s).2.cart = s.cart := by
  cases t <;> simp [longTarget]
@[simp] theorem longTarget_inputs (t : LongTarget) :
    (longTarget t s).2.inputs = s.inputs := by
  cases t <;> simp [longTarget]
@[simp] theorem longTarget_draws (t : LongTarget) :
    (longTarget t s).2.draws = s.draws := by
  cases t <;> simp [longTarget]

variable {s}

/-! Reads. -/

/-- Two quiet direct-page bytes read as a little-endian pointer, and nothing changes. -/
theorem dpPointer_quiet {o : Nat} {l : Bool} (h0 : Quiet s.cfg (dpAddr s o l)) (h1 : Quiet s.cfg (dpAddr s (o + 1) l)) :
    dpPointer o l s = (wordOf (s.peek (dpAddr s (o + 1) l)) (s.peek (dpAddr s o l)), s) := by
  simp only [dpPointer, busRead_quiet h0, busRead_quiet h1]

theorem dpPointerLong_quiet {o : Nat} (h0 : Quiet s.cfg (dpAddr s o false)) (h1 : Quiet s.cfg (dpAddr s (o + 1) false))
    (h2 : Quiet s.cfg (dpAddr s (o + 2) false)) :
    dpPointerLong o s = (addrOf (s.peek (dpAddr s (o + 2) false))
      (wordOf (s.peek (dpAddr s (o + 1) false)) (s.peek (dpAddr s o false))), s) := by
  simp only [dpPointerLong, dpPointer_quiet h0 h1, busRead_quiet h2]

/-- An 8-bit operand at a quiet address. -/
theorem readData_w8_quiet {r : Resolved} (h0 : Quiet s.cfg r.addr0) : readData .w8 r s = (s.peek r.addr0, s) := by
  simp only [readData, busRead_quiet h0]

/-- A 16-bit operand at quiet addresses: little-endian (rule R78). -/
theorem readData_w16_quiet {r : Resolved} (h0 : Quiet s.cfg r.addr0) (h1 : Quiet s.cfg r.addr1) :
    readData .w16 r s = (wordOf (s.peek r.addr1) (s.peek r.addr0), s) := by
  simp only [readData, busRead_quiet h0, busRead_quiet h1]

theorem readData_quiet {W : Width} {r : Resolved} (h : ∀ a ∈ r.bytes W, Quiet s.cfg a) :
    readData W r s = (W.ofBytes (s.peek r.addr0) (s.peek r.addr1), s) := by
  cases W
  · rw [readData_w8_quiet (h _ (by simp [Resolved.bytes])), Width.ofBytes_w8]
  · rw [readData_w16_quiet (h _ (by simp [Resolved.bytes])) (h _ (by simp [Resolved.bytes])), Width.ofBytes_w16]

/-! Neither the flag of RDNMI nor a PPU device other than an external one moves but by a read of it. -/

theorem readData_nmiFlag_le (W : Width) (r : Resolved) (h : (readData W r s).2.nmiFlag = true) : s.nmiFlag = true := by
  cases W <;> simp [readData, busRead_nmiFlag] at h <;> simp [h]

theorem dpPointer_nmiFlag_le (o : Nat) (l : Bool) (h : (dpPointer o l s).2.nmiFlag = true) : s.nmiFlag = true := by
  simp [dpPointer, busRead_nmiFlag] at h; simp [h]

theorem dpPointerLong_nmiFlag_le (o : Nat) (h : (dpPointerLong o s).2.nmiFlag = true) : s.nmiFlag = true := by
  simp only [dpPointerLong, busRead_nmiFlag, Bool.and_eq_true] at h
  exact dpPointer_nmiFlag_le _ _ h.1

theorem readWordW_nmiFlag_le (b : Byte) (o : Word) (h : (readWordW b o s).2.nmiFlag = true) : s.nmiFlag = true := by
  simp [readWordW, busRead_nmiFlag] at h; simp [h]

theorem readLongW_nmiFlag_le (b : Byte) (o : Word) (h : (readLongW b o s).2.nmiFlag = true) : s.nmiFlag = true := by
  simp only [readLongW, busRead_nmiFlag, Bool.and_eq_true] at h
  exact readWordW_nmiFlag_le _ _ h.1

theorem resolve_nmiFlag_le (m : Mem) (h : (resolve m s).st.nmiFlag = true) : s.nmiFlag = true := by
  cases m with
  | dpInd _ | dpXInd _ | dpIndY _ => exact dpPointer_nmiFlag_le _ _ h
  | dpIndLong _ | dpIndLongY _ => exact dpPointerLong_nmiFlag_le _ h
  | srIndY _ => exact readWordW_nmiFlag_le _ _ h
  | abs _ | absX _ | absY _ | long _ | longX _ | dp _ | dpX _ | dpY _ | sr _ => exact h

theorem readSrc_nmiFlag_le (src : Src) (W : Width) (h : (readSrc src W s).st.nmiFlag = true) : s.nmiFlag = true := by
  cases src
  · exact h
  · exact resolve_nmiFlag_le _ (readData_nmiFlag_le _ _ h)

theorem readWordW_ppuExt (b : Byte) (o : Word) (h : s.cfg.ppuExternal = false) : (readWordW b o s).2.ppuExt = s.ppuExt := by
  simp [readWordW, busRead_ppuExt, h]

theorem readLongW_ppuExt (b : Byte) (o : Word) (h : s.cfg.ppuExternal = false) : (readLongW b o s).2.ppuExt = s.ppuExt := by
  simp [readLongW, busRead_ppuExt, readWordW_ppuExt, h]

theorem dpPointer_ppuExt (o : Nat) (l : Bool) (h : s.cfg.ppuExternal = false) : (dpPointer o l s).2.ppuExt = s.ppuExt := by
  simp [dpPointer, busRead_ppuExt, h]

theorem dpPointerLong_ppuExt (o : Nat) (h : s.cfg.ppuExternal = false) : (dpPointerLong o s).2.ppuExt = s.ppuExt := by
  simp [dpPointerLong, busRead_ppuExt, dpPointer_ppuExt, h]

theorem resolve_ppuExt (m : Mem) (h : s.cfg.ppuExternal = false) : (resolve m s).st.ppuExt = s.ppuExt := by
  cases m <;> simp [resolve, linear, dpPointer_ppuExt, dpPointerLong_ppuExt, readWordW_ppuExt, h]

theorem readData_ppuExt (W : Width) (r : Resolved) (h : s.cfg.ppuExternal = false) :
    (readData W r s).2.ppuExt = s.ppuExt := by
  cases W <;> simp [readData, busRead_ppuExt, h]

theorem readSrc_ppuExt (src : Src) (W : Width) (h : s.cfg.ppuExternal = false) : (readSrc src W s).st.ppuExt = s.ppuExt := by
  cases src <;> simp [readSrc, readData_ppuExt, resolve_ppuExt, h]

/-! Writes. -/

theorem writeData_busInv {W : Width} {r : Resolved} {v : BitVec W.bits} (h : BusInv s) :
    BusInv (writeData W r v s) := by
  unfold writeData
  simp only
  split
  · exact busWrite_busInv h
  · exact busWrite_busInv (busWrite_busInv h)

theorem writeBack_busInv {W : Width} {r : Resolved} {v : BitVec W.bits} (h : BusInv s) :
    BusInv (writeBack W r v s) := by
  unfold writeBack
  split
  · exact busWrite_busInv h
  · exact busWrite_busInv (busWrite_busInv h)

theorem writeData_ppuExt (W : Width) (r : Resolved) (v : BitVec W.bits) (h : s.cfg.ppuExternal = false) :
    (writeData W r v s).ppuExt = s.ppuExt := by
  unfold writeData; split <;> simp [busWrite_ppuExt, h]

theorem writeBack_ppuExt (W : Width) (r : Resolved) (v : BitVec W.bits) (h : s.cfg.ppuExternal = false) :
    (writeBack W r v s).ppuExt = s.ppuExt := by
  unfold writeBack; split <;> simp [busWrite_ppuExt, h]

/-- A memory operand whose bytes are quiet, read after its pointer (rule R155). -/
theorem readSrc_mem_quiet {W : Width} {m : Mem} (h : ∀ a ∈ (resolve m s).bytes W, Quiet s.cfg a) :
    (readSrc (.mem m) W s).val = W.ofBytes (s.peek (resolve m s).addr0) (s.peek (resolve m s).addr1) ∧
      (readSrc (.mem m) W s).st = (resolve m s).st := by
  have hc : (resolve m s).st.cfg = s.cfg := by simp
  have hp : ∀ a ∈ (resolve m s).bytes W, (resolve m s).st.peek a = s.peek a := fun a ha => peek_congr (h a ha) (by simp) hc
  have hr := readData_quiet (s := (resolve m s).st) (by rw [hc]; exact h)
  cases W <;> simp_all [readSrc, Resolved.bytes]

end Sys2Proof.Machine
end

