-- ==== Sys2Proof/Laws/Frame.lean ====
section
/-! SUPPORT. Frames: from what an operation leaves alone to what a statement says of it, once for each shape of write. -/

namespace Sys2Proof.Machine

/-- A register write of width `W` is the write a statement names. -/
theorem written_put (W : Width) (old : Word) (v : BitVec W.bits) : Written W old (W.put old v) v := by
  cases W
  · exact ⟨lowByte_setLow _ _, highByte_setLow _ _⟩
  · rfl

/-- Where only parts other than the stored bytes change, every quiet address reads as before. -/
theorem frame_of {l : List Part} {s t : State} (h : ChangesOnly l s t) (hm : Part.mem ∉ l)
    (hc : Part.cfg ∉ l) : Frame l s t := by
  refine ⟨h, fun a hq _ _ => peek_congr hq (h .mem hm) (h .cfg hc)⟩

/-- What has been kept does not depend on the parts of the states other than the stored bytes and the configuration. -/
theorem kept_congr {l : List Addr} {s t : State} (s' t' : State) (hm : s'.mem = s.mem) (hc : s'.cfg = s.cfg)
    (hm2 : t'.mem = t.mem) (hc2 : t'.cfg = t.cfg) (hc3 : t.cfg = s.cfg)
    (h : MemoryKept l s' t') :
    MemoryKept l s t := by
  intro a hq hne hcart
  have h1 := h a (by rw [hc]; exact hq) (by rw [hc]; exact hne) (by rw [hc]; exact hcart)
  rw [peek_congr (s := s) (t := s') hq hm hc] at h1
  rw [← h1]
  exact (peek_congr (s := t') (t := t) (by rw [hc2, hc3]; exact hq) hm2.symm hc2.symm)

/-! Which parts each operation changes. -/

theorem ChangesOnly.mono {l l' : List Part} {s t : State} (h : ChangesOnly l s t) (hl : l ⊆ l') : ChangesOnly l' s t :=
  fun p hp => h p fun h' => hp (hl h')

theorem ChangesOnly.trans {l : List Part} {s t u : State} (h : ChangesOnly l s t) (h' : ChangesOnly l t u)
    (hc : Part.cfg ∉ l) : ChangesOnly l s u := by
  intro p hp
  have h1 := h p hp
  have h2 := h' p hp
  have hcfg : t.cfg = s.cfg := h .cfg hc
  cases p
  case ppuDevice =>
    intro he
    rw [h2 (by rw [hcfg]; exact he), h1 he]
  all_goals exact Eq.trans h2 h1

theorem busRead_changesOnly (a : Addr) (s : State) : ChangesOnly [.nmiFlag] s (busRead a s).2 := by
  intro p hp
  cases p
  case ppuDevice => exact busRead_ppuExt a
  case nmiFlag => simp at hp
  all_goals simp [Part.same]

theorem busWrite_changesOnly (a : Addr) (v : Byte) (s : State) : ChangesOnly [.mem, .ch, .cart] s (busWrite a v s) := by
  intro p hp
  cases p
  case ppuDevice => exact busWrite_ppuExt a v
  case mem => simp at hp
  case ch => simp at hp
  case cart => simp at hp
  all_goals simp [Part.same]

theorem storeByte_changesOnly (a : Addr) (v : Byte) (s : State) : ChangesOnly [.mem, .cart] s (storeByte a v s) := by
  intro p hp
  cases p
  case ppuDevice => exact storeByte_ppuExt a v
  case mem => simp at hp
  case cart => simp at hp
  all_goals simp [Part.same]

theorem readWordW_changesOnly (b : Byte) (o : Word) (s : State) : ChangesOnly [.nmiFlag] s (readWordW b o s).2 :=
  (busRead_changesOnly _ s).trans (busRead_changesOnly _ _) (by decide)

theorem readLongW_changesOnly (b : Byte) (o : Word) (s : State) : ChangesOnly [.nmiFlag] s (readLongW b o s).2 :=
  (readWordW_changesOnly _ _ s).trans (busRead_changesOnly _ _) (by decide)

theorem dpPointer_changesOnly (o : Nat) (l : Bool) (s : State) : ChangesOnly [.nmiFlag] s (dpPointer o l s).2 :=
  (busRead_changesOnly _ s).trans (busRead_changesOnly _ _) (by decide)

theorem resolve_changesOnly (m : Mem) (s : State) : ChangesOnly [.nmiFlag] s (resolve m s).st := by
  intro p hp
  cases p
  case ppuDevice => exact resolve_ppuExt m
  case nmiFlag => simp at hp
  all_goals simp [Part.same]

theorem readData_changesOnly (W : Width) (r : Resolved) (s : State) : ChangesOnly [.nmiFlag] s (readData W r s).2 := by
  intro p hp
  cases p
  case ppuDevice => exact readData_ppuExt W r
  case nmiFlag => simp at hp
  all_goals simp [Part.same]

theorem readSrc_changesOnly (src : Src) (W : Width) (s : State) : ChangesOnly [.nmiFlag] s (readSrc src W s).st := by
  intro p hp
  cases p
  case ppuDevice => exact readSrc_ppuExt src W
  case nmiFlag => simp at hp
  all_goals simp [Part.same]

/-- A new value of the stack pointer. -/
theorem setSp_changesOnly (v : Word) (s : State) : ChangesOnly [.sp] s { s with sp := v } := by
  intro p hp
  cases p
  case sp => simp at hp
  case ppuDevice => exact fun _ => rfl
  all_goals rfl

theorem push8_changesOnly (v : Byte) (s : State) : ChangesOnly [.mem, .ch, .cart, .sp] s (push8 v s) :=
  ((busWrite_changesOnly _ v s).mono (by decide)).trans ((setSp_changesOnly _ _).mono (by decide)) (by decide)

theorem push16_changesOnly (v : Word) (s : State) : ChangesOnly [.mem, .ch, .cart, .sp] s (push16 v s) :=
  (push8_changesOnly _ s).trans (push8_changesOnly _ _) (by decide)

theorem push8N_changesOnly (v : Byte) (s : State) : ChangesOnly [.mem, .ch, .cart, .sp] s (push8N v s) :=
  ((busWrite_changesOnly _ v s).mono (by decide)).trans ((setSp_changesOnly _ _).mono (by decide)) (by decide)

theorem push16N_changesOnly (v : Word) (s : State) : ChangesOnly [.mem, .ch, .cart, .sp] s (push16N v s) :=
  (push8N_changesOnly _ s).trans (push8N_changesOnly _ _) (by decide)

theorem pushW_changesOnly (W : Width) (v : BitVec W.bits) (s : State) :
    ChangesOnly [.mem, .ch, .cart, .sp] s (pushW W v s) := by
  cases W
  · exact push8_changesOnly v s
  · exact push16_changesOnly v s

theorem pull8_changesOnly (s : State) : ChangesOnly [.sp, .nmiFlag] s (pull8 s).2 :=
  ((setSp_changesOnly _ s).mono (by decide)).trans ((busRead_changesOnly _ _).mono (by decide)) (by decide)

theorem pull16_changesOnly (s : State) : ChangesOnly [.sp, .nmiFlag] s (pull16 s).2 :=
  (pull8_changesOnly s).trans (pull8_changesOnly _) (by decide)

theorem pull8N_changesOnly (s : State) : ChangesOnly [.sp, .nmiFlag] s (pull8N s).2 :=
  ((setSp_changesOnly _ s).mono (by decide)).trans ((busRead_changesOnly _ _).mono (by decide)) (by decide)

theorem pull16N_changesOnly (s : State) : ChangesOnly [.sp, .nmiFlag] s (pull16N s).2 :=
  (pull8N_changesOnly s).trans (pull8N_changesOnly _) (by decide)

theorem pullW_changesOnly (W : Width) (s : State) : ChangesOnly [.sp, .nmiFlag] s (pullW W s).2 := by
  cases W
  · exact pull8_changesOnly s
  · exact pull16_changesOnly s

theorem fixSH_changesOnly (s : State) : ChangesOnly [.sp] s (fixSH s) := by
  unfold fixSH
  split
  · exact setSp_changesOnly _ s
  · intro p _
    cases p
    case ppuDevice => exact fun _ => rfl
    all_goals rfl

theorem spend_changesOnly (n : Nat) (s : State) : ChangesOnly [.cycles] s (spend n s) := by
  intro p hp
  cases p
  case cycles => simp at hp
  case ppuDevice => intro h; simp [spend, h]
  all_goals rfl

theorem report_changesOnly (i : Instr) (info : CycleInfo) (s0 s : State) : ChangesOnly [.cycles] s (report i info s0 s) :=
  spend_changesOnly _ s

theorem finish_changesOnly (i : Instr) (info : CycleInfo) (s0 s : State) :
    ChangesOnly [.pc, .cycles] s (finish i info s0 s) := by
  intro p hp
  cases p
  case pc => simp at hp
  case cycles => simp at hp
  case ppuDevice => intro h; simp [finish, spend, h]
  all_goals rfl

theorem setPbyte_changesOnly (v : Byte) (s : State) :
    ChangesOnly [.flagN, .flagV, .flagM, .flagX, .flagD, .flagI, .flagZ, .flagC, .sp, .x, .y] s (setPbyte v s) := by
  intro p hp
  cases p <;> first | (exact absurd hp (by decide)) | simp [Part.same]

/-! Several byte writes, one after the other. -/

@[simp] theorem writeAll_nil (s : State) : writeAll [] s = s := rfl
@[simp] theorem writeAll_cons (p : Addr × Byte) (l : List (Addr × Byte)) (s : State) :
    writeAll (p :: l) s = writeAll l (busWrite p.1 p.2 s) := rfl

theorem writeAll_append (l m : List (Addr × Byte)) (s : State) : writeAll (l ++ m) s = writeAll m (writeAll l s) := by
  simp [writeAll]

/-- An operand write is the writes of its bytes, the low one first. -/
theorem writeData_eq (W : Width) (r : Resolved) (v : BitVec W.bits) (s : State) :
    writeData W r v s = writeAll (r.cells W v) s := by
  cases W <;> rfl

/-- A write-back is the writes of its bytes, the high one first. -/
theorem writeBack_eq (W : Width) (r : Resolved) (v : BitVec W.bits) (s : State) :
    writeBack W r v s = writeAll (r.cells W v).reverse s := by
  cases W <;> rfl

theorem Resolved.cells_fst (r : Resolved) (W : Width) (v : BitVec W.bits) : (r.cells W v).map Prod.fst = r.bytes W := by
  cases W <;> rfl

theorem writeAll_changesOnly : ∀ (l : List (Addr × Byte)) (s : State), ChangesOnly [.mem, .ch, .cart] s (writeAll l s)
  | [], s => by
    intro p _
    cases p
    case ppuDevice => exact fun _ => rfl
    all_goals rfl
  | p :: l, s => (busWrite_changesOnly p.1 p.2 s).trans (writeAll_changesOnly l _) (by decide)

theorem writeAll_cfg (l : List (Addr × Byte)) (s : State) : (writeAll l s).cfg = s.cfg :=
  writeAll_changesOnly l s .cfg (by decide)

theorem writeAll_sp (l : List (Addr × Byte)) (s : State) : (writeAll l s).sp = s.sp :=
  writeAll_changesOnly l s .sp (by decide)

theorem writeAll_e (l : List (Addr × Byte)) (s : State) : (writeAll l s).e = s.e :=
  writeAll_changesOnly l s .e (by decide)

theorem writeAll_kept : ∀ (l : List (Addr × Byte)) (s : State), MemoryKept (l.map Prod.fst) s (writeAll l s)
  | [], _, _, _, _, _ => rfl
  | p :: l, s, b, hq, hne, hc => by
    rw [writeAll_cons, writeAll_kept l _ b (by simpa using hq)
      (fun c hl => by simpa using hne c (List.mem_cons_of_mem _ hl))
      (fun hb c hl => by simpa using hc hb c (List.mem_cons_of_mem _ hl))]
    exact peek_busWrite_kept hq (hne _ List.mem_cons_self) fun hb => hc hb _ List.mem_cons_self

theorem writeAll_ch : ∀ (l : List (Addr × Byte)) (s : State), (∀ a ∈ l.map Prod.fst, isMdmaen a = false) →
    (writeAll l s).ch = s.ch
  | [], _, _ => rfl
  | p :: l, s, h => by
    rw [writeAll_cons, writeAll_ch l _ (fun a ha => h a (List.mem_cons_of_mem _ ha)),
      busWrite_ch _ _ (h _ List.mem_cons_self)]

theorem writeAll_cart : ∀ (l : List (Addr × Byte)) (s : State), (∀ a ∈ l.map Prod.fst, ¬ WritesCartridge s.cfg a) →
    (writeAll l s).cart = s.cart
  | [], _, _ => rfl
  | p :: l, s, h => by
    rw [writeAll_cons, writeAll_cart l _ (fun a ha => by simpa using h a (List.mem_cons_of_mem _ ha)),
      busWrite_cart _ _ (h _ List.mem_cons_self)]

/-! The start of DMA by one of the writes (rules R75, R352). -/

theorem toNat_channelReg (n : Fin 8) {r : Nat} (hr : r < 16) : (channelReg n r).toNat = 0x4300 + 0x10 * n.val + r := by
  have hn := n.isLt
  unfold channelReg
  rw [toNat_addrOf, BitVec.toNat_ofNat, Nat.mod_eq_of_lt (by omega)]
  have : BitVec.toNat (0x00 : Byte) = 0 := rfl
  omega

theorem mapAddress_channelReg (n : Fin 8) {r : Nat} (hr : r < 16) : mapAddress (channelReg n r) = .cpu := by
  have hn := n.isLt
  rw [mapAddress_low_bank (toNat_channelReg n hr) (by omega), if_neg (by omega), if_neg (by omega), if_neg (by omega),
    if_pos (by omega)]

/-- The key of a channel's register. -/
theorem storeKey_channelReg (cfg : Cfg) (n : Fin 8) {r : Nat} (hr : r < 16) :
    storeKey cfg (channelReg n r) = channelKey n.val r := by
  have hn := n.isLt
  unfold storeKey
  rw [mapAddress_channelReg n hr]
  simp only [toNat_channelReg n hr, channelKey]
  omega

/-- What a latched channel reads: its registers of number below 7. -/
theorem latchChannel_congr {s t : State} (n : Nat) (h : ∀ r, r < 7 → t.ireg (channelKey n r) = s.ireg (channelKey n r)) :
    t.latchChannel n = s.latchChannel n := by
  unfold State.latchChannel
  rw [h 0 (by omega), h 1 (by omega), h 2 (by omega), h 3 (by omega), h 4 (by omega), h 5 (by omega), h 6 (by omega)]

/-- The channels after a write to MDMAEN depend on the channels and on their registers alone. -/
theorem dmaStart_ch_congr {s t : State} (v : Byte) (hch : t.ch = s.ch)
    (h : ∀ (n : Fin 8) (r : Nat), r < 7 → t.ireg (channelKey n.val r) = s.ireg (channelKey n.val r)) :
    (dmaStart v t).ch = (dmaStart v s).ch := by
  unfold dmaStart
  simp only [hch]
  congr 1
  funext n
  rw [latchChannel_congr n.val (h n)]

/-- A write that is no channel's register leaves those registers alone. -/
theorem storeByte_channelKey {s : State} {a : Addr} (v : Byte) (hs : Stores s.cfg a) {n : Fin 8} {r : Nat} (hr : r < 7)
    (h : ¬ SameByte s.cfg a (channelReg n r)) :
    (storeByte a v s).ireg (channelKey n.val r) = s.ireg (channelKey n.val r) := by
  unfold State.ireg
  rw [storeByte_stores v hs]
  refine Memory.read_write_other _ _ fun hk => h ?_
  unfold SameByte
  rw [storeKey_channelReg s.cfg n (by omega), hk]

theorem busWrite_mdmaen {s : State} {a : Addr} (v : Byte) (h : isMdmaen a = true) :
    (busWrite a v s).ch = (dmaStart v (storeByte a v s)).ch := by
  simp [busWrite, h]

/-- What a write of `v` to MDMAEN does to the channels is the same after another write that reaches neither MDMAEN nor a
channel's register. -/
theorem busWrite_ch_after {s : State} {a b : Addr} (v u : Byte) (ha : isMdmaen a = true) (hb : isMdmaen b = false)
    (hs : Stores s.cfg b) (hoff : ∀ (n : Fin 8) (r : Nat), r < 7 → ¬ SameByte s.cfg b (channelReg n r)) :
    (busWrite a v (busWrite b u s)).ch = (busWrite a v s).ch := by
  have hk := storeKey_mdmaen (cfg := s.cfg) ha
  have hreg : ∀ t : State, t.cfg = s.cfg → ∀ (n : Fin 8) (r : Nat), r < 7 →
      (storeByte a v t).ireg (channelKey n.val r) = t.ireg (channelKey n.val r) := by
    intro t ht n r hr
    refine storeByte_channelKey v (by rw [ht]; exact hk.2) hr fun h => ?_
    unfold SameByte at h
    rw [storeKey_channelReg t.cfg n (by omega), (storeKey_mdmaen ha).1] at h
    exact channelKey_ne_mdmaen _ _ h
  rw [busWrite_mdmaen v ha, busWrite_mdmaen v ha, busWrite_of_not_mdmaen u hb]
  refine dmaStart_ch_congr v (by simp) fun n r hr => ?_
  rw [hreg _ (by simp) n r hr, hreg s rfl n r hr]
  exact storeByte_channelKey u hs hr (hoff n r hr)

theorem sameByte_of_mdmaen {cfg : Cfg} {a b : Addr} (ha : isMdmaen a = true) (hb : isMdmaen b = true) : SameByte cfg a b := by
  unfold SameByte
  rw [(storeKey_mdmaen ha).1, (storeKey_mdmaen hb).1]

/-- Writes of distinct bytes, one of them MDMAEN and none a channel's register, start DMA as that one alone does. -/
theorem writeAll_starts : ∀ (l : List (Addr × Byte)) (s : State), (∀ p ∈ l, Stores s.cfg p.1) →
    l.Pairwise (fun p q => ¬ SameByte s.cfg p.1 q.1) →
    (∀ p ∈ l, ∀ (n : Fin 8) (r : Nat), r < 7 → ¬ SameByte s.cfg p.1 (channelReg n r)) →
    ∀ p ∈ l, isMdmaen p.1 = true → (writeAll l s).ch = (busWrite p.1 p.2 s).ch
  | [], _, _, _, _, _, hp, _ => absurd hp List.not_mem_nil
  | q :: l, s, hs, hd, ho, p, hp, hm => by
    rw [List.pairwise_cons] at hd
    rw [writeAll_cons]
    rcases List.mem_cons.mp hp with rfl | hp
    · refine writeAll_ch l _ fun a ha => ?_
      obtain ⟨r, hr, rfl⟩ := List.mem_map.mp ha
      by_contra hc
      exact hd.1 r hr (sameByte_of_mdmaen hm (by simpa using hc))
    · have hq : isMdmaen q.1 = false := by
        by_contra hc
        exact hd.1 p hp (sameByte_of_mdmaen (by simpa using hc) hm)
      rw [writeAll_starts l (busWrite q.1 q.2 s) (fun r hr => by simpa using hs r (List.mem_cons_of_mem _ hr))
        (by simpa using hd.2) (fun r hr => by simpa using ho r (List.mem_cons_of_mem _ hr)) p hp hm]
      exact busWrite_ch_after p.2 q.2 hm hq (hs _ List.mem_cons_self) (ho _ List.mem_cons_self)

theorem writeAll_peek : ∀ (l : List (Addr × Byte)) (s : State), MemoryInv s → (∀ p ∈ l, Stores s.cfg p.1) →
    l.Pairwise (fun p q => ¬ SameByte s.cfg p.1 q.1) → ∀ p ∈ l, (writeAll l s).peek p.1 = p.2
  | [], _, _, _, _, _, hp => absurd hp List.not_mem_nil
  | q :: l, s, hw, hs, hd, p, hp => by
    rw [List.pairwise_cons] at hd
    rw [writeAll_cons]
    rcases List.mem_cons.mp hp with rfl | hp
    · have hq : Stores s.cfg p.1 := hs _ List.mem_cons_self
      rw [writeAll_kept l _ p.1 (by simpa using hq.1) (fun c hc => by
        obtain ⟨r, hr, rfl⟩ := List.mem_map.mp hc
        intro _
        simpa using hd.1 r hr) (fun h => absurd h hq.2.2)]
      exact peek_busWrite_same hw hq
    · exact writeAll_peek l _ (busWrite_wf hw) (fun r hr => by simpa using hs r (List.mem_cons_of_mem _ hr))
        (by simpa using hd.2) p hp

theorem writeAll_stored (l : List (Addr × Byte)) (s : State) : StoredBytes l s (writeAll l s) :=
  ⟨⟨rfl, rfl, rfl⟩, writeAll_peek l s⟩

/-- What a write leaves in the stored bytes, the channels and the cartridge depends on them and the configuration alone. -/
theorem busWrite_congr {s t : State} (a : Addr) (v : Byte) (hm : t.mem = s.mem) (hch : t.ch = s.ch) (hk : t.cart = s.cart)
    (hc : t.cfg = s.cfg) :
    (busWrite a v t).mem = (busWrite a v s).mem ∧ (busWrite a v t).ch = (busWrite a v s).ch ∧
      (busWrite a v t).cart = (busWrite a v s).cart := by
  have h : (storeByte a v t).mem = (storeByte a v s).mem ∧ (storeByte a v t).cart = (storeByte a v s).cart := by
    unfold storeByte cartWrite
    rw [hm, hc, hk]
    split <;> (try split) <;> first | exact ⟨rfl, hk⟩ | exact ⟨hm, hk⟩ | exact ⟨rfl, rfl⟩
  have h' : (storeByte a v t).ch = (storeByte a v s).ch := by simp [hch]
  unfold busWrite
  split
  · refine ⟨h.1, ?_, h.2⟩
    exact dmaStart_ch_congr v h' fun n r _ => by simp only [State.ireg, h.1]
  · exact ⟨h.1, h', h.2⟩

theorem writeAll_congr : ∀ (l : List (Addr × Byte)) {s t : State}, t.mem = s.mem → t.ch = s.ch → t.cart = s.cart →
    t.cfg = s.cfg → (writeAll l t).mem = (writeAll l s).mem ∧ (writeAll l t).ch = (writeAll l s).ch ∧
      (writeAll l t).cart = (writeAll l s).cart
  | [], _, _, hm, hch, hk, _ => ⟨hm, hch, hk⟩
  | p :: l, s, t, hm, hch, hk, hc => by
    obtain ⟨h1, h2, h3⟩ := busWrite_congr p.1 p.2 hm hch hk hc
    exact writeAll_congr l h1 h2 h3 (by simpa using hc)

/-! From the writes to the frame and the bytes a statement names. -/

/-- A state that ends with the bytes, the channels and the cartridge of a list of writes has the frame of a store, given
which parts it changes. -/
theorem storeFrame_of {l : List Part} {b : List (Addr × Byte)} {s t : State} (hc : Part.cfg ∉ l)
    (h : ChangesOnly (.mem :: .ch :: .cart :: l) s t) (hm : t.mem = (writeAll b s).mem) (hch : t.ch = (writeAll b s).ch)
    (hk : t.cart = (writeAll b s).cart) : StoreFrame l (b.map Prod.fst) s t := by
  have hcfg : t.cfg = s.cfg := h .cfg (by simp [hc])
  refine ⟨h, fun a hq hne hcart => ?_, fun hd => by rw [hch, writeAll_ch b s hd], fun hd => by rw [hk, writeAll_cart b s hd]⟩
  rw [← writeAll_kept b s a hq hne hcart]
  exact peek_congr (by rw [writeAll_cfg]; exact hq) hm (by rw [hcfg, writeAll_cfg])

/-- A frame does not depend on the order of the addresses. -/
theorem StoreFrame.perm {l : List Part} {b c : List Addr} {s t : State} (hp : b.Perm c) (h : StoreFrame l b s t) :
    StoreFrame l c s t :=
  ⟨h.1, fun a hq hne hk => h.2.1 a hq (fun x hx => hne x (hp.mem_iff.mp hx)) fun ha x hx => hk ha x (hp.mem_iff.mp hx),
    fun hd => h.2.2.1 fun x hx => hd x (hp.mem_iff.mp hx), fun hd => h.2.2.2 fun x hx => hd x (hp.mem_iff.mp hx)⟩

/-- What has been stored does not depend on the parts of the states other than the stored bytes, the channels, the
cartridge and the configuration. -/
theorem stored_congr {l : List (Addr × Byte)} {s t : State} (s' t' : State) (hm : s'.mem = s.mem) (hch : s'.ch = s.ch)
    (hk : s'.cart = s.cart) (hc : s'.cfg = s.cfg) (hm2 : t'.mem = t.mem) (hch2 : t'.ch = t.ch) (hk2 : t'.cart = t.cart)
    (hc2 : t'.cfg = t.cfg) (hc3 : t.cfg = s.cfg) (h : StoredBytes l s' t') : StoredBytes l s t := by
  obtain ⟨⟨h1, h2, h3⟩, h4⟩ := h
  obtain ⟨e1, e2, e3⟩ := writeAll_congr l hm hch hk hc
  refine ⟨⟨by rw [← hm2, h1, e1], by rw [← hch2, h2, e2], by rw [← hk2, h3, e3]⟩, fun hw hs hd p hp => ?_⟩
  rw [← h4 (by unfold MemoryInv; rw [hm]; exact hw) (by rw [hc]; exact hs) (by rw [hc]; exact hd) p hp]
  exact (peek_congr (s := t') (t := t) (by rw [hc2, hc3]; exact (hs p hp).1) hm2.symm hc2.symm)

/-- A state that ends with the bytes, the channels and the cartridge of a list of writes has them stored. -/
theorem storedBytes_of {b : List (Addr × Byte)} {s t : State} (hm : t.mem = (writeAll b s).mem)
    (hch : t.ch = (writeAll b s).ch) (hk : t.cart = (writeAll b s).cart) (hc : t.cfg = s.cfg) : StoredBytes b s t :=
  stored_congr s (writeAll b s) rfl rfl rfl rfl hm.symm hch.symm hk.symm (by rw [hc, writeAll_cfg]) hc (writeAll_stored b s)

theorem writeData_changesOnly (W : Width) (r : Resolved) (v : BitVec W.bits) (s : State) :
    ChangesOnly [.mem, .ch, .cart] s (writeData W r v s) := by
  rw [writeData_eq]; exact writeAll_changesOnly _ s

theorem writeBack_changesOnly (W : Width) (r : Resolved) (v : BitVec W.bits) (s : State) :
    ChangesOnly [.mem, .ch, .cart] s (writeBack W r v s) := by
  rw [writeBack_eq]; exact writeAll_changesOnly _ s

/-! What the DMA controller's operations leave alone (rules R355, R359, R360). -/

theorem MemoryKept.mono {l m : List Addr} {s t : State} (hs : l ⊆ m) (h : MemoryKept l s t) : MemoryKept m s t :=
  fun a hq hne hc => h a hq (fun b hb => hne b (hs hb)) fun x b hb => hc x b (hs hb)

theorem MemoryKept.trans {l m : List Addr} {s t u : State} (hc : t.cfg = s.cfg) (h : MemoryKept l s t)
    (h' : MemoryKept m t u) : MemoryKept (l ++ m) s u := by
  intro a hq hne hk
  rw [h' a (by rw [hc]; exact hq) (fun b hb => by rw [hc]; exact hne b (by simp [hb]))
      (fun x b hb => by rw [hc]; exact hk x b (by simp [hb])),
    h a hq (fun b hb => hne b (by simp [hb])) fun x b hb => hk x b (by simp [hb])]

theorem busRead_kept (a : Addr) (s : State) : MemoryKept [] s (busRead a s).2 :=
  fun _ hq _ _ => peek_congr hq (by simp) (by simp)

theorem storeByte_kept (a : Addr) (v : Byte) (s : State) : MemoryKept [a] s (storeByte a v s) :=
  fun _ hq hne hc => peek_storeByte_kept hq (hne a (by simp)) fun h => hc h a (by simp)

theorem busWrite_kept (a : Addr) (v : Byte) (s : State) : MemoryKept [a] s (busWrite a v s) :=
  fun _ hq hne hc => peek_busWrite_kept hq (hne a (by simp)) fun h => hc h a (by simp)

theorem setIreg_kept {s : State} {b : Addr} {k : Nat} (v : Byte) (hk : storeKey s.cfg b = k) (hs : Stores s.cfg b) :
    MemoryKept [b] s (s.setIreg k v) := by
  intro a hq hne _
  refine peek_of_stored hq ?_ rfl
  unfold State.stored State.setIreg
  refine Memory.read_write_other _ _ ?_
  rw [← hk]
  exact hne b (by simp) hs

theorem stores_channelReg (cfg : Cfg) (n : Fin 8) {r : Nat} (hr : r < 16) : Stores cfg (channelReg n r) := by
  have hn := n.isLt
  have hv := toNat_channelReg n hr
  have hm := mapAddress_channelReg n hr
  refine ⟨⟨?_, by simp [hm]⟩, by simp [hm], by simp [hm]⟩
  unfold isRdnmi
  simp only [hv, Bool.and_eq_false_iff, decide_eq_false_iff_not]
  omega

theorem writeBackChannel_kept (n : Fin 8) (c : Channel) (s : State) :
    MemoryKept [channelReg n 2, channelReg n 3, channelReg n 5, channelReg n 6] s (writeBackChannel n.val c s) := by
  have h : ∀ {r : Nat}, r < 16 → ∀ (v : Byte) (u : State), MemoryKept [channelReg n r] u (u.setIreg (channelKey n.val r) v) :=
    fun hr v u => setIreg_kept v (storeKey_channelReg u.cfg n hr) (stores_channelReg u.cfg n hr)
  unfold writeBackChannel
  refine MemoryKept.trans (l := [_, _, _]) ?_ (MemoryKept.trans (l := [_, _]) ?_ (MemoryKept.trans (l := [_]) ?_
    (h (r := 2) (by omega) _ s) (h (r := 3) (by omega) _ _)) (h (r := 5) (by omega) _ _)) (h (r := 6) (by omega) _ _)
  all_goals rfl

/-- The byte a DMA step moves changes the byte at its destination alone, the A-bus or the B-bus. -/
theorem transferByte_kept (c : Channel) (s : State) : MemoryKept [c.destination] s (transferByte c s) := by
  unfold transferByte Channel.destination
  cases c.dir
  · exact MemoryKept.trans (l := []) (busRead_cfg s c.aAddr) (busRead_kept _ _) (busWrite_kept _ _ _)
  · exact MemoryKept.trans (l := []) (busRead_cfg s (bBusAddr c.bReg)) (busRead_kept _ _) (storeByte_kept _ _ _)

theorem transferByte_cart {c : Channel} {s : State} (h : ¬ WritesCartridge s.cfg c.destination) :
    (transferByte c s).cart = s.cart := by
  unfold transferByte Channel.destination at *
  split <;> rename_i hd <;> simp only [hd] at h
  · rw [busWrite_cart _ _ (by simpa [bBusAddr, Channel.bReg] using h), busRead_cart]
  · rw [storeByte_cart _ _ (by simpa using h), busRead_cart]

theorem transferByte_ppuExt {c : Channel} {s : State} (h : s.cfg.ppuExternal = false) :
    (transferByte c s).ppuExt = s.ppuExt := by
  unfold transferByte
  split
  · rw [busWrite_ppuExt _ _ (by simpa using h), busRead_ppuExt _ h]
  · rw [storeByte_ppuExt _ _ (by simpa using h), busRead_ppuExt _ h]

/-- The frame of a DMA step: the byte moved, the write-back registers of its channel, and MDMAEN. -/
theorem stepChannel_kept (n : Fin 8) (s : State) :
    MemoryKept [s.ch[n].destination, channelReg n 2, channelReg n 3, channelReg n 5, channelReg n 6, 0x00420B] s
      (stepChannel n s) := by
  have h1 : MemoryKept [s.ch[n].destination] s
      { transferByte s.ch[n] s with ch := (transferByte s.ch[n] s).ch.set n.val s.ch[n].advance n.isLt } :=
    fun b hq hne hc =>
      (peek_congr (s := transferByte s.ch[n] s) (by simpa using hq) rfl rfl).trans (transferByte_kept _ s b hq hne hc)
  have h2 := MemoryKept.trans (by simp) h1 (writeBackChannel_kept n s.ch[n].advance _)
  have hm := fun cfg : Cfg => storeKey_mdmaen (cfg := cfg) (a := 0x00420B) (by decide)
  unfold stepChannel
  simp only
  split
  · exact MemoryKept.mono (by simp) h2
  · exact MemoryKept.trans (l := [_, _, _, _, _]) (by simp) h2 (setIreg_kept _ (hm _).1 (hm _).2)

theorem stepChannel_cart {n : Fin 8} {s : State} (h : ¬ WritesCartridge s.cfg s.ch[n].destination) :
    (stepChannel n s).cart = s.cart := by
  unfold stepChannel; simp only; split <;> simpa using transferByte_cart h

theorem stepChannel_ppuExt {n : Fin 8} {s : State} (h : s.cfg.ppuExternal = false) :
    (stepChannel n s).ppuExt = s.ppuExt := by
  unfold stepChannel; simp only; split <;> simpa using transferByte_ppuExt h

/-! A block-move step (rule R337). -/

theorem moveStep_cart (s : State) : (moveStep s).cart =
    (busWrite (addrOf s.mv.dst s.y) (busRead (addrOf s.mv.src s.x) s).1 (busRead (addrOf s.mv.src s.x) s).2).cart := by
  unfold moveStep; simp only; split <;> rfl

/-- A block-move step ends with the bytes, the channels and the cartridge of the one byte it writes. -/
theorem moveStep_writes (s : State) :
    let l := [(addrOf s.mv.dst s.y, (busRead (addrOf s.mv.src s.x) s).1)]
    (moveStep s).mem = (writeAll l s).mem ∧ (moveStep s).ch = (writeAll l s).ch ∧
      (moveStep s).cart = (writeAll l s).cart := by
  simp only
  rw [moveStep_mem, moveStep_ch, moveStep_cart]
  exact busWrite_congr _ _ (by simp) (by simp) (by simp) (by simp)

theorem moveStep_changesOnly (s : State) :
    ChangesOnly [.mem, .ch, .cart, .a, .x, .y, .moving, .pc, .nmiFlag] s (moveStep s) := by
  intro p hp
  cases p
  case ppuDevice =>
    intro h
    unfold moveStep
    simp only
    split <;> simp <;> rw [busWrite_ppuExt _ _ (by simpa using h), busRead_ppuExt _ h]
  all_goals first | exact absurd hp (by decide) | simp [Part.same]

/-- A PPU register's number is the low byte of its address (rule R63). -/
theorem ppuReg_eq {a : Addr} (h : mapAddress a = .ppu) : ppuReg a = lowByte (offsetOf a) := by
  have := mapAddress_ppu_range h
  apply BitVec.eq_of_toNat_eq
  rw [toNat_lowByte, toNat_offsetOf]
  unfold ppuReg
  rw [BitVec.toNat_ofNat]
  omega

end Sys2Proof.Machine
end

