-- ==== Sys2Proof/Laws/PerInstr.lean ====
section
/-! SUPPORT. The family EncodedLength, one lemma for each constructor: an instruction has an opcode, and the length that
opcode has at the current widths is the length of its encoding (spec/30_encoding.md R100, R103, R112). -/

namespace Sys2Proof.Laws.EncodedLength

/-- The encoding of a well-formed instruction starts with its opcode and is as long as that opcode says. -/
def Statement (i : Instr) : Prop :=
  ∀ w : Widths, WellFormed w i = true →
    ∃ op, i.opcode = some op ∧ (encode w i).head? = some op ∧ (encode w i).length = opLength w op

/-- What the operand bytes of an instruction with a known opcode must come to. -/
theorem of_opcode {i : Instr} {op : Byte} {w : Widths} (h : i.opcode = some op)
    (hl : 1 + (i.operandBytes w).length = opLength w op) :
    ∃ op, i.opcode = some op ∧ (encode w i).head? = some op ∧ (encode w i).length = opLength w op :=
  ⟨op, h, by simp [encode, h], by rw [← hl]; simp [encode, h, Nat.add_comm]⟩

theorem lda (src : Src) : Statement (.lda src) := by
  intro w h
  cases src with
  | imm v => obtain ⟨m, x⟩ := w; exact of_opcode rfl (by cases m <;> cases x <;> rfl)
  | mem m => cases m <;> first | exact of_opcode rfl rfl | exact absurd h Bool.false_ne_true

theorem ldx (src : Src) : Statement (.ldx src) := by
  intro w h
  cases src with
  | imm v => obtain ⟨m, x⟩ := w; exact of_opcode rfl (by cases m <;> cases x <;> rfl)
  | mem m => cases m <;> first | exact of_opcode rfl rfl | exact absurd h Bool.false_ne_true

theorem ldy (src : Src) : Statement (.ldy src) := by
  intro w h
  cases src with
  | imm v => obtain ⟨m, x⟩ := w; exact of_opcode rfl (by cases m <;> cases x <;> rfl)
  | mem m => cases m <;> first | exact of_opcode rfl rfl | exact absurd h Bool.false_ne_true

theorem sta (m : Mem) : Statement (.sta m) := by
  intro w h
  cases m <;> first | exact of_opcode rfl rfl | exact absurd h Bool.false_ne_true

theorem stx (m : Mem) : Statement (.stx m) := by
  intro w h
  cases m <;> first | exact of_opcode rfl rfl | exact absurd h Bool.false_ne_true

theorem sty (m : Mem) : Statement (.sty m) := by
  intro w h
  cases m <;> first | exact of_opcode rfl rfl | exact absurd h Bool.false_ne_true

theorem stz (m : Mem) : Statement (.stz m) := by
  intro w h
  cases m <;> first | exact of_opcode rfl rfl | exact absurd h Bool.false_ne_true

theorem tax : Statement .tax := fun _ _ => of_opcode rfl rfl

theorem tay : Statement .tay := fun _ _ => of_opcode rfl rfl

theorem txa : Statement .txa := fun _ _ => of_opcode rfl rfl

theorem tya : Statement .tya := fun _ _ => of_opcode rfl rfl

theorem txy : Statement .txy := fun _ _ => of_opcode rfl rfl

theorem tyx : Statement .tyx := fun _ _ => of_opcode rfl rfl

theorem tsx : Statement .tsx := fun _ _ => of_opcode rfl rfl

theorem txs : Statement .txs := fun _ _ => of_opcode rfl rfl

theorem tcd : Statement .tcd := fun _ _ => of_opcode rfl rfl

theorem tdc : Statement .tdc := fun _ _ => of_opcode rfl rfl

theorem tcs : Statement .tcs := fun _ _ => of_opcode rfl rfl

theorem tsc : Statement .tsc := fun _ _ => of_opcode rfl rfl

theorem xba : Statement .xba := fun _ _ => of_opcode rfl rfl

theorem adc (src : Src) : Statement (.adc src) := by
  intro w h
  cases src with
  | imm v => obtain ⟨m, x⟩ := w; exact of_opcode rfl (by cases m <;> cases x <;> rfl)
  | mem m => cases m <;> first | exact of_opcode rfl rfl | exact absurd h Bool.false_ne_true

theorem sbc (src : Src) : Statement (.sbc src) := by
  intro w h
  cases src with
  | imm v => obtain ⟨m, x⟩ := w; exact of_opcode rfl (by cases m <;> cases x <;> rfl)
  | mem m => cases m <;> first | exact of_opcode rfl rfl | exact absurd h Bool.false_ne_true

theorem and (src : Src) : Statement (.and src) := by
  intro w h
  cases src with
  | imm v => obtain ⟨m, x⟩ := w; exact of_opcode rfl (by cases m <;> cases x <;> rfl)
  | mem m => cases m <;> first | exact of_opcode rfl rfl | exact absurd h Bool.false_ne_true

theorem ora (src : Src) : Statement (.ora src) := by
  intro w h
  cases src with
  | imm v => obtain ⟨m, x⟩ := w; exact of_opcode rfl (by cases m <;> cases x <;> rfl)
  | mem m => cases m <;> first | exact of_opcode rfl rfl | exact absurd h Bool.false_ne_true

theorem eor (src : Src) : Statement (.eor src) := by
  intro w h
  cases src with
  | imm v => obtain ⟨m, x⟩ := w; exact of_opcode rfl (by cases m <;> cases x <;> rfl)
  | mem m => cases m <;> first | exact of_opcode rfl rfl | exact absurd h Bool.false_ne_true

theorem cmp (src : Src) : Statement (.cmp src) := by
  intro w h
  cases src with
  | imm v => obtain ⟨m, x⟩ := w; exact of_opcode rfl (by cases m <;> cases x <;> rfl)
  | mem m => cases m <;> first | exact of_opcode rfl rfl | exact absurd h Bool.false_ne_true

theorem cpx (src : Src) : Statement (.cpx src) := by
  intro w h
  cases src with
  | imm v => obtain ⟨m, x⟩ := w; exact of_opcode rfl (by cases m <;> cases x <;> rfl)
  | mem m => cases m <;> first | exact of_opcode rfl rfl | exact absurd h Bool.false_ne_true

theorem cpy (src : Src) : Statement (.cpy src) := by
  intro w h
  cases src with
  | imm v => obtain ⟨m, x⟩ := w; exact of_opcode rfl (by cases m <;> cases x <;> rfl)
  | mem m => cases m <;> first | exact of_opcode rfl rfl | exact absurd h Bool.false_ne_true

theorem bit (src : Src) : Statement (.bit src) := by
  intro w h
  cases src with
  | imm v => obtain ⟨m, x⟩ := w; exact of_opcode rfl (by cases m <;> cases x <;> rfl)
  | mem m => cases m <;> first | exact of_opcode rfl rfl | exact absurd h Bool.false_ne_true

theorem inc (tgt : Tgt) : Statement (.inc tgt) := by
  intro w h
  cases tgt with
  | acc => exact of_opcode rfl rfl
  | mem m => cases m <;> first | exact of_opcode rfl rfl | exact absurd h Bool.false_ne_true

theorem dec (tgt : Tgt) : Statement (.dec tgt) := by
  intro w h
  cases tgt with
  | acc => exact of_opcode rfl rfl
  | mem m => cases m <;> first | exact of_opcode rfl rfl | exact absurd h Bool.false_ne_true

theorem inx : Statement .inx := fun _ _ => of_opcode rfl rfl

theorem iny : Statement .iny := fun _ _ => of_opcode rfl rfl

theorem dex : Statement .dex := fun _ _ => of_opcode rfl rfl

theorem dey : Statement .dey := fun _ _ => of_opcode rfl rfl

theorem asl (tgt : Tgt) : Statement (.asl tgt) := by
  intro w h
  cases tgt with
  | acc => exact of_opcode rfl rfl
  | mem m => cases m <;> first | exact of_opcode rfl rfl | exact absurd h Bool.false_ne_true

theorem lsr (tgt : Tgt) : Statement (.lsr tgt) := by
  intro w h
  cases tgt with
  | acc => exact of_opcode rfl rfl
  | mem m => cases m <;> first | exact of_opcode rfl rfl | exact absurd h Bool.false_ne_true

theorem rol (tgt : Tgt) : Statement (.rol tgt) := by
  intro w h
  cases tgt with
  | acc => exact of_opcode rfl rfl
  | mem m => cases m <;> first | exact of_opcode rfl rfl | exact absurd h Bool.false_ne_true

theorem ror (tgt : Tgt) : Statement (.ror tgt) := by
  intro w h
  cases tgt with
  | acc => exact of_opcode rfl rfl
  | mem m => cases m <;> first | exact of_opcode rfl rfl | exact absurd h Bool.false_ne_true

theorem tsb (m : Mem) : Statement (.tsb m) := by
  intro w h
  cases m <;> first | exact of_opcode rfl rfl | exact absurd h Bool.false_ne_true

theorem trb (m : Mem) : Statement (.trb m) := by
  intro w h
  cases m <;> first | exact of_opcode rfl rfl | exact absurd h Bool.false_ne_true

theorem bcc (b : Byte) : Statement (.bcc b) := fun _ _ => of_opcode rfl rfl

theorem bcs (b : Byte) : Statement (.bcs b) := fun _ _ => of_opcode rfl rfl

theorem beq (b : Byte) : Statement (.beq b) := fun _ _ => of_opcode rfl rfl

theorem bne (b : Byte) : Statement (.bne b) := fun _ _ => of_opcode rfl rfl

theorem bmi (b : Byte) : Statement (.bmi b) := fun _ _ => of_opcode rfl rfl

theorem bpl (b : Byte) : Statement (.bpl b) := fun _ _ => of_opcode rfl rfl

theorem bvc (b : Byte) : Statement (.bvc b) := fun _ _ => of_opcode rfl rfl

theorem bvs (b : Byte) : Statement (.bvs b) := fun _ _ => of_opcode rfl rfl

theorem bra (b : Byte) : Statement (.bra b) := fun _ _ => of_opcode rfl rfl

theorem brl (v : Word) : Statement (.brl v) := fun _ _ => of_opcode rfl rfl

theorem jmp (t : JumpTarget) : Statement (.jmp t) := by
  intro w _
  cases t <;> exact of_opcode rfl rfl

theorem jml (t : LongTarget) : Statement (.jml t) := by
  intro w _
  cases t <;> exact of_opcode rfl rfl

theorem jsr (t : CallTarget) : Statement (.jsr t) := by
  intro w _
  cases t <;> exact of_opcode rfl rfl

theorem jsl (al : Addr) : Statement (.jsl al) := fun _ _ => of_opcode rfl rfl

theorem rts : Statement .rts := fun _ _ => of_opcode rfl rfl

theorem rtl : Statement .rtl := fun _ _ => of_opcode rfl rfl

theorem pha : Statement .pha := fun _ _ => of_opcode rfl rfl

theorem phx : Statement .phx := fun _ _ => of_opcode rfl rfl

theorem phy : Statement .phy := fun _ _ => of_opcode rfl rfl

theorem php : Statement .php := fun _ _ => of_opcode rfl rfl

theorem phb : Statement .phb := fun _ _ => of_opcode rfl rfl

theorem phd : Statement .phd := fun _ _ => of_opcode rfl rfl

theorem phk : Statement .phk := fun _ _ => of_opcode rfl rfl

theorem pla : Statement .pla := fun _ _ => of_opcode rfl rfl

theorem plx : Statement .plx := fun _ _ => of_opcode rfl rfl

theorem ply : Statement .ply := fun _ _ => of_opcode rfl rfl

theorem plp : Statement .plp := fun _ _ => of_opcode rfl rfl

theorem plb : Statement .plb := fun _ _ => of_opcode rfl rfl

theorem pld : Statement .pld := fun _ _ => of_opcode rfl rfl

theorem pea (v : Word) : Statement (.pea v) := fun _ _ => of_opcode rfl rfl

theorem pei (b : Byte) : Statement (.pei b) := fun _ _ => of_opcode rfl rfl

theorem per (v : Word) : Statement (.per v) := fun _ _ => of_opcode rfl rfl

theorem clc : Statement .clc := fun _ _ => of_opcode rfl rfl

theorem sec : Statement .sec := fun _ _ => of_opcode rfl rfl

theorem cli : Statement .cli := fun _ _ => of_opcode rfl rfl

theorem sei : Statement .sei := fun _ _ => of_opcode rfl rfl

theorem cld : Statement .cld := fun _ _ => of_opcode rfl rfl

theorem sed : Statement .sed := fun _ _ => of_opcode rfl rfl

theorem clv : Statement .clv := fun _ _ => of_opcode rfl rfl

theorem rep (b : Byte) : Statement (.rep b) := fun _ _ => of_opcode rfl rfl

theorem sep (b : Byte) : Statement (.sep b) := fun _ _ => of_opcode rfl rfl

theorem xce : Statement .xce := fun _ _ => of_opcode rfl rfl

theorem nop : Statement .nop := fun _ _ => of_opcode rfl rfl

theorem wdm (b : Byte) : Statement (.wdm b) := fun _ _ => of_opcode rfl rfl

theorem stp : Statement .stp := fun _ _ => of_opcode rfl rfl

theorem wai : Statement .wai := fun _ _ => of_opcode rfl rfl

theorem mvn (dst src : Byte) : Statement (.mvn dst src) := fun _ _ => of_opcode rfl rfl

theorem mvp (dst src : Byte) : Statement (.mvp dst src) := fun _ _ => of_opcode rfl rfl

theorem brk (b : Byte) : Statement (.brk b) := fun _ _ => of_opcode rfl rfl

theorem cop (b : Byte) : Statement (.cop b) := fun _ _ => of_opcode rfl rfl

theorem rti : Statement .rti := fun _ _ => of_opcode rfl rfl

end Sys2Proof.Laws.EncodedLength
end

