-- ==== Sys2Proof/Laws/Stack.lean ====
section
/-! SUPPORT. Pushes as byte writes at addresses known beforehand, and pulls from quiet addresses (rules R300 to R304,
R424, R432). -/

namespace Sys2Proof.Machine

/-! The stack pointer some bytes further. -/

theorem sub_ofNat_succ {w : Nat} (v : BitVec w) (k : Nat) : v - BitVec.ofNat w (k + 1) = v - BitVec.ofNat w k - 1 := by
  rw [BitVec.ofNat_add]
  exact sub_add_eq_sub_sub v _ _

theorem add_ofNat_succ {w : Nat} (v : BitVec w) (k : Nat) : v + BitVec.ofNat w (k + 1) = v + BitVec.ofNat w k + 1 := by
  rw [BitVec.ofNat_add, BitVec.add_assoc]
  rfl

@[simp] theorem legacyDown_zero (s : State) : legacyDown s 0 = s.sp := by simp [legacyDown]
@[simp] theorem legacyUp_zero (s : State) : legacyUp s 0 = s.sp := by simp [legacyUp]

theorem spDown_legacyDown (s : State) (k : Nat) : ({ s with sp := legacyDown s k } : State).spDown = legacyDown s (k + 1) := by
  unfold State.spDown legacyDown
  cases h : s.e
  · simp only [Bool.false_eq_true, if_false]
    rw [sub_ofNat_succ]
  · simp only [if_true, setLow, highByte_wordOf, lowByte_wordOf]
    rw [sub_ofNat_succ]

theorem spUp_legacyUp (s : State) (k : Nat) : ({ s with sp := legacyUp s k } : State).spUp = legacyUp s (k + 1) := by
  unfold State.spUp legacyUp
  cases h : s.e
  · simp only [Bool.false_eq_true, if_false]
    rw [add_ofNat_succ]
  · simp only [if_true, setLow, highByte_wordOf, lowByte_wordOf]
    rw [add_ofNat_succ]

/-! A bus access does not see the stack pointer. -/

theorem busWrite_setSp (a : Addr) (v : Byte) (s : State) (x : Word) :
    busWrite a v { s with sp := x } = { busWrite a v s with sp := x } := by
  have h : storeByte a v { s with sp := x } = { storeByte a v s with sp := x } := by
    unfold storeByte cartWrite
    split <;> (try split) <;> rfl
  unfold busWrite
  rw [h]
  split <;> rfl

theorem peek_setSp (a : Addr) (s : State) (x : Word) : ({ s with sp := x } : State).peek a = s.peek a := rfl

theorem writeAll_setSp : ∀ (l : List (Addr × Byte)) (s : State) (x : Word),
    writeAll l { s with sp := x } = { writeAll l s with sp := x }
  | [], _, _ => rfl
  | p :: l, s, x => by rw [writeAll_cons, busWrite_setSp, writeAll_setSp l, ← writeAll_cons]

/-- A legacy push after `k` bytes pushed. -/
theorem push8_after (l : List (Addr × Byte)) (k : Nat) (v : Byte) (s : State) :
    push8 v { writeAll l s with sp := legacyDown s k } =
      { writeAll (l ++ [(legacySlot s k, v)]) s with sp := legacyDown s (k + 1) } := by
  have hd : ∀ t : State, t.e = s.e → t.sp = legacyDown s k → t.spDown = legacyDown s (k + 1) := by
    intro t he hs
    rw [← spDown_legacyDown]
    simp only [State.spDown, he, hs]
  unfold push8
  simp only
  rw [hd _ (by simp [writeAll_e]) (by simp), writeAll_append, busWrite_setSp]
  rfl

/-- A legacy push of one byte (rule R300). -/
theorem push8_eq (v : Byte) (s : State) :
    push8 v s = { writeAll [(legacySlot s 0, v)] s with sp := legacyDown s 1 } := by
  have := push8_after [] 0 v s
  rwa [legacyDown_zero] at this

/-- A legacy push of a word after `k` bytes pushed. -/
theorem push16_after (l : List (Addr × Byte)) (k : Nat) (v : Word) (s : State) :
    push16 v { writeAll l s with sp := legacyDown s k } =
      { writeAll (l ++ legacyWord s k v) s with sp := legacyDown s (k + 2) } := by
  unfold push16
  rw [push8_after, push8_after, List.append_assoc]
  rfl

theorem push16_eq (v : Word) (s : State) :
    push16 v s = { writeAll (legacyWord s 0 v) s with sp := legacyDown s 2 } := by
  have := push16_after [] 0 v s
  rwa [legacyDown_zero] at this

/-- A new-style push after `k` bytes pushed. -/
theorem push8N_after (l : List (Addr × Byte)) (k : Nat) (v : Byte) (s : State) :
    push8N v { writeAll l s with sp := s.sp - BitVec.ofNat 16 k } =
      { writeAll (l ++ [(newSlot s k, v)]) s with sp := s.sp - BitVec.ofNat 16 (k + 1) } := by
  unfold push8N
  simp only
  rw [writeAll_append, busWrite_setSp, sub_ofNat_succ]
  rfl

/-- A new-style push of one byte (rule R302). -/
theorem push8N_eq (v : Byte) (s : State) :
    push8N v s = { writeAll [(newSlot s 0, v)] s with sp := s.sp - 1 } := by
  have := push8N_after [] 0 v s
  simpa using this

/-- A new-style push of a word after `k` bytes pushed. -/
theorem push16N_after (l : List (Addr × Byte)) (k : Nat) (v : Word) (s : State) :
    push16N v { writeAll l s with sp := s.sp - BitVec.ofNat 16 k } =
      { writeAll (l ++ newWord s k v) s with sp := s.sp - BitVec.ofNat 16 (k + 2) } := by
  unfold push16N
  rw [push8N_after, push8N_after, List.append_assoc]
  rfl

theorem push16N_eq (v : Word) (s : State) :
    push16N v s = { writeAll (newWord s 0 v) s with sp := s.sp - 2 } := by
  have := push16N_after [] 0 v s
  simpa using this

/-! Pulls. -/

/-- A legacy pull from a quiet address, `k` bytes pulled before it. -/
theorem pull8_after (s : State) (k : Nat) (h : Quiet s.cfg (legacyTop s (k + 1))) :
    pull8 { s with sp := legacyUp s k } = (s.peek (legacyTop s (k + 1)), { s with sp := legacyUp s (k + 1) }) := by
  unfold pull8
  simp only
  rw [spUp_legacyUp]
  exact busRead_quiet (s := { s with sp := legacyUp s (k + 1) }) (a := legacyTop s (k + 1)) h

theorem pull8_top (s : State) (h : Quiet s.cfg (legacyTop s 1)) :
    pull8 s = (s.peek (legacyTop s 1), { s with sp := legacyUp s 1 }) := by
  have := pull8_after s 0 h
  rwa [legacyUp_zero] at this

/-- A legacy pull of a word from quiet addresses (rule R301). -/
theorem pull16_after (s : State) (k : Nat) (h1 : Quiet s.cfg (legacyTop s (k + 1)))
    (h2 : Quiet s.cfg (legacyTop s (k + 2))) :
    pull16 { s with sp := legacyUp s k } =
      (wordOf (s.peek (legacyTop s (k + 2))) (s.peek (legacyTop s (k + 1))), { s with sp := legacyUp s (k + 2) }) := by
  unfold pull16
  simp only [pull8_after s k h1, pull8_after s (k + 1) h2]

theorem pull16_top (s : State) (h1 : Quiet s.cfg (legacyTop s 1)) (h2 : Quiet s.cfg (legacyTop s 2)) :
    pull16 s = (wordOf (s.peek (legacyTop s 2)) (s.peek (legacyTop s 1)), { s with sp := legacyUp s 2 }) := by
  have := pull16_after s 0 h1 h2
  rwa [legacyUp_zero] at this

/-- A new-style pull from a quiet address, `k` bytes pulled before it. -/
theorem pull8N_after (s : State) (k : Nat) (h : Quiet s.cfg (newTop s (k + 1))) :
    pull8N { s with sp := s.sp + BitVec.ofNat 16 k } =
      (s.peek (newTop s (k + 1)), { s with sp := s.sp + BitVec.ofNat 16 (k + 1) }) := by
  unfold pull8N
  simp only
  rw [show s.sp + BitVec.ofNat 16 k + 1 = s.sp + BitVec.ofNat 16 (k + 1) from (add_ofNat_succ _ _).symm]
  exact busRead_quiet (s := { s with sp := s.sp + BitVec.ofNat 16 (k + 1) }) (a := newTop s (k + 1)) h

theorem pull8N_top (s : State) (h : Quiet s.cfg (newTop s 1)) :
    pull8N s = (s.peek (newTop s 1), { s with sp := s.sp + 1 }) := by
  have := pull8N_after s 0 h
  simpa using this

theorem pull16N_after (s : State) (k : Nat) (h1 : Quiet s.cfg (newTop s (k + 1))) (h2 : Quiet s.cfg (newTop s (k + 2))) :
    pull16N { s with sp := s.sp + BitVec.ofNat 16 k } =
      (wordOf (s.peek (newTop s (k + 2))) (s.peek (newTop s (k + 1))), { s with sp := s.sp + BitVec.ofNat 16 (k + 2) }) := by
  unfold pull16N
  simp only [pull8N_after s k h1, pull8N_after s (k + 1) h2]

theorem pull16N_top (s : State) (h1 : Quiet s.cfg (newTop s 1)) (h2 : Quiet s.cfg (newTop s 2)) :
    pull16N s = (wordOf (s.peek (newTop s 2)) (s.peek (newTop s 1)), { s with sp := s.sp + 2 }) := by
  have := pull16N_after s 0 h1 h2
  simpa using this

/-- Where a legacy pull leaves the stack pointer, whatever is read. -/
theorem pull8_sp_after (s : State) (k : Nat) (t : State) (he : t.e = s.e) (hs : t.sp = legacyUp s k) :
    (pull8 t).2.sp = legacyUp s (k + 1) := by
  rw [pull8_sp, ← spUp_legacyUp]
  simp only [State.spUp, he, hs]

theorem pull8_sp_legacyUp (s : State) : (pull8 s).2.sp = legacyUp s 1 :=
  pull8_sp_after s 0 s rfl (by simp)

theorem pull16_sp_legacyUp (s : State) : (pull16 s).2.sp = legacyUp s 2 :=
  pull8_sp_after s 1 _ (by simp) (pull8_sp_legacyUp s)

theorem fixSH_pageFixed (s : State) : (fixSH s).sp = pageFixed s s.sp := by
  unfold fixSH pageFixed setHigh
  split <;> rfl

/-! Taking an interrupt (rule R424). -/

theorem peek_writeAll_cartridge (l : List (Addr × Byte)) (s : State) {b : Addr} (h : mapAddress b = .cartridge)
    (hl : ∀ p ∈ l, ¬ WritesCartridge s.cfg p.1) : (writeAll l s).peek b = s.peek b := by
  refine writeAll_kept l s b (quiet_of_cartridge h) (fun a _ hs hsame => hs.2.2 (by rw [← sameByte_region hsame, h]))
    fun _ a ha => ?_
  obtain ⟨p, hp, rfl⟩ := List.mem_map.mp ha
  exact hl p hp

/-- The bytes an interrupt entry pushes. -/
theorem interruptEntry_pushed (kind : Interrupt) (s : State) :
    push8 (savedStatus kind s) (push16 (returnAddress kind s) (if s.e then s else push8 s.pbr s)) =
      { writeAll (interruptFrame s (returnAddress kind s) (savedStatus kind s)) s with
        sp := legacyDown s (if s.e then 3 else 4) } := by
  unfold interruptFrame
  cases h : s.e
  · simp only [Bool.false_eq_true, if_false]
    rw [push8_eq s.pbr s, push16_after, push8_after, List.append_assoc]
    rfl
  · simp only [if_true]
    rw [push16_eq (returnAddress kind s) s, push8_after]

/-- The handler's address is in the cartridge. -/
theorem vector_cartridge (kind : Interrupt) (e : Bool) :
    mapAddress (addrOf 0x00 (vector kind e)) = .cartridge ∧ mapAddress (addrOf 0x00 (vector kind e + 1)) = .cartridge := by
  cases kind <;> cases e <;> decide

/-- Everything an interrupt entry does (rule R424). -/
theorem interruptEntry_eq (kind : Interrupt) (s : State) : interruptEntry kind s =
    { writeAll (interruptFrame s (returnAddress kind s) (savedStatus kind s)) s with
      sp := legacyDown s (if s.e then 3 else 4)
      p := { s.p with i := true, d := false }
      pbr := 0x00
      pc := wordAt (writeAll (interruptFrame s (returnAddress kind s) (savedStatus kind s)) s) (vector kind s.e) } := by
  obtain ⟨h0, h1⟩ := vector_cartridge kind s.e
  unfold interruptEntry
  simp only
  rw [interruptEntry_pushed]
  generalize hl : interruptFrame s (returnAddress kind s) (savedStatus kind s) = l
  rw [readWordW_quiet (quiet_of_cartridge h0) (quiet_of_cartridge h1)]
  have hp : (writeAll l s).p = s.p := by
    have h := writeAll_changesOnly l s
    have n := h .flagN (by decide)
    have v := h .flagV (by decide)
    have m := h .flagM (by decide)
    have x := h .flagX (by decide)
    have d := h .flagD (by decide)
    have i := h .flagI (by decide)
    have z := h .flagZ (by decide)
    have c := h .flagC (by decide)
    simp only [Part.same] at n v m x d i z c
    cases hq : (writeAll l s).p
    cases hr : s.p
    simp_all
  have hk : ∀ {b : Addr}, mapAddress b = .cartridge →
      ({ writeAll l s with
          sp := legacyDown s (if s.e then 3 else 4)
          p := { (writeAll l s).p with i := true, d := false }
          pbr := 0x00 } : State).peek b = (writeAll l s).peek b :=
    fun hb => peek_congr (quiet_of_cartridge hb) rfl rfl
  rw [hk h0, hk h1, hp]
  rfl

/-- The handler's address is what the vector held before, where no byte of the frame reaches a cartridge that does not
ignore writes. -/
theorem wordAt_vector_writeAll (kind : Interrupt) (e : Bool) (l : List (Addr × Byte)) (s : State)
    (hl : ∀ p ∈ l, ¬ WritesCartridge s.cfg p.1) : wordAt (writeAll l s) (vector kind e) = wordAt s (vector kind e) := by
  obtain ⟨h0, h1⟩ := vector_cartridge kind e
  unfold wordAt
  rw [peek_writeAll_cartridge l s h0 hl, peek_writeAll_cartridge l s h1 hl]

end Sys2Proof.Machine
end

