-- ==== Sys2Proof/Laws/Step.lean ====
section
/-! SUPPORT. The choice of a tick's unit of work, one lemma for each branch, and the fetch (rules R380 to R383, R425, R426). -/

namespace Sys2Proof.Machine

/-- Every instruction has its effect: none faults and none is refused. -/
theorem exec_next (i : Instr) (s : State) : ∃ t, exec i s = .next t := by
  cases i <;> exact ⟨_, rfl⟩

variable {s : State}

/-- The sticky fatal condition (rule R435). -/
theorem step_fatal {op : Byte} (h : s.fatal = some op) : step s = .fault (.unimplementedOpcode op) := by
  simp [step, tick, h]

/-- Reset comes before everything else (rule R380). -/
theorem step_reset (h : s.fatal = none) (hr : s.env.resetLine = true) : step s = .next (resetProcedure s.nextInputs) := by
  simp [step, tick, h, hr]

/-- DMA preempts the processor (rule R351). -/
theorem step_dma (h : s.fatal = none) (hr : s.env.resetLine = false) (hd : s.dmaActive = true) :
    step s = .next (spend Config.dmaStepCycles (dmaStep (latchInputs s.env s.nextInputs))) := by
  have hd' : (latchInputs s.env s.nextInputs).dmaActive = true := hd
  simp [step, tick, h, hr, unitOfWork, hd']

/-- An idle step (rule R381). -/
theorem step_idle (h : s.fatal = none) (hr : s.env.resetLine = false) (hd : s.dmaActive = false)
    (hi : s.stopped = true ∨ (s.waiting = true ∧ s.nmiPending = false ∧ s.env.nmiEdge = false ∧ s.env.irqLine = false)) :
    step s = .next (spend Config.idleStepCycles (latchInputs s.env s.nextInputs)) := by
  have hd' : (latchInputs s.env s.nextInputs).dmaActive = false := hd
  simp only [step, tick, h, hr, unitOfWork, hd']
  rcases hi with hi | ⟨a, b, c, d⟩
  · simp [hi]
  · simp [latchInputs, State.nextInputs, a, b, c, d]

/-- The processor's own work, where nothing comes before it and it does not wait in vain (rules R380, R426). -/
theorem step_core (h : CoreActs s)
    (hw : s.waiting = true → s.nmiPending = true ∨ s.env.nmiEdge = true ∨ s.env.irqLine = true) :
    step s = processorWork s.env.irqLine { latchInputs s.env s.nextInputs with waiting := false } := by
  obtain ⟨h1, h2, h3, h4⟩ := h
  have h3' : (latchInputs s.env s.nextInputs).dmaActive = false := h3
  have h4' : (latchInputs s.env s.nextInputs).stopped = false := h4
  have : ((latchInputs s.env s.nextInputs).waiting &&
      !((latchInputs s.env s.nextInputs).nmiPending || s.env.irqLine)) = false := by
    simp only [latchInputs, State.nextInputs, Bool.and_eq_false_iff, Bool.not_eq_eq_eq_not, Bool.not_false, Bool.or_eq_true]
    cases hq : s.waiting
    · exact .inl rfl
    · exact .inr (by rcases hw hq with h | h | h <;> simp [h])
  simp only [step, tick, h1, h2, unitOfWork, h3', h4', this]
  rfl

/-- Every opcode's instruction has one to four bytes (rule R100). -/
theorem opLength_range (w : Widths) (op : Byte) : 1 ≤ opLength w op ∧ opLength w op ≤ 4 := by
  unfold opLength
  cases formatOf op <;> obtain ⟨m, x⟩ := w <;> cases m <;> cases x <;> decide

/-- Operand bytes that can be read without a side effect (rule R382). -/
theorem fetchOperands_quiet : ∀ (k i : Nat) (s : State), (∀ j, i ≤ j → j < i + k → Quiet s.cfg (s.pcAddr j)) →
    fetchOperands k i s = ((List.range' i k).map fun j => s.peek (s.pcAddr j), s)
  | 0, _, _, _ => rfl
  | k + 1, i, s, h => by
    rw [fetchOperands, busRead_quiet (h i (by omega) (by omega))]
    simp only
    rw [fetchOperands_quiet k (i + 1) s fun j h1 h2 => h j (by omega) (by omega)]
    simp [List.range'_succ]

end Sys2Proof.Machine
end

