-- ==== Sys2Proof/Tests/Slice0.lean ====
section
/-! SUPPORT. Tests of single steps against the vectors and worked examples of spec/, the smoke test of WellFormed, the decoding of
every opcode, and, for every statement with hypotheses, a state and operands that meet them. -/

open Sys2Proof Sys2Proof.Machine

/-! ## Well-formedness: for each check, a term it refuses -/

theorem test_wellFormed_imm8 : WellFormed ⟨.w8, .w16⟩ (.lda (.imm 0x0100)) = false := by decide
theorem test_wellFormed_imm8_index : WellFormed ⟨.w16, .w8⟩ (.ldx (.imm 0x0100)) = false := by decide
theorem test_wellFormed_imm16 : WellFormed ⟨.w16, .w8⟩ (.lda (.imm 0x0100)) = true := by decide
theorem test_wellFormed_accumulator : WellFormed ⟨.w8, .w8⟩ (.lda (.mem (.dpY 0x10))) = false := by decide
theorem test_wellFormed_sta : WellFormed ⟨.w8, .w8⟩ (.sta (.dpY 0x10)) = false := by decide
theorem test_wellFormed_bit : WellFormed ⟨.w8, .w8⟩ (.bit (.mem (.sr 0x10))) = false := by decide
theorem test_wellFormed_ldx : WellFormed ⟨.w8, .w8⟩ (.ldx (.mem (.dpX 0x10))) = false := by decide
theorem test_wellFormed_ldy : WellFormed ⟨.w8, .w8⟩ (.ldy (.mem (.dpY 0x10))) = false := by decide
theorem test_wellFormed_cpx : WellFormed ⟨.w8, .w8⟩ (.cpx (.mem (.absX 0x1000))) = false := by decide
theorem test_wellFormed_cpy : WellFormed ⟨.w8, .w8⟩ (.cpy (.mem (.absX 0x1000))) = false := by decide
theorem test_wellFormed_stx : WellFormed ⟨.w8, .w8⟩ (.stx (.dpX 0x10)) = false := by decide
theorem test_wellFormed_sty : WellFormed ⟨.w8, .w8⟩ (.sty (.dpY 0x10)) = false := by decide
theorem test_wellFormed_stz : WellFormed ⟨.w8, .w8⟩ (.stz (.long 0x123456)) = false := by decide
theorem test_wellFormed_tsb : WellFormed ⟨.w8, .w8⟩ (.tsb (.absX 0x1000)) = false := by decide
theorem test_wellFormed_trb : WellFormed ⟨.w8, .w8⟩ (.trb (.dpX 0x10)) = false := by decide
theorem test_wellFormed_modify : WellFormed ⟨.w8, .w8⟩ (.inc (.mem (.dpInd 0x10))) = false := by decide
theorem test_wellFormed_shift : WellFormed ⟨.w8, .w8⟩ (.ror (.mem (.absY 0x1000))) = false := by decide

/-- A term that is no instruction has no encoding. -/
theorem test_encode_illFormed : encode ⟨.w8, .w8⟩ (.stx (.dpX 0x10)) = [] := by decide

/-! ## Decoding -/

/-- The instruction decoded from an opcode with the operand bytes 12 34 56 after it. -/
def decodes (op : Byte) : Option Instr :=
  match decode ⟨.w8, .w8⟩ [op, 0x12, 0x34, 0x56] with
  | .ok r => some r.1
  | .error _ => none

/-- An opcode without its operand bytes is rejected by name, and so is an empty string. -/
theorem test_decode_truncated : decode ⟨.w16, .w8⟩ [0xA9, 0x12] = .error (.truncated 0xA9) := by decide
theorem test_decode_empty : decode ⟨.w8, .w8⟩ [] = .error .noOpcode := by decide

/-- Rule R102: an accumulator immediate is as wide as `wM`, an index one as `wX`; SEP's is always 8 bits, PEA's 16. -/
theorem test_length_immediates :
    opLength ⟨.w16, .w8⟩ 0x69 = 3 ∧ opLength ⟨.w16, .w8⟩ 0xA2 = 2 ∧ opLength ⟨.w8, .w16⟩ 0x69 = 2 ∧
      opLength ⟨.w8, .w16⟩ 0xC0 = 3 ∧ opLength ⟨.w16, .w16⟩ 0xE2 = 2 ∧ opLength ⟨.w8, .w8⟩ 0xF4 = 3 := by decide

/-- The table numbers bit 0 as the least significant bit of the first byte: 0xA9 alone is LDA #$00. -/
theorem test_decodeTableWord : decodeTableWord 8 0xA9 = some (.lda (.imm 0x0000)) := by decide
theorem test_decodeTableWord_two : decodeTableWord 16 0x4265 = some (.adc (.mem (.dp 0x42))) := by decide

/-! ## Single steps -/

/-- Bytes placed at consecutive addresses, as the vectors' `mem` places them. -/
def load (a : Addr) : List Byte → State → State
  | [], s => s
  | b :: r, s => load (a + 1) r (s.poke a b)

/-- The vectors' default start state: native mode, 8-bit registers. -/
def native : State := { State.reset with e := false, p := Status.ofByte 0x30, pc := 0x8000 }

/-- What `f` says of the state after one step, with `code` at the program counter and `mem` in memory. -/
def ran {α : Type} (s : State) (mem : List (Addr × List Byte)) (code : List Byte) (f : State → α) : Option α :=
  match step (load (s.pcAddr 0) code (mem.foldl (fun s p => load p.1 p.2 s) s)) with
  | .next t => some (f t)
  | _ => none

/-! Every opcode of the table of rule R104, with the operand bytes 12 34 56 after it (rules R101, R102), 8-bit widths. -/

theorem test_decode_loads_and_stores : ∀ p ∈ ([
    (0xA1, .lda (.mem (.dpXInd 0x12))), (0xA3, .lda (.mem (.sr 0x12))), (0xA5, .lda (.mem (.dp 0x12))),
    (0xA7, .lda (.mem (.dpIndLong 0x12))), (0xA9, .lda (.imm 0x0012)), (0xAD, .lda (.mem (.abs 0x3412))),
    (0xAF, .lda (.mem (.long 0x563412))), (0xB1, .lda (.mem (.dpIndY 0x12))), (0xB2, .lda (.mem (.dpInd 0x12))),
    (0xB3, .lda (.mem (.srIndY 0x12))), (0xB5, .lda (.mem (.dpX 0x12))), (0xB7, .lda (.mem (.dpIndLongY 0x12))),
    (0xB9, .lda (.mem (.absY 0x3412))), (0xBD, .lda (.mem (.absX 0x3412))), (0xBF, .lda (.mem (.longX 0x563412))),
    (0xA2, .ldx (.imm 0x0012)), (0xA6, .ldx (.mem (.dp 0x12))), (0xAE, .ldx (.mem (.abs 0x3412))),
    (0xB6, .ldx (.mem (.dpY 0x12))), (0xBE, .ldx (.mem (.absY 0x3412))), (0xA0, .ldy (.imm 0x0012)),
    (0xA4, .ldy (.mem (.dp 0x12))), (0xAC, .ldy (.mem (.abs 0x3412))), (0xB4, .ldy (.mem (.dpX 0x12))),
    (0xBC, .ldy (.mem (.absX 0x3412))), (0x81, .sta (.dpXInd 0x12)), (0x83, .sta (.sr 0x12)), (0x85, .sta (.dp 0x12)),
    (0x87, .sta (.dpIndLong 0x12)), (0x8D, .sta (.abs 0x3412)), (0x8F, .sta (.long 0x563412)),
    (0x91, .sta (.dpIndY 0x12)), (0x92, .sta (.dpInd 0x12)), (0x93, .sta (.srIndY 0x12)), (0x95, .sta (.dpX 0x12)),
    (0x97, .sta (.dpIndLongY 0x12)), (0x99, .sta (.absY 0x3412)), (0x9D, .sta (.absX 0x3412)),
    (0x9F, .sta (.longX 0x563412)), (0x86, .stx (.dp 0x12)), (0x8E, .stx (.abs 0x3412)), (0x96, .stx (.dpY 0x12)),
    (0x84, .sty (.dp 0x12)), (0x8C, .sty (.abs 0x3412)), (0x94, .sty (.dpX 0x12)), (0x64, .stz (.dp 0x12)),
    (0x74, .stz (.dpX 0x12)), (0x9C, .stz (.abs 0x3412)), (0x9E, .stz (.absX 0x3412)) ] : List (Byte × Instr)),
    decodes p.1 = some p.2 := by decide

theorem test_decode_transfers : ∀ p ∈ ([
    (0xAA, .tax), (0xA8, .tay), (0x8A, .txa), (0x98, .tya), (0x9B, .txy), (0xBB, .tyx), (0xBA, .tsx), (0x9A, .txs),
    (0x5B, .tcd), (0x7B, .tdc), (0x1B, .tcs), (0x3B, .tsc), (0xEB, .xba) ] : List (Byte × Instr)),
    decodes p.1 = some p.2 := by decide

theorem test_decode_add_and_subtract : ∀ p ∈ ([
    (0x61, .adc (.mem (.dpXInd 0x12))), (0x63, .adc (.mem (.sr 0x12))), (0x65, .adc (.mem (.dp 0x12))),
    (0x67, .adc (.mem (.dpIndLong 0x12))), (0x69, .adc (.imm 0x0012)), (0x6D, .adc (.mem (.abs 0x3412))),
    (0x6F, .adc (.mem (.long 0x563412))), (0x71, .adc (.mem (.dpIndY 0x12))), (0x72, .adc (.mem (.dpInd 0x12))),
    (0x73, .adc (.mem (.srIndY 0x12))), (0x75, .adc (.mem (.dpX 0x12))), (0x77, .adc (.mem (.dpIndLongY 0x12))),
    (0x79, .adc (.mem (.absY 0x3412))), (0x7D, .adc (.mem (.absX 0x3412))), (0x7F, .adc (.mem (.longX 0x563412))),
    (0xE1, .sbc (.mem (.dpXInd 0x12))), (0xE3, .sbc (.mem (.sr 0x12))), (0xE5, .sbc (.mem (.dp 0x12))),
    (0xE7, .sbc (.mem (.dpIndLong 0x12))), (0xE9, .sbc (.imm 0x0012)), (0xED, .sbc (.mem (.abs 0x3412))),
    (0xEF, .sbc (.mem (.long 0x563412))), (0xF1, .sbc (.mem (.dpIndY 0x12))), (0xF2, .sbc (.mem (.dpInd 0x12))),
    (0xF3, .sbc (.mem (.srIndY 0x12))), (0xF5, .sbc (.mem (.dpX 0x12))), (0xF7, .sbc (.mem (.dpIndLongY 0x12))),
    (0xF9, .sbc (.mem (.absY 0x3412))), (0xFD, .sbc (.mem (.absX 0x3412))), (0xFF, .sbc (.mem (.longX 0x563412))) ] : List (Byte × Instr)),
    decodes p.1 = some p.2 := by decide

theorem test_decode_logic : ∀ p ∈ ([
    (0x21, .and (.mem (.dpXInd 0x12))), (0x23, .and (.mem (.sr 0x12))), (0x25, .and (.mem (.dp 0x12))),
    (0x27, .and (.mem (.dpIndLong 0x12))), (0x29, .and (.imm 0x0012)), (0x2D, .and (.mem (.abs 0x3412))),
    (0x2F, .and (.mem (.long 0x563412))), (0x31, .and (.mem (.dpIndY 0x12))), (0x32, .and (.mem (.dpInd 0x12))),
    (0x33, .and (.mem (.srIndY 0x12))), (0x35, .and (.mem (.dpX 0x12))), (0x37, .and (.mem (.dpIndLongY 0x12))),
    (0x39, .and (.mem (.absY 0x3412))), (0x3D, .and (.mem (.absX 0x3412))), (0x3F, .and (.mem (.longX 0x563412))),
    (0x01, .ora (.mem (.dpXInd 0x12))), (0x03, .ora (.mem (.sr 0x12))), (0x05, .ora (.mem (.dp 0x12))),
    (0x07, .ora (.mem (.dpIndLong 0x12))), (0x09, .ora (.imm 0x0012)), (0x0D, .ora (.mem (.abs 0x3412))),
    (0x0F, .ora (.mem (.long 0x563412))), (0x11, .ora (.mem (.dpIndY 0x12))), (0x12, .ora (.mem (.dpInd 0x12))),
    (0x13, .ora (.mem (.srIndY 0x12))), (0x15, .ora (.mem (.dpX 0x12))), (0x17, .ora (.mem (.dpIndLongY 0x12))),
    (0x19, .ora (.mem (.absY 0x3412))), (0x1D, .ora (.mem (.absX 0x3412))), (0x1F, .ora (.mem (.longX 0x563412))),
    (0x41, .eor (.mem (.dpXInd 0x12))), (0x43, .eor (.mem (.sr 0x12))), (0x45, .eor (.mem (.dp 0x12))),
    (0x47, .eor (.mem (.dpIndLong 0x12))), (0x49, .eor (.imm 0x0012)), (0x4D, .eor (.mem (.abs 0x3412))),
    (0x4F, .eor (.mem (.long 0x563412))), (0x51, .eor (.mem (.dpIndY 0x12))), (0x52, .eor (.mem (.dpInd 0x12))),
    (0x53, .eor (.mem (.srIndY 0x12))), (0x55, .eor (.mem (.dpX 0x12))), (0x57, .eor (.mem (.dpIndLongY 0x12))),
    (0x59, .eor (.mem (.absY 0x3412))), (0x5D, .eor (.mem (.absX 0x3412))), (0x5F, .eor (.mem (.longX 0x563412))) ] : List (Byte × Instr)),
    decodes p.1 = some p.2 := by decide

theorem test_decode_compare_and_bit : ∀ p ∈ ([
    (0xC1, .cmp (.mem (.dpXInd 0x12))), (0xC3, .cmp (.mem (.sr 0x12))), (0xC5, .cmp (.mem (.dp 0x12))),
    (0xC7, .cmp (.mem (.dpIndLong 0x12))), (0xC9, .cmp (.imm 0x0012)), (0xCD, .cmp (.mem (.abs 0x3412))),
    (0xCF, .cmp (.mem (.long 0x563412))), (0xD1, .cmp (.mem (.dpIndY 0x12))), (0xD2, .cmp (.mem (.dpInd 0x12))),
    (0xD3, .cmp (.mem (.srIndY 0x12))), (0xD5, .cmp (.mem (.dpX 0x12))), (0xD7, .cmp (.mem (.dpIndLongY 0x12))),
    (0xD9, .cmp (.mem (.absY 0x3412))), (0xDD, .cmp (.mem (.absX 0x3412))), (0xDF, .cmp (.mem (.longX 0x563412))),
    (0xE0, .cpx (.imm 0x0012)), (0xE4, .cpx (.mem (.dp 0x12))), (0xEC, .cpx (.mem (.abs 0x3412))),
    (0xC0, .cpy (.imm 0x0012)), (0xC4, .cpy (.mem (.dp 0x12))), (0xCC, .cpy (.mem (.abs 0x3412))),
    (0x24, .bit (.mem (.dp 0x12))), (0x2C, .bit (.mem (.abs 0x3412))), (0x34, .bit (.mem (.dpX 0x12))),
    (0x3C, .bit (.mem (.absX 0x3412))), (0x89, .bit (.imm 0x0012)), (0x04, .tsb (.dp 0x12)),
    (0x0C, .tsb (.abs 0x3412)), (0x14, .trb (.dp 0x12)), (0x1C, .trb (.abs 0x3412)) ] : List (Byte × Instr)),
    decodes p.1 = some p.2 := by decide

theorem test_decode_modify : ∀ p ∈ ([
    (0x1A, .inc .acc), (0xE6, .inc (.mem (.dp 0x12))), (0xEE, .inc (.mem (.abs 0x3412))),
    (0xF6, .inc (.mem (.dpX 0x12))), (0xFE, .inc (.mem (.absX 0x3412))), (0x3A, .dec .acc),
    (0xC6, .dec (.mem (.dp 0x12))), (0xCE, .dec (.mem (.abs 0x3412))), (0xD6, .dec (.mem (.dpX 0x12))),
    (0xDE, .dec (.mem (.absX 0x3412))), (0xE8, .inx), (0xC8, .iny), (0xCA, .dex), (0x88, .dey),
    (0x06, .asl (.mem (.dp 0x12))), (0x0A, .asl .acc), (0x0E, .asl (.mem (.abs 0x3412))),
    (0x16, .asl (.mem (.dpX 0x12))), (0x1E, .asl (.mem (.absX 0x3412))), (0x46, .lsr (.mem (.dp 0x12))),
    (0x4A, .lsr .acc), (0x4E, .lsr (.mem (.abs 0x3412))), (0x56, .lsr (.mem (.dpX 0x12))),
    (0x5E, .lsr (.mem (.absX 0x3412))), (0x26, .rol (.mem (.dp 0x12))), (0x2A, .rol .acc),
    (0x2E, .rol (.mem (.abs 0x3412))), (0x36, .rol (.mem (.dpX 0x12))), (0x3E, .rol (.mem (.absX 0x3412))),
    (0x66, .ror (.mem (.dp 0x12))), (0x6A, .ror .acc), (0x6E, .ror (.mem (.abs 0x3412))),
    (0x76, .ror (.mem (.dpX 0x12))), (0x7E, .ror (.mem (.absX 0x3412))) ] : List (Byte × Instr)),
    decodes p.1 = some p.2 := by decide

theorem test_decode_control : ∀ p ∈ ([
    (0x90, .bcc 0x12), (0xB0, .bcs 0x12), (0xF0, .beq 0x12), (0xD0, .bne 0x12), (0x30, .bmi 0x12), (0x10, .bpl 0x12),
    (0x50, .bvc 0x12), (0x70, .bvs 0x12), (0x80, .bra 0x12), (0x82, .brl 0x3412), (0x4C, .jmp (.abs 0x3412)),
    (0x6C, .jmp (.ind 0x3412)), (0x7C, .jmp (.indX 0x3412)), (0x5C, .jml (.long 0x563412)),
    (0xDC, .jml (.indLong 0x3412)), (0x20, .jsr (.abs 0x3412)), (0xFC, .jsr (.indX 0x3412)), (0x22, .jsl 0x563412),
    (0x60, .rts), (0x6B, .rtl) ] : List (Byte × Instr)),
    decodes p.1 = some p.2 := by decide

theorem test_decode_stack : ∀ p ∈ ([
    (0x48, .pha), (0xDA, .phx), (0x5A, .phy), (0x08, .php), (0x8B, .phb), (0x0B, .phd), (0x4B, .phk), (0x68, .pla),
    (0xFA, .plx), (0x7A, .ply), (0x28, .plp), (0xAB, .plb), (0x2B, .pld), (0xF4, .pea 0x3412), (0xD4, .pei 0x12),
    (0x62, .per 0x3412) ] : List (Byte × Instr)),
    decodes p.1 = some p.2 := by decide

theorem test_decode_system : ∀ p ∈ ([
    (0x18, .clc), (0x38, .sec), (0x58, .cli), (0x78, .sei), (0xD8, .cld), (0xF8, .sed), (0xB8, .clv),
    (0xC2, .rep 0x12), (0xE2, .sep 0x12), (0xFB, .xce), (0xEA, .nop), (0x42, .wdm 0x12), (0xDB, .stp), (0xCB, .wai),
    (0x54, .mvn 0x12 0x34), (0x44, .mvp 0x12 0x34), (0x00, .brk 0x12), (0x02, .cop 0x12), (0x40, .rti) ] : List (Byte × Instr)),
    decodes p.1 = some p.2 := by decide

/-! One step of each instruction on the vectors of spec/95_test_vectors.md, part 3 (the number in each name is the vector's).
The expected values are those of the vector, two or three of its fields. -/

theorem test_v3_lda :
    ran ({ native with p := Status.ofByte 0x10, dbr := 0x7E }) [(0x7EFFFF, [0x34]), (0x7F0000, [0x12])] [0xAD, 0xFF, 0xFF] (fun t => (t.a, t.p.byte)) = some (0x1234, 0x10) := by decide

theorem test_v5_lda :
    ran ({ native with x := 0x0010, d := 0x0100 }) [(0x000208, [0xA5])] [0xB5, 0xF8] (fun t => (t.a, t.p.byte)) = some (0x00A5, 0xB0) := by decide

theorem test_v16_ldx :
    ran ({ native with p := Status.ofByte 0x20 }) [] [0xA2, 0xFF, 0xFF] (fun t => (t.x, t.p.byte)) = some (0xFFFF, 0xA0) := by decide

theorem test_v17_ldx :
    ran ({ native with x := 0x0055, y := 0x0002 }) [(0x000012, [0x00])] [0xB6, 0x10] (fun t => (t.x, t.p.byte)) = some (0x0000, 0x32) := by decide

theorem test_v18_ldy :
    ran ({ native with x := 0x0090 }) [(0x000110, [0x80])] [0xBC, 0x80, 0x00] (fun t => (t.y, t.p.byte)) = some (0x0080, 0xB0) := by decide

theorem test_v21_sta :
    ran ({ native with a := 0x0042, x := 0x0020 }) [] [0x9D, 0xF0, 0x12] (fun t => (t.peek 0x001310, t.p.byte)) = some (0x42, 0x30) := by decide

theorem test_v22_sta :
    ran ({ native with a := 0x0042, y := 0x0001, dbr := 0x7E }) [(0x000010, [0x00, 0x30])] [0x91, 0x10] (fun t => (t.peek 0x7E3001, t.p.byte)) = some (0x42, 0x30) := by decide

theorem test_v23_stx :
    ran ({ native with x := 0x0055, y := 0x0001 }) [] [0x96, 0x10] (fun t => (t.peek 0x000011, t.p.byte)) = some (0x55, 0x30) := by decide

theorem test_v24_sty :
    ran ({ native with p := Status.ofByte 0x20, y := 0xCAFE }) [] [0x8C, 0x00, 0x10] (fun t => (t.peek 0x001000, t.peek 0x001001, t.p.byte)) = some (0xFE, 0xCA, 0x20) := by decide

theorem test_v25_stz :
    ran ({ native with p := Status.ofByte 0x00, x := 0x0002 }) [(0x001002, [0xAA, 0xBB])] [0x9E, 0x00, 0x10] (fun t => (t.peek 0x001002, t.peek 0x001003, t.p.byte)) = some (0x00, 0x00, 0x00) := by decide

theorem test_v27_tax :
    ran ({ native with p := Status.ofByte 0x20, a := 0x12FF }) [] [0xAA] (fun t => (t.x, t.p.byte)) = some (0x12FF, 0x20) := by decide

theorem test_v28_tay :
    ran ({ native with a := 0x1200, y := 0x0055 }) [] [0xA8] (fun t => (t.y, t.p.byte)) = some (0x0000, 0x32) := by decide

theorem test_v29_txa :
    ran ({ native with p := Status.ofByte 0x10, a := 0xFFFF, x := 0x0080 }) [] [0x8A] (fun t => (t.a, t.p.byte)) = some (0x0080, 0x10) := by decide

theorem test_v30_tya :
    ran ({ native with a := 0x5500, y := 0x0080 }) [] [0x98] (fun t => (t.a, t.p.byte)) = some (0x5580, 0xB0) := by decide

theorem test_v31_txy :
    ran ({ native with p := Status.ofByte 0x20, y := 0x1234 }) [] [0x9B] (fun t => (t.y, t.p.byte)) = some (0x0000, 0x22) := by decide

theorem test_v32_tyx :
    ran ({ native with y := 0x00FF }) [] [0xBB] (fun t => (t.x, t.p.byte)) = some (0x00FF, 0xB0) := by decide

theorem test_v33_tsx :
    ran ({ native with p := Status.ofByte 0x20, sp := 0x01F0 }) [] [0xBA] (fun t => (t.x, t.p.byte)) = some (0x01F0, 0x20) := by decide

theorem test_v34_tsx :
    ran ({ native with sp := 0x0180 }) [] [0xBA] (fun t => (t.x, t.p.byte)) = some (0x0080, 0xB0) := by decide

theorem test_v35_txs :
    ran ({ native with x := 0x0080 }) [] [0x9A] (fun t => (t.sp, t.p.byte)) = some (0x0080, 0x30) := by decide

theorem test_v36_txs :
    ran ({ native with e := true, x := 0x0080 }) [] [0x9A] (fun t => (t.sp, t.p.byte)) = some (0x0180, 0x30) := by decide

theorem test_v39_tcd :
    ran ({ native with a := 0x8000 }) [] [0x5B] (fun t => (t.d, t.p.byte)) = some (0x8000, 0xB0) := by decide

theorem test_v40_tdc :
    ran ({ native with a := 0x1234 }) [] [0x7B] (fun t => (t.a, t.p.byte)) = some (0x0000, 0x32) := by decide

theorem test_v37_tcs :
    ran ({ native with e := true, a := 0x4080 }) [] [0x1B] (fun t => (t.sp, t.p.byte)) = some (0x0180, 0x30) := by decide

theorem test_v38_tcs :
    ran ({ native with a := 0x4080 }) [] [0x1B] (fun t => (t.sp, t.p.byte)) = some (0x4080, 0x30) := by decide

theorem test_v41_tsc :
    ran ({ native with a := 0xFFFF, sp := 0x01F9 }) [] [0x3B] (fun t => (t.a, t.p.byte)) = some (0x01F9, 0x30) := by decide

theorem test_v42_xba :
    ran ({ native with a := 0x8001 }) [] [0xEB] (fun t => (t.a, t.p.byte)) = some (0x0180, 0xB0) := by decide

theorem test_v48_adc :
    ran ({ native with a := 0x0080 }) [] [0x69, 0x80] (fun t => (t.a, t.p.byte)) = some (0x0000, 0x73) := by decide

theorem test_v49_adc :
    ran ({ native with p := Status.ofByte 0x38, a := 0x0019 }) [] [0x69, 0x28] (fun t => (t.a, t.p.byte)) = some (0x0047, 0x38) := by decide

theorem test_v57_sbc :
    ran ({ native with p := Status.ofByte 0x01, a := 0x8000 }) [] [0xE9, 0x01, 0x00] (fun t => (t.a, t.p.byte)) = some (0x7FFF, 0x41) := by decide

theorem test_v60_sbc :
    ran ({ native with p := Status.ofByte 0x39 }) [] [0xE9, 0x01] (fun t => (t.a, t.p.byte)) = some (0x0099, 0xB8) := by decide

theorem test_v62_and :
    ran ({ native with a := 0xFFF0 }) [] [0x29, 0x0F] (fun t => (t.a, t.p.byte)) = some (0xFF00, 0x32) := by decide

theorem test_v63_ora :
    ran ({ native with p := Status.ofByte 0x10, a := 0x0001 }) [] [0x09, 0x00, 0x80] (fun t => (t.a, t.p.byte)) = some (0x8001, 0x90) := by decide

theorem test_v64_eor :
    ran ({ native with a := 0x00FF }) [(0x000010, [0xFF])] [0x45, 0x10] (fun t => (t.a, t.p.byte)) = some (0x0000, 0x32) := by decide

theorem test_v67_cmp :
    ran ({ native with a := 0x0040 }) [] [0xC9, 0x41] (fun t => t.p.byte) = some 0xB0 := by decide

theorem test_v69_cmp :
    ran ({ native with p := Status.ofByte 0x10, a := 0x0100 }) [] [0xC9, 0x00, 0x01] (fun t => t.p.byte) = some 0x13 := by decide

theorem test_v70_cpx :
    ran ({ native with x := 0x0020 }) [] [0xE0, 0x10] (fun t => t.p.byte) = some 0x31 := by decide

theorem test_v71_cpy :
    ran ({ native with p := Status.ofByte 0x20, y := 0x0001 }) [] [0xC0, 0x00, 0x80] (fun t => t.p.byte) = some 0xA0 := by decide

theorem test_v73_bit :
    ran ({ native with a := 0x003F }) [] [0x89, 0xC0] (fun t => t.p.byte) = some 0x32 := by decide

theorem test_v74_bit :
    ran ({ native with a := 0x0001 }) [(0x001000, [0xC0])] [0x2C, 0x00, 0x10] (fun t => t.p.byte) = some 0xF2 := by decide

theorem test_v76_tsb :
    ran ({ native with a := 0x000F }) [(0x000010, [0xF0])] [0x04, 0x10] (fun t => (t.peek 0x000010, t.p.byte)) = some (0xFF, 0x32) := by decide

theorem test_v77_tsb :
    ran ({ native with a := 0x0011 }) [(0x000010, [0x10])] [0x04, 0x10] (fun t => (t.peek 0x000010, t.p.byte)) = some (0x11, 0x30) := by decide

theorem test_v78_trb :
    ran ({ native with p := Status.ofByte 0x10, a := 0x00FF }) [(0x001000, [0xFF, 0xFF])] [0x1C, 0x00, 0x10] (fun t => (t.peek 0x001001, t.peek 0x001000, t.p.byte)) = some (0xFF, 0x00, 0x10) := by decide

theorem test_v82_inc :
    ran ({ native with p := Status.ofByte 0x10 }) [(0x0010FF, [0xFF, 0x00])] [0xEE, 0xFF, 0x10] (fun t => (t.peek 0x001100, t.peek 0x0010FF, t.p.byte)) = some (0x01, 0x00, 0x10) := by decide

theorem test_v84_inc :
    ran ({ native with p := Status.ofByte 0x79, a := 0x0009 }) [] [0x1A] (fun t => (t.a, t.p.byte)) = some (0x000A, 0x79) := by decide

theorem test_v81_dec :
    ran ({ native with p := Status.ofByte 0x10 }) [] [0x3A] (fun t => (t.a, t.p.byte)) = some (0xFFFF, 0x90) := by decide

theorem test_v83_dec :
    ran (native) [(0x000010, [0x00])] [0xC6, 0x10] (fun t => (t.peek 0x000010, t.p.byte)) = some (0xFF, 0xB0) := by decide

theorem test_v85_inx :
    ran ({ native with x := 0x00FF }) [] [0xE8] (fun t => (t.x, t.p.byte)) = some (0x0000, 0x32) := by decide

theorem test_v86_inx :
    ran ({ native with p := Status.ofByte 0x20, x := 0x00FF }) [] [0xE8] (fun t => (t.x, t.p.byte)) = some (0x0100, 0x20) := by decide

theorem test_v87_iny :
    ran ({ native with p := Status.ofByte 0x20, y := 0xFFFF }) [] [0xC8] (fun t => (t.y, t.p.byte)) = some (0x0000, 0x22) := by decide

theorem test_v88_dex :
    ran ({ native with x := 0x0001 }) [] [0xCA] (fun t => (t.x, t.p.byte)) = some (0x0000, 0x32) := by decide

theorem test_v89_dey :
    ran ({ native with p := Status.ofByte 0x20 }) [] [0x88] (fun t => (t.y, t.p.byte)) = some (0xFFFF, 0xA0) := by decide

theorem test_v91_asl :
    ran ({ native with p := Status.ofByte 0x10 }) [(0x001000, [0x00, 0x80])] [0x0E, 0x00, 0x10] (fun t => (t.peek 0x001001, t.peek 0x001000, t.p.byte)) = some (0x00, 0x00, 0x13) := by decide

theorem test_v98_asl :
    ran ({ native with x := 0x0001, d := 0x0001 }) [(0x000012, [0x40])] [0x16, 0x10] (fun t => (t.peek 0x000012, t.p.byte)) = some (0x80, 0xB0) := by decide

theorem test_v92_lsr :
    ran ({ native with p := Status.ofByte 0xB0, a := 0x0001 }) [] [0x4A] (fun t => (t.a, t.p.byte)) = some (0x0000, 0x33) := by decide

theorem test_v93_lsr :
    ran ({ native with x := 0x0001 }) [(0x000011, [0xFE])] [0x56, 0x10] (fun t => (t.peek 0x000011, t.p.byte)) = some (0x7F, 0x30) := by decide

theorem test_v94_rol :
    ran ({ native with p := Status.ofByte 0x31, a := 0x0080 }) [] [0x2A] (fun t => (t.a, t.p.byte)) = some (0x0001, 0x31) := by decide

theorem test_v95_rol :
    ran ({ native with p := Status.ofByte 0x00, x := 0x0002 }) [(0x001002, [0x01, 0x40])] [0x3E, 0x00, 0x10] (fun t => (t.peek 0x001003, t.peek 0x001002, t.p.byte)) = some (0x80, 0x02, 0x80) := by decide

theorem test_v96_ror :
    ran ({ native with p := Status.ofByte 0x11, a := 0x0001 }) [] [0x6A] (fun t => (t.a, t.p.byte)) = some (0x8000, 0x91) := by decide

theorem test_v97_ror :
    ran (native) [(0x000010, [0x01])] [0x66, 0x10] (fun t => (t.peek 0x000010, t.p.byte)) = some (0x00, 0x33) := by decide

theorem test_v103_bcc :
    ran ({ native with pc := 0x80F0 }) [] [0x90, 0x7F] (fun t => t.pc) = some 0x8171 := by decide

theorem test_v104_bcs :
    ran (native) [] [0xB0, 0x7F] (fun t => t.pc) = some 0x8002 := by decide

theorem test_v105_bcs :
    ran ({ native with p := Status.ofByte 0x31 }) [] [0xB0, 0x7F] (fun t => t.pc) = some 0x8081 := by decide

theorem test_v101_beq :
    ran ({ native with p := Status.ofByte 0x32 }) [] [0xF0, 0xFC] (fun t => t.pc) = some 0x7FFE := by decide

theorem test_v99_bne :
    ran ({ native with p := Status.ofByte 0x32 }) [] [0xD0, 0x10] (fun t => t.pc) = some 0x8002 := by decide

theorem test_v100_bne :
    ran (native) [] [0xD0, 0x10] (fun t => t.pc) = some 0x8012 := by decide

theorem test_v106_bmi :
    ran ({ native with p := Status.ofByte 0xB0 }) [] [0x30, 0x02] (fun t => t.pc) = some 0x8004 := by decide

theorem test_v107_bpl :
    ran (native) [] [0x10, 0xFE] (fun t => t.pc) = some 0x8000 := by decide

theorem test_v108_bvc :
    ran (native) [] [0x50, 0x00] (fun t => t.pc) = some 0x8002 := by decide

theorem test_v110_bvs :
    ran ({ native with e := true, p := Status.ofByte 0x70 }) [] [0x70, 0x80] (fun t => t.pc) = some 0x7F82 := by decide

theorem test_v112_bra :
    ran (native) [] [0x80, 0x80] (fun t => t.pc) = some 0x7F82 := by decide

theorem test_v113_bra :
    ran ({ native with pbr := 0x01, pc := 0xFFF8 }) [] [0x80, 0x10] (fun t => t.pc) = some 0x000A := by decide

theorem test_v114_brl :
    ran (native) [] [0x82, 0x00, 0x10] (fun t => t.pc) = some 0x9003 := by decide

theorem test_v115_brl :
    ran (native) [] [0x82, 0xFD, 0xFF] (fun t => t.pc) = some 0x8000 := by decide

theorem test_v118_jmp :
    ran ({ native with pbr := 0x7E }) [(0x000000, [0xAB])] [0x6C, 0xFF, 0xFF] (fun t => t.pc) = some 0xABFF := by decide

theorem test_v119_jmp :
    ran ({ native with x := 0x0004, pbr := 0x7E }) [(0x7E9004, [0x22, 0x11])] [0x7C, 0x00, 0x90] (fun t => t.pc) = some 0x1122 := by decide

theorem test_v121_jml :
    ran (native) [(0x001000, [0x56, 0x34, 0x12])] [0xDC, 0x00, 0x10] (fun t => (t.pbr, t.pc)) = some (0x12, 0x3456) := by decide

theorem test_v123_jsr :
    ran ({ native with e := true, sp := 0x0100 }) [] [0x20, 0x00, 0x90] (fun t => (t.sp, t.peek 0x000100, t.peek 0x0001FF, t.pc)) = some (0x01FE, 0x80, 0x02, 0x9000) := by decide

theorem test_v125_jsr :
    ran ({ native with e := true, x := 0x0002, sp := 0x0100, pbr := 0x7E }) [(0x7E9002, [0x00, 0xA0])] [0xFC, 0x00, 0x90] (fun t => (t.sp, t.peek 0x000100, t.peek 0x0000FF, t.pc)) = some (0x01FE, 0x80, 0x02, 0xA000) := by decide

theorem test_v126_jsl :
    ran ({ native with sp := 0x01FC, pc := 0x1234 }) [] [0x22, 0xCC, 0xBB, 0xAA] (fun t => (t.sp, t.pbr, t.peek 0x0001FC, t.peek 0x0001FB, t.pc)) = some (0x01F9, 0xAA, 0x00, 0x12, 0xBBCC) := by decide

theorem test_v127_jsl :
    ran ({ native with e := true, sp := 0x0100, pc := 0x1234 }) [] [0x22, 0xCC, 0xBB, 0xAA] (fun t => (t.sp, t.pbr, t.peek 0x000100, t.peek 0x0000FF, t.pc)) = some (0x01FD, 0xAA, 0x00, 0x12, 0xBBCC) := by decide

theorem test_v128_rts :
    ran ({ native with sp := 0x01FD }) [(0x0001FE, [0x02, 0x80])] [0x60] (fun t => (t.sp, t.pc)) = some (0x01FF, 0x8003) := by decide

theorem test_v129_rts :
    ran ({ native with sp := 0x01FD }) [(0x0001FE, [0xFF, 0xFF])] [0x60] (fun t => (t.sp, t.pc)) = some (0x01FF, 0x0000) := by decide

theorem test_v130_rtl :
    ran ({ native with sp := 0x01FC }) [(0x0001FD, [0x37, 0x12, 0x05])] [0x6B] (fun t => (t.sp, t.pbr, t.pc)) = some (0x01FF, 0x05, 0x1238) := by decide

theorem test_v131_rtl :
    ran ({ native with e := true }) [(0x000200, [0x37, 0x12, 0x05])] [0x6B] (fun t => (t.sp, t.pbr, t.pc)) = some (0x0102, 0x05, 0x1238) := by decide

theorem test_v133_pha :
    ran ({ native with p := Status.ofByte 0x10, a := 0x1234 }) [] [0x48] (fun t => (t.sp, t.peek 0x0001FF, t.peek 0x0001FE, t.p.byte)) = some (0x01FD, 0x12, 0x34, 0x10) := by decide

theorem test_v134_pha :
    ran ({ native with e := true, a := 0x0042, sp := 0x0100 }) [] [0x48] (fun t => (t.sp, t.peek 0x000100, t.p.byte)) = some (0x01FF, 0x42, 0x30) := by decide

theorem test_v135_phx :
    ran ({ native with p := Status.ofByte 0x20, x := 0xBEEF }) [] [0xDA] (fun t => (t.sp, t.peek 0x0001FF, t.peek 0x0001FE, t.p.byte)) = some (0x01FD, 0xBE, 0xEF, 0x20) := by decide

theorem test_v136_phy :
    ran ({ native with y := 0x0077 }) [] [0x5A] (fun t => (t.sp, t.peek 0x0001FF, t.p.byte)) = some (0x01FE, 0x77, 0x30) := by decide

theorem test_v137_php :
    ran ({ native with p := Status.ofByte 0xA5 }) [] [0x08] (fun t => (t.sp, t.peek 0x0001FF, t.p.byte)) = some (0x01FE, 0xA5, 0xA5) := by decide

theorem test_v138_php :
    ran ({ native with e := true, p := Status.ofByte 0x31 }) [] [0x08] (fun t => (t.sp, t.peek 0x0001FF, t.p.byte)) = some (0x01FE, 0x31, 0x31) := by decide

theorem test_v139_phb :
    ran ({ native with dbr := 0x7E }) [] [0x8B] (fun t => (t.sp, t.peek 0x0001FF, t.p.byte)) = some (0x01FE, 0x7E, 0x30) := by decide

theorem test_v141_phd :
    ran ({ native with d := 0x1234 }) [] [0x0B] (fun t => (t.sp, t.peek 0x0001FF, t.peek 0x0001FE, t.p.byte)) = some (0x01FD, 0x12, 0x34, 0x30) := by decide

theorem test_v142_phd :
    ran ({ native with e := true, sp := 0x0100, d := 0x1234 }) [] [0x0B] (fun t => (t.sp, t.peek 0x000100, t.peek 0x0000FF, t.p.byte)) = some (0x01FE, 0x12, 0x34, 0x30) := by decide

theorem test_v140_phk :
    ran ({ native with pbr := 0x7E }) [] [0x4B] (fun t => (t.sp, t.peek 0x0001FF, t.p.byte)) = some (0x01FE, 0x7E, 0x30) := by decide

theorem test_v143_pla :
    ran ({ native with a := 0x1200, sp := 0x01FE }) [(0x0001FF, [0x80])] [0x68] (fun t => (t.a, t.sp, t.p.byte)) = some (0x1280, 0x01FF, 0xB0) := by decide

theorem test_v145_pla :
    ran ({ native with e := true }) [(0x000100, [0x7F]), (0x000200, [0xEE])] [0x68] (fun t => (t.a, t.sp, t.p.byte)) = some (0x007F, 0x0100, 0x30) := by decide

theorem test_v146_plx :
    ran ({ native with p := Status.ofByte 0x20, sp := 0x01FD }) [(0x0001FE, [0x34, 0x92])] [0xFA] (fun t => (t.x, t.sp, t.p.byte)) = some (0x9234, 0x01FF, 0xA0) := by decide

theorem test_v147_ply :
    ran ({ native with y := 0x0011, sp := 0x01FE }) [(0x0001FF, [0x00])] [0x7A] (fun t => (t.y, t.sp, t.p.byte)) = some (0x0000, 0x01FF, 0x32) := by decide

theorem test_v148_plp :
    ran ({ native with p := Status.ofByte 0x00, x := 0x1234, y := 0x5678, sp := 0x01FE }) [(0x0001FF, [0xFF])] [0x28] (fun t => (t.x, t.y, t.sp, t.p.byte)) = some (0x0034, 0x0078, 0x01FF, 0xFF) := by decide

theorem test_v149_plp :
    ran ({ native with e := true, sp := 0x01FE }) [(0x0001FF, [0x00])] [0x28] (fun t => (t.sp, t.p.byte)) = some (0x01FF, 0x30) := by decide

theorem test_v150_plb :
    ran ({ native with sp := 0x01FE }) [(0x0001FF, [0x80])] [0xAB] (fun t => (t.sp, t.dbr, t.p.byte)) = some (0x01FF, 0x80, 0xB0) := by decide

theorem test_v151_plb :
    ran ({ native with e := true }) [(0x000200, [0x7E]), (0x000100, [0x11])] [0xAB] (fun t => (t.sp, t.dbr, t.p.byte)) = some (0x0100, 0x7E, 0x30) := by decide

theorem test_v152_pld :
    ran ({ native with sp := 0x01FD }) [(0x0001FE, [0x00, 0x21])] [0x2B] (fun t => (t.sp, t.d, t.p.byte)) = some (0x01FF, 0x2100, 0x30) := by decide

theorem test_v153_pld :
    ran ({ native with sp := 0x01FD, d := 0x1234 }) [(0x0001FE, [0x00, 0x00])] [0x2B] (fun t => (t.sp, t.d, t.p.byte)) = some (0x01FF, 0x0000, 0x32) := by decide

theorem test_v154_pea :
    ran (native) [] [0xF4, 0x34, 0x12] (fun t => (t.sp, t.peek 0x0001FF, t.peek 0x0001FE, t.p.byte)) = some (0x01FD, 0x12, 0x34, 0x30) := by decide

theorem test_v155_pei :
    ran ({ native with d := 0x0100 }) [(0x000110, [0xCD, 0xAB])] [0xD4, 0x10] (fun t => (t.sp, t.peek 0x0001FF, t.peek 0x0001FE, t.p.byte)) = some (0x01FD, 0xAB, 0xCD, 0x30) := by decide

theorem test_v156_pei :
    ran ({ native with e := true }) [(0x0000FF, [0xCD, 0xAB])] [0xD4, 0xFF] (fun t => (t.sp, t.peek 0x0001FF, t.peek 0x0001FE, t.p.byte)) = some (0x01FD, 0xAB, 0xCD, 0x30) := by decide

theorem test_v157_per :
    ran (native) [] [0x62, 0x10, 0x00] (fun t => (t.sp, t.peek 0x0001FF, t.peek 0x0001FE, t.p.byte)) = some (0x01FD, 0x80, 0x13, 0x30) := by decide

theorem test_v158_per :
    ran (native) [] [0x62, 0xFD, 0xFF] (fun t => (t.sp, t.peek 0x0001FF, t.peek 0x0001FE, t.p.byte)) = some (0x01FD, 0x80, 0x00, 0x30) := by decide

theorem test_v159_clc :
    ran ({ native with p := Status.ofByte 0xFF }) [] [0x18] (fun t => t.p.byte) = some 0xFE := by decide

theorem test_v160_sec :
    ran ({ native with p := Status.ofByte 0x00 }) [] [0x38] (fun t => t.p.byte) = some 0x01 := by decide

theorem test_v161_cli :
    ran ({ native with p := Status.ofByte 0x34 }) [] [0x58] (fun t => t.p.byte) = some 0x30 := by decide

theorem test_v162_sei :
    ran (native) [] [0x78] (fun t => t.p.byte) = some 0x34 := by decide

theorem test_v163_cld :
    ran ({ native with p := Status.ofByte 0x38 }) [] [0xD8] (fun t => t.p.byte) = some 0x30 := by decide

theorem test_v164_sed :
    ran (native) [] [0xF8] (fun t => t.p.byte) = some 0x38 := by decide

theorem test_v165_clv :
    ran ({ native with p := Status.ofByte 0x70 }) [] [0xB8] (fun t => t.p.byte) = some 0x30 := by decide

theorem test_v166_rep :
    ran (native) [] [0xC2, 0x30] (fun t => t.p.byte) = some 0x00 := by decide

theorem test_v167_rep :
    ran ({ native with e := true }) [] [0xC2, 0x30] (fun t => t.p.byte) = some 0x30 := by decide

theorem test_v169_sep :
    ran ({ native with p := Status.ofByte 0x00, x := 0x1234, y := 0xABCD }) [] [0xE2, 0x10] (fun t => (t.x, t.y, t.p.byte)) = some (0x0034, 0x00CD, 0x10) := by decide

theorem test_v171_sep :
    ran ({ native with p := Status.ofByte 0x05 }) [] [0xE2, 0x00] (fun t => t.p.byte) = some 0x05 := by decide

theorem test_v172_xce :
    ran ({ native with p := Status.ofByte 0x01, a := 0xABCD, x := 0x1234, y := 0x5678, sp := 0x1FF0 }) [] [0xFB] (fun t => (t.x, t.y, t.sp, t.e, t.p.byte)) = some (0x0034, 0x0078, 0x01F0, true, 0x30) := by decide

theorem test_v173_xce :
    ran ({ native with e := true, sp := 0x01F0 }) [] [0xFB] (fun t => (t.e, t.p.byte)) = some (false, 0x31) := by decide

theorem test_v176_nop :
    ran (native) [] [0xEA] (fun t => t.pc) = some 0x8001 := by decide

theorem test_v177_wdm :
    ran (native) [] [0x42, 0xFF] (fun t => t.pc) = some 0x8002 := by decide

theorem test_v178_stp :
    ran (native) [] [0xDB, 0xEA] (fun t => (t.stopped, t.pc)) = some (true, 0x8001) := by decide

theorem test_v179_wai :
    ran ({ native with p := Status.ofByte 0x34 }) [(0x00FFEA, [0x00, 0x90])] [0xCB, 0xEA] (fun t => (t.waiting, t.pc)) = some (true, 0x8001) := by decide

theorem test_v182_brk :
    ran ({ native with pbr := 0x80, pc := 0x9000 }) [(0x00FFE6, [0x00, 0xA0])] [0x00, 0xEA] (fun t => (t.sp, t.pbr, t.peek 0x0001FF, t.peek 0x0001FE, t.pc, t.p.byte)) = some (0x01FB, 0x00, 0x80, 0x90, 0xA000, 0x34) := by decide

theorem test_v183_brk :
    ran ({ native with e := true, p := Status.ofByte 0x39, pc := 0x9000 }) [(0x00FFFE, [0x00, 0xA0])] [0x00, 0xEA] (fun t => (t.sp, t.peek 0x0001FF, t.peek 0x0001FE, t.pc, t.p.byte)) = some (0x01FC, 0x90, 0x02, 0xA000, 0x35) := by decide

theorem test_v184_cop :
    ran ({ native with p := Status.ofByte 0x08, pbr := 0x01, pc := 0x9000 }) [(0x00FFE4, [0x34, 0x12])] [0x02, 0x55] (fun t => (t.sp, t.pbr, t.peek 0x0001FF, t.peek 0x0001FE, t.pc, t.p.byte)) = some (0x01FB, 0x00, 0x01, 0x90, 0x1234, 0x04) := by decide

theorem test_v185_cop :
    ran ({ native with e := true, sp := 0x0101, pc := 0x9000 }) [(0x00FFF4, [0x34, 0x12])] [0x02, 0x55] (fun t => (t.sp, t.peek 0x000101, t.peek 0x000100, t.pc, t.p.byte)) = some (0x01FE, 0x90, 0x02, 0x1234, 0x34) := by decide

theorem test_v187_rti :
    ran ({ native with p := Status.ofByte 0x04, x := 0x1234, sp := 0x01FB }) [(0x0001FC, [0x30, 0x02, 0x90, 0x80])] [0x40] (fun t => (t.x, t.sp, t.pbr, t.pc, t.p.byte)) = some (0x0034, 0x01FF, 0x80, 0x9002, 0x30) := by decide

theorem test_v188_rti :
    ran ({ native with e := true, p := Status.ofByte 0x34, sp := 0x01FC }) [(0x0001FD, [0x00, 0x02, 0x90])] [0x40] (fun t => (t.sp, t.pc, t.p.byte)) = some (0x01FF, 0x9002, 0x30) := by decide

/-! Block moves (rules R335 to R337: the destination bank is the first operand byte). -/

/-- Native mode with 16-bit registers. -/
def native16 : State := { native with p := Status.ofByte 0x00 }

theorem test_mvn_first_byte :
    ran { native16 with a := 0x0001, x := 0x1000, y := 0x2000 } [(0x001000, [0x5A])] [0x54, 0x7E, 0x00]
      (fun t => (t.a, t.x, t.y, t.moving, t.peek 0x7E2000)) = some (0x0000, 0x1001, 0x2001, true, 0x5A) := by decide

theorem test_mvn_last_byte :
    ran { native16 with a := 0x0000, x := 0xFFFF, y := 0x2000 } [] [0x54, 0x7E, 0x7E]
      (fun t => (t.a, t.x, t.moving, t.pc)) = some (0xFFFF, 0x0000, false, 0x8003) := by decide

theorem test_mvp_index8 :
    ran { native with a := 0x0002, x := 0x0000, y := 0x0010 } [(0x7E0000, [0xA5])] [0x44, 0x00, 0x7E]
      (fun t => (t.a, t.x, t.y, t.dbr, t.peek 0x000010)) = some (0x0001, 0x00FF, 0x000F, 0x00, 0xA5) := by decide

/-! ## Cycle counts: the worked examples of rule R409 -/

theorem test_cycles_adc8 : ran native [] [0x69, 0x40] (·.cycles) = some 2 := by decide
theorem test_cycles_adc16 : ran native16 [] [0x69, 0x01, 0x00] (fun t => (t.cycles, t.pc)) = some (3, 0x8003) := by decide
theorem test_cycles_lda_dp16 : ran { native16 with d := 0x0001 } [] [0xA5, 0x10] (·.cycles) = some 5 := by decide
theorem test_cycles_lda_absX : ran { native with x := 0x0020 } [] [0xBD, 0xF0, 0x12] (·.cycles) = some 5 := by decide
theorem test_cycles_sta_absX : ran { native with x := 0x0020 } [] [0x9D, 0xF0, 0x12] (·.cycles) = some 5 := by decide
theorem test_cycles_inc16 : ran native16 [] [0xEE, 0x34, 0x12] (·.cycles) = some 8 := by decide
theorem test_cycles_adc_decimal : ran { native with p := Status.ofByte 0x38 } [] [0x65, 0x10] (·.cycles) = some 4 := by decide
theorem test_cycles_bne_not_taken : ran { native with p := Status.ofByte 0x32 } [] [0xD0, 0x10] (·.cycles) = some 2 := by decide
theorem test_cycles_bne_taken : ran native [] [0xD0, 0x10] (·.cycles) = some 3 := by decide
theorem test_cycles_bne_other_page : ran native [] [0xD0, 0x80] (·.cycles) = some 4 := by decide
theorem test_cycles_pha16 : ran native16 [] [0x48] (·.cycles) = some 4 := by decide
theorem test_cycles_brk_native : ran native [] [0x00, 0xEA] (·.cycles) = some 8 := by decide
theorem test_cycles_mvn : ran { native16 with a := 0x0002 } [] [0x54, 0x7E, 0x7E] (·.cycles) = some 7 := by decide

/-! ## The memory map and the DMA controller -/

/-- Rule R61, the offsets where the regions meet in a system bank, and the banks that are all cartridge or all WRAM. -/
theorem test_regions :
    [0x001FFF, 0x002000, 0x0020FF, 0x002100, 0x3F21FF, 0x802200, 0x004015, 0x004016, 0xBF4017, 0x004018, 0x0041FF, 0x004200,
      0x0043FF, 0x004400, 0x00FFFF, 0x400000, 0x7D0000, 0x7E0000, 0x7FFFFF, 0xC00000].map mapAddress =
      [.wram, .cartridge, .cartridge, .ppu, .ppu, .cartridge, .cartridge, .joypad, .joypad, .cartridge, .cartridge, .cpu,
        .cpu, .cartridge, .cartridge, .cartridge, .cartridge, .wram, .wram, .cartridge] := by decide

/-- Rule R62: with 131072 bytes bank 0x7F is the second half. -/
theorem test_wram_halves :
    storeKey { wram128 := true } 0x7F0000 ≠ storeKey { wram128 := true } 0x7E0000 ∧
      storeKey {} 0x7F1234 = storeKey {} 0x001234 := by decide

/-- Rule R353: the patterns of the eight mode values. -/
theorem test_dma_patterns :
    (List.range 8).map (fun m => (formatOfMode m).pattern) =
      [[0], [0, 1], [0, 0], [0, 0, 1, 1], [0, 1, 2, 3], [0, 1, 0, 1], [0, 0], [0, 0, 1, 1]] := by decide

/-- Rule R84: the vectors. -/
theorem test_vectors :
    [Interrupt.cop, .brk, .nmi, .irq].map (fun k => (vector k false, vector k true)) =
      [(0xFFE4, 0xFFF4), (0xFFE6, 0xFFFE), (0xFFEA, 0xFFFA), (0xFFEE, 0xFFFE)] := by decide

/-- A machine whose channel 0 is set up for one byte from 0x7E1000 to B-bus register 0x18, mode 0 (rules R42, R43, R352). -/
def dmaReady : State :=
  load 0x004300 [0x00, 0x18, 0x00, 0x10, 0x7E, 0x01, 0x00] (native.poke 0x7E1000 0x99)

/-- The same with channel 0 active. -/
def dmaStarted : State := busWrite 0x00420B 0x01 dmaReady

/-- Rules R355, R356, R360: the byte moves, the A-bus address goes up, the count down, the transfer ends. -/
theorem test_dma_one_byte :
    (let t := dmaStep dmaStarted
     (t.peek 0x002118, t.peek 0x004302, t.peek 0x004305, t.peek 0x00420B, t.dmaActive)) = (0x99, 0x01, 0x00, 0x00, false) := by
  decide

/-- The same transfer from the B-bus to the A-bus. -/
def dmaBack : State := busWrite 0x00420B 0x01 (load 0x004300 [0x80] dmaReady)

theorem test_dma_back : (let t := dmaStep (dmaBack.poke 0x002118 0x42)
    t.peek 0x7E1000) = 0x42 := by decide

/-- Rules R75, R352: a store to MDMAEN by an instruction starts the channel, the second byte of a 16-bit store too. -/
theorem test_sta_mdmaen :
    ran { dmaReady with a := 0x0001 } [] [0x8D, 0x0B, 0x42] (fun t => (t.ch[(0 : Fin 8)].active, t.ch[(0 : Fin 8)].aAddr)) =
      some (true, 0x7E1000) := by decide
theorem test_sta16_mdmaen :
    ran { native16 with a := 0x0100 } [] [0x8D, 0x0A, 0x42] (fun t => (t.ch[(0 : Fin 8)].active, t.ch[(1 : Fin 8)].active)) =
      some (true, false) := by decide

/-- Rule R72: the default cartridge ignores a write. -/
theorem test_cartridge_ignores :
    ran { native with a := 0x0042 } [] [0x8D, 0x00, 0x90] (fun t => (t.peek 0x009000, t.cart)) = some (0xFF, 0) := by decide

/-- Rule R424 in emulation mode: an IRQ pushes the status with its break bit clear (vector 193). -/
theorem test_irq_break_bit :
    ran { native with e := true, inputs := [{ Inputs.quiet with irqLine := true }] } [(0x00FFFE, [0x00, 0x90])] [0xEA]
      (fun t => (t.pc, t.sp, t.peek 0x0001FD)) = some (0x9000, 0x01FC, 0x20) := by decide

/-- Vectors 189 and 191: an NMI is taken, a masked IRQ is not. -/
theorem test_nmi_taken :
    ran { native with p := Status.ofByte 0x09, inputs := [{ Inputs.quiet with nmiEdge := true }] } [(0x00FFEA, [0x00, 0x90])]
      [0xEA] (fun t => (t.pc, t.p.byte, t.nmiPending)) = some (0x9000, 0x05, false) := by decide

theorem test_irq_masked :
    ran { native with p := Status.ofByte 0x34, inputs := [{ Inputs.quiet with irqLine := true }] } [] [0xEA] (·.pc) =
      some 0x8001 := by decide

/-- Rule R110: an opcode outside `Implemented` is fatal. -/
theorem test_unimplemented :
    step { native.poke 0x008000 0x42 with cfg := { unimplemented := [0x42] } } = .fault (.unimplementedOpcode 0x42) := by rfl

/-- Rules R163 and R175: decimal 19 + 28 (vector 49), and the two rows of spec/95_test_vectors.md section 2.1. -/
theorem test_bcd : (adcBcd (0x19 : Byte) 0x28 false).r = 0x47 := by decide
theorem test_inverse_law :
    ((adcBin (0xF0 : Byte) 0x20 false).r, (sbcBin (0x10 : Byte) 0x20 true).r, (sbcBin (0x10 : Byte) 0x20 true).c) =
      (0x10, 0xF0, false) := by decide

/-- The next step after a placed word runs it, from reset too (log 13). -/
theorem test_withFetchWord :
    (match step (State.reset.withFetchWord 16 0x5AA9) with
     | .next t => some (lowByte t.a)
     | _ => none) = some 0x5A := by decide

/-! ## Witnesses: what meets the hypotheses of each statement -/

/-- The state the machine goes to. -/
def after (o : Host.Outcome State Fault Refusal) : State :=
  match o with
  | .next t => t
  | _ => State.reset

/-- A test of the hypotheses of `StoredBytes`: a byte is stored behind each address, and no two are the same byte. -/
def storable (cfg : Cfg) (l : List (Addr × Byte)) : Bool :=
  l.all (fun p => !isRdnmi p.1 && !(mapAddress p.1 == .ppu && cfg.ppuExternal) && mapAddress p.1 != .joypad &&
    mapAddress p.1 != .cartridge) && decide ((l.map fun p => storeKey cfg p.1).Nodup)

theorem storable_spec {cfg : Cfg} {l : List (Addr × Byte)} (h : storable cfg l = true) :
    (∀ p ∈ l, Stores cfg p.1) ∧ l.Pairwise (fun p q => ¬ SameByte cfg p.1 q.1) := by
  simp only [storable, Bool.and_eq_true, List.all_eq_true, decide_eq_true_eq] at h
  refine ⟨fun p hp => ?_, List.pairwise_map.mp h.2⟩
  have := h.1 p hp
  simpa [Stores, Quiet, and_assoc, imp_iff_not_or] using this

theorem noMdmaen_spec {l : List Addr} (h : l.all (fun a => !isMdmaen a) = true) : ∀ a ∈ l, isMdmaen a = false := by
  simpa using h

theorem noCartridge_spec {cfg : Cfg} {l : List Addr} (h : l.all (fun a => mapAddress a != .cartridge || !cfg.cartWrites) = true) :
    ∀ a ∈ l, ¬ WritesCartridge cfg a := by
  intro a ha
  have := List.all_eq_true.mp h a ha
  simpa [WritesCartridge, imp_iff_not_or] using this

/-- NOP at the program counter. -/
def atNop : State := native.poke 0x008000 0xEA

theorem witness_DecodeOfEncode :
    WellFormed ⟨.w8, .w16⟩ (.lda (.imm 0x00FF)) = true ∧ WellFormed ⟨.w8, .w16⟩ (.ldx (.imm 0xFFFF)) = true ∧
      WellFormed ⟨.w8, .w8⟩ (.stx (.dpY 0xFF)) = true ∧ WellFormed ⟨.w8, .w8⟩ (.jml (.indLong 0xFFFF)) = true := by decide

theorem witness_EncodeOfDecode :
    decode ⟨.w8, .w8⟩ [0x18] = .ok (.clc, []) ∧ decode ⟨.w16, .w8⟩ [0x69, 0x01, 0x80, 0xEA] = .ok (.adc (.imm 0x8001), [0xEA]) := by
  decide

theorem witness_StepRunsTheDecodedInstruction :
    CoreActs atNop ∧ atNop.nmiPending = false ∧ atNop.env.nmiEdge = false ∧ (atNop.env.irqLine = true → atNop.p.i = true) ∧
      (atNop.waiting = true → atNop.env.irqLine = true) ∧ atNop.moving = false ∧
      (∀ k, k < opLength atNop.widths (atNop.peek (atNop.pcAddr 0)) → Quiet atNop.cfg (atNop.pcAddr k)) ∧
      decode atNop.widths [atNop.peek (atNop.pcAddr 0), atNop.peek (atNop.pcAddr 1), atNop.peek (atNop.pcAddr 2),
        atNop.peek (atNop.pcAddr 3)] = .ok (.nop, [0xFF, 0xFF, 0xFF]) ∧
      atNop.peek (atNop.pcAddr 0) ∉ atNop.cfg.unimplemented := by
  unfold CoreActs Quiet; decide

/-- NOP at the program counter of a machine that does not implement it. -/
def atMissing : State := { atNop with cfg := { unimplemented := [0xEA] } }

theorem witness_StepRunsTheDecodedInstruction_missing :
    CoreActs atMissing ∧ atMissing.nmiPending = false ∧ atMissing.env.nmiEdge = false ∧
      (atMissing.env.irqLine = true → atMissing.p.i = true) ∧ (atMissing.waiting = true → atMissing.env.irqLine = true) ∧
      atMissing.moving = false ∧
      (∀ k, k < opLength atMissing.widths (atMissing.peek (atMissing.pcAddr 0)) → Quiet atMissing.cfg (atMissing.pcAddr k)) ∧
      decode atMissing.widths [atMissing.peek (atMissing.pcAddr 0), atMissing.peek (atMissing.pcAddr 1),
        atMissing.peek (atMissing.pcAddr 2), atMissing.peek (atMissing.pcAddr 3)] = .ok (.nop, [0xFF, 0xFF, 0xFF]) ∧
      atMissing.peek (atMissing.pcAddr 0) ∈ atMissing.cfg.unimplemented := by
  unfold CoreActs Quiet; decide

theorem witness_TwoOutcomes :
    ({ native with fatal := some 0x42 } : State).fatal = some 0x42 ∧ native.fatal = none ∧ native.cfg.unimplemented = [] := by
  decide

theorem witness_StepKeepsInvariant : ∃ s t, Inv s ∧ step s = .next t := by
  refine ⟨native, after (step native), ?_, rfl⟩
  constructor
  · unfold EmulationInv; decide
  · unfold IndexInv; decide
  · unfold MemoryInv; decide
  · unfold ChannelInv; decide
  · unfold MdmaenInv; decide
  · unfold MoveInv; decide

/-- A block move in progress meets the invariant. -/
def moving : State :=
  { native16 with a := 0x0001, x := 0x1000, y := 0x2000, dbr := 0x7E, moving := true, mv := { src := 0x00, dst := 0x7E, dir := .up } }

theorem witness_StepKeepsInvariant_moving : moving.moving = true ∧ MoveInv moving := by
  unfold MoveInv; decide

theorem witness_ConfigurationIsConstant :
    (∃ t, step native = .next t) ∧ native.cfg.cartWrites = false ∧ mapAddress 0x008000 = .cartridge ∧
      mapAddress 0xFFFFFF = .cartridge :=
  ⟨⟨_, rfl⟩, by decide, by decide, by decide⟩

theorem witness_TimingIsNotFunctional :
    (∃ t, step native = .next t) ∧ ∃ f, step { native with fatal := some 0x42 } = .fault f :=
  ⟨⟨_, rfl⟩, ⟨_, rfl⟩⟩

theorem witness_WramIsMirrored :
    (IsSystemBank 0x00 ∧ IsSystemBank 0x3F ∧ IsSystemBank 0x80 ∧ IsSystemBank 0xBF) ∧ (0x1FFF : Word).toNat < 0x2000 ∧
      ({} : Cfg).wram128 = false ∧ native.mem.wf := by decide

theorem witness_ReadsSeeTheLastWrite :
    MemoryInv native ∧ Stores native.cfg 0x7E0000 ∧ Quiet native.cfg 0x800000 ∧ SameByte native.cfg 0x800000 0x7E0000 ∧
      Quiet native.cfg 0x7E0001 ∧ ¬ SameByte native.cfg 0x7E0001 0x7E0000 := by
  unfold MemoryInv Stores Quiet SameByte; decide

/-- A machine whose PPU is a device other than the latch array. -/
def deviceMachine : State := { native with cfg := { ppuExternal := true } }

theorem witness_ReadsSeeTheLastWrite_device :
    deviceMachine.cfg.ppuExternal = true ∧ mapAddress 0x002100 = .ppu ∧ mapAddress 0xBF21FF = .ppu ∧
      lowByte (offsetOf 0x002100) = 0x00 ∧ lowByte (offsetOf 0xBF21FF) = 0xFF := by decide

/-- A machine with a cartridge that does not ignore writes. -/
def cartMachine : State := { native with cfg := { cartWrites := true } }

theorem witness_ReadsSeeTheLastWrite_cartridge :
    (MemoryInv native ∧ mapAddress 0x008000 = .cartridge ∧ native.cfg.cartWrites = false ∧ Quiet native.cfg 0x000000) ∧
      MemoryInv cartMachine ∧ mapAddress 0xFFFFFF = .cartridge ∧ cartMachine.cfg.cartWrites = true ∧
      Quiet cartMachine.cfg 0xFFFFFF ∧ mapAddress 0x000000 ≠ .cartridge ∧ Quiet cartMachine.cfg 0x000000 := by
  unfold MemoryInv Quiet; decide

theorem witness_LoadOfRdnmiClearsIt :
    native.wM = .w8 ∧ IsSystemBank native.dbr ∧ ({ native with nmiFlag := true, dbr := 0xBF } : State).wM = .w8 ∧
      IsSystemBank ({ native with nmiFlag := true, dbr := 0xBF } : State).dbr := by decide

theorem witness_OnlyVBlankSetsTheNmiFlag :
    ∃ t, step { atNop with inputs := [{ Inputs.quiet with vblankStart := true }] } = .next t ∧ t.nmiFlag = true :=
  ⟨_, rfl, by decide⟩

theorem witness_DirectPageWrap :
    (true = true ∧ ({ native with e := true } : State).e = true ∧ lowByte ({ native with e := true } : State).d = 0x00) ∧
      (true = false ∨ ({ native with e := true, d := 0x0001 } : State).e = false ∨
        lowByte ({ native with e := true, d := 0x0001 } : State).d ≠ 0x00) := by decide

/-- The two clauses at their boundary: the last byte of the page, and the byte after it. -/
theorem test_dpAddr_boundary :
    dpAddr { native with e := true } 0xFF true = 0x0000FF ∧ dpAddr { native with e := true } 0x100 true = 0x000000 ∧
      dpAddr { native with e := true } 0x100 false = 0x000100 ∧ dpAddr { native with d := 0xFFFF } 0x01 true = 0x000000 := by
  decide

theorem witness_IndirectEffectiveAddresses :
    Quiet native.cfg (dpAddr native 0xFF true) ∧ Quiet native.cfg (dpAddr native 0x100 true) ∧
      Quiet native.cfg (dpAddr native 0x101 false) ∧ Quiet native.cfg (srAddr native 0xFF) ∧
      Quiet native.cfg (srAddr native 0x100) := by
  unfold Quiet; decide

theorem witness_DecimalArithmetic :
    IsDecimal (Width.bits .w8 / 4) (0x99 : Byte).toNat ∧ IsDecimal (Width.bits .w16 / 4) (0x9999 : Word).toNat ∧
      IsDecimal (Width.bits .w16 / 4) (0x0000 : Word).toNat := by
  simp [IsDecimal, Width.bits]

/-- The stack-relative form at the top of bank 0, whose second byte is not at the next address, and the absolute one. -/
theorem witness_OperandRead :
    (resolve (.sr 0x01) { native16 with sp := 0xFFFE }).addr0 = 0x00FFFF ∧
      (resolve (.sr 0x01) { native16 with sp := 0xFFFE }).addr1 = 0x000000 ∧ Quiet native16.cfg 0x00FFFF ∧
      Quiet native16.cfg 0x000000 ∧ Quiet native16.cfg (addrOf native16.dbr 0x1FFF) ∧
      Quiet native16.cfg (addrOf native16.dbr 0x1FFF + 1) := by
  unfold Quiet; decide

/-- Rules R148, R155: the high byte of that operand is at the start of bank 0. -/
theorem test_sr_wrap :
    ran { native16 with sp := 0xFFFE } [(0x00FFFF, [0x34]), (0x000000, [0x12])] [0xA3, 0x01] (·.a) =
      some 0x1234 := by decide

/-- The bytes of a 16-bit store are stored bytes: the hypotheses of `StoredBytes`. -/
theorem witness_StoreResult :
    let l := (resolve (.abs 0x1000) native16).cells .w16 (0x1234 : Word)
    MemoryInv native16 ∧ (∀ p ∈ l, Stores native16.cfg p.1) ∧ l.Pairwise (fun p q => ¬ SameByte native16.cfg p.1 q.1) :=
  ⟨by unfold MemoryInv; decide, storable_spec (by decide)⟩

/-- And no address of it is MDMAEN's, as the clause on the DMA channels asks; none reaches a cartridge that does not
ignore writes, as the clause on the cartridge asks, and in another machine one does. -/
theorem witness_StoreFrame :
    (∀ a ∈ (resolve (.abs 0x1000) native16).bytes .w16, isMdmaen a = false) ∧
      (∀ a ∈ (resolve (.abs 0x1000) native16).bytes .w16, ¬ WritesCartridge native16.cfg a) ∧
      (∀ a ∈ (resolve (.abs 0x1000) cartMachine).bytes .w16, ¬ WritesCartridge cartMachine.cfg a) ∧
      WritesCartridge cartMachine.cfg 0x009000 :=
  ⟨noMdmaen_spec (by decide), noCartridge_spec (by decide), noCartridge_spec (by decide), by decide, rfl⟩

theorem witness_AdcResult :
    native.p.d = false ∧ ({ native with p := Status.ofByte 0x38 } : State).p.d = true ∧
      ({ native with p := Status.ofByte 0x38 } : State).wM = .w8 ∧
      ({ native with p := Status.ofByte 0x08 } : State).p.d = true ∧
      ({ native with p := Status.ofByte 0x08 } : State).wM = .w16 := by decide

theorem witness_SbcResult :
    native16.p.d = false ∧ ({ native with p := Status.ofByte 0x39 } : State).p.d = true ∧
      ({ native with p := Status.ofByte 0x09 } : State).wM = .w16 := by decide

theorem witness_BranchResult :
    native.p.c = false ∧ ¬ (native.p.c = true) ∧ (0x7F : Byte).toNat < 0x80 ∧ ¬ (0x80 : Byte).toNat < 0x80 := by decide

theorem witness_JumpResult :
    Quiet native.cfg (addrOf 0x00 0xFFFF) ∧ Quiet native.cfg (addrOf 0x00 (0xFFFF + 1)) ∧
      Quiet native.cfg (addrOf 0x00 (0xFFFF + 2)) ∧ Quiet native.cfg (addrOf native.pbr (0x9000 + native.x)) ∧
      Quiet native.cfg (addrOf native.pbr (0x9000 + native.x + 1)) := by
  unfold Quiet; decide

theorem witness_CallResult :
    MemoryInv native ∧
      ((∀ p ∈ legacyWord native 0 0x8002, Stores native.cfg p.1) ∧
        (legacyWord native 0 0x8002).Pairwise (fun p q => ¬ SameByte native.cfg p.1 q.1)) ∧
      ((∀ p ∈ (newSlot native 0, native.pbr) :: newWord native 1 0x8003, Stores native.cfg p.1) ∧
        ((newSlot native 0, native.pbr) :: newWord native 1 0x8003).Pairwise (fun p q => ¬ SameByte native.cfg p.1 q.1)) ∧
      ∀ a ∈ (legacyWord native 0 0x8002).map Prod.fst, isMdmaen a = false :=
  ⟨by unfold MemoryInv; decide, storable_spec (by decide), storable_spec (by decide), noMdmaen_spec (by decide)⟩

/-- A stack with room above it. -/
def stacked : State := { native with sp := 0x01F0 }

theorem witness_ReturnResult :
    Quiet stacked.cfg (legacyTop stacked 1) ∧ Quiet stacked.cfg (legacyTop stacked 2) ∧ Quiet stacked.cfg (newTop stacked 1) ∧
      Quiet stacked.cfg (newTop stacked 2) ∧ Quiet stacked.cfg (newTop stacked 3) := by
  unfold Quiet; decide

theorem witness_CallsReturn :
    (EmulationInv native ∧ IndexInv native ∧ MemoryInv native ∧ ChannelInv native ∧ MdmaenInv native ∧ MoveInv native) ∧
      (∀ k, k < 2 → InWram (legacySlot native k)) ∧ ¬ SameByte native.cfg (legacySlot native 0) (legacySlot native 1) ∧
      (∀ k, k < 3 → InWram (newSlot native k)) ∧ native.e = false ∧
      ∀ k, k < 3 → ∀ j, j < k → ¬ SameByte native.cfg (newSlot native j) (newSlot native k) := by
  unfold EmulationInv IndexInv MemoryInv ChannelInv MdmaenInv MoveInv InWram SameByte; decide

/-- Emulation mode with just the room a JSL needs in page 1. -/
def lowStack : State := { native with e := true, sp := 0x0103 }

theorem witness_CallsReturn_emulation :
    (EmulationInv lowStack ∧ IndexInv lowStack ∧ MemoryInv lowStack ∧ ChannelInv lowStack ∧ MdmaenInv lowStack ∧
      MoveInv lowStack) ∧ (∀ k, k < 3 → InWram (newSlot lowStack k)) ∧ lowStack.e = true ∧
      3 ≤ (lowByte lowStack.sp).toNat ∧
      ∀ k, k < 3 → ∀ j, j < k → ¬ SameByte lowStack.cfg (newSlot lowStack j) (newSlot lowStack k) := by
  unfold EmulationInv IndexInv MemoryInv ChannelInv MdmaenInv MoveInv InWram SameByte; decide

/-- Rules R284, R286, R304 there: JSL leaves the stack pointer at 0x0100 and RTL finds the return address above it. -/
theorem test_jsl_rtl_emulation :
    (let t := after (exec (.jsl 0x123456) lowStack)
     let u := after (exec .rtl t)
     (t.sp, u.pc, u.pbr, u.sp)) = (0x0100, 0x8004, 0x00, 0x0103) := by decide

theorem witness_LegacyPushResult :
    native.wM = .w8 ∧ native.wX = .w8 ∧ native16.wM = .w16 ∧ native16.wX = .w16 := by decide

theorem witness_NewPushResult :
    Quiet native.cfg (dpAddr native 0xFF false) ∧ Quiet native.cfg (dpAddr native 0x100 false) := by
  unfold Quiet; decide

theorem witness_PullResult :
    Quiet stacked.cfg (legacyTop stacked 1) ∧ (stacked.wM = .w16 → Quiet stacked.cfg (legacyTop stacked 2)) ∧
      stacked.wM = .w8 ∧ Quiet stacked.cfg (newTop stacked 1) ∧ Quiet stacked.cfg (newTop stacked 2) := by
  unfold Quiet; decide

theorem witness_StatusByteResult :
    Quiet stacked.cfg (legacyTop stacked 1) ∧ (after (exec (.sep 0x10) native16)).p.x = true ∧
      (after (exec (.rep 0x10) native)).p.x = false := by
  unfold Quiet; decide

theorem witness_XceResult :
    (after (exec .xce { native with p := Status.ofByte 0x31 })).e = true ∧ (after (exec .xce native)).e = false ∧
      (after (exec .xce native)).p.x = true ∧ (after (exec .xce native16)).p.x = false := by decide

/-- A stopped processor and a waiting one. -/
def halted : State := { native with stopped := true }
def asleep : State := { native with waiting := true }

theorem witness_StopAndWait :
    (halted.fatal = none ∧ halted.env.resetLine = false ∧ halted.dmaActive = false ∧ halted.stopped = true) ∧
      asleep.fatal = none ∧ asleep.env.resetLine = false ∧ asleep.dmaActive = false ∧ asleep.waiting = true ∧
      asleep.nmiPending = false ∧ asleep.env.nmiEdge = false ∧ asleep.env.irqLine = false ∧
      ({ halted with cfg := { ppuExternal := true } } : State).cfg.ppuExternal = true := by decide

/-- Rules R381, R421: an idle tick latches the pulses of its inputs and uses them up. -/
theorem test_idle_latches :
    (let t := after (step { halted with inputs := [{ Inputs.quiet with nmiEdge := true, vblankStart := true }] })
     (t.nmiPending, t.nmiFlag, t.inputs, t.pc)) = (true, true, [], 0x8000) := by decide

theorem witness_BlockMoveStarts :
    Quiet native16.cfg (addrOf 0x00 native16.x) ∧ MemoryInv native16 ∧
      (∀ p ∈ [(addrOf 0x7E native16.y, (0x00 : Byte))], Stores native16.cfg p.1) ∧
      [(addrOf 0x7E native16.y, (0x00 : Byte))].Pairwise (fun p q => ¬ SameByte native16.cfg p.1 q.1) :=
  ⟨by unfold Quiet; decide, by unfold MemoryInv; decide, storable_spec (by decide)⟩

theorem witness_BlockMoveEnds :
    moving.moving = true ∧ CoreActs moving ∧ moving.nmiPending = false ∧ moving.env.nmiEdge = false ∧
      (moving.env.irqLine = true → moving.p.i = true) ∧ (moving.waiting = true → moving.env.irqLine = true) ∧
      Quiet moving.cfg (addrOf moving.mv.src moving.x) := by
  unfold CoreActs Quiet; decide

theorem witness_RegisterWriters :
    ∃ t, exec .tcd { native with a := 0x1234 } = .next t ∧ t.d ≠ ({ native with a := 0x1234 } : State).d :=
  ⟨_, rfl, by decide⟩

theorem witness_FlagWriters : ∃ t, exec .sec native = .next t ∧ t.p.c ≠ native.p.c := ⟨_, rfl, by decide⟩

theorem witness_WritersOfModeFixWidths :
    (Instr.sep 0x30).mnemonic ∈ ["REP", "SEP", "PLP", "RTI", "XCE"] ∧ ∃ t, exec (.sep 0x30) native16 = .next t :=
  ⟨by decide, _, rfl⟩

theorem witness_SoftwareInterruptResult :
    DefaultCycles native ∧ DefaultCycles { native with p := Status.ofByte 0x38 } ∧
      MemoryInv native ∧ (∀ p ∈ interruptFrame native 0x8002 0x30, Stores native.cfg p.1) ∧
      (interruptFrame native 0x8002 0x30).Pairwise (fun p q => ¬ SameByte native.cfg p.1 q.1) :=
  ⟨⟨rfl, .inl rfl⟩, ⟨rfl, .inr rfl⟩, by unfold MemoryInv; decide, storable_spec (by decide)⟩

/-- The vector clause of an interrupt entry: no byte of the frame reaches a cartridge that does not ignore writes, where
there is none and where there is one. -/
theorem witness_Enters :
    (∀ p ∈ interruptFrame native 0x8002 0x30, ¬ WritesCartridge native.cfg p.1) ∧
      ∀ p ∈ interruptFrame cartMachine 0x8002 0x30, ¬ WritesCartridge cartMachine.cfg p.1 :=
  ⟨fun p hp => noCartridge_spec (l := (interruptFrame native 0x8002 0x30).map Prod.fst) (by decide) p.1 (List.mem_map_of_mem hp),
    fun p hp => noCartridge_spec (l := (interruptFrame cartMachine 0x8002 0x30).map Prod.fst) (by decide) p.1
      (List.mem_map_of_mem hp)⟩

/-- A latched NMI request, and an IRQ with the mask clear. -/
def nmiWaits : State := { native with nmiPending := true }
def irqWaits : State := { native with inputs := [{ Inputs.quiet with irqLine := true }] }

theorem witness_HardwareInterruptsAreTaken :
    (CoreActs nmiWaits ∧ nmiWaits.nmiPending = true) ∧ CoreActs irqWaits ∧ irqWaits.nmiPending = false ∧
      irqWaits.env.nmiEdge = false ∧ irqWaits.env.irqLine = true ∧ irqWaits.p.i = false := by
  unfold CoreActs; decide

theorem witness_RtiResult :
    EmulationInv stacked ∧ (∀ k, k < 5 → 1 ≤ k → Quiet stacked.cfg (legacyTop stacked k)) ∧ stacked.e = false ∧
      EmulationInv { stacked with e := true } ∧ ({ stacked with e := true } : State).e = true := by
  unfold EmulationInv Quiet; decide

theorem witness_InterruptReturns :
    (EmulationInv native ∧ IndexInv native ∧ MemoryInv native ∧ ChannelInv native ∧ MdmaenInv native ∧ MoveInv native) ∧
      (∀ k, k < 4 → InWram (legacySlot native k)) ∧
      ∀ k, k < 4 → ∀ j, j < k → ¬ SameByte native.cfg (legacySlot native j) (legacySlot native k) := by
  unfold EmulationInv IndexInv MemoryInv ChannelInv MdmaenInv MoveInv InWram SameByte; decide

/-- A waiting processor with a masked IRQ. -/
def wakes : State :=
  { native with p := Status.ofByte 0x34, waiting := true, inputs := [{ Inputs.quiet with irqLine := true }] }

theorem witness_InterruptConditionEndsWait :
    CoreActs wakes ∧ wakes.waiting = true ∧
      (wakes.nmiPending = true ∨ wakes.env.nmiEdge = true ∨ wakes.env.irqLine = true) ∧ wakes.nmiPending = false ∧
      wakes.env.nmiEdge = false ∧ wakes.p.i = true ∧ wakes.moving = false := by
  unfold CoreActs; decide

theorem witness_ResetResult :
    ({ native with inputs := [{ Inputs.quiet with resetLine := true }] } : State).fatal = none ∧
      ({ native with inputs := [{ Inputs.quiet with resetLine := true }] } : State).env.resetLine = true ∧
      MemoryInv { native with inputs := [{ Inputs.quiet with resetLine := true }] } := by
  unfold MemoryInv; decide

theorem witness_MdmaenStartsChannels :
    MemoryInv dmaReady ∧ isMdmaen 0x00420B = true ∧ isMdmaen 0xBF420B = true ∧ (0x81 : Byte).getLsbD (7 : Fin 8).val = true ∧
      (0x81 : Byte).getLsbD (1 : Fin 8).val = false := by
  unfold MemoryInv; decide

/-- Stores that reach MDMAEN: one byte, and the second of two. -/
theorem witness_MdmaenStartsChannels_store :
    (∃ p ∈ (resolve (.abs 0x420B) dmaReady).cells .w8 (0x01 : Byte), isMdmaen p.1 = true ∧ p.2 = 0x01) ∧
      MemoryInv native16 ∧ native16.wM = .w16 ∧
      ∃ p ∈ (resolve (.abs 0x420A) native16).cells .w16 (0x0100 : Word), isMdmaen p.1 = true ∧ p.2 = 0x01 :=
  ⟨⟨(0x00420B, 0x01), by decide, by decide, rfl⟩, by unfold MemoryInv; decide, by decide, ⟨(0x00420B, 0x01), by decide, by decide, rfl⟩⟩

theorem witness_DmaPreemptsTheCore :
    dmaStarted.fatal = none ∧ dmaStarted.env.resetLine = false ∧ dmaStarted.dmaActive = true ∧
      ¬ WritesCartridge dmaStarted.cfg dmaStarted.ch[(0 : Fin 8)].destination := by
  unfold WritesCartridge; decide

theorem witness_DmaStepMovesAByte :
    (MemoryInv dmaStarted ∧ dmaStarted.cfg.ppuExternal = false ∧ dmaStarted.ch[(0 : Fin 8)].active = true ∧
      (∀ k : Fin 8, k < 0 → dmaStarted.ch[k].active = false) ∧ dmaStarted.ch[(0 : Fin 8)].dir = .aToB ∧
      Quiet dmaStarted.cfg dmaStarted.ch[(0 : Fin 8)].aAddr) ∧
    MemoryInv dmaBack ∧ dmaBack.ch[(0 : Fin 8)].active = true ∧ dmaBack.ch[(0 : Fin 8)].dir = .bToA ∧
      Stores dmaBack.cfg dmaBack.ch[(0 : Fin 8)].aAddr ∧ isMdmaen dmaBack.ch[(0 : Fin 8)].aAddr = false ∧
      ∀ r ∈ [2, 3, 5, 6], ¬ SameByte dmaBack.cfg dmaBack.ch[(0 : Fin 8)].aAddr (channelReg 0 r) := by
  unfold MemoryInv Stores Quiet SameByte; decide

theorem witness_TransferLength :
    MemoryInv dmaStarted ∧ dmaStarted.ch[(0 : Fin 8)].active = true ∧
      (∀ k : Fin 8, k ≠ 0 → dmaStarted.ch[k].active = false) ∧ dmaStarted.ch[(0 : Fin 8)].count = 1 ∧
      (busWrite 0x00420B 0x01 native).ch[(0 : Fin 8)].count = 0 ∧
      (busWrite 0x00420B 0x01 native).ch[(0 : Fin 8)].active = true := by
  unfold MemoryInv; decide

theorem witness_BranchCycles :
    DefaultCycles native ∧ (∃ t, exec (.bcc 0x10) native = .next t) ∧ ∃ t, exec (.brl 0x1000) native = .next t :=
  ⟨⟨rfl, .inl rfl⟩, ⟨_, rfl⟩, _, rfl⟩

theorem witness_InstructionCycles :
    (Instr.adc (.mem (.absX 0x12F0))).opcode = some 0x7D ∧ (Instr.cpx (.imm 0x0000)).opcode = some 0xE0 ∧
      (Instr.sta (.dp 0x10)).opcode = some 0x85 ∧ (Instr.stx (.dpY 0x10)).opcode = some 0x96 ∧
      (Instr.inc (.mem (.abs 0x1234))).opcode = some 0xEE ∧ (Instr.asl .acc).opcode = some 0x0A ∧
      Instr.tax.opcode = some 0xAA ∧ NoDecimalPenalty native ∧ Instr.tax.mnemonic ∈ ["TAX", "TAY"] ∧
      ∃ t, exec .tax native = .next t :=
  ⟨by decide, by decide, by decide, by decide, by decide, by decide, by decide, .inl rfl, by decide, _, rfl⟩
end

section
/-! The two outcomes of a tick (rules R10, R110, R435): the fault comes from `runInstruction` only, and every other branch
of the sequencer answers a state. -/

namespace Sys2Proof.Machine

/-- An outcome that is the next state, or the fatal condition of one of the opcodes `ops`. -/
def NextOrUnimplemented (ops : List Byte) (o : Host.Outcome State Fault Refusal) : Prop :=
  (∃ t, o = .next t) ∨ ∃ op ∈ ops, o = .fault (.unimplementedOpcode op)

theorem NextOrUnimplemented.next (ops : List Byte) (t : State) : NextOrUnimplemented ops (.next t) := .inl ⟨t, rfl⟩

theorem State.implements_eq_true_iff (s : State) (op : Byte) : s.implements op = true ↔ op ∉ s.cfg.unimplemented := by
  simp [State.implements]

/-- Where the opcode fetched is in `Implemented`, the instruction has its effect (rule R110). -/
theorem runInstruction_implemented {s : State} (h : (fetchOpcode s).1 ∉ s.cfg.unimplemented) :
    runInstruction s =
      exec (fetchInstr (fetchOpcode s).1 (fetchOpcode s).2).1 (fetchInstr (fetchOpcode s).1 (fetchOpcode s).2).2 :=
  if_pos ((s.implements_eq_true_iff _).mpr h)

/-- An opcode outside `Implemented` is the fatal condition (rules R110, R435). -/
theorem runInstruction_unimplemented {s : State} (h : (fetchOpcode s).1 ∈ s.cfg.unimplemented) :
    runInstruction s = .fault (.unimplementedOpcode (fetchOpcode s).1) :=
  if_neg fun hi => (s.implements_eq_true_iff _).mp hi h

theorem runInstruction_outcome (s : State) : NextOrUnimplemented s.cfg.unimplemented (runInstruction s) := by
  by_cases h : (fetchOpcode s).1 ∈ s.cfg.unimplemented
  · exact .inr ⟨_, h, runInstruction_unimplemented h⟩
  · rw [runInstruction_implemented h]
    exact .inl (exec_next _ _)

/-- Of the processor's units of work only an instruction can fault: an interrupt entry and a byte of a block move give a
state. -/
theorem processorWork_outcome (irq : Bool) (s : State) :
    NextOrUnimplemented s.cfg.unimplemented (processorWork irq s) := by
  unfold processorWork
  split
  case isTrue nmi => exact .next _ _
  split
  case isTrue interrupt => exact .next _ _
  split
  case isTrue moving => exact .next _ _
  exact runInstruction_outcome s

/-- A machine that is not in the fatal condition steps to a state, or enters that condition by an opcode outside
`Implemented`: reset, DMA and the idle step do not fault (rules R380, R381). -/
theorem step_outcome {s : State} (h : s.fatal = none) : NextOrUnimplemented s.cfg.unimplemented (step s) := by
  cases hr : s.env.resetLine
  case true => rw [step_reset h hr]; exact .next _ _
  cases hd : s.dmaActive
  case true => rw [step_dma h hr hd]; exact .next _ _
  by_cases hi : s.stopped = true ∨
      (s.waiting = true ∧ s.nmiPending = false ∧ s.env.nmiEdge = false ∧ s.env.irqLine = false)
  · rw [step_idle h hr hd hi]; exact .next _ _
  · obtain ⟨hs, hw⟩ := not_or.mp hi
    have core : CoreActs s := ⟨h, hr, hd, by simpa using hs⟩
    have wakes : s.waiting = true → s.nmiPending = true ∨ s.env.nmiEdge = true ∨ s.env.irqLine = true := by
      intro waits
      simpa [waits, imp_iff_not_or] using hw
    rw [step_core core wakes]
    exact processorWork_outcome _ _

/-- Settles O5, by the sticky condition where the machine is in it, and by the branches of the tick where it is not. -/
theorem twoOutcomes : Obligations.TwoOutcomes := by
  intro s
  refine ⟨?_, fun op h => step_fatal h, fun h hall => ?_⟩
  · cases h : s.fatal with
    | some op => exact .inr ⟨op, step_fatal h, .inl rfl⟩
    | none =>
      obtain next | ⟨op, hop, fault⟩ := step_outcome h
      · exact .inl next
      · exact .inr ⟨op, fault, .inr ⟨rfl, hop⟩⟩
  · obtain next | ⟨op, hop, _⟩ := step_outcome h
    · exact next
    · simp [hall] at hop

end Sys2Proof.Machine
end

section
/-! What an instruction may do to the state, said once for each instruction: the parts it may change (the tables of rules R20
and R29 read the other way round), and that it reaches the bus by reads and writes of single bytes only (rules R74, R75). -/

namespace Sys2Proof.Machine

/-! Bus accesses. -/

/-- From `s` to `t` by bus reads, bus writes, and changes of anything that is not behind the bus. -/
inductive BusRun (s : State) : State → Prop
  | refl : BusRun s s
  | read {t : State} (a : Addr) : BusRun s t → BusRun s (busRead a t).2
  | write {t : State} (a : Addr) (v : Byte) : BusRun s t → BusRun s (busWrite a v t)
  | inside {t u : State} : BusRun s t → u.mem = t.mem → u.ch = t.ch → u.cart = t.cart → u.cfg = t.cfg →
      u.nmiFlag = t.nmiFlag → BusRun s u

theorem BusRun.trans {s t u : State} (h : BusRun s t) (h' : BusRun t u) : BusRun s u := by
  induction h' with
  | refl => exact h
  | read a _ ih => exact ih.read a
  | write a v _ ih => exact ih.write a v
  | inside _ hm hch hk hc hf ih => exact ih.inside hm hch hk hc hf

theorem BusRun.cfg {s t : State} (h : BusRun s t) : t.cfg = s.cfg := by
  induction h with
  | refl => rfl
  | read a _ ih => rw [busRead_cfg, ih]
  | write a v _ ih => rw [busWrite_cfg, ih]
  | inside _ _ _ _ hc _ ih => rw [hc, ih]

/-! The effect of an operation. -/

/-- From `s` to `t` only the parts listed change, and what is behind the bus by bus accesses alone. -/
structure Effect (l : List Part) (s t : State) : Prop where
  only : ChangesOnly l s t
  bus : BusRun s t

theorem Effect.refl (l : List Part) (s : State) : Effect l s s :=
  ⟨fun p _ => by cases p <;> first | rfl | exact fun _ => rfl, .refl⟩

/-- One operation after the other changes what either changes. -/
theorem Effect.then {l m : List Part} {s t u : State} (h : Effect l s t) (h' : Effect m t u) : Effect (l ++ m) s u := by
  refine ⟨fun p hp => ?_, h.bus.trans h'.bus⟩
  obtain ⟨hl, hm⟩ := not_or.mp (mt List.mem_append.mpr hp)
  have h1 := h.only p hl
  have h2 := h'.only p hm
  cases p
  case ppuDevice => exact fun he => (h2 (by rw [h.bus.cfg]; exact he)).trans (h1 he)
  all_goals exact Eq.trans h2 h1

theorem Effect.within {l m : List Part} {s t : State} (h : Effect l s t) (hl : l.all (m.contains ·) = true) :
    Effect m s t :=
  ⟨h.only.mono fun p hp => by simpa using List.all_eq_true.mp hl p hp, h.bus⟩

/-- A change of nothing behind the bus. -/
theorem Effect.inside {l : List Part} {s t : State} (h : ChangesOnly l s t)
    (hl : [Part.mem, .ch, .cart, .cfg, .nmiFlag].all (fun p => !l.contains p) = true) : Effect l s t := by
  have out : ∀ p ∈ [Part.mem, .ch, .cart, .cfg, .nmiFlag], p ∉ l := fun p hp => by
    simpa using List.all_eq_true.mp hl p hp
  exact ⟨h, BusRun.refl.inside (h .mem (out _ (by decide))) (h .ch (out _ (by decide))) (h .cart (out _ (by decide)))
    (h .cfg (out _ (by decide))) (h .nmiFlag (out _ (by decide)))⟩

/-! Changes of registers. -/

theorem setAcc_effect (W : Width) (v : BitVec W.bits) (s : State) : Effect [.a] s (s.setAcc W v) :=
  .inside (fun p hp => by cases p <;> first | rfl | exact fun _ => rfl | exact absurd hp (by decide)) rfl

theorem setX_effect (W : Width) (v : BitVec W.bits) (s : State) : Effect [.x] s (s.setX W v) :=
  .inside (fun p hp => by cases p <;> first | rfl | exact fun _ => rfl | exact absurd hp (by decide)) rfl

theorem setY_effect (W : Width) (v : BitVec W.bits) (s : State) : Effect [.y] s (s.setY W v) :=
  .inside (fun p hp => by cases p <;> first | rfl | exact fun _ => rfl | exact absurd hp (by decide)) rfl

theorem setNZ_effect {w : Nat} (v : BitVec w) (s : State) : Effect [.flagN, .flagZ] s (s.setNZ v) :=
  .inside (fun p hp => by cases p <;> first | rfl | exact fun _ => rfl | exact absurd hp (by decide)) rfl

theorem setA_effect (v : Word) (s : State) : Effect [.a] s { s with a := v } := setAcc_effect .w16 v s

theorem setD_effect (v : Word) (s : State) : Effect [.d] s { s with d := v } :=
  .inside (fun p hp => by cases p <;> first | rfl | exact fun _ => rfl | exact absurd hp (by decide)) rfl

theorem setDbr_effect (v : Byte) (s : State) : Effect [.dbr] s { s with dbr := v } :=
  .inside (fun p hp => by cases p <;> first | rfl | exact fun _ => rfl | exact absurd hp (by decide)) rfl

theorem setPc_effect (v : Word) (s : State) : Effect [.pc] s { s with pc := v } :=
  .inside (fun p hp => by cases p <;> first | rfl | exact fun _ => rfl | exact absurd hp (by decide)) rfl

theorem setPbr_effect (v : Byte) (s : State) : Effect [.pbr] s { s with pbr := v } :=
  .inside (fun p hp => by cases p <;> first | rfl | exact fun _ => rfl | exact absurd hp (by decide)) rfl

theorem setPcBank_effect (v : Word) (b : Byte) (s : State) : Effect [.pc, .pbr] s { s with pc := v, pbr := b } :=
  .inside (fun p hp => by cases p <;> first | rfl | exact fun _ => rfl | exact absurd hp (by decide)) rfl

theorem setStopped_effect (b : Bool) (s : State) : Effect [.stopped] s { s with stopped := b } :=
  .inside (fun p hp => by cases p <;> first | rfl | exact fun _ => rfl | exact absurd hp (by decide)) rfl

theorem setWaiting_effect (b : Bool) (s : State) : Effect [.waiting] s { s with waiting := b } :=
  .inside (fun p hp => by cases p <;> first | rfl | exact fun _ => rfl | exact absurd hp (by decide)) rfl

theorem setDraws_effect (n : Nat) (s : State) : Effect [.draws] s { s with draws := n } :=
  .inside (fun p hp => by cases p <;> first | rfl | exact fun _ => rfl | exact absurd hp (by decide)) rfl

theorem setSp_effect (v : Word) (s : State) : Effect [.sp] s { s with sp := v } := .inside (setSp_changesOnly v s) rfl
theorem fixSH_effect (s : State) : Effect [.sp] s (fixSH s) := .inside (fixSH_changesOnly s) rfl
theorem spend_effect (n : Nat) (s : State) : Effect [.cycles] s (spend n s) := .inside (spend_changesOnly n s) rfl

theorem setPbyte_effect (v : Byte) (s : State) : Effect (.sp :: statusParts) s (setPbyte v s) :=
  .inside ((setPbyte_changesOnly v s).mono (by decide)) rfl

/-- The end of an instruction. -/
theorem Effect.finish {l : List Part} {s t : State} (h : Effect l s t) (i : Instr) (info : CycleInfo) (s0 : State) :
    Effect (l ++ [.pc, .cycles]) s (finish i info s0 t) :=
  h.then (.inside (finish_changesOnly i info s0 t) rfl)

theorem Effect.report {l : List Part} {s t : State} (h : Effect l s t) (i : Instr) (info : CycleInfo) (s0 : State) :
    Effect (l ++ [.cycles]) s (report i info s0 t) :=
  h.then (.inside (report_changesOnly i info s0 t) rfl)

/-! Changes of flags. -/

/-- The flags `q` are those of `p` but for the parts listed. -/
def FlagsKept (l : List Part) (p q : Status) : Prop :=
  (.flagN ∉ l → q.n = p.n) ∧ (.flagV ∉ l → q.v = p.v) ∧ (.flagM ∉ l → q.m = p.m) ∧ (.flagX ∉ l → q.x = p.x) ∧
    (.flagD ∉ l → q.d = p.d) ∧ (.flagI ∉ l → q.i = p.i) ∧ (.flagZ ∉ l → q.z = p.z) ∧ (.flagC ∉ l → q.c = p.c)

theorem FlagsKept.of_part {l : List Part} {s t : State} (h : ChangesOnly l s t) : FlagsKept l s.p t.p :=
  ⟨h .flagN, h .flagV, h .flagM, h .flagX, h .flagD, h .flagI, h .flagZ, h .flagC⟩

theorem setP_changesOnly {l : List Part} {s : State} {q : Status} (h : FlagsKept l s.p q) :
    ChangesOnly l s { s with p := q } := by
  obtain ⟨hn, hv, hm, hx, hd, hi, hz, hc⟩ := h
  intro p hp
  cases p
  case flagN => exact hn hp
  case flagV => exact hv hp
  case flagM => exact hm hp
  case flagX => exact hx hp
  case flagD => exact hd hp
  case flagI => exact hi hp
  case flagZ => exact hz hp
  case flagC => exact hc hp
  case ppuDevice => exact fun _ => rfl
  all_goals rfl

theorem setNZ_kept {w : Nat} (p : Status) (v : BitVec w) : FlagsKept [.flagN, .flagZ] p (p.setNZ v) := by
  simp [FlagsKept]

theorem setCNZ_kept {w : Nat} (p : Status) (o : ShiftOut w) : FlagsKept [.flagN, .flagZ, .flagC] p (p.setCNZ o) := by
  simp [FlagsKept]

theorem bitFlags_kept {w : Nat} (b : Bool) (a m : BitVec w) (p : Status) :
    FlagsKept [.flagN, .flagV, .flagZ] p (bitFlags b a m p) := by
  simp [FlagsKept, bitFlags]

/-! Bus reads. -/

theorem busRead_effect (a : Addr) (s : State) : Effect [.nmiFlag] s (busRead a s).2 :=
  ⟨busRead_changesOnly a s, .read a .refl⟩

theorem readWordW_effect (b : Byte) (o : Word) (s : State) : Effect [.nmiFlag] s (readWordW b o s).2 :=
  ((busRead_effect _ s).then (busRead_effect _ _)).within rfl

theorem readLongW_effect (b : Byte) (o : Word) (s : State) : Effect [.nmiFlag] s (readLongW b o s).2 :=
  ((readWordW_effect _ _ s).then (busRead_effect _ _)).within rfl

theorem dpPointer_effect (o : Nat) (l : Bool) (s : State) : Effect [.nmiFlag] s (dpPointer o l s).2 :=
  ((busRead_effect _ s).then (busRead_effect _ _)).within rfl

theorem dpPointerLong_effect (o : Nat) (s : State) : Effect [.nmiFlag] s (dpPointerLong o s).2 :=
  ((dpPointer_effect _ _ s).then (busRead_effect _ _)).within rfl

theorem resolve_effect (m : Mem) (s : State) : Effect [.nmiFlag] s (resolve m s).st := by
  cases m with
  | dpInd _ | dpXInd _ | dpIndY _ => exact dpPointer_effect _ _ s
  | dpIndLong _ | dpIndLongY _ => exact dpPointerLong_effect _ s
  | srIndY _ => exact readWordW_effect _ _ s
  | abs _ | absX _ | absY _ | long _ | longX _ | dp _ | dpX _ | dpY _ | sr _ => exact .refl _ s

theorem readData_effect (W : Width) (r : Resolved) (s : State) : Effect [.nmiFlag] s (readData W r s).2 := by
  cases W
  · exact busRead_effect _ s
  · exact ((busRead_effect _ s).then (busRead_effect _ _)).within rfl

theorem readSrc_effect (src : Src) (W : Width) (s : State) : Effect [.nmiFlag] s (readSrc src W s).st := by
  cases src
  · exact .refl _ s
  · exact ((resolve_effect _ s).then (readData_effect _ _ _)).within rfl

theorem jumpTarget_effect (t : JumpTarget) (s : State) : Effect [.nmiFlag] s (jumpTarget t s).2 := by
  cases t
  · exact .refl _ s
  · exact readWordW_effect _ _ s
  · exact readWordW_effect _ _ s

theorem longTarget_effect (t : LongTarget) (s : State) : Effect [.nmiFlag] s (longTarget t s).2 := by
  cases t
  · exact .refl _ s
  · exact readLongW_effect _ _ s

theorem pull8_effect (s : State) : Effect [.sp, .nmiFlag] s (pull8 s).2 :=
  (setSp_effect _ s).then (busRead_effect _ _)

theorem pull16_effect (s : State) : Effect [.sp, .nmiFlag] s (pull16 s).2 :=
  ((pull8_effect s).then (pull8_effect _)).within rfl

theorem pull8N_effect (s : State) : Effect [.sp, .nmiFlag] s (pull8N s).2 :=
  (setSp_effect _ s).then (busRead_effect _ _)

theorem pull16N_effect (s : State) : Effect [.sp, .nmiFlag] s (pull16N s).2 :=
  ((pull8N_effect s).then (pull8N_effect _)).within rfl

theorem pullW_effect (W : Width) (s : State) : Effect [.sp, .nmiFlag] s (pullW W s).2 := by
  cases W
  · exact pull8_effect s
  · exact pull16_effect s

theorem fetchOperands_effect : ∀ (k i : Nat) (s : State), Effect [.nmiFlag] s (fetchOperands k i s).2
  | 0, _, s => .refl _ s
  | k + 1, i, s => ((busRead_effect _ s).then (fetchOperands_effect k (i + 1) _)).within rfl

/-- Fetching an instruction changes nothing but the flag of RDNMI, where a byte of the instruction is read there. -/
theorem fetchInstr_effect (s : State) :
    Effect [.nmiFlag] s (fetchInstr (fetchOpcode s).1 (fetchOpcode s).2).2 :=
  ((busRead_effect _ s).then (fetchOperands_effect _ _ _)).within rfl

/-! Bus writes. -/

theorem busWrite_effect (a : Addr) (v : Byte) (s : State) : Effect [.mem, .ch, .cart] s (busWrite a v s) :=
  ⟨busWrite_changesOnly a v s, .write a v .refl⟩

theorem writeAll_effect : ∀ (l : List (Addr × Byte)) (s : State), Effect [.mem, .ch, .cart] s (writeAll l s)
  | [], s => .refl _ s
  | p :: l, s => ((busWrite_effect p.1 p.2 s).then (writeAll_effect l _)).within rfl

theorem writeData_effect (W : Width) (r : Resolved) (v : BitVec W.bits) (s : State) :
    Effect [.mem, .ch, .cart] s (writeData W r v s) := by
  rw [writeData_eq]; exact writeAll_effect _ s

theorem writeBack_effect (W : Width) (r : Resolved) (v : BitVec W.bits) (s : State) :
    Effect [.mem, .ch, .cart] s (writeBack W r v s) := by
  rw [writeBack_eq]; exact writeAll_effect _ s

theorem push8_effect (v : Byte) (s : State) : Effect [.mem, .ch, .cart, .sp] s (push8 v s) :=
  (busWrite_effect _ v s).then (setSp_effect _ _)

theorem push16_effect (v : Word) (s : State) : Effect [.mem, .ch, .cart, .sp] s (push16 v s) :=
  ((push8_effect _ s).then (push8_effect _ _)).within rfl

theorem push8N_effect (v : Byte) (s : State) : Effect [.mem, .ch, .cart, .sp] s (push8N v s) :=
  (busWrite_effect _ v s).then (setSp_effect _ _)

theorem push16N_effect (v : Word) (s : State) : Effect [.mem, .ch, .cart, .sp] s (push16N v s) :=
  ((push8N_effect _ s).then (push8N_effect _ _)).within rfl

theorem pushW_effect (W : Width) (v : BitVec W.bits) (s : State) : Effect [.mem, .ch, .cart, .sp] s (pushW W v s) := by
  cases W
  · exact push8_effect v s
  · exact push16_effect v s

/-! The shapes the instructions share. -/

theorem Effect.p_eq {l : List Part} {s t : State} (h : Effect l s t)
    (hl : [Part.flagN, .flagV, .flagM, .flagX, .flagD, .flagI, .flagZ, .flagC].all (fun p => !l.contains p) = true) :
    t.p = s.p := by
  have out : ∀ p ∈ [Part.flagN, .flagV, .flagM, .flagX, .flagD, .flagI, .flagZ, .flagC], p ∉ l := fun p hp => by
    simpa using List.all_eq_true.mp hl p hp
  obtain ⟨hn, hv, hm, hx, hd, hi, hz, hc⟩ := FlagsKept.of_part h.only
  have status_ext : ∀ {p q : Status}, q.n = p.n → q.v = p.v → q.m = p.m → q.x = p.x → q.d = p.d → q.i = p.i →
      q.z = p.z → q.c = p.c → q = p := by
    rintro ⟨⟩ ⟨⟩ rfl rfl rfl rfl rfl rfl rfl rfl; rfl
  exact status_ext (hn (out _ (by decide))) (hv (out _ (by decide))) (hm (out _ (by decide))) (hx (out _ (by decide)))
    (hd (out _ (by decide))) (hi (out _ (by decide))) (hz (out _ (by decide))) (hc (out _ (by decide)))

/-- Flags computed from those the instruction started with. -/
theorem Effect.flags {l m : List Part} {s t : State} {q : Status} (h : Effect l s t) (hp : t.p = s.p)
    (hq : FlagsKept m s.p q) (hm : [Part.mem, .ch, .cart, .cfg, .nmiFlag].all (fun p => !m.contains p) = true) :
    Effect (l ++ m) s { t with p := q } :=
  h.then (.inside (setP_changesOnly (by rw [hp]; exact hq)) hm)

theorem applyAdd_effect (src : Src) (W V : Width) (o : AddOut W.bits) (s : State) :
    Effect [.a, .flagN, .flagV, .flagZ, .flagC, .draws, .nmiFlag] s (applyAdd W o s (readSrc src V s).st) :=
  ((((readSrc_effect src V s).then (setAcc_effect W o.r _)).flags (by simp)
    (q := { s.p with n := o.n, v := addOverflow W o.v s, z := o.z, c := o.c }) (m := [.flagN, .flagV, .flagZ, .flagC])
    (by simp [FlagsKept]) rfl).then (setDraws_effect (if s.p.d && W = .w16 then s.draws + 1 else s.draws) _)).within rfl

theorem logic_effect (i : Instr) (src : Src) (W : Width) (f : BitVec W.bits → BitVec W.bits → BitVec W.bits)
    (s : State) : Effect [.a, .flagN, .flagZ, .nmiFlag, .pc, .cycles] s (logic i src W f s) :=
  ((((readSrc_effect src W s).then (setAcc_effect _ _ _)).then (setNZ_effect _ _)).finish _ _ _).within rfl

theorem compareSource_effect (i : Instr) (src : Src) (W : Width) (reg : BitVec W.bits) (s : State) :
    Effect [.flagN, .flagZ, .flagC, .nmiFlag, .pc, .cycles] s (compareSource i src W reg s) :=
  (((readSrc_effect src W s).flags (by simp) (setCNZ_kept _ _) rfl).finish _ _ _).within rfl

theorem modifyMem_effect {l : List Part} (i : Instr) (m : Mem) (W : Width) (f : BitVec W.bits → BitVec W.bits)
    {g : BitVec W.bits → Status → Status} (hg : ∀ m p, FlagsKept l p (g m p))
    (hl : [Part.mem, .ch, .cart, .cfg, .nmiFlag].all (fun p => !l.contains p) = true) (s : State) :
    Effect (([.nmiFlag, .mem, .ch, .cart] ++ l) ++ [.pc, .cycles]) s (modifyTarget i (.mem m) W f g s) := by
  have moved := (((resolve_effect m s).then (readData_effect W (resolve m s) _)).then
    (writeBack_effect W (resolve m s) (f (readData W (resolve m s) (resolve m s).st).1) _)).within
      (m := [.nmiFlag, .mem, .ch, .cart]) rfl
  exact (moved.flags (moved.p_eq rfl) (hg _ _) hl).finish _ _ _

theorem modifyAcc_effect {l : List Part} (i : Instr) (W : Width) (f : BitVec W.bits → BitVec W.bits)
    {g : BitVec W.bits → Status → Status} (hg : ∀ m p, FlagsKept l p (g m p))
    (hl : [Part.mem, .ch, .cart, .cfg, .nmiFlag].all (fun p => !l.contains p) = true) (s : State) :
    Effect (([.a] ++ l) ++ [.pc, .cycles]) s (modifyTarget i .acc W f g s) :=
  ((setAcc_effect W _ s).flags rfl (hg _ _) hl).finish _ _ _

theorem storeMem_effect (i : Instr) (m : Mem) (W : Width) (v : BitVec W.bits) (s : State) :
    Effect [.mem, .ch, .cart, .nmiFlag, .pc, .cycles] s (storeMem i m W v s) :=
  (((resolve_effect m s).then (writeData_effect _ _ _ _)).finish _ _ _).within rfl

theorem branch_effect (i : Instr) (b : Bool) (rel : Byte) (s : State) :
    Effect [.pc, .cycles] s (branch i b rel s) :=
  (setPc_effect _ s).report _ _ _

theorem call_effect (t : CallTarget) (s : State) :
    Effect [.mem, .ch, .cart, .sp, .pc, .nmiFlag] s (call t s) := by
  cases t
  · exact ((push16_effect _ s).then (setPc_effect _ _)).within rfl
  · exact ((((push16N_effect _ s).then (readWordW_effect _ _ _)).then (setPc_effect _ _)).then (fixSH_effect _)).within rfl

theorem interruptEntry_effect (kind : Interrupt) (s : State) :
    Effect [.mem, .ch, .cart, .sp, .flagI, .flagD, .pbr, .pc] s (interruptEntry kind s) := by
  rw [interruptEntry_eq]
  have pushed := writeAll_effect (interruptFrame s (returnAddress kind s) (savedStatus kind s)) s
  exact ((((pushed.flags (pushed.p_eq rfl) (q := { s.p with i := true, d := false }) (m := [.flagI, .flagD])
    (by simp [FlagsKept]) rfl).then (setSp_effect _ _)).then (setPbr_effect _ _)).then (setPc_effect _ _)).within rfl

/-- What a return from an interrupt does after it has pulled the status byte. -/
theorem interruptReturn_afterStatus (s : State) :
    Effect [.sp, .nmiFlag, .pc, .pbr] (setPbyte (pull8 s).1 (pull8 s).2) (interruptReturn s) := by
  have target := (pull16_effect (setPbyte (pull8 s).1 (pull8 s).2)).then
    (setPc_effect (pull16 (setPbyte (pull8 s).1 (pull8 s).2)).1 _)
  unfold interruptReturn
  simp only
  split
  · exact target.within rfl
  · exact ((target.then (pull8_effect _)).then (setPbr_effect _ _)).within rfl

theorem interruptReturn_effect (s : State) :
    Effect (.sp :: .pc :: .pbr :: .nmiFlag :: statusParts) s (interruptReturn s) :=
  (((pull8_effect s).then (setPbyte_effect _ _)).then (interruptReturn_afterStatus s)).within rfl

theorem moveStep_effect (s : State) :
    Effect [.mem, .ch, .cart, .a, .x, .y, .moving, .pc, .nmiFlag] s (moveStep s) := by
  refine ⟨moveStep_changesOnly s, ?_⟩
  have moved := (BusRun.refl (s := s)).read (addrOf s.mv.src s.x)
    |>.write (addrOf s.mv.dst s.y) (busRead (addrOf s.mv.src s.x) s).1
  exact moved.inside moveStep_mem moveStep_ch (moveStep_cart s) (by simp) (by unfold moveStep; simp only; split <;> rfl)

theorem startMove_effect (dir : MoveDir) (dst src : Byte) (s : State) :
    Effect [.mem, .ch, .cart, .a, .x, .y, .dbr, .mv, .moving, .pc, .cycles, .nmiFlag] s (startMove dir dst src s) := by
  have latched : Effect [.dbr, .mv, .moving] s
      { s with mv := { src := src, dst := dst, dir := dir }, moving := true, dbr := dst } :=
    .inside (fun p hp => by cases p <;> first | rfl | exact fun _ => rfl | exact absurd hp (by decide)) rfl
  exact ((latched.then (moveStep_effect _)).then (spend_effect _ _)).within rfl

theorem xce_effect (s : State) :
    Effect [.flagC, .flagM, .flagX, .e, .sel, .sp, .x, .y] s (fixWidths (exchangeCarryAndEmulation s)) :=
  .inside (fun p hp => by
    cases p <;> first
      | exact absurd hp (by decide)
      | (simp only [Part.same, fixWidths_p]; split <;> rfl)
      | simp [Part.same]) rfl

/-! Every instruction. -/

end Sys2Proof.Machine

namespace Sys2Proof

open Sys2Proof.Machine

/-- The parts an instruction may change (the tables of rules R20 and R29, by instruction). -/
def Instr.parts : Instr → List Part
  | .lda _ | .and _ | .ora _ | .eor _ => [.a, .flagN, .flagZ, .nmiFlag, .pc, .cycles]
  | .ldx _ => [.x, .flagN, .flagZ, .nmiFlag, .pc, .cycles]
  | .ldy _ => [.y, .flagN, .flagZ, .nmiFlag, .pc, .cycles]
  | .sta _ | .stx _ | .sty _ | .stz _ => [.mem, .ch, .cart, .nmiFlag, .pc, .cycles]
  | .tax | .tsx | .tyx | .inx | .dex => [.x, .flagN, .flagZ, .pc, .cycles]
  | .tay | .txy | .iny | .dey => [.y, .flagN, .flagZ, .pc, .cycles]
  | .txa | .tya | .tdc | .tsc | .xba => [.a, .flagN, .flagZ, .pc, .cycles]
  | .tcd => [.d, .flagN, .flagZ, .pc, .cycles]
  | .txs | .tcs => [.sp, .pc, .cycles]
  | .adc _ | .sbc _ => [.a, .flagN, .flagV, .flagZ, .flagC, .draws, .nmiFlag, .pc, .cycles]
  | .cmp _ | .cpx _ | .cpy _ => [.flagN, .flagZ, .flagC, .nmiFlag, .pc, .cycles]
  | .bit _ => [.flagN, .flagV, .flagZ, .nmiFlag, .pc, .cycles]
  | .inc _ | .dec _ => [.a, .flagN, .flagZ, .mem, .ch, .cart, .nmiFlag, .pc, .cycles]
  | .asl _ | .lsr _ | .rol _ | .ror _ => [.a, .flagN, .flagZ, .flagC, .mem, .ch, .cart, .nmiFlag, .pc, .cycles]
  | .tsb _ | .trb _ => [.flagZ, .mem, .ch, .cart, .nmiFlag, .pc, .cycles]
  | .bcc _ | .bcs _ | .beq _ | .bne _ | .bmi _ | .bpl _ | .bvc _ | .bvs _ | .bra _ | .brl _ => [.pc, .cycles]
  | .jmp _ => [.nmiFlag, .pc, .cycles]
  | .jml _ => [.nmiFlag, .pc, .pbr, .cycles]
  | .jsr _ => [.mem, .ch, .cart, .sp, .nmiFlag, .pc, .cycles]
  | .jsl _ => [.mem, .ch, .cart, .sp, .pc, .pbr, .cycles]
  | .rts => [.sp, .nmiFlag, .pc, .cycles]
  | .rtl => [.sp, .nmiFlag, .pc, .pbr, .cycles]
  | .pha | .phx | .phy | .php | .phb | .phd | .phk | .pea _ | .per _ => [.mem, .ch, .cart, .sp, .pc, .cycles]
  | .pei _ => [.mem, .ch, .cart, .sp, .nmiFlag, .pc, .cycles]
  | .pla => [.a, .flagN, .flagZ, .sp, .nmiFlag, .pc, .cycles]
  | .plx => [.x, .flagN, .flagZ, .sp, .nmiFlag, .pc, .cycles]
  | .ply => [.y, .flagN, .flagZ, .sp, .nmiFlag, .pc, .cycles]
  | .plb => [.dbr, .flagN, .flagZ, .sp, .nmiFlag, .pc, .cycles]
  | .pld => [.d, .flagN, .flagZ, .sp, .nmiFlag, .pc, .cycles]
  | .plp => .sp :: .pc :: .cycles :: .nmiFlag :: statusParts
  | .rep _ | .sep _ => .sp :: .pc :: .cycles :: statusParts
  | .clc | .sec => [.flagC, .pc, .cycles]
  | .cli | .sei => [.flagI, .pc, .cycles]
  | .cld | .sed => [.flagD, .pc, .cycles]
  | .clv => [.flagV, .pc, .cycles]
  | .xce => [.flagC, .flagM, .flagX, .e, .sel, .sp, .x, .y, .pc, .cycles]
  | .nop | .wdm _ => [.pc, .cycles]
  | .stp => [.stopped, .pc, .cycles]
  | .wai => [.waiting, .pc, .cycles]
  | .mvn _ _ | .mvp _ _ => [.mem, .ch, .cart, .a, .x, .y, .dbr, .mv, .moving, .pc, .cycles, .nmiFlag]
  | .brk _ | .cop _ => [.mem, .ch, .cart, .sp, .flagI, .flagD, .pbr, .pc, .cycles]
  | .rti => .sp :: .pc :: .pbr :: .cycles :: .nmiFlag :: statusParts

end Sys2Proof

namespace Sys2Proof.Machine

theorem setFlags_effect {l : List Part} (i : Instr) {p : Status} {s : State} (h : FlagsKept l s.p p)
    (hl : [Part.mem, .ch, .cart, .cfg, .nmiFlag].all (fun p => !l.contains p) = true) :
    Effect (l ++ [.pc, .cycles]) s (setFlags i p s) :=
  (Effect.inside (setP_changesOnly h) hl).finish i {} s

/-- Whatever the instruction, it answers a state, with the parts it may change and the bus accesses it makes. -/
theorem exec_effect_next (i : Instr) (s : State) : ∃ t, exec i s = .next t ∧ Effect i.parts s t := by
  cases i with
  | lda src =>
    exact ⟨_, rfl, ((((readSrc_effect src _ s).then (setAcc_effect _ _ _)).then (setNZ_effect _ _)).finish _ _ _).within rfl⟩
  | ldx src =>
    exact ⟨_, rfl, ((((readSrc_effect src _ s).then (setX_effect _ _ _)).then (setNZ_effect _ _)).finish _ _ _).within rfl⟩
  | ldy src =>
    exact ⟨_, rfl, ((((readSrc_effect src _ s).then (setY_effect _ _ _)).then (setNZ_effect _ _)).finish _ _ _).within rfl⟩
  | sta m | stx m | sty m | stz m => exact ⟨_, rfl, storeMem_effect _ _ _ _ s⟩
  | tax | tsx | tyx | inx | dex =>
    exact ⟨_, rfl, (((setX_effect _ _ s).then (setNZ_effect _ _)).finish _ _ _).within rfl⟩
  | tay | txy | iny | dey => exact ⟨_, rfl, (((setY_effect _ _ s).then (setNZ_effect _ _)).finish _ _ _).within rfl⟩
  | txa | tya => exact ⟨_, rfl, (((setAcc_effect _ _ s).then (setNZ_effect _ _)).finish _ _ _).within rfl⟩
  | tdc | tsc | xba => exact ⟨_, rfl, (((setA_effect _ s).then (setNZ_effect _ _)).finish _ _ _).within rfl⟩
  | tcd => exact ⟨_, rfl, (((setD_effect _ s).then (setNZ_effect _ _)).finish _ _ _).within rfl⟩
  | txs | tcs => exact ⟨_, rfl, (setSp_effect _ s).finish _ _ _⟩
  | adc src | sbc src => exact ⟨_, rfl, ((applyAdd_effect src _ _ _ s).finish _ _ _).within rfl⟩
  | and src | ora src | eor src => exact ⟨_, rfl, logic_effect _ src _ _ s⟩
  | cmp src | cpx src | cpy src => exact ⟨_, rfl, compareSource_effect _ src _ _ s⟩
  | bit src =>
    exact ⟨_, rfl, (((readSrc_effect src _ s).flags (by simp) (bitFlags_kept _ _ _ _) rfl).finish _ _ _).within rfl⟩
  | inc tgt | dec tgt =>
    cases tgt with
    | acc => exact ⟨_, rfl, (modifyAcc_effect _ _ _ (fun _ p => setNZ_kept p _) rfl s).within rfl⟩
    | mem m => exact ⟨_, rfl, (modifyMem_effect _ m _ _ (fun _ p => setNZ_kept p _) rfl s).within rfl⟩
  | asl tgt | lsr tgt | rol tgt | ror tgt =>
    cases tgt with
    | acc => exact ⟨_, rfl, (modifyAcc_effect _ _ _ (fun _ p => setCNZ_kept p _) rfl s).within rfl⟩
    | mem m => exact ⟨_, rfl, (modifyMem_effect _ m _ _ (fun _ p => setCNZ_kept p _) rfl s).within rfl⟩
  | tsb m | trb m =>
    exact ⟨_, rfl, (modifyMem_effect _ m _ _ (l := [.flagZ]) (fun _ p => by simp [FlagsKept]) rfl s).within rfl⟩
  | bcc rel | bcs rel | beq rel | bne rel | bmi rel | bpl rel | bvc rel | bvs rel | bra rel =>
    exact ⟨_, rfl, branch_effect _ _ rel s⟩
  | brl rel => exact ⟨_, rfl, (setPc_effect _ s).report _ _ _⟩
  | jmp t => exact ⟨_, rfl, (((jumpTarget_effect t s).then (setPc_effect _ _)).report _ _ _).within rfl⟩
  | jml t =>
    exact ⟨_, rfl, (((longTarget_effect t s).then (setPcBank_effect _ _ _)).report _ _ _).within rfl⟩
  | jsr t => exact ⟨_, rfl, ((call_effect t s).report _ _ _).within rfl⟩
  | jsl al =>
    exact ⟨_, rfl, (((((push8N_effect _ s).then (push16N_effect _ _)).then (setPcBank_effect _ _ _)).then
      (fixSH_effect _)).report _ _ _).within rfl⟩
  | rts => exact ⟨_, rfl, (((pull16_effect s).then (setPc_effect _ _)).report _ _ _).within rfl⟩
  | rtl =>
    exact ⟨_, rfl, ((((((pull16N_effect s).then (setPc_effect _ _)).then (pull8N_effect _)).then (setPbr_effect _ _)).then
      (fixSH_effect _)).report _ _ _).within rfl⟩
  | pha | phx | phy => exact ⟨_, rfl, (pushW_effect _ _ s).finish _ _ _⟩
  | php | phb | phk => exact ⟨_, rfl, (push8_effect _ s).finish _ _ _⟩
  | phd | pea _ | per _ => exact ⟨_, rfl, (((push16N_effect _ s).then (fixSH_effect _)).finish _ _ _).within rfl⟩
  | pei d =>
    exact ⟨_, rfl, ((((dpPointer_effect _ _ s).then (push16N_effect _ _)).then (fixSH_effect _)).finish _ _ _).within rfl⟩
  | pla =>
    exact ⟨_, rfl, ((((pullW_effect _ s).then (setAcc_effect _ _ _)).then (setNZ_effect _ _)).finish _ _ _).within rfl⟩
  | plx =>
    exact ⟨_, rfl, ((((pullW_effect _ s).then (setX_effect _ _ _)).then (setNZ_effect _ _)).finish _ _ _).within rfl⟩
  | ply =>
    exact ⟨_, rfl, ((((pullW_effect _ s).then (setY_effect _ _ _)).then (setNZ_effect _ _)).finish _ _ _).within rfl⟩
  | plp => exact ⟨_, rfl, (((pull8_effect s).then (setPbyte_effect _ _)).finish _ _ _).within rfl⟩
  | plb =>
    exact ⟨_, rfl, (((((pull8N_effect s).then (setDbr_effect _ _)).then (setNZ_effect _ _)).then (fixSH_effect _)).finish
      _ _ _).within rfl⟩
  | pld =>
    exact ⟨_, rfl, (((((pull16N_effect s).then (setD_effect _ _)).then (setNZ_effect _ _)).then (fixSH_effect _)).finish
      _ _ _).within rfl⟩
  | clc | sec => exact ⟨_, rfl, setFlags_effect (l := [.flagC]) _ (by simp [FlagsKept]) rfl⟩
  | cli | sei => exact ⟨_, rfl, setFlags_effect (l := [.flagI]) _ (by simp [FlagsKept]) rfl⟩
  | cld | sed => exact ⟨_, rfl, setFlags_effect (l := [.flagD]) _ (by simp [FlagsKept]) rfl⟩
  | clv => exact ⟨_, rfl, setFlags_effect (l := [.flagV]) _ (by simp [FlagsKept]) rfl⟩
  | rep mask | sep mask => exact ⟨_, rfl, ((setPbyte_effect _ s).finish _ _ _).within rfl⟩
  | xce => exact ⟨_, rfl, (xce_effect s).finish _ _ _⟩
  | nop | wdm _ => exact ⟨_, rfl, (Effect.refl [] s).finish _ _ _⟩
  | stp => exact ⟨_, rfl, (setStopped_effect true s).finish _ _ _⟩
  | wai => exact ⟨_, rfl, (setWaiting_effect true s).finish _ _ _⟩
  | mvn dst src | mvp dst src => exact ⟨_, rfl, startMove_effect _ dst src s⟩
  | brk _ | cop _ => exact ⟨_, rfl, (interruptEntry_effect _ s).report _ _ _⟩
  | rti => exact ⟨_, rfl, ((interruptReturn_effect s).report _ _ _).within rfl⟩

theorem exec_effect {i : Instr} {s t : State} (h : exec i s = .next t) : Effect i.parts s t := by
  obtain ⟨u, hu, effect⟩ := exec_effect_next i s
  obtain rfl := Host.Outcome.next.inj (hu.symm.trans h)
  exact effect

/-- A part that has changed is one the instruction may change. -/
theorem exec_part_mem {i : Instr} {s t : State} {p : Part} (h : exec i s = .next t) (hp : ¬ p.same s t) : p ∈ i.parts :=
  by_contra fun hn => hp ((exec_effect h).only p hn)

end Sys2Proof.Machine
end

section
/-! What a tick does, said once (rules R380, R381, R383, R425): which unit of work it is, and in which state that begins. -/

namespace Sys2Proof.Machine

/-- The state in which a tick's unit of work begins: the inputs used up, their pulses latched (rule R421). -/
def State.latched (s : State) : State := latchInputs s.env s.nextInputs

/-- The state in which the processor's own unit of work begins: it waits no longer (rule R426). -/
def State.awake (s : State) : State := { s.latched with waiting := false }

theorem latched_changesOnly (s : State) : ChangesOnly [.inputs, .nmiFlag, .nmiPending] s s.latched :=
  fun p hp => by cases p <;> first | rfl | exact fun _ => rfl | exact absurd hp (by decide)

theorem awake_changesOnly (s : State) : ChangesOnly [.inputs, .nmiFlag, .nmiPending, .waiting] s s.awake :=
  fun p hp => by cases p <;> first | rfl | exact fun _ => rfl | exact absurd hp (by decide)

/-- What a tick that answers a state has done, one case a unit of work. -/
inductive Ticked (s : State) : State → Prop
  | reset : Ticked s (resetProcedure s.nextInputs)
  | dma : Ticked s (spend Config.dmaStepCycles (dmaStep s.latched))
  | idle : Ticked s (spend Config.idleStepCycles s.latched)
  | nmi : s.stopped = false → Ticked s (takeInterrupt .nmi { s.awake with nmiPending := false })
  | irq : s.stopped = false → Ticked s (takeInterrupt .irq s.awake)
  | move : s.stopped = false → s.moving = true → Ticked s (spend (moveCycles s.awake) (moveStep s.awake))
  | instruction {i : Instr} {u t : State} : s.stopped = false → s.moving = false → Effect [.nmiFlag] s.awake u →
      exec i u = .next t → Ticked s t

/-- An instruction's tick: it is fetched, and then executed in the state the fetch leaves. -/
theorem runInstruction_next {s t : State} (h : runInstruction s = .next t) :
    ∃ i u, Effect [.nmiFlag] s u ∧ exec i u = .next t := by
  by_cases hop : (fetchOpcode s).1 ∈ s.cfg.unimplemented
  · rw [runInstruction_unimplemented hop] at h
    cases h
  · rw [runInstruction_implemented hop] at h
    exact ⟨_, _, fetchInstr_effect s, h⟩

theorem processorWork_next {s t : State} {irq : Bool} (hs : s.stopped = false) (h : processorWork irq s.awake = .next t) :
    Ticked s t := by
  unfold processorWork at h
  split at h
  case isTrue nmi => exact Host.Outcome.next.inj h ▸ .nmi hs
  split at h
  case isTrue interrupt => exact Host.Outcome.next.inj h ▸ .irq hs
  split at h
  case isTrue moving => exact Host.Outcome.next.inj h ▸ .move hs moving
  case isFalse still =>
    obtain ⟨i, u, fetch, h⟩ := runInstruction_next h
    exact .instruction hs (Bool.eq_false_of_not_eq_true still) fetch h

theorem step_next {s t : State} (h : step s = .next t) : Ticked s t := by
  cases hf : s.fatal with
  | some op => rw [step_fatal hf] at h; cases h
  | none =>
    cases hr : s.env.resetLine
    case true => exact Host.Outcome.next.inj ((step_reset hf hr).symm.trans h) ▸ .reset
    cases hd : s.dmaActive
    case true => exact Host.Outcome.next.inj ((step_dma hf hr hd).symm.trans h) ▸ .dma
    by_cases hi : s.stopped = true ∨
        (s.waiting = true ∧ s.nmiPending = false ∧ s.env.nmiEdge = false ∧ s.env.irqLine = false)
    · exact Host.Outcome.next.inj ((step_idle hf hr hd hi).symm.trans h) ▸ .idle
    · obtain ⟨hs, hw⟩ := not_or.mp hi
      have running : s.stopped = false := by simpa using hs
      have wakes : s.waiting = true → s.nmiPending = true ∨ s.env.nmiEdge = true ∨ s.env.irqLine = true := by
        intro waits
        simpa [waits, imp_iff_not_or] using hw
      exact processorWork_next running ((step_core ⟨hf, hr, hd, running⟩ wakes).symm.trans h)

end Sys2Proof.Machine
end

section
/-! The machine invariant (rules R34, R36, R44, R46, R335, R337, R360), one part after the other: what rests on parts that do
not change is kept, and each instruction, interrupt, reset, DMA step and block-move step that changes such a part keeps it. -/

namespace Sys2Proof.Machine

theorem EmulationInv.kept {l : List Part} {s t : State} (h : EmulationInv s) (hc : ChangesOnly l s t)
    (hl : [Part.e, .flagM, .flagX, .sp].all (fun p => !l.contains p) = true) : EmulationInv t := by
  have out : ∀ p ∈ [Part.e, .flagM, .flagX, .sp], p ∉ l := fun p hp => by simpa using List.all_eq_true.mp hl p hp
  have e : t.e = s.e := hc .e (out _ (by decide))
  have m : t.p.m = s.p.m := hc .flagM (out _ (by decide))
  have x : t.p.x = s.p.x := hc .flagX (out _ (by decide))
  have sp : t.sp = s.sp := hc .sp (out _ (by decide))
  unfold EmulationInv
  rw [e, m, x, sp]
  exact h

/-- The emulation-mode invariant where only the stack pointer moves, and inside its page. -/
theorem EmulationInv.kept_page {l : List Part} {s t : State} (h : EmulationInv s) (hc : ChangesOnly l s t)
    (hl : [Part.e, .flagM, .flagX].all (fun p => !l.contains p) = true)
    (page : s.e = true → highByte s.sp = 0x01 → highByte t.sp = 0x01) : EmulationInv t := by
  have out : ∀ p ∈ [Part.e, .flagM, .flagX], p ∉ l := fun p hp => by simpa using List.all_eq_true.mp hl p hp
  have e : t.e = s.e := hc .e (out _ (by decide))
  have m : t.p.m = s.p.m := hc .flagM (out _ (by decide))
  have x : t.p.x = s.p.x := hc .flagX (out _ (by decide))
  intro he
  obtain ⟨hm, hx, hp⟩ := h (e ▸ he)
  exact ⟨m.trans hm, x.trans hx, page (e ▸ he) hp⟩

theorem IndexInv.kept {l : List Part} {s t : State} (h : IndexInv s) (hc : ChangesOnly l s t)
    (hl : [Part.flagX, .x, .y].all (fun p => !l.contains p) = true) : IndexInv t := by
  have out : ∀ p ∈ [Part.flagX, .x, .y], p ∉ l := fun p hp => by simpa using List.all_eq_true.mp hl p hp
  have fx : t.p.x = s.p.x := hc .flagX (out _ (by decide))
  have x : t.x = s.x := hc .x (out _ (by decide))
  have y : t.y = s.y := hc .y (out _ (by decide))
  unfold IndexInv
  rw [fx, x, y]
  exact h

theorem BusInv.of_busRun {s t : State} (h : BusInv s) (hr : BusRun s t) : BusInv t := by
  induction hr with
  | refl => exact h
  | read a _ ih => exact ih.congr (busRead_mem _ a) (busRead_ch _ a)
  | write a v _ ih => exact busWrite_busInv ih
  | inside _ hm hch _ _ _ ih => exact ih.congr hm hch

theorem fixSH_page {s : State} (h : s.e = true) : highByte (fixSH s).sp = 0x01 := by
  rw [fixSH_sp, if_pos h, highByte_setHigh]

/-- After RTI, whatever state it starts in: the pulls after the status byte keep the page the width fix-up sets. -/
theorem interruptReturn_inv (s : State) : EmulationInv (interruptReturn s) ∧ IndexInv (interruptReturn s) := by
  have pulls := (interruptReturn_afterStatus s).only
  refine ⟨(setPbyte_emulation _).kept_page pulls rfl fun he hp => ?_, (setPbyte_index _).kept pulls rfl⟩
  have emulation : s.e = true := by simpa using he
  unfold interruptReturn
  simp only [emulation, if_true]
  exact (highByte_pull16 he).trans hp

/-- Whatever state they start in, the instructions that write the whole status byte or the mode fix the widths up (rules R34,
R36, R441). -/
theorem exec_modeWriter {i : Instr} {s t : State} (hi : i.mnemonic ∈ ["REP", "SEP", "PLP", "RTI", "XCE"])
    (h : exec i s = .next t) : EmulationInv t ∧ IndexInv t := by
  cases i
  case rep mask => cases h; exact ⟨setPbyte_emulation _, setPbyte_index _⟩
  case sep mask => cases h; exact ⟨setPbyte_emulation _, setPbyte_index _⟩
  case plp => cases h; exact ⟨setPbyte_emulation _, setPbyte_index _⟩
  case xce => cases h; exact ⟨fixWidths_emulation, fixWidths_index⟩
  case rti => cases h; exact interruptReturn_inv s
  all_goals simp [Instr.mnemonic] at hi

/-- In emulation mode no instruction moves the stack out of page 1 (rules R300 to R304). -/
theorem exec_page {i : Instr} {s t : State} (h : exec i s = .next t) (he : s.e = true) (hp : highByte s.sp = 0x01) :
    highByte t.sp = 0x01 := by
  have fixed : ∀ u : State, u.e = s.e → highByte (fixSH u).sp = 0x01 := fun u hu => fixSH_page (hu.trans he)
  cases i
  case txs | tcs => cases h; simp [he, hp]
  case jsr c =>
    cases h
    cases c
    · exact (highByte_push16 _ he).trans hp
    · exact fixed _ (by simp)
  case jsl | rtl | phd | pea | pei | per | plb | pld => cases h; exact fixed _ (by simp)
  case rts => cases h; exact (highByte_pull16 he).trans hp
  case pha | phx | phy => cases h; exact (highByte_pushW _ _ he).trans hp
  case php | phb | phk => cases h; exact (highByte_push8 _ he).trans hp
  case pla | plx | ply => cases h; exact (highByte_pullW _ he).trans hp
  case brk | cop => cases h; exact (interruptEntry_page _ he).trans hp
  case rep | sep | plp => cases h; simp [setPbyte_sp, he]
  case xce => cases h; simp only [finish_sp, fixWidths_sp]; split <;> simp [hp]
  case rti => cases h; exact ((interruptReturn_inv s).1 (by simpa using he)).2.2
  all_goals
    have same : t.sp = s.sp := (exec_effect h).only .sp (by simp [Instr.parts])
    rw [same, hp]

/-- The emulation-mode invariant (rule R34) is kept by every instruction. -/
theorem exec_emulation {i : Instr} {s t : State} (hs : EmulationInv s) (h : exec i s = .next t) : EmulationInv t := by
  by_cases hi : i.mnemonic ∈ ["REP", "SEP", "PLP", "RTI", "XCE"]
  · exact (exec_modeWriter hi h).1
  · exact hs.kept_page (exec_effect h).only (by cases i <;> first | rfl | simp [Instr.mnemonic] at hi) (exec_page h)

theorem IndexInv.high {s t : State} (h : IndexInv s) (fx : t.p.x = s.p.x)
    (high : s.wX = .w8 → highByte t.x = highByte s.x ∧ highByte t.y = highByte s.y) : IndexInv t := by
  intro hx
  rw [fx] at hx
  obtain ⟨x, y⟩ := high (wX_w8_iff.mpr (.inr hx))
  rw [x, y]
  exact h hx

theorem startMove_inv {dir : MoveDir} {dst src : Byte} {s : State} (h : IndexInv s) : IndexInv (startMove dir dst src s) :=
  (moveStep_index (s := { s with mv := { src := src, dst := dst, dir := dir }, moving := true, dbr := dst }) h).kept
    (spend_changesOnly _ _) rfl

/-- The index invariant (rule R36) is kept by every instruction. -/
theorem exec_index {i : Instr} {s t : State} (hs : IndexInv s) (h : exec i s = .next t) : IndexInv t := by
  cases i
  case rep | sep | plp | rti | xce => exact (exec_modeWriter (by simp [Instr.mnemonic]) h).2
  case mvn | mvp => cases h; exact startMove_inv hs
  case ldx | ldy | tax | tay | txy | tyx | tsx | inx | iny | dex | dey | plx | ply =>
    cases h
    exact hs.high (by simp) fun narrow => by simp [Width.highByte_put narrow]
  all_goals exact hs.kept (exec_effect h).only rfl

/-- Settles O47, by the width fix-up each of them ends with. -/
theorem writersOfModeFixWidths : Obligations.WritersOfModeFixWidths :=
  ⟨fun _ _ _ hi h => exec_modeWriter hi h, fun _ => ⟨wM_w8_iff, wX_w8_iff⟩⟩

end Sys2Proof.Machine
end

section
/-! The invariant over a tick. -/

namespace Sys2Proof.Machine

theorem Inv.bus {s : State} (h : Inv s) : BusInv s := ⟨h.memory, h.channels, h.mdmaen⟩

theorem BusInv.kept {l : List Part} {s t : State} (h : BusInv s) (hc : ChangesOnly l s t)
    (hl : [Part.mem, .ch].all (fun p => !l.contains p) = true) : BusInv t := by
  have out : ∀ p ∈ [Part.mem, .ch], p ∉ l := fun p hp => by simpa using List.all_eq_true.mp hl p hp
  exact h.congr (hc .mem (out _ (by decide))) (hc .ch (out _ (by decide)))

theorem MoveInv.kept {l : List Part} {s t : State} (h : MoveInv s) (hc : ChangesOnly l s t)
    (hl : [Part.moving, .a, .dbr, .mv, .stopped, .waiting].all (fun p => !l.contains p) = true) : MoveInv t := by
  have out : ∀ p ∈ [Part.moving, .a, .dbr, .mv, .stopped, .waiting], p ∉ l := fun p hp => by
    simpa using List.all_eq_true.mp hl p hp
  have moving : t.moving = s.moving := hc .moving (out _ (by decide))
  have a : t.a = s.a := hc .a (out _ (by decide))
  have dbr : t.dbr = s.dbr := hc .dbr (out _ (by decide))
  have mv : t.mv = s.mv := hc .mv (out _ (by decide))
  have stopped : t.stopped = s.stopped := hc .stopped (out _ (by decide))
  have waiting : t.waiting = s.waiting := hc .waiting (out _ (by decide))
  unfold MoveInv
  rw [moving, a, dbr, mv, stopped, waiting]
  exact h

/-- The move invariant where no move is in progress. -/
theorem MoveInv.of_not_moving {s : State} (h : s.moving = false) : MoveInv s := fun hm => by simp [h] at hm

/-- A change of parts on which the invariant does not rest keeps it. -/
theorem Inv.kept {l : List Part} {s t : State} (h : Inv s) (hc : ChangesOnly l s t)
    (hl : [Part.e, .flagM, .flagX, .sp, .x, .y, .mem, .ch, .moving, .a, .dbr, .mv, .stopped, .waiting].all
      (fun p => !l.contains p) = true) : Inv t := by
  have out : ∀ {ps : List Part}, ps ⊆ [Part.e, .flagM, .flagX, .sp, .x, .y, .mem, .ch, .moving, .a, .dbr, .mv, .stopped,
      .waiting] → ps.all (fun p => !l.contains p) = true := fun hs =>
    List.all_eq_true.mpr fun p hp => List.all_eq_true.mp hl p (hs hp)
  obtain ⟨memory, channels, mdmaen⟩ := h.bus.kept hc (out (by decide))
  exact ⟨h.emulation.kept hc (out (by decide)), h.index.kept hc (out (by decide)), memory, channels, mdmaen,
    h.move.kept hc (out (by decide))⟩

/-! The units of work. -/

theorem dmaStep_changesOnly (s : State) : ChangesOnly [.mem, .ch, .cart, .nmiFlag] s (dmaStep s) := by
  unfold dmaStep
  split
  next n _ =>
    intro p hp
    cases p
    case ppuDevice => exact stepChannel_ppuExt
    all_goals first | exact absurd hp (by decide) | simp [Part.same]
  · exact (Effect.refl _ s).only

theorem dmaStep_inv {s : State} (h : Inv s) : Inv (dmaStep s) := by
  obtain ⟨memory, channels, mdmaen⟩ := dmaStep_busInv h.bus
  have only := dmaStep_changesOnly s
  exact ⟨h.emulation.kept only rfl, h.index.kept only rfl, memory, channels, mdmaen, h.move.kept only rfl⟩

theorem takeInterrupt_effect (kind : Interrupt) (s : State) :
    Effect [.moving, .mem, .ch, .cart, .sp, .flagI, .flagD, .pbr, .pc, .cycles] s (takeInterrupt kind s) :=
  (((Effect.inside (l := [.moving]) (fun p hp => by
      cases p <;> first | rfl | exact fun _ => rfl | exact absurd hp (by decide)) rfl).then
    (interruptEntry_effect kind _)).then (spend_effect _ _)).within rfl

/-- An interrupt abandons the block move in progress, and its pushes stay in the stack's page. -/
theorem takeInterrupt_inv {kind : Interrupt} {s : State} (he : EmulationInv s) (hi : IndexInv s) (hb : BusInv s) :
    Inv (takeInterrupt kind s) := by
  have effect := takeInterrupt_effect kind s
  obtain ⟨memory, channels, mdmaen⟩ := hb.of_busRun effect.bus
  exact ⟨he.kept_page effect.only rfl fun e page => (interruptEntry_page (s := { s with moving := false }) kind e).trans page,
    hi.kept effect.only rfl, memory, channels, mdmaen, .of_not_moving (by simp [takeInterrupt])⟩

/-- A byte of a block move that leaves the move in progress leaves bytes to move. -/
theorem moveStep_move {s : State} (hd : s.dbr = s.mv.dst) (hs : s.stopped = false) (hw : s.waiting = false) :
    MoveInv (moveStep s) := by
  intro hm
  rw [moveStep_moving] at hm
  rw [moveStep_a]
  simp_all

theorem moveStep_inv {s : State} (h : Inv s) (hm : s.moving = true) : Inv (moveStep s) := by
  obtain ⟨_, dbr, stopped, waiting⟩ := h.move hm
  obtain ⟨memory, channels, mdmaen⟩ := moveStep_busInv h.bus
  exact ⟨h.emulation.kept (moveStep_changesOnly s) rfl, moveStep_index h.index, memory, channels, mdmaen,
    moveStep_move dbr stopped waiting⟩

/-- An instruction that starts while no move is in progress, on a processor that runs. -/
theorem exec_move {i : Instr} {s t : State} (hm : s.moving = false) (hs : s.stopped = false) (hw : s.waiting = false)
    (h : exec i s = .next t) : MoveInv t := by
  cases i
  case mvn dst src =>
    cases h
    exact (moveStep_move (s := { s with mv := { src := src, dst := dst, dir := .up }, moving := true, dbr := dst })
      rfl hs hw).kept (spend_changesOnly _ _) rfl
  case mvp dst src =>
    cases h
    exact (moveStep_move (s := { s with mv := { src := src, dst := dst, dir := .down }, moving := true, dbr := dst })
      rfl hs hw).kept (spend_changesOnly _ _) rfl
  all_goals
    have still : t.moving = s.moving := (exec_effect h).only .moving (by simp [Instr.parts, statusParts])
    exact .of_not_moving (still.trans hm)

theorem exec_inv {i : Instr} {s t : State} (hs : Inv s) (hm : s.moving = false) (hr : s.stopped = false)
    (hw : s.waiting = false) (h : exec i s = .next t) : Inv t := by
  obtain ⟨memory, channels, mdmaen⟩ := hs.bus.of_busRun (exec_effect h).bus
  exact ⟨exec_emulation hs.emulation h, exec_index hs.index h, memory, channels, mdmaen, exec_move hm hr hw h⟩

theorem stopChannels_getElem (ch : Vector Channel 8) (n : Fin 8) :
    (stopChannels ch)[n] = { ch[n] with active := false } := by
  simp [stopChannels]

/-- The machine after a reset tick (rule R460): emulation mode, no channel active and MDMAEN zero, no block move. -/
theorem resetProcedure_inv {s : State} (h : BusInv s) : Inv (resetProcedure s) := by
  obtain ⟨memory, channels, _⟩ := h
  have mem : (resetProcedure s).mem = (s.mem.write mdmaenKey 0x00).write hdmaenKey 0x00 := by simp [resetProcedure]
  have ch : (resetProcedure s).ch = stopChannels s.ch := by simp [resetProcedure]
  have index : highByte (resetProcedure s).x = 0x00 ∧ highByte (resetProcedure s).y = 0x00 := by simp [resetProcedure]
  have cleared : (resetProcedure s).ireg mdmaenKey = 0x00 := by
    unfold State.ireg
    rw [mem, Memory.read_write_other _ _ (by decide), Memory.read_write_same _ memory]
  refine ⟨fun _ => by simp [resetProcedure], fun _ => index, ?_, fun n => ?_, fun _ => cleared,
    .of_not_moving (by simp [resetProcedure])⟩
  · unfold MemoryInv
    rw [mem]
    exact Memory.write_wf _ _ (Memory.write_wf _ _ memory)
  · rw [ch, stopChannels_getElem]
    exact channels n

/-- A tick keeps the invariant, whichever unit of work it is. -/
theorem step_inv {s t : State} (hs : Inv s) (h : step s = .next t) : Inv t := by
  have latched : Inv s.latched := hs.kept (latched_changesOnly s) rfl
  have awake : Inv s.awake :=
    ⟨latched.emulation, latched.index, latched.memory, latched.channels, latched.mdmaen, fun hm => by
      obtain ⟨a, dbr, stopped, _⟩ := latched.move hm
      exact ⟨a, dbr, stopped, rfl⟩⟩
  cases step_next h with
  | reset => exact resetProcedure_inv hs.bus
  | dma => exact (dmaStep_inv latched).kept (spend_changesOnly _ _) rfl
  | idle => exact latched.kept (spend_changesOnly _ _) rfl
  | nmi _ => exact takeInterrupt_inv awake.emulation awake.index awake.bus
  | irq _ => exact takeInterrupt_inv awake.emulation awake.index awake.bus
  | move _ moving => exact (moveStep_inv awake moving).kept (spend_changesOnly _ _) rfl
  | instruction running still fetch run =>
    refine exec_inv (awake.kept fetch.only rfl) ?_ ?_ ?_ run
    · exact (fetch.only .moving (by decide)).trans still
    · exact (fetch.only .stopped (by decide)).trans running
    · exact fetch.only .waiting (by decide)

/-- Settles O6: each part of the invariant is kept by every unit of work of a tick (`step_inv`). -/
theorem stepKeepsInvariant : Obligations.StepKeepsInvariant := fun _ _ hs h => step_inv hs h

/-- Settles O7, by the values of the state after reset. -/
theorem resetMeetsInvariant : Obligations.ResetMeetsInvariant where
  emulation := fun _ => by decide
  index := fun _ => by decide
  memory := ⟨List.Pairwise.nil, by simp [State.reset]⟩
  channels := by unfold ChannelInv; decide
  mdmaen := fun _ => by decide
  move := .of_not_moving rfl

/-- Settles O54, by the values of the state after reset. -/
theorem powerOnState : Obligations.PowerOnState := by
  unfold Obligations.PowerOnState
  decide

end Sys2Proof.Machine
end

section
/-! What no step changes: the configuration, and a cartridge that ignores writes (rules R45, R72); and what raises the flag of
RDNMI (rule R421). -/

namespace Sys2Proof.Machine

/-- A store to addresses of which none reaches a cartridge that takes writes leaves every byte of the cartridge alone. -/
theorem MemoryKept.cartridge {l : List Addr} {s t : State} (h : MemoryKept l s t)
    (hl : ∀ b ∈ l, ¬ WritesCartridge s.cfg b) {a : Addr} (ha : mapAddress a = .cartridge) : t.peek a = s.peek a :=
  h a (quiet_of_cartridge ha) (fun _ _ hs same => hs.2.2 ((sameByte_region same).symm.trans ha)) fun _ => hl

/-- The configuration is as before, and where the cartridge ignores writes, so is the cartridge. -/
def CartridgeKept (s t : State) : Prop :=
  t.cfg = s.cfg ∧ (s.cfg.cartWrites = false →
    t.cart = s.cart ∧ ∀ a : Addr, mapAddress a = .cartridge → t.peek a = s.peek a)

theorem CartridgeKept.trans {s t u : State} (h : CartridgeKept s t) (h' : CartridgeKept t u) : CartridgeKept s u := by
  obtain ⟨cfg, kept⟩ := h
  obtain ⟨cfg', kept'⟩ := h'
  refine ⟨cfg'.trans cfg, fun hw => ?_⟩
  obtain ⟨cart, bytes⟩ := kept hw
  obtain ⟨cart', bytes'⟩ := kept' (cfg ▸ hw)
  exact ⟨cart'.trans cart, fun a ha => (bytes' a ha).trans (bytes a ha)⟩

theorem CartridgeKept.of_same {s t : State} (hm : t.mem = s.mem) (hk : t.cart = s.cart) (hc : t.cfg = s.cfg) :
    CartridgeKept s t :=
  ⟨hc, fun _ => ⟨hk, fun _ ha => peek_congr (quiet_of_cartridge ha) hm hc⟩⟩

theorem CartridgeKept.of_changesOnly {l : List Part} {s t : State} (h : ChangesOnly l s t)
    (hl : [Part.mem, .cart, .cfg].all (fun p => !l.contains p) = true) : CartridgeKept s t := by
  have out : ∀ p ∈ [Part.mem, .cart, .cfg], p ∉ l := fun p hp => by simpa using List.all_eq_true.mp hl p hp
  exact .of_same (h .mem (out _ (by decide))) (h .cart (out _ (by decide))) (h .cfg (out _ (by decide)))

theorem BusRun.cartridgeKept {s t : State} (h : BusRun s t) : CartridgeKept s t := by
  induction h with
  | refl => exact .of_same rfl rfl rfl
  | read a _ ih => exact ih.trans (.of_same (busRead_mem _ a) (busRead_cart _ a) (busRead_cfg _ a))
  | @write t a v _ ih =>
    refine ih.trans ⟨busWrite_cfg t a v, fun hw => ?_⟩
    have ignored : ¬ WritesCartridge t.cfg a := fun reach => by simp [WritesCartridge, hw] at reach
    exact ⟨busWrite_cart a v ignored, fun b hb => peek_busWrite_cartridge hb ignored⟩
  | inside _ hm _ hk hc _ ih => exact ih.trans (.of_same hm hk hc)

theorem dmaStep_cartridgeKept (s : State) : CartridgeKept s (dmaStep s) := by
  cases h : s.servedChannel with
  | none => rw [dmaStep_idle (by simp [State.dmaActive, h])]; exact .of_same rfl rfl rfl
  | some n =>
    rw [dmaStep_served h]
    refine ⟨stepChannel_cfg s n, fun hw => ?_⟩
    have ignored : ∀ b : Addr, ¬ WritesCartridge s.cfg b := fun b hb => by simp [WritesCartridge, hw] at hb
    exact ⟨stepChannel_cart (ignored _), fun a ha => (stepChannel_kept n s).cartridge (fun b _ => ignored b) ha⟩

theorem resetProcedure_cartridgeKept (s : State) : CartridgeKept s (resetProcedure s) := by
  have cfg : (resetProcedure s).cfg = s.cfg := by simp [resetProcedure]
  refine ⟨cfg, fun _ => ⟨by simp [resetProcedure], fun a ha => peek_of_stored (quiet_of_cartridge ha) ?_ cfg⟩⟩
  have mem : (resetProcedure s).mem = (s.mem.write mdmaenKey 0x00).write hdmaenKey 0x00 := by simp [resetProcedure]
  have key : storeKey s.cfg a = a.toNat := by simp [storeKey, ha]
  have other : ∀ k, k = mdmaenKey ∨ k = hdmaenKey → a.toNat ≠ k := by
    rintro k hk rfl
    rw [mapAddress_low_bank rfl (by rcases hk with hk | hk <;> rw [hk] <;> decide)] at ha
    rcases hk with hk | hk <;> rw [hk] at ha <;> exact absurd ha (by decide)
  unfold State.stored
  rw [cfg, mem, key, Memory.read_write_other _ _ (other _ (.inr rfl)), Memory.read_write_other _ _ (other _ (.inl rfl))]

/-- Settles O8: every unit of work reaches the cartridge by bus accesses alone, or by those of a DMA step or of reset. -/
theorem configurationIsConstant : Obligations.ConfigurationIsConstant := by
  intro s t h
  have latched : CartridgeKept s s.latched := .of_changesOnly (latched_changesOnly s) rfl
  have awake : CartridgeKept s s.awake := .of_changesOnly (awake_changesOnly s) rfl
  have spent : ∀ (n : Nat) (u : State), CartridgeKept u (spend n u) := fun n u => (spend_effect n u).bus.cartridgeKept
  show CartridgeKept s t
  cases step_next h with
  | reset => exact resetProcedure_cartridgeKept s.nextInputs
  | dma => exact (latched.trans (dmaStep_cartridgeKept _)).trans (spent _ _)
  | idle => exact latched.trans (spent _ _)
  | nmi _ => exact awake.trans (takeInterrupt_effect .nmi { s.awake with nmiPending := false }).bus.cartridgeKept
  | irq _ => exact awake.trans (takeInterrupt_effect .irq _).bus.cartridgeKept
  | move _ _ => exact (awake.trans (moveStep_effect _).bus.cartridgeKept).trans (spent _ _)
  | instruction _ _ fetch run => exact (awake.trans fetch.bus.cartridgeKept).trans (exec_effect run).bus.cartridgeKept

/-- No bus access sets the flag of RDNMI. -/
theorem BusRun.nmiFlag_le {s t : State} (h : BusRun s t) (ht : t.nmiFlag = true) : s.nmiFlag = true := by
  induction h with
  | refl => exact ht
  | read a _ ih =>
    rw [busRead_nmiFlag, Bool.and_eq_true] at ht
    exact ih ht.1
  | write a v _ ih => exact ih (busWrite_nmiFlag _ a v ▸ ht)
  | inside _ _ _ _ _ hf ih => exact ih (hf ▸ ht)

theorem transferByte_nmiFlag_le {c : Channel} {s : State} (h : (transferByte c s).nmiFlag = true) : s.nmiFlag = true := by
  unfold transferByte at h
  split at h <;> simp [busRead_nmiFlag] at h <;> exact h.1

theorem dmaStep_nmiFlag_le {s : State} (h : (dmaStep s).nmiFlag = true) : s.nmiFlag = true := by
  cases hn : s.servedChannel with
  | none => rwa [dmaStep_idle (by simp [State.dmaActive, hn])] at h
  | some n =>
    rw [dmaStep_served hn] at h
    refine transferByte_nmiFlag_le (c := s.ch[n]) ?_
    unfold stepChannel at h
    simp only at h
    split at h <;> simpa using h

theorem resetProcedure_nmiFlag (s : State) : (resetProcedure s).nmiFlag = false := by
  cases h : (resetProcedure s).nmiFlag
  · rfl
  · exact (readWordW_nmiFlag_le 0x00 resetVector h).symm

/-- Settles O14: the inputs of the tick apart, nothing a unit of work does sets the flag. -/
theorem onlyVBlankSetsTheNmiFlag : Obligations.OnlyVBlankSetsTheNmiFlag := by
  intro s t h ht
  have flag : s.latched.nmiFlag = true → s.nmiFlag = true ∨ s.env.vblankStart = true := by simp [State.latched]
  refine flag ?_
  cases step_next h with
  | reset => rw [resetProcedure_nmiFlag] at ht; cases ht
  | dma => exact dmaStep_nmiFlag_le ht
  | idle => exact ht
  | nmi _ => exact (takeInterrupt_effect .nmi { s.awake with nmiPending := false }).bus.nmiFlag_le ht
  | irq _ => exact (takeInterrupt_effect .irq s.awake).bus.nmiFlag_le ht
  | move _ _ => exact (moveStep_effect s.awake).bus.nmiFlag_le ht
  | instruction _ _ fetch run => exact fetch.bus.nmiFlag_le ((exec_effect run).bus.nmiFlag_le ht)

end Sys2Proof.Machine
end

section
/-! Which instruction may change which register and which flag (rules R20, R29): a part that has changed is among the parts the
instruction may change, and the tables are those parts the other way round. -/

namespace Sys2Proof.Machine

/-- The tables of rules R20 and R29: the mnemonics of the instructions that may change a register or a flag. -/
def writers : List (Part × List String) :=
  [(.d, ["TCD", "PLD"]), (.pbr, ["JML", "JSL", "RTL", "RTI", "BRK", "COP"]), (.dbr, ["PLB", "MVN", "MVP"]), (.e, ["XCE"]),
    (.sel, ["XCE"]),
    (.a, ["LDA", "ADC", "SBC", "AND", "ORA", "EOR", "INC", "DEC", "ASL", "LSR", "ROL", "ROR", "PLA",
      "TXA", "TYA", "TDC", "TSC", "XBA", "MVN", "MVP"]),
    (.stopped, ["STP"]), (.waiting, ["WAI"]), (.flagN, writesN), (.flagZ, "TSB" :: "TRB" :: writesN),
    (.flagV, ["ADC", "SBC", "BIT", "CLV", "REP", "SEP", "PLP", "RTI"]), (.flagM, ["REP", "SEP", "PLP", "RTI", "XCE"]),
    (.flagX, ["REP", "SEP", "PLP", "RTI", "XCE"]), (.flagD, ["SED", "CLD", "REP", "SEP", "PLP", "RTI", "BRK", "COP"]),
    (.flagI, ["SEI", "CLI", "REP", "SEP", "PLP", "RTI", "BRK", "COP"]),
    (.flagC, ["ADC", "SBC", "CMP", "CPX", "CPY", "ASL", "LSR", "ROL", "ROR", "CLC", "SEC", "XCE",
      "REP", "SEP", "PLP", "RTI"])]

/-- The tables list every instruction among whose parts the register or flag is. -/
theorem writers_complete (i : Instr) : ∀ w ∈ writers, w.1 ∈ i.parts → i.mnemonic ∈ w.2 := by
  cases i <;> exact of_decide_eq_true rfl

theorem mnemonic_mem_writers {p : Part} {l : List String} (hl : (p, l) ∈ writers) {i : Instr} {s t : State}
    (h : exec i s = .next t) (hc : ¬ p.same s t) : i.mnemonic ∈ l :=
  writers_complete i (p, l) hl (exec_part_mem h hc)

/-- Settles O45: a register that has changed is a part the instruction may change, so the table lists it. -/
theorem registerWriters : Obligations.RegisterWriters := fun _ _ _ h =>
  ⟨mnemonic_mem_writers (p := .d) (by decide) h, mnemonic_mem_writers (p := .pbr) (by decide) h,
    mnemonic_mem_writers (p := .dbr) (by decide) h,
    fun hc => List.mem_singleton.mp <| hc.elim (mnemonic_mem_writers (p := .e) (by decide) h)
      (mnemonic_mem_writers (p := .sel) (by decide) h),
    mnemonic_mem_writers (p := .a) (by decide) h,
    fun hc => List.mem_singleton.mp (mnemonic_mem_writers (p := .stopped) (by decide) h hc),
    fun hc => List.mem_singleton.mp (mnemonic_mem_writers (p := .waiting) (by decide) h hc)⟩

/-- Settles O46: a flag that has changed is a part the instruction may change, so the table lists it. -/
theorem flagWriters : Obligations.FlagWriters := fun _ _ _ h =>
  ⟨mnemonic_mem_writers (p := .flagN) (by decide) h, mnemonic_mem_writers (p := .flagZ) (by decide) h,
    mnemonic_mem_writers (p := .flagV) (by decide) h, mnemonic_mem_writers (p := .flagM) (by decide) h,
    mnemonic_mem_writers (p := .flagX) (by decide) h, mnemonic_mem_writers (p := .flagD) (by decide) h,
    mnemonic_mem_writers (p := .flagI) (by decide) h, mnemonic_mem_writers (p := .flagC) (by decide) h⟩

end Sys2Proof.Machine
end

section
/-! The writers of the whole status byte and of the mode: REP, SEP, PLP, XCE (rules R28, R32, R37, R315, R328 to R330). -/

namespace Sys2Proof.Machine

theorem setPbyte_statusWritten (v : Byte) (s : State) : StatusWritten v s (setPbyte v s) := by
  unfold StatusWritten
  simp only [setPbyte_p, setPbyte_x, setPbyte_y]
  rw [Status.ofByte]
  cases s.e <;> cases v.getLsbD 4 <;> simp only [setHigh] <;> simp

/-- What has been written does not depend on the parts a status byte does not reach. -/
theorem statusWritten_kept {l : List Part} {v : Byte} {s r u t : State} (h : StatusWritten v r u) (he : r.e = s.e)
    (hx : r.x = s.x) (hy : r.y = s.y) (hc : Effect l u t)
    (hl : [Part.flagN, .flagV, .flagM, .flagX, .flagD, .flagI, .flagZ, .flagC].all (fun p => !l.contains p) = true)
    (hl' : [Part.x, .y].all (fun p => !l.contains p) = true) : StatusWritten v s t := by
  have out : ∀ p ∈ [Part.x, .y], p ∉ l := fun p hp => by simpa using List.all_eq_true.mp hl' p hp
  have x : t.x = u.x := hc.only .x (out _ (by decide))
  have y : t.y = u.y := hc.only .y (out _ (by decide))
  unfold StatusWritten at h ⊢
  rw [hc.p_eq hl, x, y, ← he, ← hx, ← hy]
  exact h

theorem setPbyte_pageFixed (v : Byte) (s : State) : (setPbyte v s).sp = pageFixed s s.sp := setPbyte_sp v

/-- REP and SEP: the status byte is written to a value computed from it (rule R37). -/
theorem statusByte_result {i : Instr} {v : Byte} {s : State} (h : exec i s = .next (finish i {} s (setPbyte v s)))
    (hi : i.parts = .sp :: .pc :: .cycles :: statusParts) :
    ∃ t, exec i s = .next t ∧ StatusWritten v s t ∧ t.sp = pageFixed s s.sp ∧ Advances i s t ∧
      Frame (.sp :: .pc :: .cycles :: statusParts) s t :=
  ⟨_, h, statusWritten_kept (setPbyte_statusWritten v s) rfl rfl rfl ((Effect.refl [] _).finish i {} s) rfl rfl,
    setPbyte_pageFixed v s, rfl, frame_of (hi ▸ (exec_effect h).only) (by decide) (by decide)⟩

/-- PLP: the status byte is the byte pulled (rule R315). -/
theorem plp_result (s : State) : ∃ t, exec .plp s = .next t ∧ StatusWritten (pull8 s).1 s t ∧
    (Quiet s.cfg (legacyTop s 1) → (pull8 s).1 = s.peek (legacyTop s 1)) ∧ t.sp = pageFixed s (legacyUp s 1) ∧
    Advances .plp s t ∧ Frame (.sp :: .pc :: .cycles :: .nmiFlag :: statusParts) s t := by
  have h : exec .plp s = .next (finish .plp {} s (setPbyte (pull8 s).1 (pull8 s).2)) := rfl
  refine ⟨_, h, ?_, fun hq => by rw [pull8_top s hq], ?_, rfl, frame_of (exec_effect h).only (by decide) (by decide)⟩
  · exact statusWritten_kept (setPbyte_statusWritten _ _) (by simp) (by simp) (by simp)
      ((Effect.refl [] _).finish .plp {} s) rfl rfl
  · rw [finish_sp, setPbyte_pageFixed, pull8_sp_legacyUp]
    simp [pageFixed]

/-- Settles O39, by the three writes of the status byte. -/
theorem statusByteResult : Obligations.StatusByteResult := by
  refine fun s mask => ⟨fun w p hp => ?encodings, statusByte_result rfl rfl, statusByte_result rfl rfl, plp_result s⟩
  simp only [List.mem_cons, List.not_mem_nil, or_false] at hp
  obtain rfl | rfl | rfl := hp <;> rfl

/-- The exchange toggles the selector and moves neither physical bit (rule R30). -/
theorem exchange_physical {s t : State} (hs : t.sel = (exchangeCarryAndEmulation s).sel) (hc : t.p.c = s.e)
    (he : t.e = s.p.c) :
    t.sel ≠ s.sel ∧ t.rawBit0 = s.rawBit0 ∧ t.shadow = s.shadow := by
  unfold State.rawBit0 State.shadow
  rw [hs, hc, he]
  unfold exchangeCarryAndEmulation
  cases s.sel <;> simp

/-- Settles O40, by the exchange of the two flags and then the width fix-up in the mode entered. -/
theorem xceResult : Obligations.XceResult := by
  refine ⟨fun w p hp => by rw [List.mem_singleton.mp hp]; rfl, fun s => ?_⟩
  have h : exec .xce s = .next (finish .xce {} s (fixWidths (exchangeCarryAndEmulation s))) := rfl
  generalize ht : finish .xce {} s (fixWidths (exchangeCarryAndEmulation s)) = t at h
  have frame : Frame [.flagC, .flagM, .flagX, .e, .sel, .sp, .x, .y, .pc, .cycles] s t :=
    frame_of (exec_effect h).only (by decide) (by decide)
  have e : t.e = s.p.c := by simp [← ht]
  have p : t.p = if s.p.c then { s.p with c := s.e, m := true, x := true } else { s.p with c := s.e } := ht ▸ fixWidths_p
  have sp : t.sp = if s.p.c then setHigh s.sp 0x01 else s.sp := ht ▸ fixWidths_sp
  have x : t.x = if s.p.c || s.p.x then setHigh s.x 0x00 else s.x := ht ▸ fixWidths_x
  have y : t.y = if s.p.c || s.p.x then setHigh s.y 0x00 else s.y := ht ▸ fixWidths_y
  have c : t.p.c = s.e := by rw [p]; split <;> rfl
  obtain ⟨sel, raw, shadow⟩ := exchange_physical (t := t) (by simp [← ht]) c e
  refine ⟨t, h, c, e, sel, raw, shadow, ?enter, ?leave, ?narrow, ?wide, by rw [← ht]; rfl, frame⟩
  case enter => rw [e, p, sp]; intro entered; simp [entered, setHigh]
  case leave => rw [e, p, sp]; intro left; simp [left]
  case narrow => rw [p, x, y]; cases s.p.c <;> simp +contextual [setHigh]
  case wide => rw [p, x, y]; cases s.p.c <;> simp +contextual

end Sys2Proof.Machine
end

section
/-! The return from an interrupt (rule R432). -/

namespace Sys2Proof.Machine

/-- `k` legacy pulls after `j` are `j + k` (rule R301). -/
theorem legacyUp_add {s u : State} {j : Nat} (he : u.e = s.e) (hs : u.sp = legacyUp s j) (k : Nat) :
    legacyUp u k = legacyUp s (j + k) := by
  unfold legacyUp at *
  rw [he, hs]
  cases s.e <;> simp [BitVec.ofNat_add, BitVec.add_assoc]

/-- With the stack in page 1 the status byte pulled leaves the stack pointer where the pull left it. -/
theorem interruptReturn_status_sp {s : State} (h : EmulationInv s) :
    (setPbyte (pull8 s).1 (pull8 s).2).sp = legacyUp s 1 := by
  rw [setPbyte_sp, pull8_e, pull8_sp_legacyUp]
  split
  case isTrue he =>
    refine setHigh_self ?_
    rw [← pull8_sp_legacyUp, highByte_pull8 he]
    exact (h he).2.2
  case isFalse => rfl

theorem interruptReturn_sp {s : State} (h : EmulationInv s) :
    (interruptReturn s).sp = legacyUp s (if s.e then 3 else 4) := by
  have sp := interruptReturn_status_sp h
  have word : (pull16 (setPbyte (pull8 s).1 (pull8 s).2)).2.sp = legacyUp s 3 := by
    rw [pull16_sp_legacyUp, legacyUp_add (by simp) sp]
  unfold interruptReturn
  simp only
  split
  · exact word
  · exact pull8_sp_after s 3 _ (by simp) word

/-- With the frame at quiet addresses RTI takes the program counter and in native mode the bank from the frame. -/
theorem interruptReturn_quiet {s : State} (h : EmulationInv s)
    (hq : ∀ k, 1 ≤ k → k ≤ 4 → Quiet s.cfg (legacyTop s k)) :
    (interruptReturn s).pc = wordOf (s.peek (legacyTop s 3)) (s.peek (legacyTop s 2)) ∧
      (s.e = false → (interruptReturn s).pbr = s.peek (legacyTop s 4)) ∧ (interruptReturn s).nmiFlag = s.nmiFlag := by
  have status := pull8_top s (hq 1 (by decide) (by decide))
  have sp := interruptReturn_status_sp h
  unfold interruptReturn
  rw [status] at sp ⊢
  simp only at sp ⊢
  generalize hu : setPbyte (s.peek (legacyTop s 1)) { s with sp := legacyUp s 1 } = u at sp ⊢
  have e : u.e = s.e := by simp [← hu]
  have cfg : u.cfg = s.cfg := by simp [← hu]
  have mem : u.mem = s.mem := by simp [← hu]
  have flag : u.nmiFlag = s.nmiFlag := by simp [← hu]
  have top : ∀ k, legacyTop u k = legacyTop s (1 + k) := fun k => by rw [legacyTop, legacyUp_add e sp, legacyTop]
  have quiet : ∀ k, 1 ≤ k → k ≤ 3 → Quiet u.cfg (legacyTop u k) := fun k h1 h3 => by
    rw [cfg, top]; exact hq _ (by omega) (by omega)
  have peek : ∀ k, 1 ≤ k → k ≤ 3 → u.peek (legacyTop u k) = s.peek (legacyTop s (1 + k)) := fun k h1 h3 => by
    rw [top]; exact peek_congr (hq _ (by omega) (by omega)) mem cfg
  rw [pull16_top u (quiet 1 (by decide) (by decide)) (quiet 2 (by decide) (by decide)),
    peek 1 (by decide) (by decide), peek 2 (by decide) (by decide)]
  split
  case isTrue emulation => exact ⟨rfl, fun native => absurd emulation (by simp [native]), flag⟩
  case isFalse native =>
    generalize wordOf (s.peek (legacyTop s (1 + 2))) (s.peek (legacyTop s (1 + 1))) = pc
    have bank : pull8 { u with sp := legacyUp u 2, pc := pc } = _ :=
      pull8_after { u with pc := pc } 2 (quiet 3 (by decide) (by decide))
    rw [bank]
    exact ⟨rfl, fun _ => peek 3 (by decide) (by decide), flag⟩

/-- Settles O50: the status byte, the program counter and the bank are the pulls of `interruptReturn`, and with the stack in
page 1 the width fix-up between them does not move the stack pointer. -/
theorem rtiResult : Obligations.RtiResult := by
  refine ⟨fun w p hp => by rw [List.mem_singleton.mp hp]; rfl, fun s => ?_⟩
  have h : exec .rti s = .next (report .rti {} s (interruptReturn s)) := rfl
  refine ⟨_, h, ?status, ?frame, ?bank, fun hi => interruptReturn_sp hi, fun hi hq => ?values⟩
  case status =>
    exact statusWritten_kept (setPbyte_statusWritten _ _) (by simp) (by simp) (by simp)
      ((interruptReturn_afterStatus s).report .rti {} s) rfl rfl
  case frame => exact frame_of ((exec_effect h).only) (by decide) (by decide)
  case bank => intro emulation; simp [interruptReturn, emulation]
  case values => exact ⟨by rw [pull8_top s (hq 1 (by decide) (by decide))], interruptReturn_quiet hi hq⟩

end Sys2Proof.Machine
end

section
/-! A load of RDNMI (rules R42, R74, R81, R192). -/

namespace Sys2Proof.Machine

/-- The internal registers are decoded in every system bank (rule R61). -/
theorem mapAddress_cpu {a : Addr}
    (bank : a.toNat / 0x10000 ≤ 0x3F ∨ (0x80 ≤ a.toNat / 0x10000 ∧ a.toNat / 0x10000 ≤ 0xBF))
    (off : 0x4200 ≤ a.toNat % 0x10000 ∧ a.toNat % 0x10000 ≤ 0x43FF) : mapAddress a = .cpu := by
  unfold mapAddress
  simp only
  rw [if_neg (by omega), if_pos bank, if_neg (by omega), if_neg (by omega), if_neg (by omega), if_pos off]

theorem isRdnmi_systemBank {b : Byte} (h : IsSystemBank b) : isRdnmi (addrOf b 0x4210) = true := by
  have system : b.toNat ≤ 0x3F ∨ (0x80 ≤ b.toNat ∧ b.toNat ≤ 0xBF) := h
  have value : (addrOf b 0x4210).toNat = 65536 * b.toNat + 0x4210 := toNat_addrOf b 0x4210
  have region : mapAddress (addrOf b 0x4210) = .cpu := mapAddress_cpu (by omega) (by omega)
  simp only [isRdnmi, region, value, decide_true, Bool.true_and, decide_eq_true_eq]
  omega

/-- What an 8-bit LDA does with its operand. -/
theorem execLda_w8 {src : Src} {s : State} (h : s.wM = .w8) :
    exec (.lda src) s = .next (finish (.lda src) { pageCross := (readSrc src .w8 s).cross } s
      (((readSrc src .w8 s).st.setAcc .w8 (readSrc src .w8 s).val).setNZ (readSrc src .w8 s).val)) := by
  show execLda src s = _
  unfold execLda
  rw [h]

/-- An 8-bit LDA of RDNMI loads the flag in bit 7 over 0b0000010 and clears it. -/
theorem lda_rdnmi {s : State} (hw : s.wM = .w8) (hb : IsSystemBank s.dbr) :
    ∃ t, exec (.lda (.mem (.abs 0x4210))) s = .next t ∧ lowByte t.a = (if s.nmiFlag then 0x82 else 0x02) ∧
      t.nmiFlag = false ∧ t.wM = .w8 ∧ t.dbr = s.dbr := by
  have read : busRead (addrOf s.dbr 0x4210) s = _ := busRead_rdnmi (isRdnmi_systemBank hb)
  have val : (readSrc (.mem (.abs 0x4210)) .w8 s).val = if s.nmiFlag then 0x82 else 0x02 := congrArg Prod.fst read
  have st : (readSrc (.mem (.abs 0x4210)) .w8 s).st = { s with nmiFlag := false } := congrArg Prod.snd read
  refine ⟨_, execLda_w8 hw, (lowByte_setLow _ _).trans val, congrArg State.nmiFlag st, ?_, by simp⟩
  rw [wM_w8_iff] at hw ⊢
  simpa using hw

/-- Inspection of RDNMI (rules R42, R76). -/
theorem peek_rdnmi {s : State} {a : Addr} (h : isRdnmi a = true) : s.peek a = if s.nmiFlag then 0x82 else 0x02 := by
  have region : mapAddress a = .cpu := by simp [isRdnmi] at h; exact h.1
  simp [State.peek, region, h, State.rdnmi]

/-- Settles O13: the first load clears the flag, so the second one finds it clear. -/
theorem loadOfRdnmiClearsIt : Obligations.LoadOfRdnmiClearsIt := by
  intro s hw hb
  obtain ⟨t, load, value, clear, narrow, bank⟩ := lda_rdnmi hw hb
  obtain ⟨u, reload, value', _⟩ := lda_rdnmi narrow (bank ▸ hb)
  exact ⟨t, u, load, reload, value, clear, by simpa [clear] using value',
    by rw [value, peek_rdnmi (isRdnmi_systemBank hb)]⟩

end Sys2Proof.Machine
end

section
/-! The start of DMA by a write to MDMAEN (rules R43, R352, R353), by the bus or by a store instruction. -/

namespace Sys2Proof.Machine

/-! Where the second byte of an operand is. -/

/-- The address `b` follows `a`, but where `a` is the last byte of a page. -/
def Follows (a b : Addr) : Prop :=
  b.toNat % 256 = (a.toNat + 1) % 256 ∧ (a.toNat % 256 ≠ 255 → b.toNat = a.toNat + 1)

theorem follows_linear (a : Addr) : Follows a (a + 1) := by
  have : a.toNat < 2 ^ 24 := a.isLt
  have next : (a + 1).toNat = (a.toNat + 1) % 2 ^ 24 := BitVec.toNat_add a 1
  unfold Follows
  omega

theorem follows_bankZero (v : Word) (o : Nat) :
    Follows (addrOf 0x00 (v + BitVec.ofNat 16 o)) (addrOf 0x00 (v + BitVec.ofNat 16 (o + 1))) := by
  have zero : (0x00 : Byte).toNat = 0 := rfl
  unfold Follows
  rw [toNat_addrOf, toNat_addrOf, zero, BitVec.toNat_add, BitVec.toNat_add, BitVec.toNat_ofNat, BitVec.toNat_ofNat]
  omega

theorem follows_page (h : Byte) (o : Nat) :
    Follows (addrOf 0x00 (wordOf h (BitVec.ofNat 8 o))) (addrOf 0x00 (wordOf h (BitVec.ofNat 8 (o + 1)))) := by
  have zero : (0x00 : Byte).toNat = 0 := rfl
  unfold Follows
  rw [toNat_addrOf, toNat_addrOf, zero, toNat_wordOf, toNat_wordOf, BitVec.toNat_ofNat, BitVec.toNat_ofNat]
  omega

theorem follows_dpAddr (s : State) (o : Nat) (legacy : Bool) : Follows (dpAddr s o legacy) (dpAddr s (o + 1) legacy) := by
  unfold dpAddr
  split
  · exact follows_page _ o
  · exact follows_bankZero _ o

/-- The two bytes of a memory operand (rule R131). -/
theorem resolve_follows (m : Mem) (s : State) : Follows (resolve m s).addr0 (resolve m s).addr1 := by
  cases m with
  | dp d | dpX d | dpY d => exact follows_dpAddr s _ true
  | sr r => exact follows_bankZero s.sp r.toNat
  | abs _ | absX _ | absY _ | long _ | longX _ | dpInd _ | dpIndLong _ | dpXInd _ | dpIndY _ | dpIndLongY _ | srIndY _ =>
    exact follows_linear _

/-! The registers of the channels. -/

theorem isMdmaen_iff {a : Addr} : isMdmaen a = true ↔ mapAddress a = .cpu ∧ a.toNat % 0x10000 = 0x420B := by
  simp [isMdmaen]

/-- Inspection of a channel's register (rule R42). -/
theorem peek_channelReg (s : State) (n : Fin 8) {r : Nat} (hr : r < 16) :
    s.peek (channelReg n r) = s.ireg (channelKey n.val r) := by
  have region := mapAddress_channelReg n hr
  have other : isRdnmi (channelReg n r) = false := (stores_channelReg s.cfg n hr).1.1
  simp only [State.peek, region, other, State.stored, storeKey_channelReg s.cfg n hr]
  rfl

theorem strideOf_increment (p : Byte) : strideOf p = .increment ↔ p.getLsbD 4 = false ∧ p.getLsbD 3 = false := by
  revert p; decide

theorem strideOf_decrement (p : Byte) : strideOf p = .decrement ↔ p.getLsbD 4 = true ∧ p.getLsbD 3 = false := by
  revert p; decide

theorem formatOfMode_pattern (k : Nat) (h : k < 8) : (formatOfMode k).pattern = modePattern k := by
  revert h; revert k; decide

/-- A fresh latch holds what the channel's registers say (rules R43, R352). -/
theorem latchChannel_spec (s : State) (n : Fin 8) :
    let c := s.latchChannel n.val
    let p := s.peek (channelReg n 0)
    c.active = true ∧ c.idx = 0 ∧ (c.dir = .bToA ↔ p.getLsbD 7 = true) ∧ c.indirect = p.getLsbD 6 ∧
      (c.stride = .increment ↔ p.getLsbD 4 = false ∧ p.getLsbD 3 = false) ∧
      (c.stride = .decrement ↔ p.getLsbD 4 = true ∧ p.getLsbD 3 = false) ∧
      c.format = formatOfMode (p.toNat % 8) ∧ c.format.pattern = modePattern (p.toNat % 8) ∧
      c.bOff = s.peek (channelReg n 1) ∧
      c.aAddr.toNat = (s.peek (channelReg n 4)).toNat * 65536 + (s.peek (channelReg n 3)).toNat * 256 +
        (s.peek (channelReg n 2)).toNat ∧
      c.count.toNat = (s.peek (channelReg n 6)).toNat * 256 + (s.peek (channelReg n 5)).toNat := by
  intro c p
  have mode : (p.extractLsb' 0 3).toNat = p.toNat % 8 := by simp
  have register : ∀ r, r < 16 → s.ireg (channelKey n.val r) = s.peek (channelReg n r) := fun r hr =>
    (peek_channelReg s n hr).symm
  have latch : c = { active := true, dir := if p.getLsbD 7 then .bToA else .aToB, indirect := p.getLsbD 6,
                     stride := strideOf p, format := formatOfMode (p.toNat % 8),
                     aAddr := addrOf (s.peek (channelReg n 4)) (wordOf (s.peek (channelReg n 3)) (s.peek (channelReg n 2))),
                     bOff := s.peek (channelReg n 1),
                     count := wordOf (s.peek (channelReg n 6)) (s.peek (channelReg n 5)), idx := 0 } := by
    rw [← mode]
    simp only [c, p, State.latchChannel, ← register _ (by decide : (0 : Nat) < 16), register 1 (by decide),
      register 2 (by decide), register 3 (by decide), register 4 (by decide), register 5 (by decide), register 6 (by decide)]
  rw [latch]
  refine ⟨rfl, rfl, by simp, rfl, strideOf_increment p, strideOf_decrement p, rfl,
    formatOfMode_pattern _ (Nat.mod_lt _ (by decide)), rfl, ?_, ?_⟩
  · simp only [toNat_addrOf, toNat_wordOf]; omega
  · simp only [toNat_wordOf]; omega

/-- Channels that are those of `DmaStart` are the ones the statement names. -/
theorem startsChannels_of {v : Byte} {s t : State} (h : t.ch = (dmaStart v s).ch) : StartsChannels v s t := by
  intro n
  have channel := dmaStart_getElem (s := s) v n
  rw [← h] at channel
  refine ⟨fun off => by rw [channel, off]; rfl, fun on => ?_⟩
  rw [on, if_pos rfl] at channel
  rw [channel]
  exact latchChannel_spec s n

/-- The byte in MDMAEN is no channel's register, so the channels are latched from the registers as they were. -/
theorem busWrite_mdmaen_ch {s : State} {a : Addr} (v : Byte) (h : isMdmaen a = true) :
    (busWrite a v s).ch = (dmaStart v s).ch := by
  obtain ⟨key, stores⟩ := storeKey_mdmaen (cfg := s.cfg) h
  rw [busWrite_mdmaen v h]
  refine dmaStart_ch_congr v (by simp) fun n r hr => storeByte_channelKey v stores hr fun same => ?_
  unfold SameByte at same
  rw [key, storeKey_channelReg s.cfg n (by omega)] at same
  exact channelKey_ne_mdmaen _ _ same

/-! An operand of which a byte is in MDMAEN. -/

/-- The address is MDMAEN's or next to it. -/
def NearMdmaen (a : Addr) : Prop := mapAddress a = .cpu ∧ 0x420A ≤ a.toNat % 0x10000 ∧ a.toNat % 0x10000 ≤ 0x420C

theorem Follows.nearMdmaen {a b : Addr} (h : Follows a b) (hm : isMdmaen a = true ∨ isMdmaen b = true) :
    NearMdmaen a ∧ NearMdmaen b ∧ b.toNat % 0x10000 = a.toNat % 0x10000 + 1 := by
  obtain ⟨page, next⟩ := h
  rw [isMdmaen_iff, isMdmaen_iff] at hm
  have off : a.toNat % 0x10000 = 0x420B ∨ b.toNat % 0x10000 = 0x420B := hm.imp And.right And.right
  have step : b.toNat = a.toNat + 1 := next (by omega)
  have near : ∀ c : Addr, c.toNat = a.toNat ∨ c.toNat = a.toNat + 1 → NearMdmaen c := fun c hc => by
    have bank : c.toNat / 0x10000 = a.toNat / 0x10000 ∧ c.toNat / 0x10000 = b.toNat / 0x10000 := by omega
    refine ⟨mapAddress_cpu ?_ (by omega), by omega, by omega⟩
    rcases hm with ⟨region, _⟩ | ⟨region, _⟩
    · exact bank.1 ▸ (mapAddress_system (.inr (.inl region))).1
    · exact bank.2 ▸ (mapAddress_system (.inr (.inl region))).1
  exact ⟨near a (.inl rfl), near b (.inr step), by omega⟩

theorem NearMdmaen.stores {cfg : Cfg} {a : Addr} (h : NearMdmaen a) : Stores cfg a := by
  obtain ⟨region, _, high⟩ := h
  have other : isRdnmi a = false := by
    simp only [isRdnmi, Bool.and_eq_false_iff, decide_eq_false_iff_not]; omega
  exact ⟨⟨other, by simp [region]⟩, by simp [region], by simp [region]⟩

theorem NearMdmaen.storeKey {cfg : Cfg} {a : Addr} (h : NearMdmaen a) : storeKey cfg a = a.toNat % 0x10000 := by
  simp [Machine.storeKey, h.1]

theorem NearMdmaen.not_channelReg {cfg : Cfg} {a : Addr} (h : NearMdmaen a) (n : Fin 8) {r : Nat} (hr : r < 7) :
    ¬ SameByte cfg a (channelReg n r) := by
  unfold SameByte
  rw [h.storeKey, storeKey_channelReg cfg n (by omega), channelKey]
  have := h.2.2
  omega

/-- A store of an operand of which a byte reaches MDMAEN starts DMA with that byte: the other one is next to MDMAEN. -/
theorem writeData_starts {r : Resolved} (hr : Follows r.addr0 r.addr1) {W : Width} {v : BitVec W.bits} {s : State}
    {p : Addr × Byte} (hp : p ∈ r.cells W v) (hm : isMdmaen p.1 = true) :
    (writeData W r v s).ch = (dmaStart p.2 s).ch := by
  have reach : isMdmaen r.addr0 = true ∨ isMdmaen r.addr1 = true := by
    have at_cell : p.1 ∈ r.bytes W := by rw [← r.cells_fst W v]; exact List.mem_map_of_mem hp
    have cases_of : p.1 = r.addr0 ∨ p.1 = r.addr1 := by cases W <;> simp_all [Resolved.bytes]
    exact cases_of.imp (fun h => by rwa [← h]) (fun h => by rwa [← h])
  obtain ⟨near0, near1, differ⟩ := hr.nearMdmaen reach
  have near : ∀ q ∈ r.cells W v, NearMdmaen q.1 := by
    cases W <;> simp [Resolved.cells, near0, near1]
  have distinct : (r.cells W v).Pairwise fun p q => ¬ SameByte s.cfg p.1 q.1 := by
    have : ¬ SameByte s.cfg r.addr0 r.addr1 := by
      unfold SameByte; rw [near0.storeKey, near1.storeKey]; omega
    cases W <;> simp [Resolved.cells, this]
  rw [writeData_eq, writeAll_starts _ s (fun q hq => (near q hq).stores) distinct
    (fun q hq n r hr => (near q hq).not_channelReg n hr) p hp hm, busWrite_mdmaen_ch _ hm]

theorem storeMem_starts {i : Instr} {m : Mem} {W : Width} {v : BitVec W.bits} {s : State}
    (h : exec i s = .next (storeMem i m W v s)) : StoreStarts i m W v s := by
  refine fun p hp hm => ⟨_, h, startsChannels_of ?_⟩
  have stored : (storeMem i m W v s).ch = (dmaStart p.2 (resolve m s).st).ch := writeData_starts (resolve_follows m s) hp hm
  rw [stored]
  exact dmaStart_ch_congr p.2 (by simp) fun n r _ => by simp [State.ireg]

/-- Settles O55, by what a write to MDMAEN does, alone or among the bytes of a store. -/
theorem mdmaenStartsChannels : Obligations.MdmaenStartsChannels :=
  ⟨fun _ a v hw hm => ⟨peek_busWrite_same hw (storeKey_mdmaen hm).2, busWrite_kept a v _,
      startsChannels_of (busWrite_mdmaen_ch v hm)⟩,
    fun _ _ _ => ⟨storeMem_starts rfl, storeMem_starts rfl, storeMem_starts rfl, storeMem_starts rfl⟩⟩

end Sys2Proof.Machine
end

section
/-! Nothing but the counter depends on the counter (rule R470): each operation does the same whatever `cycles` is. -/

namespace Sys2Proof.Machine

/-- The state with another count of cycles. -/
def State.withCycles (k : Nat) (s : State) : State := { s with cycles := k }

variable (k : Nat) (s : State)

/-! Bus accesses. -/

theorem busRead_withCycles (a : Addr) :
    busRead a (s.withCycles k) = ((busRead a s).1, (busRead a s).2.withCycles k) := by
  unfold busRead
  split
  case h_2 => show (if s.cfg.ppuExternal then _ else _) = _; split <;> rfl
  case h_3 => split <;> rfl
  all_goals rfl

theorem storeByte_withCycles (a : Addr) (v : Byte) :
    storeByte a v (s.withCycles k) = (storeByte a v s).withCycles k := by
  unfold storeByte cartWrite
  split
  case h_2 => show (if s.cfg.ppuExternal then _ else _) = _; split <;> rfl
  case h_3 => split <;> rfl
  case h_5 => show (if s.cfg.cartWrites then _ else _) = _; split <;> rfl
  all_goals rfl

theorem busWrite_withCycles (a : Addr) (v : Byte) : busWrite a v (s.withCycles k) = (busWrite a v s).withCycles k := by
  simp only [busWrite, storeByte_withCycles]; split <;> rfl

theorem readWordW_withCycles (b : Byte) (o : Word) :
    readWordW b o (s.withCycles k) = ((readWordW b o s).1, (readWordW b o s).2.withCycles k) := by
  simp only [readWordW, busRead_withCycles]

theorem readLongW_withCycles (b : Byte) (o : Word) :
    readLongW b o (s.withCycles k) = ((readLongW b o s).1, (readLongW b o s).2.withCycles k) := by
  simp only [readLongW, readWordW_withCycles, busRead_withCycles]

/-! Operands. -/

theorem dpAddr_withCycles (o : Nat) (l : Bool) : dpAddr (s.withCycles k) o l = dpAddr s o l := rfl

theorem dpPointer_withCycles (o : Nat) (l : Bool) :
    dpPointer o l (s.withCycles k) = ((dpPointer o l s).1, (dpPointer o l s).2.withCycles k) := by
  simp only [dpPointer, dpAddr_withCycles, busRead_withCycles]

theorem dpPointerLong_withCycles (o : Nat) :
    dpPointerLong o (s.withCycles k) = ((dpPointerLong o s).1, (dpPointerLong o s).2.withCycles k) := by
  simp only [dpPointerLong, dpPointer_withCycles, dpAddr_withCycles, busRead_withCycles]

theorem resolve_withCycles (m : Mem) :
    resolve m (s.withCycles k) = { resolve m s with st := (resolve m s).st.withCycles k } := by
  cases m with
  | dpInd _ | dpXInd _ | dpIndY _ => simp only [resolve, dpPointer_withCycles]; rfl
  | dpIndLong _ | dpIndLongY _ => simp only [resolve, dpPointerLong_withCycles]; rfl
  | srIndY _ => simp only [resolve, readWordW_withCycles]; rfl
  | abs _ | absX _ | absY _ | long _ | longX _ | dp _ | dpX _ | dpY _ | sr _ => rfl

theorem readData_withCycles (W : Width) (r : Resolved) :
    readData W r (s.withCycles k) = ((readData W r s).1, (readData W r s).2.withCycles k) := by
  cases W <;> simp only [readData, busRead_withCycles]

theorem readSrc_withCycles (src : Src) (W : Width) :
    readSrc src W (s.withCycles k) = { readSrc src W s with st := (readSrc src W s).st.withCycles k } := by
  cases src
  · rfl
  · simp only [readSrc, resolve_withCycles, readData_withCycles]
    cases W <;> rfl

theorem writeAll_withCycles : ∀ (l : List (Addr × Byte)) (s : State),
    writeAll l (s.withCycles k) = (writeAll l s).withCycles k
  | [], _ => rfl
  | p :: l, s => by rw [writeAll_cons, writeAll_cons, busWrite_withCycles, writeAll_withCycles l]

theorem writeData_withCycles (W : Width) (r : Resolved) (v : BitVec W.bits) :
    writeData W r v (s.withCycles k) = (writeData W r v s).withCycles k := by
  rw [writeData_eq, writeData_eq, writeAll_withCycles]

theorem writeBack_withCycles (W : Width) (r : Resolved) (v : BitVec W.bits) :
    writeBack W r v (s.withCycles k) = (writeBack W r v s).withCycles k := by
  rw [writeBack_eq, writeBack_eq, writeAll_withCycles]

/-! The stack. -/

theorem push8_withCycles (v : Byte) : push8 v (s.withCycles k) = (push8 v s).withCycles k := by
  simp only [push8, busWrite_withCycles]; rfl

theorem push16_withCycles (v : Word) : push16 v (s.withCycles k) = (push16 v s).withCycles k := by
  simp only [push16, push8_withCycles]

theorem push8N_withCycles (v : Byte) : push8N v (s.withCycles k) = (push8N v s).withCycles k := by
  simp only [push8N, busWrite_withCycles]; rfl

theorem push16N_withCycles (v : Word) : push16N v (s.withCycles k) = (push16N v s).withCycles k := by
  simp only [push16N, push8N_withCycles]

theorem pushW_withCycles (W : Width) (v : BitVec W.bits) : pushW W v (s.withCycles k) = (pushW W v s).withCycles k := by
  cases W
  · exact push8_withCycles k s v
  · exact push16_withCycles k s v

theorem pull8_withCycles : pull8 (s.withCycles k) = ((pull8 s).1, (pull8 s).2.withCycles k) :=
  busRead_withCycles k { s with sp := s.spUp } _

theorem pull16_withCycles : pull16 (s.withCycles k) = ((pull16 s).1, (pull16 s).2.withCycles k) := by
  simp only [pull16, pull8_withCycles]

theorem pull8N_withCycles : pull8N (s.withCycles k) = ((pull8N s).1, (pull8N s).2.withCycles k) :=
  busRead_withCycles k { s with sp := s.sp + 1 } _

theorem pull16N_withCycles : pull16N (s.withCycles k) = ((pull16N s).1, (pull16N s).2.withCycles k) := by
  simp only [pull16N, pull8N_withCycles]

theorem pullW_withCycles (W : Width) : pullW W (s.withCycles k) = ((pullW W s).1, (pullW W s).2.withCycles k) := by
  cases W
  · exact pull8_withCycles k s
  · exact pull16_withCycles k s

theorem fixWidths_withCycles : fixWidths (s.withCycles k) = (fixWidths s).withCycles k := by
  cases he : s.e <;> cases hx : s.p.x <;> simp [fixWidths, State.withCycles, he, hx]

theorem setPbyte_withCycles (v : Byte) : setPbyte v (s.withCycles k) = (setPbyte v s).withCycles k :=
  fixWidths_withCycles k { s with p := Status.ofByte v }

theorem fixSH_withCycles : fixSH (s.withCycles k) = (fixSH s).withCycles k := by
  unfold fixSH
  show (if s.e then _ else _) = _
  split <;> rfl

/-! The instructions. -/

theorem jumpTarget_withCycles (t : JumpTarget) :
    jumpTarget t (s.withCycles k) = ((jumpTarget t s).1, (jumpTarget t s).2.withCycles k) := by
  cases t
  · rfl
  · exact readWordW_withCycles k s _ _
  · exact readWordW_withCycles k s _ _

theorem longTarget_withCycles (t : LongTarget) :
    longTarget t (s.withCycles k) = ((longTarget t s).1, (longTarget t s).2.withCycles k) := by
  cases t
  · rfl
  · exact readLongW_withCycles k s _ _

/-! A register written in a state with another count of cycles. -/

theorem setPc_withCycles (v : Word) : { s.withCycles k with pc := v } = State.withCycles k { s with pc := v } := rfl

theorem setPbr_withCycles (b : Byte) : { s.withCycles k with pbr := b } = State.withCycles k { s with pbr := b } := rfl

theorem setPcBank_withCycles (v : Word) (b : Byte) :
    { s.withCycles k with pc := v, pbr := b } = State.withCycles k { s with pc := v, pbr := b } := rfl

theorem setDbr_withCycles (b : Byte) : { s.withCycles k with dbr := b } = State.withCycles k { s with dbr := b } := rfl

theorem setD_withCycles (v : Word) : { s.withCycles k with d := v } = State.withCycles k { s with d := v } := rfl

theorem setNZ_withCycles {w : Nat} (v : BitVec w) : (s.withCycles k).setNZ v = (s.setNZ v).withCycles k := rfl

theorem exchange_withCycles :
    exchangeCarryAndEmulation (s.withCycles k) = (exchangeCarryAndEmulation s).withCycles k := rfl

theorem logic_withCycles (i : Instr) (src : Src) (W : Width) (f : BitVec W.bits → BitVec W.bits → BitVec W.bits) :
    logic i src W f (s.withCycles k) =
      (logic i src W f s).withCycles (k + cyclesOf i { pageCross := (readSrc src W s).cross } s) := by
  simp only [logic, readSrc_withCycles]; rfl

theorem compareSource_withCycles (i : Instr) (src : Src) (W : Width) (reg : BitVec W.bits) :
    compareSource i src W reg (s.withCycles k) =
      (compareSource i src W reg s).withCycles (k + cyclesOf i { pageCross := (readSrc src W s).cross } s) := by
  simp only [compareSource, readSrc_withCycles]; rfl

theorem modifyTarget_withCycles (i : Instr) (tgt : Tgt) (W : Width) (f : BitVec W.bits → BitVec W.bits)
    (g : BitVec W.bits → Status → Status) :
    modifyTarget i tgt W f g (s.withCycles k) = (modifyTarget i tgt W f g s).withCycles (k + cyclesOf i {} s) := by
  cases tgt
  · rfl
  · simp only [modifyTarget, resolve_withCycles, readData_withCycles, writeBack_withCycles]; rfl

theorem storeMem_withCycles (i : Instr) (m : Mem) (W : Width) (v : BitVec W.bits) :
    storeMem i m W v (s.withCycles k) = (storeMem i m W v s).withCycles (k + cyclesOf i {} s) := by
  simp only [storeMem, resolve_withCycles, writeData_withCycles]; rfl

theorem call_withCycles (t : CallTarget) : call t (s.withCycles k) = (call t s).withCycles k := by
  cases t
  · simp only [call, push16_withCycles]; rfl
  · simp only [call, push16N_withCycles, readWordW_withCycles, setPc_withCycles, fixSH_withCycles]; rfl

theorem interruptEntry_withCycles (kind : Interrupt) :
    interruptEntry kind (s.withCycles k) = (interruptEntry kind s).withCycles k := by
  have frame : interruptFrame (s.withCycles k) (returnAddress kind (s.withCycles k)) (savedStatus kind (s.withCycles k)) =
      interruptFrame s (returnAddress kind s) (savedStatus kind s) := rfl
  rw [interruptEntry_eq, interruptEntry_eq, frame, writeAll_withCycles]
  rfl

theorem interruptReturn_withCycles : interruptReturn (s.withCycles k) = (interruptReturn s).withCycles k := by
  unfold interruptReturn
  simp only [pull8_withCycles, setPbyte_withCycles, pull16_withCycles, setPc_withCycles, setPbr_withCycles]
  show (if s.e then _ else _) = _
  split <;> rfl

theorem moveStep_withCycles : moveStep (s.withCycles k) = (moveStep s).withCycles k := by
  unfold moveStep
  simp only [busRead_withCycles, busWrite_withCycles]
  show (if s.a - 1 = 0xFFFF then _ else _) = _
  split <;> rfl

theorem spend_withCycles (n : Nat) : spend n (s.withCycles k) = (spend n s).withCycles (k + n) := rfl

/-- A block move with its latch set. -/
theorem startMove_withCycles (dir : MoveDir) (dst src : Byte) : startMove dir dst src (s.withCycles k) =
    (startMove dir dst src s).withCycles
      (k + moveCycles { s with mv := { src := src, dst := dst, dir := dir }, moving := true, dbr := dst }) := by
  unfold startMove
  rw [← spend_withCycles, ← moveStep_withCycles]
  rfl

/-! Every instruction. -/

/-- Two outcomes that are the same, but for the counter of the next state. -/
def SameButCycles (o o' : Host.Outcome State Fault Refusal) : Prop :=
  match o with
  | .next t => ∃ c, o' = .next (t.withCycles c)
  | .fault f => o' = .fault f
  | .refused r => o' = .refused r

theorem SameButCycles.next {t u : State} {c : Nat} (h : u = t.withCycles c) : SameButCycles (.next t) (.next u) :=
  ⟨c, congrArg _ h⟩

theorem exec_withCycles (i : Instr) : SameButCycles (exec i s) (exec i (s.withCycles k)) := by
  cases i with
  | lda src | ldx src | ldy src =>
    exact ⟨_, by simp only [exec, execLda, execLdx, execLdy, readSrc_withCycles]; rfl⟩
  | sta m | stx m | sty m | stz m => exact .next (storeMem_withCycles k s _ m _ _)
  | adc src | sbc src => exact ⟨_, by simp only [exec, execAdc, execSbc, readSrc_withCycles]; rfl⟩
  | and src | ora src | eor src => exact .next (logic_withCycles k s _ src _ _)
  | cmp src | cpx src | cpy src => exact .next (compareSource_withCycles k s _ src _ _)
  | bit src => exact ⟨_, by simp only [exec, execBit, readSrc_withCycles]; rfl⟩
  | inc tgt | dec tgt | asl tgt | lsr tgt | rol tgt | ror tgt => exact .next (modifyTarget_withCycles k s _ tgt _ _ _)
  | tsb m | trb m => exact .next (modifyTarget_withCycles k s _ (.mem m) _ _ _)
  | tax | tay | txa | tya | txy | tyx | tsx | txs | tcd | tdc | tcs | tsc | xba | inx | iny | dex | dey => exact ⟨_, rfl⟩
  | bcc _ | bcs _ | beq _ | bne _ | bmi _ | bpl _ | bvc _ | bvs _ | bra _ | brl _ => exact ⟨_, rfl⟩
  | clc | sec | cli | sei | cld | sed | clv | nop | wdm _ | stp | wai => exact ⟨_, rfl⟩
  | jmp t => exact ⟨_, by simp only [exec, execJmp, jumpTarget_withCycles]; rfl⟩
  | jml t => exact ⟨_, by simp only [exec, execJml, longTarget_withCycles]; rfl⟩
  | jsr t => exact ⟨_, by simp only [exec, execJsr, call_withCycles]; rfl⟩
  | jsl al =>
    exact ⟨_, by
      simp only [exec, execJsl, push8N_withCycles, push16N_withCycles, setPcBank_withCycles, fixSH_withCycles]
      rfl⟩
  | rts => exact ⟨_, by simp only [exec, execRts, pull16_withCycles]; rfl⟩
  | rtl =>
    exact ⟨_, by
      simp only [exec, execRtl, pull16N_withCycles, setPc_withCycles, pull8N_withCycles, setPbr_withCycles, fixSH_withCycles]
      rfl⟩
  | pha | phx | phy => exact ⟨_, by simp only [exec, execPha, execPhx, execPhy, pushW_withCycles]; rfl⟩
  | php | phb | phk => exact ⟨_, by simp only [exec, execPhp, execPhb, execPhk, push8_withCycles]; rfl⟩
  | phd | pea _ | per _ =>
    exact ⟨_, by simp only [exec, execPhd, execPea, execPer, push16N_withCycles, fixSH_withCycles]; rfl⟩
  | pei d => exact ⟨_, by simp only [exec, execPei, dpPointer_withCycles, push16N_withCycles, fixSH_withCycles]; rfl⟩
  | pla | plx | ply => exact ⟨_, by simp only [exec, execPla, execPlx, execPly, pullW_withCycles]; rfl⟩
  | plp => exact ⟨_, by simp only [exec, execPlp, pull8_withCycles, setPbyte_withCycles]; rfl⟩
  | plb =>
    exact ⟨_, by simp only [exec, execPlb, pull8N_withCycles, setDbr_withCycles, setNZ_withCycles, fixSH_withCycles]; rfl⟩
  | pld =>
    exact ⟨_, by simp only [exec, execPld, pull16N_withCycles, setD_withCycles, setNZ_withCycles, fixSH_withCycles]; rfl⟩
  | rep mask | sep mask => exact ⟨_, by simp only [exec, execRep, execSep, setPbyte_withCycles]; rfl⟩
  | xce => exact ⟨_, by simp only [exec, execXce, exchange_withCycles, fixWidths_withCycles]; rfl⟩
  | mvn dst src | mvp dst src => exact .next (startMove_withCycles k s _ dst src)
  | brk _ | cop _ => exact ⟨_, by simp only [exec, execBrk, execCop, interruptEntry_withCycles]; rfl⟩
  | rti => exact ⟨_, by simp only [exec, execRti, interruptReturn_withCycles]; rfl⟩

/-! The other units of work, and the tick. -/

theorem fetchOperands_withCycles : ∀ (n i : Nat) (s : State),
    fetchOperands n i (s.withCycles k) = ((fetchOperands n i s).1, (fetchOperands n i s).2.withCycles k)
  | 0, _, _ => rfl
  | n + 1, i, s => by
    have byte : busRead ((s.withCycles k).pcAddr i) (s.withCycles k) = _ := busRead_withCycles k s (s.pcAddr i)
    simp only [fetchOperands, byte, fetchOperands_withCycles n (i + 1)]

theorem fetchOpcode_withCycles :
    fetchOpcode (s.withCycles k) = ((fetchOpcode s).1, (fetchOpcode s).2.withCycles k) :=
  busRead_withCycles k s (s.pcAddr 0)

theorem fetchInstr_withCycles (op : Byte) :
    fetchInstr op (s.withCycles k) = ((fetchInstr op s).1, (fetchInstr op s).2.withCycles k) := by
  simp only [fetchInstr, fetchOperands_withCycles]; rfl

theorem runInstruction_withCycles : SameButCycles (runInstruction s) (runInstruction (s.withCycles k)) := by
  have fetch := fetchOpcode_withCycles k s
  by_cases hop : (fetchOpcode s).1 ∈ s.cfg.unimplemented
  · rw [runInstruction_unimplemented hop, runInstruction_unimplemented (by rw [fetch]; exact hop), fetch]
    rfl
  · rw [runInstruction_implemented hop, runInstruction_implemented (by rw [fetch]; exact hop), fetch]
    simp only [fetchInstr_withCycles]
    exact exec_withCycles k _ _

theorem takeInterrupt_withCycles (kind : Interrupt) :
    takeInterrupt kind (s.withCycles k) = (takeInterrupt kind s).withCycles (k + interruptCycles s) :=
  congrArg (spend (interruptCycles s)) (interruptEntry_withCycles k { s with moving := false } kind)

theorem processorWork_withCycles (irq : Bool) :
    SameButCycles (processorWork irq s) (processorWork irq (s.withCycles k)) := by
  unfold processorWork
  show SameButCycles _ (if s.nmiPending then _ else if irq && !s.p.i then _ else if s.moving then _ else _)
  split
  · exact .next (takeInterrupt_withCycles k { s with nmiPending := false } .nmi)
  split
  · exact .next (takeInterrupt_withCycles k s .irq)
  split
  · exact .next (congrArg (spend (moveCycles s)) (moveStep_withCycles k s))
  · exact runInstruction_withCycles k s

theorem transferByte_withCycles (c : Channel) : transferByte c (s.withCycles k) = (transferByte c s).withCycles k := by
  unfold transferByte
  split <;> simp only [busRead_withCycles, busWrite_withCycles, storeByte_withCycles]

theorem setCh_withCycles (v : Vector Channel 8) :
    { s.withCycles k with ch := v } = State.withCycles k { s with ch := v } := rfl

theorem writeBackChannel_withCycles (n : Nat) (c : Channel) :
    writeBackChannel n c (s.withCycles k) = (writeBackChannel n c s).withCycles k := rfl

theorem endDma_withCycles :
    (if (s.withCycles k).dmaActive then s.withCycles k else (s.withCycles k).setIreg mdmaenKey 0x00) =
      (if s.dmaActive then s else s.setIreg mdmaenKey 0x00).withCycles k := by
  show (if s.dmaActive then _ else _) = _
  split <;> rfl

theorem stepChannel_withCycles (n : Fin 8) : stepChannel n (s.withCycles k) = (stepChannel n s).withCycles k := by
  have channels (t : State) : (t.withCycles k).ch = t.ch := rfl
  simp only [stepChannel, channels, transferByte_withCycles, setCh_withCycles, writeBackChannel_withCycles,
    endDma_withCycles]

theorem dmaStep_withCycles : dmaStep (s.withCycles k) = (dmaStep s).withCycles k := by
  cases h : s.servedChannel with
  | none =>
    have idle : s.dmaActive = false := by simp [State.dmaActive, h]
    rw [dmaStep_idle idle, dmaStep_idle (s := s.withCycles k) idle]
  | some n => rw [dmaStep_served h, dmaStep_served (s := s.withCycles k) h, stepChannel_withCycles]

theorem unitOfWork_withCycles (irq : Bool) : SameButCycles (unitOfWork irq s) (unitOfWork irq (s.withCycles k)) := by
  unfold unitOfWork
  show SameButCycles _ (if s.dmaActive then _ else if s.stopped then _ else
    if s.waiting && !(s.nmiPending || irq) then _ else _)
  split
  · exact .next (congrArg (spend Config.dmaStepCycles) (dmaStep_withCycles k s))
  split
  · exact ⟨_, rfl⟩
  split
  · exact ⟨_, rfl⟩
  · exact processorWork_withCycles k { s with waiting := false } irq

theorem step_unitOfWork {s : State} (h : s.fatal = none) (hr : s.env.resetLine = false) :
    step s = unitOfWork s.env.irqLine s.latched := by
  simp [step, tick, h, hr, State.latched]

theorem step_withCycles : SameButCycles (step s) (step (s.withCycles k)) := by
  cases hf : s.fatal with
  | some op => rw [step_fatal hf, step_fatal (s := s.withCycles k) hf]; rfl
  | none =>
    cases hr : s.env.resetLine with
    | true => rw [step_reset hf hr, step_reset (s := s.withCycles k) hf hr]; exact ⟨_, rfl⟩
    | false =>
      rw [step_unitOfWork hf hr, step_unitOfWork (s := s.withCycles k) hf hr]
      exact unitOfWork_withCycles k s.latched _

/-- Settles O9: the tick does the same whatever the counter is (`step_withCycles`). -/
theorem timingIsNotFunctional : Obligations.TimingIsNotFunctional := by
  intro s k
  have same := step_withCycles k s
  refine ⟨fun t h => ?_, fun f h => ?_⟩ <;> rw [h] at same <;> exact same

end Sys2Proof.Machine
end

section
/-! The memory map in numbers (rule R61), and the mirrors of WRAM (rules R62, R68). -/

namespace Sys2Proof.Machine

/-- The region of an address, by its bank and its offset as numbers (rule R61). -/
theorem mapAddress_addrOf (bank : Byte) (off : Word) : mapAddress (addrOf bank off) =
    if bank.toNat = 0x7E ∨ bank.toNat = 0x7F then .wram
    else if bank.toNat ≤ 0x3F ∨ (0x80 ≤ bank.toNat ∧ bank.toNat ≤ 0xBF) then
      if off.toNat ≤ 0x1FFF then .wram
      else if 0x2100 ≤ off.toNat ∧ off.toNat ≤ 0x21FF then .ppu
      else if off.toNat = 0x4016 ∨ off.toNat = 0x4017 then .joypad
      else if 0x4200 ≤ off.toNat ∧ off.toNat ≤ 0x43FF then .cpu
      else .cartridge
    else .cartridge := by
  have bank_eq : (addrOf bank off).toNat / 0x10000 = bank.toNat := by rw [toNat_addrOf]; omega
  have off_eq : (addrOf bank off).toNat % 0x10000 = off.toNat := by rw [toNat_addrOf]; omega
  simp only [mapAddress, bank_eq, off_eq]

/-- Settles O10: an order or an equation of words is one of their numbers. -/
theorem regionOfAddress : Obligations.RegionOfAddress := by
  intro bank off
  rw [mapAddress_addrOf]
  simp only [IsSystemBank, BitVec.le_def, ← BitVec.toNat_inj]
  rfl

/-- The index of a WRAM byte, by the bank and the offset of its address (rule R62). -/
theorem wramIndex_addrOf (cfg : Cfg) (bank : Byte) (off : Word) : wramIndex cfg (addrOf bank off) =
    if bank.toNat = 0x7E ∨ bank.toNat = 0x7F then ((bank.toNat - 0x7E) * 0x10000 + off.toNat) % wramSize cfg
    else off.toNat := by
  have bank_eq : (addrOf bank off).toNat / 0x10000 = bank.toNat := by rw [toNat_addrOf]; omega
  have off_eq : (addrOf bank off).toNat % 0x10000 = off.toNat := by rw [toNat_addrOf]; omega
  simp only [wramIndex, bank_eq, off_eq]

theorem storeKey_wram {cfg : Cfg} {a : Addr} (h : mapAddress a = .wram) : storeKey cfg a = 0x7E0000 + wramIndex cfg a := by
  simp [storeKey, h]

/-- Bank 0x7E shows the first 65536 bytes of WRAM. -/
theorem storeKey_bank7E (cfg : Cfg) (off : Word) : storeKey cfg (addrOf 0x7E off) = 0x7E0000 + off.toNat := by
  have region : mapAddress (addrOf 0x7E off) = .wram := by rw [mapAddress_addrOf]; rfl
  have size : off.toNat % wramSize cfg = off.toNat := Nat.mod_eq_of_lt (by unfold wramSize; split <;> omega)
  rw [storeKey_wram region, wramIndex_addrOf]
  simpa using size

/-- Bank 0x7F shows the same bytes as 0x7E when there are 65536 of them. -/
theorem storeKey_bank7F {cfg : Cfg} (h : cfg.wram128 = false) (off : Word) :
    storeKey cfg (addrOf 0x7F off) = 0x7E0000 + off.toNat := by
  have region : mapAddress (addrOf 0x7F off) = .wram := by rw [mapAddress_addrOf]; rfl
  rw [storeKey_wram region, wramIndex_addrOf]
  simpa [wramSize, h] using off.isLt

/-- Every system bank shows the first 0x2000 bytes of WRAM. -/
theorem storeKey_systemBank (cfg : Cfg) {b : Byte} {off : Word} (hb : IsSystemBank b) (ho : off.toNat < 0x2000) :
    storeKey cfg (addrOf b off) = 0x7E0000 + off.toNat := by
  have system : b.toNat ≤ 0x3F ∨ (0x80 ≤ b.toNat ∧ b.toNat ≤ 0xBF) := hb
  have low : ¬ (b.toNat = 0x7E ∨ b.toNat = 0x7F) := by omega
  have region : mapAddress (addrOf b off) = .wram := by
    rw [mapAddress_addrOf, if_neg low, if_pos system, if_pos (by omega)]
  rw [storeKey_wram region, wramIndex_addrOf, if_neg low]

/-- Two addresses of one stored byte read alike. -/
theorem peek_sameByte {s : State} {a b : Addr} (ha : Stores s.cfg a) (hb : Stores s.cfg b) (h : SameByte s.cfg b a) :
    s.peek b = s.peek a := by
  have stored : ∀ c : Addr, Stores s.cfg c → s.peek c = s.stored c := by
    rintro c ⟨⟨rdnmi, ppu⟩, joypad, _⟩
    unfold State.peek
    split <;> simp_all
  rw [stored a ha, stored b hb, State.stored, State.stored, h]

/-- A read after a write to the same byte gives the value written, through any mirror (rule R86). -/
theorem peek_busWrite_sameByte {s : State} {a b : Addr} {v : Byte} (hw : MemoryInv s) (ha : Stores s.cfg a)
    (hb : Stores s.cfg b) (h : SameByte s.cfg b a) : (busWrite a v s).peek b = v := by
  rw [peek_sameByte (s := busWrite a v s) (a := a) (by simpa using ha) (by simpa using hb) (by simpa using h)]
  exact peek_busWrite_same hw ha

/-- The three addresses of WRAM byte 0 that rule R68 names. -/
theorem addresses_of_byte0 (cfg : Cfg) {a : Addr} (h : a ∈ [0x000000#24, 0x7E0000#24, 0x800000#24]) :
    mapAddress a = .wram ∧ storeKey cfg a = 0x7E0000 := by
  simp only [List.mem_cons, List.not_mem_nil, or_false] at h
  obtain rfl | rfl | rfl := h
  · exact ⟨by decide, storeKey_systemBank cfg (b := 0x00) (off := 0x0000) (by decide) (by decide)⟩
  · exact ⟨by decide, storeKey_bank7E cfg 0x0000⟩
  · exact ⟨by decide, storeKey_systemBank cfg (b := 0x80) (off := 0x0000) (by decide) (by decide)⟩

/-- Settles O11: the mirrors of a byte share its key, and a write is read wherever the key is that of the write. -/
theorem wramIsMirrored : Obligations.WramIsMirrored := by
  refine ⟨fun cfg b1 b2 off h1 h2 ho => ⟨?_, ?_⟩, fun cfg off h => ?_, fun s v a b hw ha hb => ?_⟩
  · exact (storeKey_systemBank cfg h1 ho).trans (storeKey_systemBank cfg h2 ho).symm
  · exact (storeKey_systemBank cfg h1 ho).trans (storeKey_bank7E cfg off).symm
  · exact (storeKey_bank7F h off).trans (storeKey_bank7E cfg off).symm
  · obtain ⟨wram_a, key_a⟩ := addresses_of_byte0 s.cfg ha
    obtain ⟨wram_b, key_b⟩ := addresses_of_byte0 s.cfg hb
    exact peek_busWrite_sameByte hw (stores_of_wram wram_a) (stores_of_wram wram_b) (key_b.trans key_a.symm)

end Sys2Proof.Machine
end

section
/-! What a bus access to each kind of address gives: a byte that is stored, the cartridge, a PPU device other than the latch array
(rules R70, R72, R74 to R76, R86). -/

namespace Sys2Proof.Machine

/-- A quiet mirror of an address behind which a byte is stored is such an address too. -/
theorem stores_of_sameByte {cfg : Cfg} {a b : Addr} (ha : Stores cfg a) (hb : Quiet cfg b) (h : SameByte cfg b a) :
    Stores cfg b := by
  obtain ⟨_, joypad, cartridge⟩ := ha
  have region := sameByte_region h
  exact ⟨hb, region ▸ joypad, region ▸ cartridge⟩

/-- A bus read of a quiet address answers what an inspection after the same write does. -/
theorem busRead_after_busWrite {s : State} (a : Addr) {b : Addr} (v : Byte) (hb : Quiet s.cfg b) :
    (busRead b (busWrite a v s)).1 = (busWrite a v s).peek b :=
  busRead_fst (by simpa using hb.2)

/-- A write to a cartridge that takes writes (rules R72, R75). -/
theorem busWrite_cartridge {s : State} {a : Addr} (v : Byte) (ha : mapAddress a = .cartridge)
    (hc : s.cfg.cartWrites = true) : busWrite a v s =
      { s with cart := (Config.cartWrite s.cart a v).1, mem := s.mem.load (Config.cartWrite s.cart a v).2 } := by
  rw [busWrite_of_not_mdmaen v (isMdmaen_false_of_region (by simp [ha]))]
  simp [storeByte, ha, cartWrite, hc]

/-- After a write to such a cartridge an address of it reads as the last byte listed for it, or as before; every other quiet
address reads as before. -/
theorem peek_busWrite_cartridge_contents {s : State} {a b : Addr} (v : Byte) (hw : MemoryInv s) (hb : Quiet s.cfg b)
    (ha : mapAddress a = .cartridge) (hc : s.cfg.cartWrites = true) : (busWrite a v s).peek b =
      if mapAddress b = .cartridge then ((Config.cartWrite s.cart a v).2.reverse.lookup b).getD (s.peek b)
      else s.peek b := by
  rw [busWrite_cartridge v ha hc]
  split
  case isTrue cartridge =>
    have contents : ∀ t : State, t.peek b = t.mem.read b.toNat := fun t => by
      simp [State.peek, State.stored, storeKey, cartridge]
    rw [contents, contents]
    exact Memory.read_load_cartridge cartridge _ hw
  case isFalse elsewhere =>
    exact peek_of_stored hb (Memory.read_load (storeKey_ne_cartridge elsewhere) _ _) rfl

/-- Settles O12, by the three kinds of address a write can reach: a register of a PPU device, a stored byte, the cartridge. -/
theorem readsSeeTheLastWrite : Obligations.ReadsSeeTheLastWrite := by
  refine ⟨fun s a v external region => ?device, fun s a b v hw hb => ⟨fun ha => ⟨fun same => ?same, fun other => ?other⟩,
    fun ha => ⟨fun ignored => ?ignored, fun taken => ⟨?cart, ?contents⟩⟩⟩⟩
  case device =>
    have no_dma : isMdmaen a = false := isMdmaen_false_of_region (by simp [region])
    rw [← ppuReg_eq region, busWrite_of_not_mdmaen v no_dma]
    refine ⟨?_, ?_, ?_⟩
    · simp [busRead, region, external]
    · simp [storeByte, region, external]
    · simp [State.peek, region, external]
  case same =>
    rw [busRead_after_busWrite a v hb]
    exact peek_busWrite_sameByte hw ha (stores_of_sameByte ha hb same) same
  case other =>
    rw [busRead_after_busWrite a v hb]
    exact peek_busWrite_other hb ha other
  case ignored => exact busWrite_ignored v (.inr (.inr ⟨ha, ignored⟩))
  case cart => rw [busWrite_cartridge v ha taken]
  case contents =>
    rw [busRead_after_busWrite a v hb]
    exact peek_busWrite_cartridge_contents v hw hb ha taken

end Sys2Proof.Machine
end

section
/-! What reading an operand gives, at either width (rules R78, R80, R135, R155), and stores (rules R195 to R198). -/

namespace Sys2Proof.Machine

/-- A memory operand as a number of its bytes, the low one read first (rules R78, R80, R155). -/
theorem readSrc_mem_toNat (W : Width) (m : Mem) (s : State) :
    let r := resolve m s
    let lo := busRead r.addr0 r.st
    let hi := busRead r.addr1 lo.2
    (readSrc (.mem m) W s).val.toNat = (if W = .w16 then hi.1.toNat * 256 + lo.1.toNat else lo.1.toNat) ∧
      (readSrc (.mem m) W s).st = if W = .w16 then hi.2 else lo.2 := by
  cases W
  case w8 => exact ⟨rfl, rfl⟩
  case w16 => exact ⟨by rw [if_pos rfl, Nat.mul_comm]; exact toNat_wordOf _ _, rfl⟩

theorem Resolved.forall_bytes {r : Resolved} {W : Width} {p : Addr → Prop} (h0 : p r.addr0) (h1 : W = .w16 → p r.addr1) :
    ∀ a ∈ r.bytes W, p a := by
  cases W <;> simp_all [Resolved.bytes]

theorem toNat_ofBytes (W : Width) (lo hi : Byte) :
    (W.ofBytes lo hi).toNat = (if W = .w16 then hi.toNat * 256 else 0) + lo.toNat := by
  cases W
  case w8 => simp
  case w16 => rw [Width.ofBytes_w16, toNat_wordOf, if_pos rfl, Nat.mul_comm]

/-- What LDA loads (rule R192). -/
theorem exec_lda_a (src : Src) (s : State) :
    ∃ t, exec (.lda src) s = .next t ∧ Written s.wM s.a t.a (readSrc src s.wM s).val := by
  refine ⟨_, rfl, ?_⟩
  have kept : (readSrc src s.wM s).st.a = s.a := by simp
  rw [← kept]
  exact written_put s.wM _ _

/-- A register into which an operand of two bytes has been written. -/
theorem Written.bytes {W : Width} {old new : Word} {lo hi : Byte} (h : Written W old new (W.ofBytes lo hi)) :
    lowByte new = lo ∧ highByte new = if W = .w16 then hi else highByte old := by
  cases W
  case w8 =>
    obtain ⟨low, high⟩ := h
    exact ⟨low.trans (Width.ofBytes_w8 lo hi), high⟩
  case w16 =>
    have word : new = wordOf hi lo := h.trans (Width.ofBytes_w16 lo hi)
    simp [word]

/-- Settles O21: a memory operand is its bytes as the bus reads them, and for LDA these are the bytes of the register. -/
theorem operandRead : Obligations.OperandRead := by
  refine ⟨fun W v s => ⟨rfl, BitVec.toNat_setWidth _ _, rfl⟩, fun W m s => ?memory, fun a s h0 h1 => ?lda⟩
  case memory =>
    obtain ⟨value, state⟩ := readSrc_mem_toNat W m s
    refine ⟨rfl, value, state, fun h0 h1 => ?_⟩
    obtain ⟨val, st⟩ := readSrc_mem_quiet (W := W) (m := m) (Resolved.forall_bytes h0 h1)
    exact ⟨by rw [val, toNat_ofBytes], st⟩
  case lda =>
    obtain ⟨t, run, written⟩ := exec_lda_a (.mem (.abs a)) s
    rw [(readSrc_mem_quiet (m := .abs a) (Resolved.forall_bytes h0 fun _ => h1)).1] at written
    exact ⟨t, run, written.bytes⟩

/-- What a store leaves behind the bus: its bytes written in order, the low one first (rules R75, R80). -/
theorem storeMem_writes (i : Instr) (m : Mem) (W : Width) (v : BitVec W.bits) (s : State) :
    let l := (resolve m s).cells W v
    (storeMem i m W v s).mem = (writeAll l s).mem ∧ (storeMem i m W v s).ch = (writeAll l s).ch ∧
      (storeMem i m W v s).cart = (writeAll l s).cart := by
  have stored : storeMem i m W v s = finish i {} s (writeAll ((resolve m s).cells W v) (resolve m s).st) := by
    rw [← writeData_eq]; rfl
  rw [stored]
  exact writeAll_congr _ (by simp) (by simp) (by simp) (by simp)

theorem storeMem_result {i : Instr} {m : Mem} {W : Width} {v : BitVec W.bits} {s : State}
    (h : exec i s = .next (storeMem i m W v s)) : StoresOperand i m W v s := by
  obtain ⟨mem, ch, cart⟩ := storeMem_writes i m W v s
  have only : ChangesOnly (.mem :: .ch :: .cart :: [.pc, .cycles, .nmiFlag]) s (storeMem i m W v s) :=
    (storeMem_effect i m W v s).only.mono (by decide)
  refine ⟨_, h, storedBytes_of mem ch cart (only .cfg (by decide)), rfl, ?flag, ?frame⟩
  case flag => simp [storeMem]
  case frame =>
    rw [← (resolve m s).cells_fst W v]
    exact storeFrame_of (by decide) only mem ch cart

/-- Settles O22: the four stores differ in the register they store alone. -/
theorem storeResult : Obligations.StoreResult := fun _ _ =>
  ⟨storeMem_result rfl, storeMem_result rfl, storeMem_result rfl, storeMem_result rfl⟩

end Sys2Proof.Machine
end

section
/-! Taking an interrupt, by an instruction or by a request (rules R408, R422 to R425, R430, R431). -/

namespace Sys2Proof.Machine

/-- What an interrupt entry pushes depends on the registers it saves, the stack pointer and the mode alone. -/
theorem interruptFrame_congr {s u : State} (kind : Interrupt) (hpc : u.pc = s.pc) (hp : u.p = s.p) (he : u.e = s.e)
    (hsp : u.sp = s.sp) (hb : u.pbr = s.pbr) :
    interruptFrame u (returnAddress kind u) (savedStatus kind u) =
      interruptFrame s (returnAddress kind s) (savedStatus kind s) := by
  have ret : returnAddress kind u = returnAddress kind s := by simp only [returnAddress, hpc]
  have status : savedStatus kind u = savedStatus kind s := by simp only [savedStatus, hp, he]
  simp only [ret, status, interruptFrame, legacyWord, legacySlot, legacyDown, he, hsp, hb]

/-- The address in a vector depends on the stored bytes alone. -/
theorem wordAt_vector_congr {s t : State} (kind : Interrupt) (e : Bool) (hm : t.mem = s.mem) (hc : t.cfg = s.cfg) :
    wordAt t (vector kind e) = wordAt s (vector kind e) := by
  obtain ⟨h0, h1⟩ := vector_cartridge kind e
  unfold wordAt
  rw [peek_congr (quiet_of_cartridge h0) hm hc, peek_congr (quiet_of_cartridge h1) hm hc]

/-- What an interrupt entry and the cycles spent on it change, after a change of the parts `l`. -/
theorem interruptEntry_changesOnly {l : List Part} {s u : State} (kind : Interrupt) (n : Nat) (pre : ChangesOnly l s u)
    (hc : Part.cfg ∉ l) :
    ChangesOnly (.mem :: .ch :: .cart :: .pc :: .pbr :: .flagI :: .flagD :: .sp :: .cycles :: l) s
      (spend n (interruptEntry kind u)) := by
  have entry : ChangesOnly [.mem, .ch, .cart, .pc, .pbr, .flagI, .flagD, .sp, .cycles] u (spend n (interruptEntry kind u)) :=
    ((interruptEntry_effect kind u).then (spend_effect n _)).only.mono (by decide)
  refine (pre.mono fun p hp => ?_).trans (entry.mono fun p hp => ?_) (by simpa using hc)
  · simp [hp]
  · exact List.mem_append_left l hp

/-- The parts an interrupt entry looks at, the flags apart. -/
def entryParts : List Part := [.mem, .ch, .cart, .cfg, .pc, .pbr, .sp, .e]

/-- An interrupt entry, with the cycles spent on it, from a state `u` that differs from `s` in the parts `l` alone, none of them
one the entry looks at. -/
theorem interruptEntry_enters {l : List Part} {s u : State} (kind : Interrupt) (n : Nat) (pre : ChangesOnly l s u)
    (hl : entryParts.all (fun p => !l.contains p) = true) (hp : u.p = s.p) :
    Enters (returnAddress kind s) (savedStatus kind s) (vector kind s.e) l s (spend n (interruptEntry kind u)) := by
  have out : ∀ p ∈ entryParts, p ∉ l := fun p hp => by simpa using List.all_eq_true.mp hl p hp
  have cfg : u.cfg = s.cfg := pre .cfg (out _ (by decide))
  have e : u.e = s.e := pre .e (out _ (by decide))
  have sp : u.sp = s.sp := pre .sp (out _ (by decide))
  have entry := interruptEntry_eq kind u
  rw [interruptFrame_congr kind (pre .pc (out _ (by decide))) hp e sp (pre .pbr (out _ (by decide)))] at entry
  have only := interruptEntry_changesOnly kind n pre (out _ (by decide))
  obtain ⟨mem, ch, cart⟩ := writeAll_congr (interruptFrame s (returnAddress kind s) (savedStatus kind s))
    (pre .mem (out _ (by decide))) (pre .ch (out _ (by decide))) (pre .cart (out _ (by decide))) cfg
  have mem' : (spend n (interruptEntry kind u)).mem = _ := (congrArg State.mem entry).trans mem
  have ch' : (spend n (interruptEntry kind u)).ch = _ := (congrArg State.ch entry).trans ch
  have cart' : (spend n (interruptEntry kind u)).cart = _ := (congrArg State.cart entry).trans cart
  have cfg' : (spend n (interruptEntry kind u)).cfg = s.cfg := by simp [cfg]
  have pc : (spend n (interruptEntry kind u)).pc = _ := (congrArg State.pc entry).trans <|
    wordAt_vector_congr kind u.e mem (by rw [writeAll_cfg, writeAll_cfg, cfg])
  rw [e] at pc
  refine ⟨?target, fun ignored => ?vector, interruptEntry_pbr kind, ?flags, ?stack, storedBytes_of mem' ch' cart' cfg',
    storeFrame_of (by simpa using out .cfg (by decide)) only mem' ch' cart'⟩
  case target => rw [pc]; exact (wordAt_vector_congr kind s.e mem' (cfg'.trans (writeAll_cfg _ s).symm)).symm
  case vector => rw [pc, wordAt_vector_writeAll kind s.e _ s ignored]
  case flags => rw [spend_p, interruptEntry_p, hp]
  case stack => exact (congrArg State.sp entry).trans (by simp only [legacyDown, e, sp])

/-- The cycles of BRK and COP where nothing but the mode adjusts them (rules R400, R406). -/
theorem cyclesOf_softwareInterrupt {s : State} (h : DefaultCycles s) (sig : Byte) :
    cyclesOf (.brk sig) {} s = (if s.e then 7 else 8) ∧ cyclesOf (.cop sig) {} s = if s.e then 7 else 8 := by
  obtain ⟨table, decimal⟩ := h
  have no_decimal : one (s.p.d && s.cfg.decPenalty.contains InstrClass.interrupt) = 0 := by
    rcases decimal with binary | classes
    · rw [binary]; rfl
    · rw [classes]; cases s.p.d <;> rfl
  have total : ∀ op : Byte, op = 0x00 ∨ op = 0x02 → baseCycles s.cfg op +
      one (s.p.d && s.cfg.decPenalty.contains InstrClass.interrupt) + one (!s.e) = if s.e then 7 else 8 := by
    rintro op (rfl | rfl) <;> rw [no_decimal, baseCycles, table] <;> cases s.e <;> rfl
  exact ⟨total 0x00 (.inl rfl), total 0x02 (.inr rfl)⟩

/-- Settles O48: BRK and COP are an interrupt entry in the state they are executed in. -/
theorem softwareInterruptResult : Obligations.SoftwareInterruptResult := by
  have vector_brk : ∀ e : Bool, vector .brk e = if e then 0xFFFE else 0xFFE6 := by decide
  have vector_cop : ∀ e : Bool, vector .cop e = if e then 0xFFF4 else 0xFFE4 := by decide
  refine fun s sig => ⟨fun w p hp => ?encodings, ⟨_, rfl, ?brk, fun h => ?brkCycles⟩,
    ⟨_, rfl, ?cop, fun h => ?copCycles⟩⟩
  case encodings =>
    simp only [List.mem_cons, List.not_mem_nil, or_false] at hp
    obtain rfl | rfl := hp <;> rfl
  case brk =>
    rw [← vector_brk]
    exact interruptEntry_enters .brk _ (Effect.refl [] s).only rfl rfl
  case cop =>
    rw [← vector_cop]
    exact interruptEntry_enters .cop _ (Effect.refl [] s).only rfl rfl
  case brkCycles => rw [report_cycles, interruptEntry_cycles, (cyclesOf_softwareInterrupt h sig).1]
  case copCycles => rw [report_cycles, interruptEntry_cycles, (cyclesOf_softwareInterrupt h sig).2]

/-- A pending NMI is the tick's unit of work (rule R423). -/
theorem step_nmi {s : State} (h : CoreActs s) (hn : s.nmiPending = true ∨ s.env.nmiEdge = true) :
    step s = .next (takeInterrupt .nmi { s.awake with nmiPending := false }) := by
  have pending : s.awake.nmiPending = true := Bool.or_eq_true_iff.mpr hn
  have work : processorWork s.env.irqLine s.awake = _ := if_pos pending
  rw [step_core h fun _ => hn.imp_right .inl]
  exact work

/-- An IRQ that is not masked is the tick's unit of work where no NMI is pending (rules R422, R425). -/
theorem step_irq {s : State} (h : CoreActs s) (hp : s.nmiPending = false) (he : s.env.nmiEdge = false)
    (hl : s.env.irqLine = true) (hi : s.p.i = false) : step s = .next (takeInterrupt .irq s.awake) := by
  have quiet : ¬ s.awake.nmiPending = true := by simp [State.awake, State.latched, hp, he]
  have unmasked : (s.env.irqLine && !s.awake.p.i) = true := by simp [State.awake, State.latched, hl, hi]
  have work : processorWork s.env.irqLine s.awake = _ := (if_neg quiet).trans (if_pos unmasked)
  rw [step_core h fun _ => .inr (.inr hl)]
  exact work

theorem setMoving_changesOnly (b : Bool) (s : State) : ChangesOnly [.moving] s { s with moving := b } := by
  intro p hp
  cases p
  case moving => simp at hp
  case ppuDevice => exact fun _ => rfl
  all_goals rfl

theorem setNmiPending_changesOnly (b : Bool) (s : State) : ChangesOnly [.nmiPending] s { s with nmiPending := b } := by
  intro p hp
  cases p
  case nmiPending => simp at hp
  case ppuDevice => exact fun _ => rfl
  all_goals rfl

/-- Where no NMI is requested the request does not change either. -/
theorem awake_changesOnly_of_noNmi {s : State} (hp : s.nmiPending = false) (he : s.env.nmiEdge = false) :
    ChangesOnly [.inputs, .nmiFlag, .waiting] s s.awake := by
  intro p out
  by_cases request : p = .nmiPending
  · subst request
    simp [Part.same, State.awake, State.latched, hp, he]
  · exact awake_changesOnly s p (by simp_all)

/-- A request taken in a state `u` that differs from `s` in the parts `l` alone. -/
theorem takeInterrupt_enters {l : List Part} {s u : State} (kind : Interrupt) (pre : ChangesOnly l s u)
    (hm : Part.moving ∈ l) (hl : entryParts.all (fun p => !l.contains p) = true) (hp : u.p = s.p) :
    Enters (returnAddress kind s) (savedStatus kind s) (vector kind s.e) l s (takeInterrupt kind u) := by
  have cfg : Part.cfg ∉ l := by simpa using List.all_eq_true.mp hl .cfg (by decide)
  exact interruptEntry_enters kind _ (pre.trans ((setMoving_changesOnly false u).mono (by simpa using hm)) cfg) hl hp

/-- What a request that is taken does beside the entry (rules R337, R408). -/
theorem takeInterrupt_ends (kind : Interrupt) (s : State) :
    (takeInterrupt kind s).nmiPending = s.nmiPending ∧ (takeInterrupt kind s).waiting = s.waiting ∧
      (takeInterrupt kind s).moving = false ∧ (takeInterrupt kind s).cycles = s.cycles + if s.e then 7 else 8 :=
  ⟨interruptEntry_nmiPending _ kind, interruptEntry_waiting _ kind, interruptEntry_moving _ kind,
    congrArg (· + interruptCycles s) (interruptEntry_cycles { s with moving := false } kind)⟩

/-- Settles O49: a request is an interrupt entry in the state the tick begins with, a wait and a block move ended. -/
theorem hardwareInterruptsAreTaken : Obligations.HardwareInterruptsAreTaken := by
  have vector_nmi : ∀ e : Bool, vector .nmi e = if e then 0xFFFA else 0xFFEA := by decide
  have vector_irq : ∀ e : Bool, vector .irq e = if e then 0xFFFE else 0xFFEE := by decide
  refine fun s h => ⟨fun hn => ?nmi, fun hp he hl hi => ?irq⟩
  case nmi =>
    obtain ⟨pending, waiting, moving, cycles⟩ := takeInterrupt_ends .nmi { s.awake with nmiPending := false }
    have pre : ChangesOnly [.nmiPending, .waiting, .moving, .inputs, .nmiFlag] s { s.awake with nmiPending := false } :=
      ((awake_changesOnly s).mono (by decide)).trans ((setNmiPending_changesOnly false _).mono (by decide)) (by decide)
    refine ⟨_, step_nmi h hn, pending, waiting, moving, ?_, cycles⟩
    rw [← vector_nmi]
    exact takeInterrupt_enters .nmi pre (by decide) rfl rfl
  case irq =>
    obtain ⟨_, waiting, moving, cycles⟩ := takeInterrupt_ends .irq s.awake
    have pre : ChangesOnly [.waiting, .moving, .inputs, .nmiFlag] s s.awake :=
      (awake_changesOnly_of_noNmi hp he).mono (by decide)
    refine ⟨_, step_irq h hp he hl hi, waiting, moving, ?_, cycles⟩
    rw [← vector_irq]
    exact takeInterrupt_enters .irq pre (by decide) rfl rfl

end Sys2Proof.Machine
end

section
/-! A tick with an active DMA channel (rules R351, R354, R355, R361, R362). -/

namespace Sys2Proof.Machine

/-- The channels after the step of channel `n`: that one advanced, the others as they were. -/
theorem stepChannel_getElem (s : State) (n k : Fin 8) :
    (stepChannel n s).ch[k] = if k = n then s.ch[n].advance else s.ch[k] := by
  rw [stepChannel_ch]
  by_cases same : k = n
  · subst same; simp
  · have differ : n.val ≠ k.val := fun h => same (Fin.ext h.symm)
    simp [same, differ]

theorem stepChannel_changesOnly (n : Fin 8) (s : State) :
    ChangesOnly [.nmiFlag, .mem, .ch, .cart] s (stepChannel n s) := by
  intro p hp
  cases p
  case ppuDevice => exact stepChannel_ppuExt
  case nmiFlag | mem | ch | cart => simp at hp
  all_goals simp [Part.same]

/-- Settles O56: the tick is the step of the lowest active channel, between the latching of the inputs and the count of its
cycles. -/
theorem dmaPreemptsTheCore : Obligations.DmaPreemptsTheCore := by
  intro s hf hr hd
  have run := step_dma hf hr hd
  obtain ⟨n, served⟩ := Option.isSome_iff_exists.mp hd
  obtain ⟨active, lower⟩ := servedChannel_spec served
  have tick : step s = .next (spend Config.dmaStepCycles (stepChannel n s.latched)) := by
    rw [run, dmaStep_served (s := latchInputs s.env s.nextInputs) served]
    rfl
  refine ⟨run, _, n, tick, active, lower, fun k hk => ?others, ?count, ?cycles, ?only, fun ignored => ?cart, ?kept⟩
  case others => exact (stepChannel_getElem s.latched n k).trans (if_neg hk)
  case count => exact congrArg Channel.count ((stepChannel_getElem s.latched n n).trans (if_pos rfl))
  case cycles => exact congrArg (· + Config.dmaStepCycles) (stepChannel_cycles s.latched n)
  case only =>
    exact (((latched_changesOnly s).mono (by decide)).trans ((stepChannel_changesOnly n _).mono (by decide)) (by decide)).trans
      ((spend_changesOnly _ _).mono (by decide)) (by decide)
  case cart => exact stepChannel_cart (s := s.latched) ignored
  case kept =>
    exact kept_congr s.latched (stepChannel n s.latched) rfl rfl rfl rfl (stepChannel_cfg s.latched n)
      (stepChannel_kept n s.latched)

end Sys2Proof.Machine
end

section
/-! The opcode and the length of every encoding: the family EncodedLength of Sys2Proof/Laws/PerInstr.lean, put together. -/

namespace Sys2Proof.Laws.EncodedLength

theorem of_instr (i : Instr) : Statement i := by
  cases i
  exacts [lda _, ldx _, ldy _, sta _, stx _, sty _, stz _, tax, tay, txa, tya, txy, tyx, tsx, txs, tcd, tdc, tcs, tsc, xba,
    adc _, sbc _, and _, ora _, eor _, cmp _, cpx _, cpy _, bit _, inc _, dec _, inx, iny, dex, dey, asl _, lsr _, rol _,
    ror _, tsb _, trb _, bcc _, bcs _, beq _, bne _, bmi _, bpl _, bvc _, bvs _, bra _, brl _, jmp _, jml _, jsr _, jsl _,
    rts, rtl, pha, phx, phy, php, phb, phd, phk, pla, plx, ply, plp, plb, pld, pea _, pei _, per _, clc, sec, cli, sei, cld,
    sed, clv, rep _, sep _, xce, nop, wdm _, stp, wai, mvn _ _, mvp _ _, brk _, cop _, rti]

end Sys2Proof.Laws.EncodedLength
end

section
/-! The decoder and the encoder are inverse to each other (rules R100 to R104): the 256 rows of the table read once by opcode,
against the encoder's, and once by instruction form, against the decoder's. -/

namespace Sys2Proof

open Sys2Proof.Machine

/-! Operand fields and their bytes, both ways (rules R101 to R103). -/

@[simp] theorem wordBytes_operandWord (b1 b2 : Byte) : wordBytes (operandWord b1 b2) = [b1, b2] := by
  simp [wordBytes, operandWord]

@[simp] theorem longBytes_operandLong (b1 b2 b3 : Byte) : longBytes (operandLong b1 b2 b3) = [b1, b2, b3] := by
  simp [longBytes, operandLong]

theorem immBytes_operandWord (W : Width) (b1 b2 : Byte) :
    immBytes W (operandWord b1 b2) = [b1, b2].take (if W = .w16 then 2 else 1) := by
  cases W
  case w8 => exact congrArg ([·]) (lowByte_wordOf b2 b1)
  case w16 => exact wordBytes_operandWord b1 b2

theorem operandWord_wordBytes (v : Word) : operandWord ((wordBytes v).getD 0 0) ((wordBytes v).getD 1 0) = v :=
  wordOf_high_low v

theorem operandLong_longBytes (a : Addr) :
    operandLong ((longBytes a).getD 0 0) ((longBytes a).getD 1 0) ((longBytes a).getD 2 0) = a := by
  simp [longBytes, operandLong]

theorem operandWord_immBytes {W : Width} {v : Word} (h : fitsWidth W v = true) :
    operandWord ((immBytes W v).getD 0 0) ((immBytes W v).getD 1 0) = v := by
  cases W
  case w8 => exact wordOf_zero_low (of_decide_eq_true h)
  case w16 => exact operandWord_wordBytes v

/-- An immediate read from as many bytes as its width takes fits that width: the byte it lacks counts as 0. -/
theorem fitsWidth_operandWord {W : Width} {b : List Byte} (h : b.length = if W = .w16 then 2 else 1) :
    fitsWidth W (operandWord (b.getD 0 0) (b.getD 1 0)) = true := by
  cases W
  case w8 =>
    have lacks : b.getD 1 0 = 0 := List.getD_eq_default b 0 h.le
    rw [lacks]
    simpa [fitsWidth, operandWord, toNat_wordOf] using (b.getD 0 0).isLt
  case w16 => rfl

/-- The memory form `m` with its operand read from the bytes after the opcode. -/
def Mem.withBytes (b1 b2 b3 : Byte) : Mem → Mem
  | .abs _ => .abs (operandWord b1 b2)
  | .absX _ => .absX (operandWord b1 b2)
  | .absY _ => .absY (operandWord b1 b2)
  | .long _ => .long (operandLong b1 b2 b3)
  | .longX _ => .longX (operandLong b1 b2 b3)
  | .dp _ => .dp b1
  | .dpX _ => .dpX b1
  | .dpY _ => .dpY b1
  | .dpInd _ => .dpInd b1
  | .dpIndLong _ => .dpIndLong b1
  | .dpXInd _ => .dpXInd b1
  | .dpIndY _ => .dpIndY b1
  | .dpIndLongY _ => .dpIndLongY b1
  | .sr _ => .sr b1
  | .srIndY _ => .srIndY b1

theorem Mem.withBytes_bytes (m : Mem) : m.withBytes (m.bytes.getD 0 0) (m.bytes.getD 1 0) (m.bytes.getD 2 0) = m := by
  cases m
  case abs a | absX a | absY a => exact congrArg _ (operandWord_wordBytes a)
  case long al | longX al => exact congrArg _ (operandLong_longBytes al)
  all_goals rfl

/-! The table by opcode: what the encoder makes of the instruction of each row. -/

/-- The instruction of an opcode and its operand bytes; a byte that is not there counts as 0. -/
def decodeOperands (op : Byte) (b : List Byte) : Instr := decodeOp op (b.getD 0 0) (b.getD 1 0) (b.getD 2 0)

/-- The operand bytes of an instruction in each format of rule R101, its operand read from the bytes after the opcode. -/
def Format.operandBytes (w : Widths) (b1 b2 b3 : Byte) : Format → List Byte
  | .imp | .acc => []
  | .imm8 | .dp | .sr | .rel8 => [b1]
  | .immm => immBytes w.m (operandWord b1 b2)
  | .immx => immBytes w.x (operandWord b1 b2)
  | .imm16 | .abs | .rel16 => wordBytes (operandWord b1 b2)
  | .long => longBytes (operandLong b1 b2 b3)
  | .blk => [b1, b2]

/-- The immediate read from the bytes after the opcode, in the two formats that hold one, fits its width. -/
def Format.fits (w : Widths) (b1 b2 : Byte) : Format → Bool
  | .immm => fitsWidth w.m (operandWord b1 b2)
  | .immx => fitsWidth w.x (operandWord b1 b2)
  | _ => true

/-- What holds in each column of each row of the table of rule R104 holds of every opcode. -/
theorem forall_opcode {P : Byte → Prop} (h : ∀ row column : Fin 16, P (BitVec.ofNat 8 (16 * row.val + column.val)))
    (op : Byte) : P op := by
  have row : op.toNat / 16 < 16 := by have := op.isLt; omega
  have column : op.toNat % 16 < 16 := Nat.mod_lt _ (by decide)
  simpa [Nat.div_add_mod] using h ⟨_, row⟩ ⟨_, column⟩

theorem opcode_decodeOp (b1 b2 b3 : Byte) : ∀ op, (decodeOp op b1 b2 b3).opcode = some op :=
  forall_opcode fun row column => by fin_cases row <;> fin_cases column <;> rfl

theorem operandBytes_decodeOp (w : Widths) (b1 b2 b3 : Byte) :
    ∀ op, (decodeOp op b1 b2 b3).operandBytes w = (formatOf op).operandBytes w b1 b2 b3 :=
  forall_opcode fun row column => by fin_cases row <;> fin_cases column <;> rfl

theorem wellFormed_decodeOp (w : Widths) (b1 b2 b3 : Byte) :
    ∀ op, WellFormed w (decodeOp op b1 b2 b3) = (formatOf op).fits w b1 b2 :=
  forall_opcode fun row column => by fin_cases row <;> fin_cases column <;> rfl

/-- The operand bytes are those after the opcode, as many as the length of rule R103 says. -/
theorem Format.operandBytes_eq_take (f : Format) (w : Widths) (b1 b2 b3 : Byte) :
    f.operandBytes w b1 b2 b3 = [b1, b2, b3].take (f.length w - 1) := by
  cases f
  case immm => cases h : w.m <;> simp [Format.operandBytes, Format.length, immBytes_operandWord, h]
  case immx => cases h : w.x <;> simp [Format.operandBytes, Format.length, immBytes_operandWord, h]
  all_goals simp [Format.operandBytes, Format.length]

theorem Format.fits_of_length {f : Format} {w : Widths} {b : List Byte} (h : b.length = f.length w - 1) :
    f.fits w (b.getD 0 0) (b.getD 1 0) = true := by
  cases f
  case immm => exact fitsWidth_operandWord (by simpa [Format.length, apply_ite (· - 1)] using h)
  case immx => exact fitsWidth_operandWord (by simpa [Format.length, apply_ite (· - 1)] using h)
  all_goals rfl

section
variable {w : Widths} {op : Byte} {b : List Byte}

theorem opcode_decodeOperands (op : Byte) (b : List Byte) : (decodeOperands op b).opcode = some op :=
  opcode_decodeOp _ _ _ op

theorem wellFormed_decodeOperands (h : b.length = opLength w op - 1) : WellFormed w (decodeOperands op b) = true :=
  (wellFormed_decodeOp w _ _ _ op).trans (Format.fits_of_length h)

theorem operandBytes_decodeOperands (h : b.length = opLength w op - 1) : (decodeOperands op b).operandBytes w = b := by
  have short : b.length ≤ 3 := by have := opLength_range w op; omega
  calc (decodeOperands op b).operandBytes w
    _ = [b.getD 0 0, b.getD 1 0, b.getD 2 0].take (opLength w op - 1) :=
        (operandBytes_decodeOp w _ _ _ op).trans (Format.operandBytes_eq_take _ w _ _ _)
    _ = [b.getD 0 0, b.getD 1 0, b.getD 2 0].take b.length := by rw [h]
    _ = b := by
        match b, short with
        | [], _ | [_], _ | [_, _], _ | [_, _, _], _ => rfl

end

/-! The table by instruction: what the decoder makes of the encoding of each form. -/

/-- A well-formed instruction is what its own opcode and operand bytes decode to. In each form the operand on the right is
read from its own bytes, and then the two sides are one entry of the decoder's table. -/
theorem decodeOperands_operandBytes {w : Widths} {i : Instr} {op : Byte} (hw : WellFormed w i = true)
    (ho : i.opcode = some op) : decodeOperands op (i.operandBytes w) = i := by
  cases i
  case lda s | ldx s | ldy s | adc s | sbc s | and s | ora s | eor s | cmp s | cpx s | cpy s | bit s =>
    cases s with
    | imm v => cases ho; exact congrArg (_ ∘ Src.imm) (operandWord_immBytes hw)
    | mem m =>
      conv_rhs => rw [← m.withBytes_bytes]
      cases m <;> cases ho <;> rfl
  case sta m | stx m | sty m | stz m | tsb m | trb m =>
    conv_rhs => rw [← m.withBytes_bytes]
    cases m <;> cases ho <;> rfl
  case inc t | dec t | asl t | lsr t | rol t | ror t =>
    cases t with
    | acc => cases ho; rfl
    | mem m =>
      conv_rhs => rw [← m.withBytes_bytes]
      cases m <;> cases ho <;> rfl
  case jmp t | jsr t => cases t <;> cases ho <;> exact congrArg (_ ∘ _) (operandWord_wordBytes _)
  case jml t =>
    cases t with
    | long al => cases ho; exact congrArg (Instr.jml ∘ .long) (operandLong_longBytes al)
    | indLong a => cases ho; exact congrArg (Instr.jml ∘ .indLong) (operandWord_wordBytes a)
  case jsl al => cases ho; exact congrArg Instr.jsl (operandLong_longBytes al)
  case brl v | pea v | per v => cases ho; exact congrArg _ (operandWord_wordBytes v)
  all_goals cases ho; rfl

/-! The decoder and the encoder on byte strings. -/

theorem encode_of_opcode {w : Widths} {i : Instr} {op : Byte} (h : i.opcode = some op) :
    encode w i = op :: i.operandBytes w := by
  simp [encode, h]

/-- What is decoded is the instruction of the first byte and of as many bytes after it as its length says; the rest is left. -/
theorem decode_eq_ok_iff {w : Widths} {bytes rest : List Byte} {i : Instr} : decode w bytes = .ok (i, rest) ↔
    ∃ op b, bytes = op :: b ++ rest ∧ b.length = opLength w op - 1 ∧ i = decodeOperands op b := by
  constructor
  · intro h
    cases bytes with
    | nil => cases h
    | cons op tail =>
      simp only [decode] at h
      split at h
      case isTrue => cases h
      case isFalse enough =>
        cases h
        exact ⟨op, tail.take (opLength w op - 1), by simp, by simp; omega, rfl⟩
  · rintro ⟨op, b, rfl, length, rfl⟩
    simp [decode, ← length, decodeOperands]

/-- Settles O1: the opcode and the operand bytes of the encoding are those from which the instruction is decoded. -/
theorem decodeOfEncode : Obligations.DecodeOfEncode := by
  intro w i rest hw
  obtain ⟨op, ho, _, length⟩ := Laws.EncodedLength.of_instr i w hw
  rw [encode_of_opcode ho] at length ⊢
  exact decode_eq_ok_iff.mpr
    ⟨op, i.operandBytes w, rfl, Nat.eq_sub_of_add_eq length, (decodeOperands_operandBytes hw ho).symm⟩

/-- Settles O2: the instruction decoded has the opcode and the operand bytes it was decoded from. -/
theorem encodeOfDecode : Obligations.EncodeOfDecode := by
  intro w bytes i rest h
  obtain ⟨op, b, rfl, length, rfl⟩ := decode_eq_ok_iff.mp h
  refine ⟨wellFormed_decodeOperands length, ?_⟩
  rw [encode_of_opcode (opcode_decodeOperands op b), operandBytes_decodeOperands length]

/-- Settles O3: each word decodes by its row of the table. -/
theorem sampleWords : Obligations.SampleWords :=
  ⟨rfl, rfl, rfl, rfl, rfl, rfl, rfl, rfl, rfl, rfl, rfl, rfl⟩

end Sys2Proof
end

section
/-! A tick that fetches and executes an instruction (rules R100, R108, R110, R380, R382). -/

namespace Sys2Proof.Machine

/-- Without an NMI request the tick changes no more of the state, before the processor's work, than its inputs, the flag of
the vertical blank and the wait. -/
theorem awake_of_noNmi {s : State} (hp : s.nmiPending = false) (he : s.env.nmiEdge = false) :
    s.awake = { s with inputs := s.inputs.tail, nmiFlag := s.nmiFlag || s.env.vblankStart, waiting := false } := by
  simp [State.awake, State.latched, latchInputs, State.nextInputs, hp, he]

theorem processorWork_instruction {s : State} {irq : Bool} (hn : s.nmiPending = false) (hi : irq = true → s.p.i = true)
    (hm : s.moving = false) : processorWork irq s = runInstruction s := by
  have masked : (irq && !s.p.i) = false := by cases irq <;> simp_all
  simp [processorWork, hn, masked, hm]

/-- The operand bytes a fetch finds in consecutive bytes are those the decoder takes from them. -/
theorem map_range'_of_append {f : Nat → Byte} {b rest : List Byte} (h : [f 1, f 2, f 3] = b ++ rest) :
    (List.range' 1 b.length).map f = b := by
  have three : b.length ≤ 3 := by have := congrArg List.length h; simp at this; omega
  have parts : (List.range' 1 b.length).map f ++ (List.range' (1 + b.length) (3 - b.length)).map f = b ++ rest := by
    rw [← h, ← List.map_append, List.range'_append_1, Nat.add_sub_cancel' three]
    rfl
  exact (List.append_inj parts (by simp)).1

/-- The fetch of an instruction whose operand bytes can be read without a side effect. -/
theorem fetchInstr_quiet {s : State} {op : Byte} {b : List Byte}
    (quiet : ∀ k, k < opLength s.widths op → Quiet s.cfg (s.pcAddr k))
    (bytes : (List.range' 1 (opLength s.widths op - 1)).map (fun k => s.peek (s.pcAddr k)) = b) :
    fetchInstr op s = (decodeOperands op b, s) := by
  have fetched := fetchOperands_quiet (opLength s.widths op - 1) 1 s fun k _ hk => quiet k (by omega)
  rw [bytes] at fetched
  rw [fetchInstr, fetched]
  rfl

/-- Settles O4: the fetch reads the bytes that inspection reads before the tick, and of these the decoder takes the same. -/
theorem stepRunsTheDecodedInstruction : Obligations.StepRunsTheDecodedInstruction := by
  intro s i rest core pending edge masked wakes still s'
  have run : step s = runInstruction s' := by
    rw [step_core core fun waits => .inr (.inr (wakes waits))]
    exact (congrArg (processorWork _) (awake_of_noNmi pending edge)).trans
      (processorWork_instruction pending masked still)
  refine ⟨run, fun quiet decoded => ?_⟩
  obtain ⟨op, b, found, length, rfl⟩ := decode_eq_ok_iff.mp decoded
  obtain ⟨rfl, operands⟩ := List.cons.inj found
  have same : ∀ k, k < opLength s.widths (s.peek (s.pcAddr 0)) → s'.peek (s'.pcAddr k) = s.peek (s.pcAddr k) :=
    fun k hk => peek_congr (quiet k hk) rfl rfl
  have hasOpcode : 0 < opLength s.widths (s.peek (s.pcAddr 0)) := (opLength_range _ _).1
  have opcode : fetchOpcode s' = (s.peek (s.pcAddr 0), s') :=
    (busRead_quiet (s := s') (quiet 0 hasOpcode)).trans (congrArg (·, s') (same 0 hasOpcode))
  have fetched : fetchInstr (s.peek (s.pcAddr 0)) s' = (decodeOperands (s.peek (s.pcAddr 0)) b, s') := by
    refine fetchInstr_quiet quiet (Eq.trans ?_ (map_range'_of_append (f := fun k => s.peek (s.pcAddr k)) operands))
    rw [length]
    refine List.map_congr_left fun k hk => same k ?_
    have upper : k < 1 + (opLength s.widths (s.peek (s.pcAddr 0)) - 1) := (List.mem_range'_1.mp hk).2
    omega
  rw [run]
  constructor
  · intro implemented
    rw [runInstruction_implemented (opcode ▸ implemented), opcode, fetched]
  · intro missing
    rw [runInstruction_unimplemented (opcode ▸ missing), opcode]

end Sys2Proof.Machine
end

section
/-! Addressing modes (rules R133 to R149): the addresses of a memory operand as numbers. -/

namespace Sys2Proof.Machine

/-! Direct-page addresses. -/

theorem toNat_addrOf_bankZero (off : Word) : (addrOf 0x00 off).toNat = off.toNat := by simp [toNat_addrOf]

/-- Inside the page of D (rule R133). -/
theorem toNat_dpAddr_page {s : State} (he : s.e = true) (hd : lowByte s.d = 0x00) (o : Nat) :
    (dpAddr s o true).toNat = s.d.toNat / 256 * 256 + o % 256 := by
  have page : dpAddr s o true = addrOf 0x00 (wordOf (highByte s.d) (BitVec.ofNat 8 o)) := if_pos (by simp [he, hd])
  rw [page, toNat_addrOf_bankZero, toNat_wordOf, toNat_highByte, BitVec.toNat_ofNat]
  omega

/-- An offset added in bank 0x00, where the sum wraps at 16 bits. -/
theorem toNat_bankZero_add (v : Word) (o : Nat) : (addrOf 0x00 (v + BitVec.ofNat 16 o)).toNat = (v.toNat + o) % 65536 := by
  rw [toNat_addrOf_bankZero, BitVec.toNat_add, BitVec.toNat_ofNat, Nat.add_mod_mod]

/-- Anywhere in bank 0x00 (rules R133, R141). -/
theorem toNat_dpAddr_bankZero {s : State} {legacy : Bool} (h : legacy = false ∨ s.e = false ∨ lowByte s.d ≠ 0x00)
    (o : Nat) : (dpAddr s o legacy).toNat = (s.d.toNat + o) % 65536 := by
  have anywhere : dpAddr s o legacy = addrOf 0x00 (s.d + BitVec.ofNat 16 o) := by
    refine if_neg ?_
    simp only [Bool.and_eq_true, beq_iff_eq]
    rintro ⟨⟨rfl, he⟩, hd⟩
    simp [he, hd] at h
  rw [anywhere, toNat_bankZero_add]

/-- Settles O15, by the two branches of the address. -/
theorem directPageWrap : Obligations.DirectPageWrap := by
  refine fun s o legacy => ⟨?_, fun h => toNat_dpAddr_bankZero h o⟩
  rintro ⟨rfl, he, hd⟩
  exact toNat_dpAddr_page he hd o

/-! Linear addresses. -/

/-- The second byte of a linear operand (rule R82). -/
theorem toNat_linear_addr1 (ea : Addr) (cross : Bool) (s : State) :
    (linear ea cross s).addr1.toNat = (ea.toNat + 1) % 2 ^ 24 :=
  BitVec.toNat_add ea 1

/-- An index register added to a base address (rule R132). -/
theorem toNat_add_index {base : Addr} {n : Nat} (h : base.toNat = n) (index : Word) :
    (base + index.setWidth 24).toNat = (n + index.toNat) % 2 ^ 24 := by
  have := index.isLt
  rw [BitVec.toNat_add, BitVec.toNat_setWidth, h]
  omega

/-- Both bytes of an indexed operand without a pointer. -/
theorem toNat_linear_indexed {base : Addr} {n : Nat} (h : base.toNat = n) (index : Word) (cross : Bool) (s : State) :
    let q := linear (base + index.setWidth 24) cross s
    q.addr0.toNat = (n + index.toNat) % 2 ^ 24 ∧ q.addr1.toNat = (n + index.toNat + 1) % 2 ^ 24 ∧ q.st = s := by
  have ea := toNat_add_index h index
  exact ⟨ea, by rw [toNat_linear_addr1, ea, Nat.mod_add_mod], rfl⟩

/-- Settles O16, by the sums of the linear forms and of the stack-relative one. -/
theorem directEffectiveAddresses : Obligations.DirectEffectiveAddresses := by
  intro s a al r
  have base : (addrOf s.dbr a).toNat = s.dbr.toNat * 65536 + a.toNat := by rw [toNat_addrOf, Nat.mul_comm]
  have next : (addrOf s.dbr a + 1).toNat = (s.dbr.toNat * 65536 + a.toNat + 1) % 2 ^ 24 := by
    rw [← base]; exact toNat_linear_addr1 _ false s
  exact ⟨⟨rfl, rfl, rfl⟩, ⟨rfl, rfl, rfl⟩, ⟨rfl, rfl, rfl⟩, ⟨base, next, rfl⟩,
    toNat_linear_indexed base s.x _ s, toNat_linear_indexed base s.y _ s,
    ⟨rfl, toNat_linear_addr1 al false s, rfl⟩, toNat_linear_indexed rfl s.x _ s,
    toNat_bankZero_add s.sp _, toNat_bankZero_add s.sp _, rfl⟩

/-! Pointers. -/

/-- An address whose offset is a little-endian pointer. -/
theorem toNat_addrOf_wordOf (bank hi lo : Byte) :
    (addrOf bank (wordOf hi lo)).toNat = bank.toNat * 65536 + hi.toNat * 256 + lo.toNat := by
  rw [toNat_addrOf, toNat_wordOf]
  omega

/-- The pointer of a stack-relative form is read in bank 0x00 at its offset from S (rule R149). -/
theorem readWordW_stackRelative_quiet {s : State} {r : Byte} (h0 : Quiet s.cfg (srAddr s r.toNat))
    (h1 : Quiet s.cfg (srAddr s (r.toNat + 1))) :
    readWordW 0x00 (s.sp + r.setWidth 16) s =
      (wordOf (s.peek (srAddr s (r.toNat + 1))) (s.peek (srAddr s r.toNat)), s) := by
  have first : srAddr s r.toNat = addrOf 0x00 (s.sp + r.setWidth 16) := by rw [srAddr, BitVec.ofNat_toNat]
  have second : srAddr s (r.toNat + 1) = addrOf 0x00 (s.sp + r.setWidth 16 + 1) := by
    rw [srAddr, add_ofNat_succ, BitVec.ofNat_toNat]
  rw [first] at h0 ⊢
  rw [second] at h1 ⊢
  exact readWordW_quiet h0 h1

/-- Settles O17: each form is linear, and a quiet pointer is what inspection reads. -/
theorem indirectEffectiveAddresses : Obligations.IndirectEffectiveAddresses := by
  refine fun s d => ⟨?second, fun h0 h1 => ?word, fun h0 h1 => ?indexed, fun h0 h1 h2 => ?long, fun h0 h1 => ?stack⟩
  case second =>
    simp only [List.forall_mem_cons, List.not_mem_nil, false_imp_iff, implies_true, and_true]
    exact ⟨toNat_linear_addr1 _ _ _, toNat_linear_addr1 _ _ _, toNat_linear_addr1 _ _ _, toNat_linear_addr1 _ _ _,
      toNat_linear_addr1 _ _ _, toNat_linear_addr1 _ _ _⟩
  case word =>
    have ptr := dpPointer_quiet (o := d.toNat) h0 h1
    simp only [resolve, ptr]
    exact ⟨toNat_addrOf_wordOf _ _ _, rfl, toNat_add_index (toNat_addrOf_wordOf _ _ _) s.y, rfl⟩
  case indexed =>
    have ptr := dpPointer_quiet (o := d.toNat + s.x.toNat) h0 h1
    simp only [resolve, ptr]
    exact ⟨toNat_addrOf_wordOf _ _ _, rfl⟩
  case long =>
    have ptr := dpPointerLong_quiet (o := d.toNat) h0 h1 h2
    simp only [resolve, ptr]
    exact ⟨toNat_addrOf_wordOf _ _ _, rfl, toNat_add_index (toNat_addrOf_wordOf _ _ _) s.y, rfl⟩
  case stack =>
    have ptr := readWordW_stackRelative_quiet (r := d) h0 h1
    simp only [resolve, ptr]
    exact ⟨toNat_add_index (toNat_addrOf_wordOf _ _ _) s.y, rfl⟩

end Sys2Proof.Machine
end

section
/-! The cycles of an instruction (rules R400 to R406): what it adds to the counter, said once for every instruction that is
no block move, and the lines of the table of rule R406 for each kind of operand. -/

namespace Sys2Proof

open Sys2Proof.Machine

/-- `PageCross` of a source operand (rule R153). -/
def Src.cross (s : State) : Src → Bool
  | .imm _ => false
  | .mem m => (resolve m s).cross

theorem readSrc_cross (src : Src) (W : Width) (s : State) : (readSrc src W s).cross = src.cross s := by
  cases src <;> rfl

/-- What a REL8 branch finds out (rule R270). -/
def branchInfo (taken : Bool) (rel : Byte) (s : State) : CycleInfo :=
  { taken := taken, branchCross := taken && highByte (relTarget rel s) != highByte (nextPc2 s) }

/-- What an instruction that starts in `s` finds out while it runs. -/
def Instr.cycleInfo (i : Instr) (s : State) : CycleInfo :=
  match i with
  | .lda src | .ldx src | .ldy src | .adc src | .sbc src | .and src | .ora src | .eor src | .cmp src | .cpx src | .cpy src
  | .bit src => { pageCross := src.cross s }
  | .bcc rel => branchInfo (!s.p.c) rel s
  | .bcs rel => branchInfo s.p.c rel s
  | .beq rel => branchInfo s.p.z rel s
  | .bne rel => branchInfo (!s.p.z) rel s
  | .bmi rel => branchInfo s.p.n rel s
  | .bpl rel => branchInfo (!s.p.n) rel s
  | .bvc rel => branchInfo (!s.p.v) rel s
  | .bvs rel => branchInfo s.p.v rel s
  | .bra rel => branchInfo true rel s
  | _ => {}

theorem call_cycles (t : CallTarget) (s : State) : (call t s).cycles = s.cycles := by
  cases t <;> simp [call]

section
variable {i : Instr} {s u : State}

/-- An instruction whose other effects leave the counter alone adds its cycles to it. -/
theorem finish_adds (h : u.cycles = s.cycles) (info : CycleInfo) :
    (finish i info s u).cycles = s.cycles + cyclesOf i info s := by
  rw [finish_cycles, h]

theorem report_adds (h : u.cycles = s.cycles) (info : CycleInfo) :
    (report i info s u).cycles = s.cycles + cyclesOf i info s := by
  rw [report_cycles, h]

theorem finish_source_adds {src : Src} {W : Width} (h : u.cycles = s.cycles) :
    (finish i { pageCross := (readSrc src W s).cross } s u).cycles =
      s.cycles + cyclesOf i { pageCross := src.cross s } s := by
  rw [← readSrc_cross src W, finish_adds h]

end

/-- An instruction that is no block move answers a state, and all it does to the counter is its end. -/
theorem exec_cycles_next (i : Instr) (s : State) (hb : instrClass i ≠ .blockmove) :
    ∃ t, exec i s = .next t ∧ t.cycles = s.cycles + cyclesOf i (i.cycleInfo s) s := by
  cases i with
  | lda src | ldx src | ldy src | adc src | sbc src | and src | ora src | eor src | cmp src | cpx src | cpy src | bit src =>
    exact ⟨_, rfl, finish_source_adds (by simp [applyAdd])⟩
  | sta m | stx m | sty m | stz m => exact ⟨_, rfl, finish_adds (by simp) _⟩
  | asl tgt | lsr tgt | rol tgt | ror tgt | inc tgt | dec tgt =>
    cases tgt with
    | acc => exact ⟨_, rfl, finish_adds (by rfl) _⟩
    | mem m => exact ⟨_, rfl, finish_adds (by simp) _⟩
  | tsb m | trb m => exact ⟨_, rfl, finish_adds (by simp) _⟩
  | tax | tay | txa | tya | txy | tyx | tsx | txs | tcd | tdc | tcs | tsc | xba | inx | iny | dex | dey | clc | sec | cli
  | sei | cld | sed | clv | nop | wdm _ | stp | wai => exact ⟨_, rfl, finish_adds (by rfl) _⟩
  | pha | phx | phy | php | phb | phd | phk | pla | plx | ply | plp | plb | pld | pea _ | pei _ | per _ | rep _ | sep _
  | xce => exact ⟨_, rfl, finish_adds (by simp) _⟩
  | bcc rel | bcs rel | beq rel | bne rel | bmi rel | bpl rel | bvc rel | bvs rel | bra rel | brl rel =>
    exact ⟨_, rfl, report_adds (by rfl) _⟩
  | jmp t | jml t | jsl t | rts | rtl | brk sig | cop sig | rti => exact ⟨_, rfl, report_adds (by simp) _⟩
  | jsr t => exact ⟨_, rfl, report_adds (call_cycles t s) _⟩
  | mvn dst src | mvp dst src => exact absurd rfl hb

/-- The cycles of an instruction that is no block move (rule R400). -/
theorem exec_cycles {i : Instr} {s t : State} (hb : instrClass i ≠ .blockmove) (h : exec i s = .next t) :
    t.cycles = s.cycles + cyclesOf i (i.cycleInfo s) s := by
  obtain ⟨u, hu, cycles⟩ := exec_cycles_next i s hb
  obtain rfl := Host.Outcome.next.inj (hu.symm.trans h)
  exact cycles

end Sys2Proof
end

section
/-! The adjustments of rule R406, and what each instruction takes with them. -/

namespace Sys2Proof.Machine

/-! The lines of the table. In the sum for one instruction the lines that do not name it compute to zero, so the proofs
below speak of those that do. -/

/-- Every adjustment of rule R406 but line g. -/
def adjustments (i : Instr) (s : State) : Nat :=
  lineA i s + lineB i s + lineC i s + lineD i s + lineE i s + lineF i (i.cycleInfo s) s + lineH i s + lineI i s + lineJ i s
    + lineK i (i.cycleInfo s) + lineL i (i.cycleInfo s)

theorem cyclesOf_eq_adjustments {i : Instr} {op : Byte} (h : i.opcode = some op) (s : State) :
    cyclesOf i (i.cycleInfo s) s = baseCycles s.cfg op + adjustments i s + lineG i s := by
  simp only [cyclesOf, adjustments, h]
  omega

theorem lineG_eq (i : Instr) (s : State) :
    lineG i s = if s.p.d = true ∧ instrClass i ∈ s.cfg.decPenalty then 1 else 0 := by
  simp [lineG, one]

/-- The cycles of an instruction, from its class and its adjustments. -/
theorem takes_of_adjustments {i : Instr} {c : InstrClass} {n : Nat} {s : State} (hn : adjustments i s = n)
    (hc : instrClass i = c) (hb : c ≠ .blockmove) : Takes i c n s := by
  subst hn hc
  intro op t ho h
  rw [exec_cycles hb h, cyclesOf_eq_adjustments ho, lineG_eq]
  simp only [Nat.add_assoc]

/-- Lines a to d, h and i. -/
theorem one_wide (W : Width) : one (W = .w16) = wide W := by simp [one, wide]

/-- Line e. -/
theorem one_offPage (s : State) : one (lowByte s.d != 0x00) = offPage s := by
  by_cases h : lowByte s.d = 0x00 <;> simp [one, offPage, h]

/-- Line e for the form of an operand. -/
theorem one_directPage (m : Mem) (s : State) :
    one (touchesDirectPage m && lowByte s.d != 0x00) = directPageCycles m s := by
  cases m with
  | dp _ | dpX _ | dpY _ | dpInd _ | dpIndLong _ | dpXInd _ | dpIndY _ | dpIndLongY _ => exact one_offPage s
  | abs _ | absX _ | absY _ | long _ | longX _ | sr _ | srIndY _ => rfl

/-- `PageCross` in numbers (rule R153). -/
theorem pageCross_iff (base index : Word) :
    pageCross base index = true ↔ (base.toNat + index.toNat) / 256 % 256 ≠ base.toNat / 256 := by
  rw [pageCross, bne_iff_ne, ne_eq, ← BitVec.toNat_inj, toNat_highByte, toNat_highByte, BitVec.toNat_add]
  omega

/-- Line f. -/
theorem one_cross (base index : Word) (s : State) :
    one (pageCross base index || s.wX = .w16) = crossCycles base index s := by
  simp [one, crossCycles, ← pageCross_iff]

/-! Operands that are read. -/

/-- The lines of an operand that is read are those of a load of it. -/
theorem readCycles_eq_lines (src : Src) (W : Width) (s : State) :
    readCycles src W s = wide W + (lineE (.lda src) s + lineF (.lda src) ((Instr.lda src).cycleInfo s) s) := by
  cases src with
  | imm v => rfl
  | mem m =>
    have e : lineE (.lda (.mem m)) s = directPageCycles m s := one_directPage m s
    rw [e]
    refine congrArg (fun n => wide W + (directPageCycles m s + n)) ?_
    cases m with
    | absX a => exact (one_cross a s.x s).symm
    | absY a => exact (one_cross a s.y s).symm
    | dpIndY d => exact (one_cross (dpPointer d.toNat true s).1 s.y s).symm
    | abs _ | long _ | longX _ | dp _ | dpX _ | dpY _ | dpInd _ | dpIndLong _ | dpXInd _ | dpIndLongY _ | sr _ | srIndY _ =>
      rfl

/-- An operand of the accumulator's width. -/
theorem adjustments_lda (src : Src) (s : State) : adjustments (.lda src) s = readCycles src s.wM s := by
  rw [readCycles_eq_lines, ← one_wide]
  cases src with
  | imm v => rfl
  | mem m =>
    show 0 + one (s.wM = .w16) + _ + _ = _
    rw [Nat.zero_add, Nat.add_assoc]

/-- An operand of the index registers' width. -/
theorem adjustments_ldx (src : Src) (s : State) : adjustments (.ldx src) s = readCycles src s.wX s := by
  rw [readCycles_eq_lines, ← one_wide]
  cases src with
  | imm v => rfl
  | mem m =>
    show 0 + one (s.wX = .w16) + _ + _ = _
    rw [Nat.zero_add, Nat.add_assoc]
    rfl

/-- No form of a compare with an index register is one that line f charges. -/
theorem adjustments_compareIndex {op : Byte} {src : Src} (s : State) :
    ((Instr.cpx src).opcode = some op → adjustments (.cpx src) s = adjustments (.ldx src) s) ∧
      ((Instr.cpy src).opcode = some op → adjustments (.cpy src) s = adjustments (.ldx src) s) := by
  cases src with
  | imm v => exact ⟨fun _ => rfl, fun _ => rfl⟩
  | mem m =>
    cases m with
    | absX _ | absY _ | dpIndY _ => exact ⟨nofun, nofun⟩
    | abs _ | long _ | longX _ | dp _ | dpX _ | dpY _ | dpInd _ | dpIndLong _ | dpXInd _ | dpIndLongY _ | sr _ | srIndY _ =>
      exact ⟨fun _ => rfl, fun _ => rfl⟩

/-! Operands that are written. -/

theorem adjustments_sta (m : Mem) (s : State) : adjustments (.sta m) s = wide s.wM + directPageCycles m s := by
  rw [← one_wide, ← one_directPage]
  exact congrArg (· + one _) (Nat.zero_add (one _))

theorem adjustments_stx (m : Mem) (s : State) : adjustments (.stx m) s = wide s.wX + directPageCycles m s := by
  rw [← one_wide, ← one_directPage]
  exact congrArg (· + one _) (Nat.zero_add (one _))

/-- An operand that is read, modified and written in memory. -/
theorem adjustments_asl_mem (m : Mem) (s : State) :
    adjustments (.asl (.mem m)) s = 2 * wide s.wM + directPageCycles m s := by
  rw [← one_wide, ← one_directPage]
  exact congrArg (· + one _) (Nat.zero_add (2 * one _))

/-! Pushes and pulls, interrupts. -/

theorem adjustments_pei (d : Byte) (s : State) : adjustments (.pei d) s = offPage s :=
  (Nat.zero_add (one _)).trans (one_offPage s)

theorem adjustments_pha (s : State) : adjustments .pha s = wide s.wM :=
  (Nat.zero_add (one _)).trans (one_wide s.wM)

theorem adjustments_phx (s : State) : adjustments .phx s = wide s.wX :=
  (Nat.zero_add (one _)).trans (one_wide s.wX)

theorem adjustments_rti (s : State) : adjustments .rti s = if s.e then 0 else 1 :=
  (Nat.zero_add (one _)).trans (by cases s.e <;> rfl)

/-! Instructions no adjustment applies to. -/

/-- The mnemonics no line of rule R406 but g names. -/
def unadjusted : List String :=
  ["TAX", "TAY", "TXA", "TYA", "TXY", "TYX", "TSX", "TXS", "TCD", "TDC", "TCS", "TSC", "XBA", "CLC", "SEC",
    "CLI", "SEI", "CLD", "SED", "CLV", "REP", "SEP", "XCE", "NOP", "WDM", "STP", "WAI", "JMP", "JML", "JSR", "JSL", "RTS",
    "RTL", "BRL", "PEA", "PER", "PHB", "PHD", "PHK", "PHP", "PLB", "PLD", "PLP", "INX", "INY", "DEX", "DEY"]

theorem adjustments_unadjusted {i : Instr} (h : i.mnemonic ∈ unadjusted) :
    instrClass i ≠ .arithmetic ∧ instrClass i ≠ .blockmove ∧ ∀ s, adjustments i s = 0 := by
  cases i with
  | tax | tay | txa | tya | txy | tyx | tsx | txs | tcd | tdc | tcs | tsc | xba | clc | sec | cli | sei | cld | sed | clv
  | rep _ | sep _ | xce | nop | wdm _ | stp | wai | jmp _ | jml _ | jsr _ | jsl _ | rts | rtl | brl _ | pea _ | per _ | phb
  | phd | phk | php | plb | pld | plp | inx | iny | dex | dey => exact ⟨nofun, nofun, fun _ => rfl⟩
  | lda _ | ldx _ | ldy _ | sta _ | stx _ | sty _ | stz _ | adc _ | sbc _ | and _ | ora _ | eor _ | cmp _ | cpx _ | cpy _
  | bit _ | inc _ | dec _ | asl _ | lsr _ | rol _ | ror _ | tsb _ | trb _ | bcc _ | bcs _ | beq _ | bne _ | bmi _ | bpl _
  | bvc _ | bvs _ | bra _ | pha | phx | phy | pla | plx | ply | pei _ | mvn _ _ | mvp _ _ | brk _ | cop _ | rti =>
    exact absurd h (of_decide_eq_true rfl)

theorem lineG_eq_zero {i : Instr} {s : State} (h : NoDecimalPenalty s) (hc : instrClass i ≠ .arithmetic) :
    lineG i s = 0 := by
  rw [lineG_eq, if_neg]
  rintro ⟨decimal, pays⟩
  obtain binary | classes := h
  · simp [binary] at decimal
  · exact hc (by simpa [classes] using pays)

/-- Settles O60, by the lines of the table for one instruction of each kind: those of the others are the same. -/
theorem instructionCycles : Obligations.InstructionCycles := by
  refine ⟨fun src s => ⟨fun p hp => ?readM, fun p hp => ?readX⟩,
    fun m s => ⟨fun i hi => ?storeM, fun i hi => ?storeX, fun p hp => ?modify⟩,
    fun s d sig => ⟨fun p hp => ?accumulator, ?pei, ?pha, ?pla, fun p hp => ?index, fun i hi => ?interrupt⟩,
    fun i op s t ho hd hi h => ?unadjusted⟩
  case readM =>
    have load := adjustments_lda src s
    simp only [List.mem_cons, List.not_mem_nil, or_false] at hp
    obtain rfl | rfl | rfl | rfl | rfl | rfl | rfl | rfl := hp
    all_goals exact takes_of_adjustments (.trans (by cases src <;> rfl) load) rfl nofun
  case readX =>
    have load := adjustments_ldx src s
    simp only [List.mem_cons, List.not_mem_nil, or_false] at hp
    obtain rfl | rfl | rfl | rfl := hp
    · exact takes_of_adjustments load rfl nofun
    · exact takes_of_adjustments (.trans (by cases src <;> rfl) load) rfl nofun
    · exact fun op t ho => takes_of_adjustments (((adjustments_compareIndex s).1 ho).trans load) rfl nofun op t ho
    · exact fun op t ho => takes_of_adjustments (((adjustments_compareIndex s).2 ho).trans load) rfl nofun op t ho
  case storeM =>
    simp only [List.mem_cons, List.not_mem_nil, or_false] at hi
    obtain rfl | rfl := hi
    all_goals exact takes_of_adjustments (adjustments_sta m s) rfl nofun
  case storeX =>
    simp only [List.mem_cons, List.not_mem_nil, or_false] at hi
    obtain rfl | rfl := hi
    all_goals exact takes_of_adjustments (adjustments_stx m s) rfl nofun
  case modify =>
    simp only [List.mem_cons, List.not_mem_nil, or_false] at hp
    obtain rfl | rfl | rfl | rfl | rfl | rfl | rfl | rfl := hp
    all_goals exact takes_of_adjustments (adjustments_asl_mem m s) rfl nofun
  case accumulator =>
    simp only [List.mem_cons, List.not_mem_nil, or_false] at hp
    obtain rfl | rfl | rfl | rfl | rfl | rfl := hp
    all_goals exact takes_of_adjustments rfl rfl nofun
  case pei => exact takes_of_adjustments (adjustments_pei d s) rfl nofun
  case pha => exact takes_of_adjustments (adjustments_pha s) rfl nofun
  case pla => exact takes_of_adjustments (adjustments_pha s) rfl nofun
  case index =>
    simp only [List.mem_cons, List.not_mem_nil, or_false] at hp
    obtain rfl | rfl | rfl | rfl := hp
    all_goals exact takes_of_adjustments (adjustments_phx s) rfl nofun
  case interrupt =>
    simp only [List.mem_cons, List.not_mem_nil, or_false] at hi
    obtain rfl | rfl | rfl := hi
    all_goals exact takes_of_adjustments (adjustments_rti s) rfl nofun
  case unadjusted =>
    obtain ⟨notArithmetic, notMove, none⟩ := adjustments_unadjusted (i := i) hi
    rw [exec_cycles notMove h, cyclesOf_eq_adjustments ho, none, lineG_eq_zero hd notArithmetic]
    rfl

end Sys2Proof.Machine
end

section
/-! The round trips of the arithmetic-logic unit (rules R175, R176), from the numbers its operations give. -/

namespace Sys2Proof.Machine

/-! A carry as a number. -/

theorem one_le (c : Bool) : one c ≤ 1 := by cases c <;> decide
theorem one_not (c : Bool) : one (!c) = 1 - one c := by cases c <;> rfl

/-! Addition and subtraction (rules R161, R162). -/

theorem adcBin_r {w : Nat} (a v : BitVec w) (c : Bool) : (adcBin a v c).r = a + v + BitVec.ofNat w (one c) := by
  simp only [adcBin, BitVec.ofNat_add, BitVec.ofNat_toNat, BitVec.setWidth_eq]

theorem adcBin_c {w : Nat} (a v : BitVec w) (c : Bool) :
    (adcBin a v c).c = true ↔ 2 ^ w ≤ a.toNat + v.toNat + one c := decide_eq_true_iff

/-- What a subtraction of `v` makes of the sum with `v` (rule R175). -/
theorem sbcBin_adcBin_r {w : Nat} (a v : BitVec w) :
    (sbcBin (adcBin a v false).r v true).r = a ∧ (sbcBin (adcBin a v false).r v false).r = a - 1 := by
  have complement : a + v + ~~~v = a - 1#w := by
    rw [BitVec.add_assoc, BitVec.add_not_self, ← BitVec.neg_one_eq_allOnes, BitVec.sub_eq_add_neg]
  simp only [sbcBin, adcBin_r, one, Bool.false_eq_true, if_true, if_false, BitVec.ofNat_eq_ofNat, BitVec.add_zero, complement]
  exact ⟨BitVec.sub_add_cancel a 1, trivial⟩

/-- The subtraction borrows exactly when the addition carried (rule R175). -/
theorem sbcBin_adcBin_c (W : Width) (a v : BitVec W.bits) :
    (sbcBin (adcBin a v false).r v true).c = !(adcBin a v false).c := by
  have no_borrow := (sbcBin_r W (adcBin a v false).r v true).2
  have carry := adcBin_c a v false
  have sum : (adcBin a v false).r.toNat = (a.toNat + v.toNat) % 2 ^ W.bits := by simp [adcBin, one]
  have := a.isLt
  have := v.isLt
  rw [Bool.eq_not, ne_eq, Bool.eq_iff_iff, no_borrow, carry, sum]
  simp only [one, Bool.not_true, Bool.false_eq_true, if_false, Nat.add_zero]
  cases W
  all_goals
    simp only [Width.bits, Nat.reducePow] at *
    omega

/-! Shifts and rotates in numbers (rules R168 to R171). -/

theorem toNat_rol (W : Width) (v : BitVec W.bits) (c : Bool) :
    (rol v c).r.toNat = (2 * v.toNat + one c) % 2 ^ W.bits := by
  rw [rol_r, BitVec.toNat_setWidth, BitVec.toNat_concat, Nat.mul_comm]
  cases c <;> rfl

theorem toNat_ror (W : Width) (v : BitVec W.bits) (c : Bool) :
    (ror v c).r.toNat = v.toNat / 2 + 2 ^ (W.bits - 1) * one c := by
  have := v.isLt
  have bit : c.toNat = one c := by cases c <;> rfl
  have := one_le c
  rw [ror_r, BitVec.extractLsb'_toNat, BitVec.toNat_cons', Nat.shiftRight_eq_div_pow, Nat.shiftLeft_eq, bit]
  cases W
  all_goals
    simp only [Width.bits, Nat.reducePow, Nat.reduceSub] at *
    omega

/-- ASL is ROL with the carry clear. -/
theorem asl_r_eq_rol (W : Width) (v : BitVec W.bits) : (asl v).r = (rol v false).r := by rw [asl_r, rol_r]

/-- LSR is ROR with the carry clear. -/
theorem lsr_r_eq_ror (W : Width) (v : BitVec W.bits) : (lsr v).r = (ror v false).r := by rw [lsr_r, ror_r]

/-- A rotate left and the rotate right that takes in `d`: the top bit is replaced by `d` (rule R176). -/
theorem ror_rol_r (W : Width) (v : BitVec W.bits) (c d : Bool) : (ror (rol v c).r d).r = v ↔ v.msb = d := by
  have := v.isLt
  have := one_le c
  rw [← BitVec.toNat_inj, toNat_ror, toNat_rol, BitVec.msb_eq_decide]
  cases W
  all_goals
    simp only [Width.bits, Nat.reducePow, Nat.reduceSub] at *
    cases d
    all_goals
      simp only [one, Bool.false_eq_true, if_true, if_false, decide_eq_true_eq, decide_eq_false_iff_not] at *
      omega

/-- Settles O18: the shifts are rotates with the carry clear, so one round trip stands for all four. -/
theorem aluRoundTrips : Obligations.AluRoundTrips := by
  intro W a v c
  obtain ⟨undone, one_less⟩ := sbcBin_adcBin_r a v
  refine ⟨⟨undone, one_less, sbcBin_adcBin_c W a v⟩, ?shifts, rfl, (ror_rol_r W v c _).mpr rfl, ror_rol_r W v c c⟩
  case shifts =>
    rw [lsr_r_eq_ror, asl_r_eq_rol]
    exact ror_rol_r W v false false

end Sys2Proof.Machine
end

section
/-! Decimal arithmetic (rules R163 to R165): the digit loops as decimal addition and subtraction, by induction on the digits. -/

namespace Sys2Proof.Machine

/-- The loop of rule R163 on decimal digits adds them, with the carry in and out. -/
theorem addDigits_decimal : ∀ (n a v c : Nat), c ≤ 1 → IsDecimal n a → IsDecimal n v →
    (addDigits n a v c).r < 16 ^ n ∧ (addDigits n a v c).carry ≤ 1 ∧ IsDecimal n (addDigits n a v c).r ∧
      decimalValue n (addDigits n a v c).r + 10 ^ n * (addDigits n a v c).carry = decimalValue n a + decimalValue n v + c
  | 0, _, _, c, hc, _, _ => ⟨Nat.one_pos, hc, trivial, by simp [addDigits, decimalValue]⟩
  | n + 1, a, v, c, hc, ⟨ha, ha'⟩, ⟨hv, hv'⟩ => by
    simp only [addDigits]
    generalize hu : (if 9 < a % 16 + v % 16 + c then a % 16 + v % 16 + c + 6 else a % 16 + v % 16 + c) = u
    obtain ⟨bound, carry, digits, value⟩ :=
      addDigits_decimal n (a / 16) (v / 16) (if 15 < u then 1 else 0) (by split <;> omega) ha' hv'
    generalize addDigits n (a / 16) (v / 16) (if 15 < u then 1 else 0) = rest at *
    have low : (u % 16 + 16 * rest.r) % 16 = u % 16 := by omega
    have high : (u % 16 + 16 * rest.r) / 16 = rest.r := by omega
    simp only [IsDecimal, decimalValue, low, high, Nat.pow_succ]
    refine ⟨by omega, carry, ⟨by split at hu <;> omega, digits⟩, ?_⟩
    have digit : u % 16 + 10 * (if 15 < u then 1 else 0) = a % 16 + v % 16 + c := by split at hu <;> split <;> omega
    rw [Nat.mul_comm (10 ^ n) 10, Nat.mul_assoc]
    omega

/-- The loop of rule R164 on the complement of decimal digits subtracts them, its carry meaning no borrow. -/
theorem subDigits_decimal : ∀ (n a v c : Nat), c ≤ 1 → v < 16 ^ n → IsDecimal n a → IsDecimal n v →
    let o := subDigits n a (16 ^ n - 1 - v) c
    o.r < 16 ^ n ∧ o.carry ≤ 1 ∧ IsDecimal n o.r ∧
      decimalValue n o.r + decimalValue n v + (1 - c) = decimalValue n a + 10 ^ n * (1 - o.carry)
  | 0, _, _, c, hc, _, _, _ => ⟨Nat.one_pos, hc, trivial, by simp [subDigits, decimalValue]⟩
  | n + 1, a, v, c, hc, hn, ⟨ha, ha'⟩, ⟨hv, hv'⟩ => by
    rw [Nat.pow_succ] at *
    have low_complement : (16 ^ n * 16 - 1 - v) % 16 = 15 - v % 16 := by omega
    have high_complement : (16 ^ n * 16 - 1 - v) / 16 = 16 ^ n - 1 - v / 16 := by omega
    simp only [subDigits, low_complement, high_complement]
    generalize ht : a % 16 + (15 - v % 16) + c = t
    generalize hd : (if 15 < t then t - 16 else (t + 10) % 16) = digit
    obtain ⟨bound, carry, digits, value⟩ :=
      subDigits_decimal n (a / 16) (v / 16) (if 15 < t then 1 else 0) (by split <;> omega) (by omega) ha' hv'
    generalize subDigits n (a / 16) (16 ^ n - 1 - v / 16) (if 15 < t then 1 else 0) = rest at *
    have is_digit : digit ≤ 9 := by split at hd <;> omega
    have low : (digit + 16 * rest.r) % 16 = digit := by omega
    have high : (digit + 16 * rest.r) / 16 = rest.r := by omega
    simp only [IsDecimal, decimalValue, low, high, Nat.pow_succ]
    refine ⟨by omega, carry, ⟨is_digit, digits⟩, ?_⟩
    have difference : digit + v % 16 + (1 - c) = a % 16 + 10 * (1 - if 15 < t then 1 else 0) := by
      split at hd <;> split <;> omega
    rw [Nat.mul_comm (10 ^ n) 10, Nat.mul_assoc]
    omega

/-! From the loops to `adc_bcd` and `sbc_bcd`. -/

theorem pow_digits (W : Width) : 16 ^ (W.bits / 4) = 2 ^ W.bits := by cases W <;> rfl

theorem toNat_decimalOut {w : Nat} (a u : BitVec w) {o : DigitsOut} (h : o.r < 2 ^ w) :
    (decimalOut a u o).r.toNat = o.r := by
  rw [decimalOut, BitVec.toNat_ofNat, Nat.mod_eq_of_lt h]

/-- The carry flag of a decimal operation as a number. -/
theorem one_decimalOut_c {w : Nat} (a u : BitVec w) {o : DigitsOut} (h : o.carry ≤ 1) :
    one (decimalOut a u o).c = o.carry := by
  obtain zero | carry := Nat.le_one_iff_eq_zero_or_eq_one.mp h
  · simp [decimalOut, one, zero]
  · simp [decimalOut, one, carry]

section
variable {W : Width} {a v : BitVec W.bits} (c : Bool)

/-- On decimal numbers `adc_bcd` is decimal addition (rule R163). -/
theorem adcBcd_decimal (ha : IsDecimal (W.bits / 4) a.toNat) (hv : IsDecimal (W.bits / 4) v.toNat) :
    IsDecimal (W.bits / 4) (adcBcd a v c).r.toNat ∧
      decimalValue (W.bits / 4) (adcBcd a v c).r.toNat + 10 ^ (W.bits / 4) * one (adcBcd a v c).c =
        decimalValue (W.bits / 4) a.toNat + decimalValue (W.bits / 4) v.toNat + one c := by
  obtain ⟨bound, carry, digits, value⟩ := addDigits_decimal _ _ _ _ (one_le c) ha hv
  rw [pow_digits] at bound
  rw [adcBcd, toNat_decimalOut a v bound, one_decimalOut_c a v carry]
  exact ⟨digits, value⟩

/-- On decimal numbers `sbc_bcd` is decimal subtraction (rule R164). -/
theorem sbcBcd_decimal (ha : IsDecimal (W.bits / 4) a.toNat) (hv : IsDecimal (W.bits / 4) v.toNat) :
    IsDecimal (W.bits / 4) (sbcBcd a v c).r.toNat ∧
      decimalValue (W.bits / 4) (sbcBcd a v c).r.toNat + decimalValue (W.bits / 4) v.toNat + one (!c) =
        decimalValue (W.bits / 4) a.toNat + 10 ^ (W.bits / 4) * one (!(sbcBcd a v c).c) := by
  have complement : (~~~v).toNat = 16 ^ (W.bits / 4) - 1 - v.toNat := by rw [BitVec.toNat_not, pow_digits]
  obtain ⟨bound, carry, digits, value⟩ :=
    subDigits_decimal _ _ _ _ (one_le c) (by rw [pow_digits]; exact v.isLt) ha hv
  rw [← complement] at bound carry digits value
  rw [pow_digits] at bound
  rw [sbcBcd, toNat_decimalOut a (~~~v) bound, one_not, one_not, one_decimalOut_c a (~~~v) carry]
  exact ⟨digits, value⟩

end

/-! V of the 8-bit operations (rule R165). -/

/-- The top one of two digits of a sum before its correction, where the low digit carries above `limit`. -/
def topDigit (limit a u c : Nat) : Nat := (a / 16 + u / 16 + if limit < a % 16 + u % 16 + c then 1 else 0) % 16

section
variable {a u : Nat} (ha : a < 256) (hu : u < 256) (c : Nat)
include ha hu

theorem addDigits_topRaw : (addDigits 2 a u c).topRaw = topDigit 9 a u c := by
  have carry : 15 < (if 9 < a % 16 + u % 16 + c then a % 16 + u % 16 + c + 6 else a % 16 + u % 16 + c) ↔
      9 < a % 16 + u % 16 + c := by split <;> omega
  have top : a / 16 % 16 = a / 16 ∧ u / 16 % 16 = u / 16 := by omega
  simp only [addDigits, topDigit, carry, top, Nat.one_ne_zero, if_true, if_false]

theorem subDigits_topRaw : (subDigits 2 a u c).topRaw = topDigit 15 a u c := by
  have top : a / 16 % 16 = a / 16 ∧ u / 16 % 16 = u / 16 := by omega
  simp only [subDigits, topDigit, top, Nat.one_ne_zero, if_true, if_false]

end

theorem testBit_three_of_digit : ∀ {n : Nat}, n < 16 → n.testBit 3 = decide (8 ≤ n) := by decide

/-- V by the signs of the operands and bit 3 of the top digit `t`. -/
theorem decimalOut_v {a u : Byte} {o : DigitsOut} {t : Nat} (h : o.topRaw = t) (ht : t < 16) :
    (decimalOut a u o).v = true ↔ (128 ≤ a.toNat ↔ 128 ≤ u.toNat) ∧ ¬ (128 ≤ a.toNat ↔ 8 ≤ t) := by
  simp [decimalOut, h, testBit_three_of_digit ht, BitVec.msb_eq_decide, iff_comm (a := 8 ≤ t)]

/-- Settles O19, by the digit loops: their induction for the values, their top digit for V. -/
theorem decimalArithmetic : Obligations.DecimalArithmetic := by
  refine ⟨fun a v c => ⟨?add, ?sub⟩, fun W a v c ha hv => ⟨adcBcd_decimal c ha hv, sbcBcd_decimal c ha hv⟩⟩
  case add => exact decimalOut_v (addDigits_topRaw a.isLt v.isLt _) (Nat.mod_lt _ (by decide))
  case sub =>
    have complement : (~~~v).toNat = 255 - v.toNat := BitVec.toNat_not
    rw [← complement]
    exact decimalOut_v (subDigits_topRaw a.isLt (~~~v).isLt _) (Nat.mod_lt _ (by decide))

end Sys2Proof.Machine
end

section
/-! ADC, SBC and the bitwise operations on a source operand (rules R161 to R165, R230 to R235). -/

namespace Sys2Proof.Machine

theorem flagsNZ_of_eq {w : Nat} {v : BitVec w} {t : State} (hn : t.p.n = v.msb) (hz : t.p.z = (v == 0)) : FlagsNZ v t :=
  ⟨hn, by rw [hz, beq_iff_eq]⟩

/-! Add and subtract. -/

/-- The state ADC or SBC ends in, with the ALU's answer `o` for the operand read from `src`. -/
def addEnd (i : Instr) (src : Src) (s : State) (o : AddOut s.wM.bits) : State :=
  finish i { pageCross := (readSrc src s.wM s).cross } s (applyAdd s.wM o s (readSrc src s.wM s).st)

section
variable {i : Instr} {src : Src} {s : State} {o : AddOut s.wM.bits}

theorem addEnd_acc : (addEnd i src s o).acc s.wM = o.r := Width.take_put _ _ _
theorem addEnd_c : (addEnd i src s o).p.c = o.c := rfl

/-- V is the ALU's but for a 16-bit decimal operation (rule R165). -/
theorem addEnd_v (h : s.p.d = false ∨ s.wM = .w8) : (addEnd i src s o).p.v = o.v := by
  obtain binary | narrow := h
  · exact if_neg (by simp [binary])
  · exact if_neg (by simp [narrow])

/-- V of a 16-bit decimal operation is a free value (rule R165, log 7). -/
theorem addEnd_v_free (decimal : s.p.d = true) (wide : s.wM = .w16) : (addEnd i src s o).p.v = Config.bcd16V s.draws :=
  if_pos (by simp [decimal, wide])

theorem addEnd_frame : Frame [.a, .flagN, .flagV, .flagZ, .flagC, .pc, .cycles, .nmiFlag, .draws] s (addEnd i src s o) :=
  frame_of (((applyAdd_effect src s.wM s.wM o s).finish i _ s).only.mono (by decide)) (by decide) (by decide)

/-- The shape ADC and SBC share, for an answer whose N and Z are those of its result and which is `dec` in decimal mode. -/
theorem addEnd_shape {dec : AddOut s.wM.bits} (hn : o.n = o.r.msb) (hz : o.z = (o.r == 0)) (hdec : s.p.d = true → o = dec) :
    AddShape i src s dec (addEnd i src s o) := by
  refine ⟨fun narrow => ?high, ?flags, rfl, rfl, fun decimal => ?decimal, ?draws, addEnd_frame⟩
  case high =>
    have kept : (readSrc src s.wM s).st.a = s.a := by simp
    rw [← kept]
    exact Width.highByte_put narrow _ _
  case flags =>
    rw [addEnd_acc]
    exact flagsNZ_of_eq hn hz
  case decimal =>
    rw [← hdec decimal]
    exact ⟨addEnd_acc, addEnd_c, fun narrow => addEnd_v (.inr narrow), fun wide => addEnd_v_free decimal wide⟩
  case draws => simp [addEnd, applyAdd]

/-- An instruction that answers `dec` in decimal mode and `bin` in binary mode, with the N and Z of its result. -/
theorem exec_add {dec bin : AddOut s.wM.bits} (h : exec i s = .next (addEnd i src s (if s.p.d then dec else bin)))
    (hdec : dec.n = dec.r.msb ∧ dec.z = (dec.r == 0)) (hbin : bin.n = bin.r.msb ∧ bin.z = (bin.r == 0)) :
    ∃ t, exec i s = .next t ∧ AddShape i src s dec t ∧
      (s.p.d = false → t.acc s.wM = bin.r ∧ t.p.c = bin.c ∧ t.p.v = bin.v) := by
  have nz : ∀ o, o = dec ∨ o = bin → o.n = o.r.msb ∧ o.z = (o.r == 0) := by rintro o (rfl | rfl) <;> assumption
  obtain ⟨n, z⟩ := nz (if s.p.d then dec else bin) (ite_eq_or_eq _ _ _)
  refine ⟨_, h, addEnd_shape n z fun decimal => if_pos decimal, fun binary => ?_⟩
  rw [if_neg (by simp [binary])]
  exact ⟨addEnd_acc, addEnd_c, addEnd_v (.inl binary)⟩

end

/-- Settles O25: in binary mode by the sum in numbers. -/
theorem adcResult : Obligations.AdcResult := by
  intro src s v
  obtain ⟨t, run, shape, binary⟩ := exec_add (i := .adc src) (src := src) (s := s) rfl ⟨rfl, rfl⟩ ⟨rfl, rfl⟩
  refine ⟨t, run, shape, fun mode => ?_⟩
  obtain ⟨result, carry, overflow⟩ := binary mode
  rw [result, carry, overflow]
  exact ⟨BitVec.toNat_ofNat _ _, adcBin_c _ _ _, adcBin_v s.wM _ _ _⟩

/-- Settles O26: in binary mode by the difference in numbers. -/
theorem sbcResult : Obligations.SbcResult := by
  intro src s v
  obtain ⟨t, run, shape, binary⟩ := exec_add (i := .sbc src) (src := src) (s := s) rfl ⟨rfl, rfl⟩ ⟨rfl, rfl⟩
  refine ⟨t, run, shape, fun mode => ?_⟩
  obtain ⟨result, carry, overflow⟩ := binary mode
  obtain ⟨difference, no_borrow⟩ := sbcBin_r s.wM (s.acc s.wM) v s.p.c
  rw [result, carry, overflow]
  exact ⟨difference, no_borrow, sbcBin_v s.wM _ _ _⟩

/-! Bitwise. -/

/-- Shape (a) of rule R230: the accumulator takes the operation's value, N and Z follow it. -/
theorem logic_result {i : Instr} {src : Src} {W : Width} {f : BitVec W.bits → BitVec W.bits → BitVec W.bits} {s : State}
    (h : exec i s = .next (logic i src W f s)) : ReadsInto i src W State.a .a (f (s.acc W)) s := by
  have only := (logic_effect i src W f s).only.mono (l' := [.a, .flagN, .flagZ, .pc, .cycles, .nmiFlag]) (by decide)
  refine ⟨_, h, ?written, flagsNZ_of_eq rfl rfl, rfl, rfl, frame_of only (by decide) (by decide)⟩
  case written =>
    have kept : (readSrc src W s).st.a = s.a := by simp
    rw [← kept]
    exact written_put W _ _

/-- Settles O27: the three differ in the operation alone. -/
theorem logicResult : Obligations.LogicResult := fun _ _ => ⟨logic_result rfl, logic_result rfl, logic_result rfl⟩

end Sys2Proof.Machine
end

section
/-! The read-modify-write instructions on memory (rules R168 to R171, R230, R240, R241, R246 to R251). -/

namespace Sys2Proof.Machine

/-- What a write-back leaves behind the bus: its bytes written in order, the high one first (rules R80, R230). -/
theorem modifyMem_writes (i : Instr) (m : Mem) (W : Width) (f : BitVec W.bits → BitVec W.bits)
    (g : BitVec W.bits → Status → Status) (s : State) :
    let l := ((resolve m s).cells W (f (readData W (resolve m s) (resolve m s).st).1)).reverse
    (modifyTarget i (.mem m) W f g s).mem = (writeAll l s).mem ∧ (modifyTarget i (.mem m) W f g s).ch = (writeAll l s).ch ∧
      (modifyTarget i (.mem m) W f g s).cart = (writeAll l s).cart := by
  simp only [modifyTarget, finish_mem, finish_ch, finish_cart, writeBack_eq]
  exact writeAll_congr _ (by simp) (by simp) (by simp) (by simp)

/-- Shape (c) of rule R230 on memory, for flags `g` that differ from the old ones in `l` only. -/
theorem modifyMem_result {i : Instr} {m : Mem} {l : List Part} {s : State} {f : BitVec s.wM.bits → BitVec s.wM.bits}
    {g : BitVec s.wM.bits → Status → Status} {flags : BitVec s.wM.bits → State → Prop}
    (h : exec i s = .next (modifyTarget i (.mem m) s.wM f g s)) (hg : ∀ v p, FlagsKept l p (g v p))
    (hl : [Part.mem, .ch, .cart, .cfg, .nmiFlag].all (fun p => !l.contains p) = true)
    (hflags : ∀ v t, t.p = g v s.p → flags v t) : ModifiesMemory i m l s f flags := by
  obtain ⟨mem, ch, cart⟩ := modifyMem_writes i m s.wM f g s
  have only : ChangesOnly (.mem :: .ch :: .cart :: .pc :: .cycles :: .nmiFlag :: l) s (modifyTarget i (.mem m) s.wM f g s) :=
    (modifyMem_effect i m s.wM f hg hl s).only.mono fun p hp => by
      simp only [List.mem_append, List.mem_cons, List.not_mem_nil, or_false] at hp ⊢
      tauto
  have cfg : Part.cfg ∉ .pc :: .cycles :: .nmiFlag :: l := by
    have kept : Part.cfg ∉ l := by simpa using List.all_eq_true.mp hl .cfg (by decide)
    simp [kept]
  refine ⟨_, h, ⟨storedBytes_of mem ch cart (only .cfg (by simpa using cfg)), hflags _ _ rfl, ?flag, ?frame⟩, rfl⟩
  case flag => simp [modifyTarget]
  case frame =>
    have frame := storeFrame_of cfg only mem ch cart
    rw [List.map_reverse, Resolved.cells_fst] at frame
    exact frame.perm (List.reverse_perm _)

/-- An instruction on memory that sets N and Z from the value it stores. -/
theorem modifyMem_setNZ {i : Instr} {m : Mem} {s : State} {f : BitVec s.wM.bits → BitVec s.wM.bits}
    (h : exec i s = .next (modifyTarget i (.mem m) s.wM f (fun v p => p.setNZ (f v)) s)) :
    ModifiesMemory i m [.flagN, .flagZ] s f fun v t => FlagsNZ (f v) t :=
  modifyMem_result h (fun v p => setNZ_kept p (f v)) rfl fun _ _ flags =>
    flagsNZ_of_eq (congrArg Status.n flags) (congrArg Status.z flags)

/-- An instruction on memory that sets Z alone, from the bits `a` has in common with the value it reads. -/
theorem modifyMem_setZ {i : Instr} {m : Mem} {s : State} {f : BitVec s.wM.bits → BitVec s.wM.bits} {a : BitVec s.wM.bits}
    (h : exec i s = .next (modifyTarget i (.mem m) s.wM f (fun v p => { p with z := a &&& v == 0 }) s)) :
    ModifiesMemory i m [.flagZ] s f fun v t => t.p.z = true ↔ a &&& v = 0 :=
  modifyMem_result h (fun v p => by simp [FlagsKept]) rfl fun _ _ flags => by rw [flags, beq_iff_eq]

/-! The shifts and rotates as the string of bits a statement names (rules R168 to R171). -/

theorem shifted_asl {w : Nat} (v : BitVec w) (c : Bool) : shifted "ASL" v c = some ((asl v).r, (asl v).c) := by
  rw [asl_r]
  simp [shifted, asl, BitVec.msb_eq_getLsbD_last]

theorem shifted_rol (W : Width) (v : BitVec W.bits) (c : Bool) : shifted "ROL" v c = some ((rol v c).r, (rol v c).c) := by
  rw [rol_r]
  simp [shifted, rol, BitVec.msb_eq_getLsbD_last]

theorem shifted_lsr {w : Nat} (v : BitVec w) (c : Bool) : shifted "LSR" v c = some ((lsr v).r, (lsr v).c) := by
  rw [lsr_r]
  rfl

theorem shifted_ror (W : Width) (v : BitVec W.bits) (c : Bool) : shifted "ROR" v c = some ((ror v c).r, (ror v c).c) := by
  rw [ror_r]
  rfl

/-- A shift or rotate `o` on memory, given that `o` is the string of bits shifted and sets N and Z from its result. -/
theorem modifyMem_shift {i : Instr} {m : Mem} {s : State} {o : BitVec s.wM.bits → ShiftOut s.wM.bits}
    (h : exec i s = .next (modifyTarget i (.mem m) s.wM (fun v => (o v).r) (fun v p => p.setCNZ (o v)) s))
    (ho : ∀ v, shifted i.mnemonic v s.p.c = some ((o v).r, (o v).c))
    (hnz : ∀ v, (o v).n = (o v).r.msb ∧ (o v).z = ((o v).r == 0)) :
    ModifiesMemory i m [.flagN, .flagZ, .flagC] s (fun v => ((shifted i.mnemonic v s.p.c).getD (v, false)).1)
      (fun v t => FlagsNZ ((shifted i.mnemonic v s.p.c).getD (v, false)).1 t ∧
        t.p.c = ((shifted i.mnemonic v s.p.c).getD (v, false)).2) := by
  simp only [ho, Option.getD_some]
  refine modifyMem_result h (fun v p => setCNZ_kept p (o v)) rfl fun v t flags => ?_
  obtain ⟨n, z⟩ := hnz v
  exact ⟨flagsNZ_of_eq ((congrArg Status.n flags).trans n) ((congrArg Status.z flags).trans z), congrArg Status.c flags⟩

/-- Settles O30: the instructions differ in the value stored and in the flags alone. -/
theorem memoryModifyResult : Obligations.MemoryModifyResult := by
  refine fun m s => ⟨modifyMem_setNZ rfl, modifyMem_setNZ rfl, fun i hi => ?shift, modifyMem_setZ rfl, modifyMem_setZ rfl⟩
  case shift =>
    simp only [List.mem_cons, List.not_mem_nil, or_false] at hi
    obtain rfl | rfl | rfl | rfl := hi
    · exact modifyMem_shift (o := asl) rfl (fun v => shifted_asl v _) fun _ => ⟨rfl, rfl⟩
    · exact modifyMem_shift (o := lsr) rfl (fun v => shifted_lsr v _) fun _ => ⟨rfl, rfl⟩
    · exact modifyMem_shift (o := (rol · s.p.c)) rfl (fun v => shifted_rol _ v _) fun _ => ⟨rfl, rfl⟩
    · exact modifyMem_shift (o := (ror · s.p.c)) rfl (fun v => shifted_ror _ v _) fun _ => ⟨rfl, rfl⟩

end Sys2Proof.Machine
end

section
/-! Loads and register transfers (rules R192 to R194, R199 to R211): a value goes to one register, and N and Z follow it. -/

namespace Sys2Proof.Machine

/-- Encodings, as two lists of byte strings that are equal. -/
theorem encodings_of_map {l : List (Instr × List Byte)} (h : ∀ w, l.map (fun p => encode w p.1) = l.map Prod.snd) :
    Encodings l := fun w => List.map_inj_left.mp (h w)

/-- The state an instruction begun in `s` ends in when it has changed its register in `u` and sets N and Z from `v`. -/
def resultEnd {w : Nat} (i : Instr) (info : CycleInfo) (s u : State) (v : BitVec w) : State := finish i info s (u.setNZ v)

theorem resultEnd_effect {w : Nat} {l : List Part} {s u : State} (h : Effect l s u) (i : Instr) (info : CycleInfo)
    (v : BitVec w) : Effect (l ++ [.flagN, .flagZ, .pc, .cycles]) s (resultEnd i info s u v) := by
  simpa [resultEnd] using (h.then (setNZ_effect v u)).finish i info s

theorem resultEnd_flagsNZ {w : Nat} (i : Instr) (info : CycleInfo) (s u : State) (v : BitVec w) :
    FlagsNZ v (resultEnd i info s u v) := flagsNZ_of_eq rfl rfl

/-! Loads. -/

/-- A register write of width `W` to a register that still holds what it held. -/
theorem written_put_of_eq {old kept : Word} (h : kept = old) (W : Width) (v : BitVec W.bits) :
    Written W old (W.put kept v) v := h ▸ written_put W kept v

/-- Shape of a load: the register is written in the state the read of the operand leaves. -/
theorem readsInto_of_effect {i : Instr} {src : Src} {W : Width} {reg : State → Word} {part : Part} {s u : State}
    (h : exec i s = .next (resultEnd i { pageCross := (readSrc src W s).cross } s u (readSrc src W s).val))
    (effect : Effect [part] (readSrc src W s).st u) (hpart : part ∉ [.mem, .cfg, .nmiFlag])
    (written : Written W (reg s) (reg (resultEnd i { pageCross := (readSrc src W s).cross } s u (readSrc src W s).val))
      (readSrc src W s).val) :
    ReadsInto i src W reg part id s := by
  obtain ⟨mem, cfg, nmiFlag⟩ : .mem ≠ part ∧ .cfg ≠ part ∧ .nmiFlag ≠ part := by simpa [eq_comm] using hpart
  have flag : u.nmiFlag = (readSrc src W s).st.nmiFlag := effect.only .nmiFlag (by simpa using nmiFlag)
  have only := (resultEnd_effect ((readSrc_effect src W s).then effect) i { pageCross := (readSrc src W s).cross }
    (readSrc src W s).val).only.mono (l' := [part, .flagN, .flagZ, .pc, .cycles, .nmiFlag]) (by simp)
  exact ⟨_, h, written, resultEnd_flagsNZ _ _ _ _ _, rfl, flag, frame_of only (by simpa using mem) (by simpa using cfg)⟩

/-- Settles O20: the three loads differ in the register they write and in its width alone. -/
theorem loadResult : Obligations.LoadResult := fun _ _ =>
  ⟨readsInto_of_effect rfl (setAcc_effect _ _ _) (by decide) (written_put_of_eq (readSrc_a _ _ _) _ _),
    readsInto_of_effect rfl (setX_effect _ _ _) (by decide) (written_put_of_eq (readSrc_x _ _ _) _ _),
    readsInto_of_effect rfl (setY_effect _ _ _) (by decide) (written_put_of_eq (readSrc_y _ _ _) _ _)⟩

/-! Transfers. -/

/-- Shape of a transfer with flags: one register is written from the state the instruction begins in. -/
theorem writesRegister_of_effect {i : Instr} {W : Width} {reg : State → Word} {part : Part} {v : BitVec W.bits}
    {s u : State} (h : exec i s = .next (resultEnd i {} s u v)) (effect : Effect [part] s u) (hpart : part ∉ [.mem, .cfg])
    (written : Written W (reg s) (reg (resultEnd i {} s u v)) v) : WritesRegister i W reg part v s := by
  obtain ⟨mem, cfg⟩ : .mem ≠ part ∧ .cfg ≠ part := by simpa [eq_comm] using hpart
  exact ⟨_, h, written, resultEnd_flagsNZ _ _ _ _ _, rfl,
    frame_of (resultEnd_effect effect i {} v).only (by simpa using mem) (by simpa using cfg)⟩

section
variable {i : Instr} {W : Width} {v : BitVec W.bits} {s : State}

theorem writesRegister_a (h : exec i s = .next (resultEnd i {} s (s.setAcc W v) v)) : WritesRegister i W State.a .a v s :=
  writesRegister_of_effect h (setAcc_effect W v s) (by decide) (written_put W s.a v)

theorem writesRegister_x (h : exec i s = .next (resultEnd i {} s (s.setX W v) v)) : WritesRegister i W State.x .x v s :=
  writesRegister_of_effect h (setX_effect W v s) (by decide) (written_put W s.x v)

theorem writesRegister_y (h : exec i s = .next (resultEnd i {} s (s.setY W v) v)) : WritesRegister i W State.y .y v s :=
  writesRegister_of_effect h (setY_effect W v s) (by decide) (written_put W s.y v)

end

theorem writesRegister_d {i : Instr} {v : Word} {s : State} (h : exec i s = .next (resultEnd i {} s { s with d := v } v)) :
    WritesRegister i .w16 State.d .d v s :=
  writesRegister_of_effect h (setD_effect v s) (by decide) (written_put .w16 s.d v)

/-- A transfer to S: no flag, and in emulation mode the page of the stack stays (rules R206, R209). -/
theorem transferToSp_result {i : Instr} {v : Word} {s : State}
    (h : exec i s = .next (finish i {} s { s with sp := if s.e then setLow s.sp (lowByte v) else v })) :
    ∃ t, exec i s = .next t ∧ t.sp = (if s.e then wordOf (highByte s.sp) (lowByte v) else v) ∧ Advances i s t ∧
      Frame [.sp, .pc, .cycles] s t :=
  ⟨_, h, rfl, rfl, frame_of ((setSp_effect _ s).finish i {} s).only (by decide) (by decide)⟩

/-- Settles O23: each transfer is the write of its destination. -/
theorem transferResult : Obligations.TransferResult := by
  refine ⟨encodings_of_map fun _ => rfl, fun s => ⟨?sized, ?wide, ?txs, ?tcs⟩⟩
  case sized =>
    exact ⟨writesRegister_x rfl, writesRegister_y rfl, writesRegister_a rfl, writesRegister_a rfl, writesRegister_y rfl,
      writesRegister_x rfl, writesRegister_x rfl⟩
  case wide => exact ⟨writesRegister_d rfl, writesRegister_a rfl, writesRegister_a rfl⟩
  case txs => exact transferToSp_result rfl
  case tcs => exact transferToSp_result rfl

/-- Settles O24: the word written is the two bytes in the other order. -/
theorem xbaResult : Obligations.XbaResult := by
  refine ⟨encodings_of_map fun _ => rfl, fun s => ⟨resultEnd .xba {} s _ _, rfl, ?low, ?high, ?flags, rfl, ?frame⟩⟩
  case low => exact lowByte_wordOf (lowByte s.a) (highByte s.a)
  case high => exact highByte_wordOf (lowByte s.a) (highByte s.a)
  case flags => exact resultEnd_flagsNZ _ _ _ _ _
  case frame => exact frame_of (resultEnd_effect (setA_effect _ s) _ _ _).only (by decide) (by decide)

end Sys2Proof.Machine
end

section
/-! Compares and BIT on a source operand, and the register forms of the read-modify-write instructions (rules R168 to R172,
R236 to R249). -/

namespace Sys2Proof.Machine

/-! The ALU's compare and the flags of BIT. -/

theorem cmpAlu_c {w : Nat} (reg v : BitVec w) : (cmpAlu reg v).c = true ↔ v ≤ reg := decide_eq_true_iff

theorem cmpAlu_z {w : Nat} (reg v : BitVec w) : (cmpAlu reg v).z = true ↔ reg = v := by
  rw [cmpAlu, beq_iff_eq, BitVec.ofNat_eq_ofNat]
  exact sub_eq_zero

theorem bitFlags_z {w : Nat} (immediate : Bool) (a m : BitVec w) (p : Status) :
    (bitFlags immediate a m p).z = true ↔ a &&& m = 0 := beq_iff_eq

/-! Compares and BIT. -/

/-- Shape of a compare: the ALU's C, N and Z for the operand read, and no register. -/
theorem compares_of_compareSource {i : Instr} {src : Src} {W : Width} {reg : BitVec W.bits} {s : State}
    (h : exec i s = .next (compareSource i src W reg s)) : Compares i src W reg s := by
  have only := (compareSource_effect i src W reg s).only.mono
    (l' := [.flagN, .flagZ, .flagC, .pc, .cycles, .nmiFlag]) (by decide)
  exact ⟨_, h, cmpAlu_c _ _, cmpAlu_z _ _, rfl, rfl, rfl, frame_of only (by decide) (by decide)⟩

/-- Settles O28: the compares differ in the register operand alone; for BIT the operand form decides N and V. -/
theorem compareAndBitResult : Obligations.CompareAndBitResult := by
  intro src s
  refine ⟨compares_of_compareSource rfl, compares_of_compareSource rfl, compares_of_compareSource rfl,
    _, rfl, bitFlags_z _ _ _ _, ?top_bits, rfl, rfl, ?frame⟩
  case top_bits =>
    cases src with
    | imm _ => exact ⟨rfl, rfl⟩
    | mem _ => exact ⟨rfl, rfl⟩
  case frame =>
    have tested := (readSrc_effect src s.wM s).flags (by simp)
      (bitFlags_kept (isImmediate src) (s.acc s.wM) (readSrc src s.wM s).val s.p) rfl
    exact frame_of ((tested.finish _ _ _).only.mono (by decide)) (by decide) (by decide)

/-! The accumulator and index forms. -/

/-- A shift or rotate `o` of the accumulator, given that `o` is the string of bits shifted and sets N and Z from its
result. -/
theorem modifyAcc_shift {i : Instr} {s : State} {o : BitVec s.wM.bits → ShiftOut s.wM.bits}
    (h : exec i s = .next (modifyTarget i .acc s.wM (fun v => (o v).r) (fun v p => p.setCNZ (o v)) s))
    (ho : shifted i.mnemonic (s.acc s.wM) s.p.c = some ((o (s.acc s.wM)).r, (o (s.acc s.wM)).c))
    (hn : (o (s.acc s.wM)).n = (o (s.acc s.wM)).r.msb) (hz : (o (s.acc s.wM)).z = ((o (s.acc s.wM)).r == 0)) :
    ∃ t r c, exec i s = .next t ∧ shifted i.mnemonic (s.acc s.wM) s.p.c = some (r, c) ∧ Written s.wM s.a t.a r ∧
      FlagsNZ r t ∧ t.p.c = c ∧ Advances i s t ∧ Frame [.a, .flagN, .flagZ, .flagC, .pc, .cycles] s t := by
  have effect := modifyAcc_effect i s.wM (fun v => (o v).r) (fun v p => setCNZ_kept p (o v)) rfl s
  exact ⟨_, _, _, h, ho, written_put s.wM s.a _, flagsNZ_of_eq hn hz, rfl, rfl,
    frame_of effect.only (by decide) (by decide)⟩

/-- Settles O29: each instruction is the write of its register, the shifts and rotates with the carry of the string of bits
they shift. -/
theorem registerModifyResult : Obligations.RegisterModifyResult := by
  refine ⟨encodings_of_map fun _ => rfl, fun s => ⟨?counts, fun i hi => ?shifts⟩⟩
  case counts =>
    exact ⟨writesRegister_a rfl, writesRegister_a rfl, writesRegister_x rfl, writesRegister_y rfl, writesRegister_x rfl,
      writesRegister_y rfl⟩
  case shifts =>
    simp only [List.mem_cons, List.not_mem_nil, or_false] at hi
    obtain rfl | rfl | rfl | rfl := hi
    · exact modifyAcc_shift (o := asl) rfl (shifted_asl _ _) rfl rfl
    · exact modifyAcc_shift (o := lsr) rfl (shifted_lsr _ _) rfl rfl
    · exact modifyAcc_shift (o := (rol · s.p.c)) rfl (shifted_rol _ _ _) rfl rfl
    · exact modifyAcc_shift (o := (ror · s.p.c)) rfl (shifted_ror _ _ _) rfl rfl

end Sys2Proof.Machine
end

section
/-! Branches (rules R270 to R280). -/

namespace Sys2Proof.Machine

/-- A sign-extended byte as a number modulo 65536. -/
theorem toNat_sext8 (b : Byte) :
    ((sext8 b).toNat : Int) = (if b.toNat < 0x80 then (b.toNat : Int) else b.toNat - 256) % 65536 := by
  have byte : b.toNat < 256 := b.isLt
  unfold sext8
  rw [BitVec.toNat_signExtend, BitVec.toNat_setWidth, BitVec.msb_eq_decide]
  by_cases positive : b.toNat < 0x80
  · rw [if_pos positive, if_neg (by simp; omega)]
    omega
  · rw [if_neg positive, if_pos (by simp; omega)]
    omega

theorem branch_pc (i : Instr) (taken : Bool) (rel : Byte) (s : State) :
    (branch i taken rel s).pc = if taken then relTarget rel s else nextPc2 s := rfl

/-- The target of a REL8 branch as a number (rule R270). -/
theorem toNat_relTarget (rel : Byte) (s : State) : ((relTarget rel s).toNat : Int) =
    (s.pc.toNat + 2 + (if rel.toNat < 0x80 then (rel.toNat : Int) else rel.toNat - 256)) % 65536 := by
  have displacement := toNat_sext8 rel
  unfold relTarget nextPc2
  rw [BitVec.toNat_add, BitVec.toNat_add]
  simp only [BitVec.reduceToNat]
  omega

/-- A REL8 branch on the condition `taken`. -/
theorem branches_of_branch {i : Instr} {taken : Bool} {rel : Byte} {cond : Prop} {s : State}
    (h : exec i s = .next (branch i taken rel s)) (hc : taken = true ↔ cond) : Branches i rel cond s := by
  refine ⟨_, h, frame_of (branch_effect i taken rel s).only (by decide) (by decide), fun holds => ?taken, fun fails => ?next⟩
  case taken => rw [branch_pc, if_pos (hc.mpr holds), toNat_relTarget]
  case next => rw [branch_pc, if_neg (mt hc.mp fails)]; exact BitVec.toNat_add s.pc 2

/-- Settles O31: the nine REL8 branches differ in their condition alone. -/
theorem branchResult : Obligations.BranchResult := by
  refine ⟨fun rel => encodings_of_map fun _ => rfl, fun s rel rel16 => ⟨?bcc, ?bcs, ?beq, ?bne, ?bmi, ?bpl, ?bvc, ?bvs, ?bra,
    _, rfl, ?target, ?frame⟩⟩
  case bcc | bne | bpl | bvc => exact branches_of_branch rfl (by simp)
  case bcs | beq | bmi | bvs => exact branches_of_branch rfl Iff.rfl
  case bra => exact branches_of_branch rfl (iff_of_true rfl trivial)
  case target =>
    rw [report_pc, relTarget16, BitVec.toNat_add, BitVec.toNat_add, Nat.mod_add_mod]
    rfl
  case frame => exact frame_of ((setPc_effect _ s).report _ _ s).only (by decide) (by decide)

end Sys2Proof.Machine
end

section
/-! Jumps (rules R150 to R152, R281, R282). -/

namespace Sys2Proof.Machine

/-- A jump through a pointer at offset `o` of bank `b` stays in the program bank. -/
theorem jmp_pointer {t : JumpTarget} {b : Byte} {o : Word} {s : State} (h : jumpTarget t s = readWordW b o s) :
    ∃ u, exec (.jmp t) s = .next u ∧ u.pc = (readWordW b o s).1 ∧ Frame [.pc, .cycles, .nmiFlag] s u ∧
      (Quiet s.cfg (addrOf b o) → Quiet s.cfg (addrOf b (o + 1)) →
        u.pc = wordOf (s.peek (addrOf b (o + 1))) (s.peek (addrOf b o)) ∧ u.nmiFlag = s.nmiFlag) := by
  have run : exec (.jmp t) s = .next (report (.jmp t) {} s { (readWordW b o s).2 with pc := (readWordW b o s).1 }) := by
    rw [← h]; rfl
  refine ⟨_, run, rfl, frame_of ((exec_effect run).within rfl).only (by decide) (by decide), fun h0 h1 => ?_⟩
  rw [readWordW_quiet h0 h1]
  exact ⟨rfl, rfl⟩

/-- Settles O32: the forms of JMP with a pointer differ in where it is; those of JML in how the 24-bit target is found. -/
theorem jumpResult : Obligations.JumpResult := by
  refine fun s a al => ⟨⟨_, rfl, rfl, ?abs⟩, jmp_pointer rfl, jmp_pointer rfl, ⟨_, rfl, rfl, rfl, ?long⟩,
    _, rfl, addrOf_bank_offset _, ?indLong, fun h0 h1 h2 => ?quiet⟩
  case abs => exact frame_of ((setPc_effect a s).report _ _ s).only (by decide) (by decide)
  case long => exact frame_of ((setPcBank_effect _ _ s).report _ _ s).only (by decide) (by decide)
  case indLong =>
    exact frame_of ((exec_effect (i := .jml (.indLong a)) rfl).within rfl).only (by decide) (by decide)
  case quiet =>
    simp only [longTarget, readLongW_quiet h0 h1 h2]
    exact ⟨offsetOf_addrOf _ _, bankOf_addrOf _ _, rfl⟩

end Sys2Proof.Machine
end

section
/-! Calls (rules R283, R284). -/

namespace Sys2Proof.Machine

theorem pageFixed_congr {s t : State} (h : t.e = s.e) (v : Word) : pageFixed t v = pageFixed s v := by
  simp only [pageFixed, h]

/-- Restoring the page after any change of the stack pointer (rule R304). -/
theorem fixSH_sp_of {s u : State} {v : Word} (he : u.e = s.e) (hs : u.sp = v) : (fixSH u).sp = pageFixed s v := by
  rw [fixSH_pageFixed, pageFixed_congr he, hs]

/-- What has been stored, and the frame, where the bytes `b` have been pushed and what comes after the pushes leaves the
stored bytes, the channels and the cartridge alone. -/
theorem stores_of_pushed {b : List (Addr × Byte)} {x : Word} {l m : List Part} {s w t : State}
    (pushed : w = { writeAll b s with sp := x }) (after : Effect m w t)
    (hm : [Part.mem, .ch, .cart, .cfg].all (fun p => !m.contains p) = true)
    (hl : (Part.sp :: m).all ((.mem :: .ch :: .cart :: l).contains ·) = true) (hc : Part.cfg ∉ l) :
    StoredBytes b s t ∧ StoreFrame l (b.map Prod.fst) s t := by
  subst pushed
  have out : ∀ p ∈ [Part.mem, .ch, .cart, .cfg], p ∉ m := fun p hp => by simpa using List.all_eq_true.mp hm p hp
  have mem : t.mem = (writeAll b s).mem := after.only .mem (out _ (by decide))
  have ch : t.ch = (writeAll b s).ch := after.only .ch (out _ (by decide))
  have cart : t.cart = (writeAll b s).cart := after.only .cart (out _ (by decide))
  have only : Effect (.mem :: .ch :: .cart :: l) s t :=
    (((writeAll_effect b s).then (setSp_effect x _)).then after).within (by simpa using hl)
  exact ⟨storedBytes_of mem ch cart only.bus.cfg, storeFrame_of hc only.only mem ch cart⟩

/-- What JSL pushes: the program bank, then the address of its last byte. -/
theorem push16N_push8N (v : Word) (b : Byte) (s : State) : push16N v (push8N b s) =
    { writeAll ((newSlot s 0, b) :: newWord s 1 v) s with sp := s.sp - 3 } := by
  rw [push8N_eq]
  exact push16N_after [(newSlot s 0, b)] 1 v s

/-- Settles O33: each call is its pushes, and after them changes of registers and for `(a,X)` the reads of the pointer. -/
theorem callResult : Obligations.CallResult := by
  refine fun s a al => ⟨⟨_, rfl, rfl, ?sp, ?abs⟩, ⟨_, rfl, ?target, ?spX, ?indX⟩, _, rfl, ?offset, ?bank, ?spL, ?long⟩
  case sp => exact congrArg State.sp (push16_eq (s.pc + 2) s)
  case abs => exact stores_of_pushed (push16_eq _ s) ((setPc_effect a _).report _ _ s) rfl rfl (by decide)
  case target => simp [call]
  case spX => exact fixSH_sp_of (by simp) (by simp [push16N_eq])
  case indX =>
    exact stores_of_pushed (push16N_eq _ s)
      ((((readWordW_effect _ _ _).then (setPc_effect _ _)).then (fixSH_effect _)).report _ _ s) rfl rfl (by decide)
  case offset => simp
  case bank => simp
  case spL => exact fixSH_sp_of (by simp) (by simp [push16N_push8N])
  case long =>
    exact stores_of_pushed (push16N_push8N _ _ s) (((setPcBank_effect _ _ _).then (fixSH_effect _)).report _ _ s) rfl rfl
      (by decide)

end Sys2Proof.Machine
end

section
/-! Returns (rules R285, R286). -/

namespace Sys2Proof.Machine

/-- A bus access does not see the program counter. -/
theorem busRead_setPc (a : Addr) (s : State) (x : Word) :
    busRead a { s with pc := x } = ((busRead a s).1, { (busRead a s).2 with pc := x }) := by
  unfold busRead
  split
  case h_2 => show (if s.cfg.ppuExternal then _ else _) = _; split <;> rfl
  case h_3 => split <;> rfl
  all_goals rfl

theorem pull8N_setPc (s : State) (x : Word) :
    pull8N { s with pc := x } = ((pull8N s).1, { (pull8N s).2 with pc := x }) :=
  busRead_setPc _ { s with sp := s.sp + 1 } x

/-- The state RTL ends in: three bytes pulled, then the program counter, its bank and the page of the stack (rule R286). -/
def rtlEnd (s : State) : State :=
  let bank := pull8N (pull16N s).2
  report .rtl {} s (fixSH { bank.2 with pc := (pull16N s).1 + 1, pbr := bank.1 })

theorem exec_rtl (s : State) : exec .rtl s = .next (rtlEnd s) := by
  show execRtl s = _
  unfold execRtl
  simp only [pull8N_setPc]
  rfl

@[simp] theorem rtlEnd_pc (s : State) : (rtlEnd s).pc = (pull16N s).1 + 1 := by simp [rtlEnd]
@[simp] theorem rtlEnd_pbr (s : State) : (rtlEnd s).pbr = (pull8N (pull16N s).2).1 := by simp [rtlEnd]
@[simp] theorem rtlEnd_nmiFlag (s : State) : (rtlEnd s).nmiFlag = (pull8N (pull16N s).2).2.nmiFlag := by simp [rtlEnd]

theorem rtlEnd_sp (s : State) : (rtlEnd s).sp = pageFixed s (s.sp + 3) := by
  refine fixSH_sp_of (by simp) ?_
  show (pull8N (pull16N s).2).2.sp = s.sp + 3
  rw [pull8N_sp, pull16N_sp, BitVec.add_assoc, BitVec.add_assoc]
  rfl

/-- Settles O34: the program counter and the bank are the pulls of the instruction, and the values pulled from quiet
addresses are what inspection reads there. -/
theorem returnResult : Obligations.ReturnResult := by
  refine ⟨encodings_of_map fun _ => rfl, fun s => ⟨⟨_, rfl, rfl, pull16_sp_legacyUp s, ?rts, fun h1 h2 => ?value⟩,
    _, exec_rtl s, rtlEnd_pc s, rtlEnd_pbr s, rtlEnd_sp s, ?rtl, fun h1 h2 h3 => ?values⟩⟩
  case rts => exact frame_of ((exec_effect (i := .rts) rfl).within rfl).only (by decide) (by decide)
  case value =>
    rw [pull16_top s h1 h2]
    exact ⟨rfl, rfl⟩
  case rtl => exact frame_of ((exec_effect (exec_rtl s)).within rfl).only (by decide) (by decide)
  case values =>
    have bank : pull8N { s with sp := s.sp + 2 } = _ := pull8N_after s 2 h3
    rw [rtlEnd_pc, rtlEnd_pbr, rtlEnd_nmiFlag, pull16N_top s h1 h2, bank]
    exact ⟨rfl, rfl, rfl⟩

end Sys2Proof.Machine
end

section
/-! Returns from calls (rules R283 to R286): the return finds at the top of the stack what the call pushed. -/

namespace Sys2Proof.Machine

/-- `k` legacy pulls up from where `j + k` pushes have left the stack pointer (rules R300, R301). -/
theorem legacyUp_of_down {s t : State} {j k : Nat} (he : t.e = s.e) (hs : t.sp = legacyDown s (j + k)) :
    legacyUp t k = legacyDown s j := by
  unfold legacyUp legacyDown at *
  rw [he, hs]
  cases s.e <;> simp [BitVec.ofNat_add, ← BitVec.sub_sub]

/-- The same for the 16-bit stack pointer (rules R302, R303). -/
theorem newTop_of_sub {s t : State} {j k : Nat} (hs : t.sp = s.sp - BitVec.ofNat 16 (j + k)) : newTop t k = newSlot s j := by
  rw [newTop, newSlot, hs]
  simp [BitVec.ofNat_add, ← BitVec.sub_sub]

/-- Restoring the page changes nothing where the stack pointer is in page 1 (rule R304). -/
theorem pageFixed_eq {s : State} {v : Word} (h : s.e = true → highByte v = 0x01) : pageFixed s v = v := by
  unfold pageFixed
  split
  case isTrue emulation => rw [← h emulation, wordOf_high_low]
  case isFalse => rfl

/-- Three bytes further down in the same page. -/
theorem highByte_sub_three {v : Word} (h : 3 ≤ (lowByte v).toNat) : highByte (v - 3) = highByte v := by
  rw [toNat_lowByte] at h
  apply BitVec.eq_of_toNat_eq
  rw [toNat_highByte, toNat_highByte, BitVec.toNat_sub]
  simp only [BitVec.reduceToNat]
  have := v.isLt
  omega

/-- Bytes stored in distinct bytes of RAM are what inspection reads there. -/
theorem peek_stored {l : List (Addr × Byte)} {s t : State} (h : StoredBytes l s t) (hw : MemoryInv s)
    (ram : ∀ p ∈ l, InWram p.1) (distinct : l.Pairwise fun p q => ¬ SameByte s.cfg p.1 q.1) :
    ∀ p ∈ l, t.peek p.1 = p.2 :=
  h.2 hw (fun p hp => stores_of_wram (ram p hp)) distinct

/-- The bytes of a legacy push of a word in RAM. -/
theorem peek_legacyWord {s t : State} {v : Word} (h : StoredBytes (legacyWord s 0 v) s t) (hw : MemoryInv s)
    (ram : ∀ k, k < 2 → InWram (legacySlot s k)) (distinct : ¬ SameByte s.cfg (legacySlot s 0) (legacySlot s 1)) :
    t.peek (legacySlot s 0) = highByte v ∧ t.peek (legacySlot s 1) = lowByte v := by
  have bytes := peek_stored h hw (by simpa [legacyWord] using ⟨ram 0 (by decide), ram 1 (by decide)⟩)
    (by simpa [legacyWord] using distinct)
  exact ⟨bytes _ (.head _), bytes _ (.tail _ (.head _))⟩

/-- The bytes of a new-style push of a byte and then a word in RAM. -/
theorem peek_newByteWord {s t : State} {b : Byte} {v : Word} (h : StoredBytes ((newSlot s 0, b) :: newWord s 1 v) s t)
    (hw : MemoryInv s) (ram : ∀ k, k < 3 → InWram (newSlot s k))
    (distinct : ∀ j k, j < k → k < 3 → ¬ SameByte s.cfg (newSlot s j) (newSlot s k)) :
    t.peek (newSlot s 0) = b ∧ t.peek (newSlot s 1) = highByte v ∧ t.peek (newSlot s 2) = lowByte v := by
  have bytes := peek_stored h hw
    (by simpa [newWord] using ⟨ram 0 (by decide), ram 1 (by decide), ram 2 (by decide)⟩)
    (by simpa [newWord] using ⟨⟨distinct 0 1 (by decide) (by decide), distinct 0 2 (by decide) (by decide)⟩,
      distinct 1 2 (by decide) (by decide)⟩)
  exact ⟨bytes _ (.head _), bytes _ (.tail _ (.head _)), bytes _ (.tail _ (.tail _ (.head _)))⟩

/-- RTS after JSR (rules R283, R285). -/
theorem rts_after_jsr {s : State} (a : Word) (inv : Inv s) (ram : ∀ k, k < 2 → InWram (legacySlot s k))
    (distinct : ¬ SameByte s.cfg (legacySlot s 0) (legacySlot s 1)) :
    ∃ t u, exec (.jsr (.abs a)) s = .next t ∧ exec .rts t = .next u ∧ u.pc = s.pc + 3 ∧ u.pbr = s.pbr ∧ u.sp = s.sp := by
  obtain ⟨t, call, _, down, stored, ⟨called, _⟩⟩ := (callResult s a 0).1
  obtain ⟨u, ret, _, up, ⟨returned, _⟩, value⟩ := (returnResult.2 t).1
  have e : t.e = s.e := called .e (by decide)
  have low : legacyTop t 1 = legacySlot s 1 := congrArg (addrOf 0x00) (legacyUp_of_down (j := 1) (k := 1) e down)
  have bottom : legacyUp t 2 = legacyDown s 0 := legacyUp_of_down (j := 0) (k := 2) e down
  have high : legacyTop t 2 = legacySlot s 0 := congrArg (addrOf 0x00) bottom
  obtain ⟨highRead, lowRead⟩ := peek_legacyWord stored inv.memory ram distinct
  rw [low, high, lowRead, highRead, wordOf_high_low] at value
  obtain ⟨pc, _⟩ := value (quiet_of_wram (ram 1 (by decide))) (quiet_of_wram (ram 0 (by decide)))
  refine ⟨t, u, call, ret, ?pc, ?bank, ?sp⟩
  case pc => rw [pc, BitVec.add_assoc]; rfl
  case bank => exact (returned .pbr (by decide)).trans (called .pbr (by decide))
  case sp => rw [up, bottom, legacyDown_zero]

/-- RTL after JSL (rules R284, R286), where restoring the page moves the stack pointer neither before nor after. -/
theorem rtl_after_jsl {s : State} (al : Addr) (inv : Inv s) (ram : ∀ k, k < 3 → InWram (newSlot s k))
    (room : s.e = false ∨ 3 ≤ (lowByte s.sp).toNat)
    (distinct : ∀ j k, j < k → k < 3 → ¬ SameByte s.cfg (newSlot s j) (newSlot s k)) :
    ∃ t u, exec (.jsl al) s = .next t ∧ exec .rtl t = .next u ∧ u.pc = s.pc + 4 ∧ u.pbr = s.pbr ∧ u.sp = s.sp := by
  obtain ⟨t, call, _, _, down, stored, ⟨called, _⟩⟩ := (callResult s 0 al).2.2
  obtain ⟨u, ret, _, _, up, _, value⟩ := (returnResult.2 t).2
  have page : s.e = true → highByte s.sp = 0x01 := fun emulation => (inv.emulation emulation).2.2
  have sp : t.sp = s.sp - 3 := by
    rw [down]
    refine pageFixed_eq fun emulation => ?_
    rw [highByte_sub_three (room.resolve_left (by simp [emulation])), page emulation]
  have low : newTop t 1 = newSlot s 2 := newTop_of_sub (j := 2) (k := 1) sp
  have high : newTop t 2 = newSlot s 1 := newTop_of_sub (j := 1) (k := 2) sp
  have bank : newTop t 3 = newSlot s 0 := newTop_of_sub (j := 0) (k := 3) sp
  obtain ⟨bankRead, highRead, lowRead⟩ := peek_newByteWord stored inv.memory ram distinct
  rw [low, high, bank, lowRead, highRead, bankRead, wordOf_high_low] at value
  obtain ⟨pc, pbr, _⟩ := value (quiet_of_wram (ram 2 (by decide))) (quiet_of_wram (ram 1 (by decide)))
    (quiet_of_wram (ram 0 (by decide)))
  refine ⟨t, u, call, ret, ?pc, pbr, ?sp⟩
  case pc => rw [pc, BitVec.add_assoc]; rfl
  case sp => rw [up, sp, BitVec.sub_add_cancel, pageFixed_congr (called .e (by decide)), pageFixed_eq page]

/-- Settles O35: what the call pushes is what the return pulls, so the two halves follow from `callResult` and
`returnResult`. -/
theorem callsReturn : Obligations.CallsReturn := fun _ a al inv => ⟨rts_after_jsr a inv, rtl_after_jsl al inv⟩

end Sys2Proof.Machine
end

section
/-! Pushes (rules R300, R302, R304 to R311, R318 to R320): each is the writes of its bytes and, after a new-style push, the
page of the stack restored. -/

namespace Sys2Proof.Machine

/-- A push instruction that has written the bytes `b`, and after them changes at most the stack pointer. -/
theorem pushes_of_pushed {i : Instr} {b : List (Addr × Byte)} {x sp : Word} {s w u : State}
    (run : exec i s = .next (finish i {} s u)) (pushed : w = { writeAll b s with sp := x }) (after : Effect [.sp] w u)
    (hsp : u.sp = sp) : Pushes i b sp s := by
  obtain ⟨stored, frame⟩ := stores_of_pushed (l := [.sp, .pc, .cycles]) pushed (after.finish i {} s) rfl rfl (by decide)
  exact ⟨_, run, hsp, stored, rfl, frame⟩

section
variable {i : Instr} {s : State}

theorem pushes_byte {v : Byte} (run : exec i s = .next (finish i {} s (push8 v s))) :
    Pushes i [(legacySlot s 0, v)] (legacyDown s 1) s :=
  pushes_of_pushed run (push8_eq v s) (.refl _ _) (congrArg State.sp (push8_eq v s))

theorem pushes_word {v : Word} (run : exec i s = .next (finish i {} s (push16 v s))) :
    Pushes i (legacyWord s 0 v) (legacyDown s 2) s :=
  pushes_of_pushed run (push16_eq v s) (.refl _ _) (congrArg State.sp (push16_eq v s))

/-- A register pushed at its current width (rules R305 to R307), where that is 8 bits. -/
theorem pushes_narrow {W : Width} {reg : Word} (run : exec i s = .next (finish i {} s (pushW W (W.take reg) s)))
    (narrow : W = .w8) : Pushes i [(legacySlot s 0, lowByte reg)] (legacyDown s 1) s := by
  subst narrow
  exact pushes_byte run

/-- A register pushed at its current width, where that is 16 bits. -/
theorem pushes_wide {W : Width} {reg : Word} (run : exec i s = .next (finish i {} s (pushW W (W.take reg) s)))
    (wide : W = .w16) : Pushes i (legacyWord s 0 reg) (legacyDown s 2) s := by
  subst wide
  exact pushes_word run

/-- A new-style push of a word (rules R302, R304). -/
theorem pushes_newWord {v : Word} (run : exec i s = .next (finish i {} s (fixSH (push16N v s)))) :
    Pushes i (newWord s 0 v) (pageFixed s (s.sp - 2)) s :=
  pushes_of_pushed run (push16N_eq v s) (fixSH_effect _) (fixSH_sp_of (by simp) (by rw [push16N_eq]))

end

/-- Bits 5 and 4 of the status byte are M and X (rule R28). -/
theorem byte_and_widthBits {p : Status} (m : p.m = true) (x : p.x = true) : p.byte &&& 0x30 = 0x30 := by
  obtain ⟨n, v, _, _, d, i, z, c⟩ := p
  subst m x
  decide +revert

/-- Settles O36: each push is its bytes through the bus; the widths decide how many. -/
theorem legacyPushResult : Obligations.LegacyPushResult := by
  refine ⟨encodings_of_map fun _ => rfl, fun s => ⟨pushes_byte rfl, pushes_byte rfl, pushes_byte rfl, ?emulation,
    pushes_narrow rfl, pushes_wide rfl, fun narrow => ⟨pushes_narrow rfl narrow, pushes_narrow rfl narrow⟩,
    fun wide => ⟨pushes_wide rfl wide, pushes_wide rfl wide⟩⟩⟩
  intro inv emulation
  obtain ⟨m, x, _⟩ := inv emulation
  exact byte_and_widthBits m x

/-- PEI pushes the word it has read, whatever the read has changed (rule R319). -/
theorem pei_result (d : Byte) (s : State) : ∃ t, exec (.pei d) s = .next t ∧ t.sp = pageFixed s (s.sp - 2) ∧
    Advances (.pei d) s t ∧ StoreFrame [.sp, .pc, .cycles, .nmiFlag] [newSlot s 0, newSlot s 1] s t := by
  have slots : ∀ v, newWord (dpPointer d.toNat false s).2 0 v = newWord s 0 v := by simp [newWord, newSlot]
  have pushed : ∀ v, push16N v (dpPointer d.toNat false s).2 =
      { writeAll (newWord s 0 v) (dpPointer d.toNat false s).2 with sp := s.sp - 2 } := by
    intro v
    rw [push16N_eq, slots, dpPointer_sp]
  obtain ⟨mem, ch, cart⟩ := writeAll_congr (newWord s 0 (dpPointer d.toNat false s).1) (s := s)
    (t := (dpPointer d.toNat false s).2) (by simp) (by simp) (by simp) (by simp)
  refine ⟨_, rfl, fixSH_sp_of (by simp) (by rw [pushed]), rfl,
    storeFrame_of (b := newWord s 0 (dpPointer d.toNat false s).1) (by decide) ((exec_effect (i := .pei d) rfl).within rfl).only
      ?mem ?ch ?cart⟩
  case mem => simp [pushed, mem]
  case ch => simp [pushed, ch]
  case cart => simp [pushed, cart]

/-- Settles O37: the four differ in the word alone, and PEI reads it first. -/
theorem newPushResult : Obligations.NewPushResult := by
  refine fun s v d => ⟨encodings_of_map fun _ => rfl, pushes_newWord rfl, pushes_newWord rfl, pushes_newWord rfl,
    pei_result d s, fun low high => pushes_newWord ?_⟩
  show execPei d s = _
  rw [execPei, dpPointer_quiet low high]

end Sys2Proof.Machine
end

section
/-! Pulls (rules R301, R303, R304, R312 to R317): the value pulled goes to a register, and N and Z follow it. -/

namespace Sys2Proof.Machine

/-- Where a legacy pull of width `W` leaves the stack pointer. -/
theorem pullW_sp_legacyUp (W : Width) (s : State) : (pullW W s).2.sp = legacyUp s (if W = .w8 then 1 else 2) := by
  cases W
  · exact pull8_sp_legacyUp s
  · exact pull16_sp_legacyUp s

/-- A legacy pull of width `W` from quiet addresses. -/
theorem pullW_top {W : Width} {s : State} (low : Quiet s.cfg (legacyTop s 1))
    (high : W = .w16 → Quiet s.cfg (legacyTop s 2)) :
    (pullW W s).1 = W.ofBytes (s.peek (legacyTop s 1)) (s.peek (legacyTop s 2)) ∧
      (pullW W s).2.nmiFlag = s.nmiFlag := by
  cases W
  · rw [pullW, pull8_top s low, Width.ofBytes_w8]
    exact ⟨rfl, rfl⟩
  · rw [pullW, pull16_top s low (high rfl), Width.ofBytes_w16]
    exact ⟨rfl, rfl⟩

/-- Restoring the page and setting N and Z are independent. -/
theorem fixSH_setNZ {w : Nat} (v : BitVec w) (s : State) : fixSH (s.setNZ v) = (fixSH s).setNZ v := by
  show (if s.e then _ else _) = (if s.e then _ else s).setNZ v
  split <;> rfl

/-- The end of a pull: from what has been pulled, `u` writes the register and may restore the stack's page. -/
theorem pullEnd_frame {w : Nat} {i : Instr} {part : Part} {v : BitVec w} {s r u : State} (pulled : Effect [.sp, .nmiFlag] s r)
    (write : Effect [part, .sp] r u) (hpart : part ∉ [.mem, .cfg]) :
    Frame [part, .flagN, .flagZ, .sp, .pc, .cycles, .nmiFlag] s (resultEnd i {} s u v) := by
  obtain ⟨mem, cfg⟩ : .mem ≠ part ∧ .cfg ≠ part := by simpa [eq_comm] using hpart
  exact frame_of ((resultEnd_effect (pulled.then write) i {} v).only.mono (by simp)) (by simpa using mem) (by simpa using cfg)

/-- Shape of a pull: the register is written in the state the pull leaves. -/
theorem pulls_of_effect {i : Instr} {W : Width} {reg : State → Word} {part : Part} {v : BitVec W.bits × State}
    {a1 a2 : Addr} {sp : Word} {s u : State} (run : exec i s = .next (resultEnd i {} s u v.1))
    (pulled : Effect [.sp, .nmiFlag] s v.2) (write : Effect [part, .sp] v.2 u) (hpart : part ∉ [.mem, .cfg, .nmiFlag])
    (hsp : u.sp = sp) (written : Written W (reg s) (reg (resultEnd i {} s u v.1)) v.1)
    (quiet : Quiet s.cfg a1 → (W = .w16 → Quiet s.cfg a2) →
      v.1 = W.ofBytes (s.peek a1) (s.peek a2) ∧ v.2.nmiFlag = s.nmiFlag) :
    Pulls i W reg part v a1 a2 sp s := by
  obtain ⟨mem, cfg, nmiFlag⟩ : .mem ≠ part ∧ .cfg ≠ part ∧ .nmiFlag ≠ part := by simpa [eq_comm] using hpart
  have flag : u.nmiFlag = v.2.nmiFlag := write.only .nmiFlag (by simpa using nmiFlag)
  exact ⟨_, run, hsp, written, resultEnd_flagsNZ _ _ _ _ _, rfl, flag,
    pullEnd_frame pulled write (by simp [mem.symm, cfg.symm]), quiet⟩

/-- PLB: the data bank is the byte pulled (rule R316). -/
theorem plb_result (s : State) : ∃ t, exec .plb s = .next t ∧ t.dbr = (pull8N s).1 ∧ t.sp = pageFixed s (s.sp + 1) ∧
    FlagsNZ t.dbr t ∧ Advances .plb s t ∧ Frame [.dbr, .flagN, .flagZ, .sp, .pc, .cycles, .nmiFlag] s t ∧
    (Quiet s.cfg (newTop s 1) → t.dbr = s.peek (newTop s 1) ∧ t.nmiFlag = s.nmiFlag) := by
  have run : exec .plb s = .next (resultEnd .plb {} s (fixSH { (pull8N s).2 with dbr := (pull8N s).1 }) (pull8N s).1) :=
    congrArg (fun u => Host.Outcome.next (finish .plb {} s u)) (fixSH_setNZ _ _)
  have bank : (fixSH { (pull8N s).2 with dbr := (pull8N s).1 }).dbr = (pull8N s).1 := by simp
  refine ⟨_, run, bank, fixSH_sp_of (by simp) pull8N_sp, ?flags, rfl,
    pullEnd_frame (pull8N_effect s) ((setDbr_effect _ _).then (fixSH_effect _)) (by decide), fun quiet => ⟨bank.trans ?byte, ?flag⟩⟩
  case flags => exact bank.symm ▸ resultEnd_flagsNZ _ _ _ _ _
  case byte => rw [pull8N_top s quiet]
  case flag => simp [resultEnd, State.setNZ, pull8N_top s quiet]

/-- Settles O38: the pulls differ in the register and in how its value is pulled. -/
theorem pullResult : Obligations.PullResult := by
  refine ⟨encodings_of_map fun _ => rfl, fun s => ⟨?pla, ?plx, ?ply, ?pld, plb_result s⟩⟩
  case pla =>
    exact pulls_of_effect rfl (pullW_effect _ s) ((setAcc_effect _ _ _).within rfl) (by decide) (pullW_sp_legacyUp _ s)
      (written_put_of_eq (pullW_a _ _) _ _) pullW_top
  case plx =>
    exact pulls_of_effect rfl (pullW_effect _ s) ((setX_effect _ _ _).within rfl) (by decide) (pullW_sp_legacyUp _ s)
      (written_put_of_eq (pullW_x _ _) _ _) pullW_top
  case ply =>
    exact pulls_of_effect rfl (pullW_effect _ s) ((setY_effect _ _ _).within rfl) (by decide) (pullW_sp_legacyUp _ s)
      (written_put_of_eq (pullW_y _ _) _ _) pullW_top
  case pld =>
    have run : exec .pld s = .next (resultEnd .pld {} s (fixSH { (pull16N s).2 with d := (pull16N s).1 }) (pull16N s).1) :=
      congrArg (fun u => Host.Outcome.next (finish .pld {} s u)) (fixSH_setNZ _ _)
    refine pulls_of_effect run (pull16N_effect s) ((setD_effect _ _).then (fixSH_effect _)) (by decide)
      (fixSH_sp_of (by simp) ?sp) ?written fun low high => ?word
    case sp => exact pull16N_sp.trans (BitVec.add_assoc _ _ _)
    case written => exact fixSH_d _
    case word =>
      rw [pull16N_top s low (high rfl), Width.ofBytes_w16]
      exact ⟨rfl, rfl⟩

end Sys2Proof.Machine
end

section
/-! The instructions on one flag, and those that only advance (rules R321 to R327, R331, R332). -/

namespace Sys2Proof.Machine

theorem setsFlag_of_setFlags {i : Instr} {flag : Status → Bool} {part : Part} {v : Bool} {q : Status} {s : State}
    (run : exec i s = .next (setFlags i q s)) (value : flag q = v) (parts : i.parts = [part, .pc, .cycles])
    (hpart : part ∉ [.mem, .cfg]) : SetsFlag i flag part v s := by
  obtain ⟨mem, cfg⟩ : .mem ≠ part ∧ .cfg ≠ part := by simpa [eq_comm] using hpart
  exact ⟨_, run, value, rfl, frame_of (parts ▸ (exec_effect run).only) (by simpa using mem) (by simpa using cfg)⟩

/-- Settles O41: each flag instruction writes its flag in the status it starts with. -/
theorem flagAndNopResult : Obligations.FlagAndNopResult := by
  refine ⟨encodings_of_map fun _ => rfl, fun s b => ⟨?clc, ?sec, ?cli, ?sei, ?cld, ?sed, ?clv, ⟨_, rfl, rfl, ?nop⟩,
    _, rfl, rfl, ?wdm⟩⟩
  case nop => exact frame_of (exec_effect (i := .nop) rfl).only (by decide) (by decide)
  case wdm => exact frame_of (exec_effect (i := .wdm b) rfl).only (by decide) (by decide)
  all_goals exact setsFlag_of_setFlags rfl rfl rfl (by decide)

end Sys2Proof.Machine
end

section
/-! STP, WAI and the idle tick, and what ends a wait (rules R333, R334, R381, R421, R426, R445). -/

namespace Sys2Proof.Machine

/-- The PPU device of a machine that has one is told an instruction's cycles (rule R384). -/
theorem finish_tellsPpu {s u : State} (i : Instr) (cfg : u.cfg = s.cfg) (ppu : u.ppuExt = s.ppuExt) (cycles : u.cycles = s.cycles)
    (external : s.cfg.ppuExternal = true) :
    (finish i {} s u).ppuExt = Config.ppuTick s.ppuExt ((finish i {} s u).cycles - s.cycles) := by
  simp [cfg, ppu, cycles, external]

/-- Settles O42: the tick of a processor that is stopped, or waits and is not woken, is an idle step. -/
theorem stopAndWait : Obligations.StopAndWait := by
  refine ⟨fun s => ⟨⟨_, rfl, rfl, rfl, ?stp, finish_tellsPpu .stp rfl rfl rfl⟩, _, rfl, rfl, rfl, ?wai,
    finish_tellsPpu .wai rfl rfl rfl⟩, fun s fatal reset dma idles => ⟨_, step_idle fatal reset dma idles, rfl, rfl, rfl, rfl,
      fun external => if_pos external, ?idle⟩⟩
  case stp => exact frame_of (exec_effect (i := .stp) rfl).only (by decide) (by decide)
  case wai => exact frame_of (exec_effect (i := .wai) rfl).only (by decide) (by decide)
  case idle =>
    exact ((latched_changesOnly s).mono (by decide)).trans ((spend_changesOnly _ _).mono (by decide)) (by decide)

/-- Settles O52: the processor's work begins in a state that waits no longer, whether the tick has found it waiting or not. -/
theorem interruptConditionEndsWait : Obligations.InterruptConditionEndsWait := by
  intro s core _ condition
  have woken : step s = processorWork s.env.irqLine s.awake := step_core core fun _ => condition
  have running : step { s with waiting := false } = processorWork s.env.irqLine s.awake :=
    step_core (s := { s with waiting := false }) core fun waits => by cases waits
  refine ⟨woken.trans running.symm, fun pending edge masked still => ?_⟩
  have noNmi : s.awake.nmiPending = false := by simp [awake_of_noNmi pending edge, pending]
  rw [woken, processorWork_instruction noNmi (fun _ => masked) still, awake_of_noNmi pending edge]

end Sys2Proof.Machine
end

section
/-! Block moves (rules R335 to R337): one step moves one byte and takes one from the count, whatever came before it in the
tick. -/

namespace Sys2Proof.Machine

/-! One step. -/

/-- What is behind the bus, and the parameters, are the same in two states. -/
def SameBehindBus (s t : State) : Prop := t.mem = s.mem ∧ t.ch = s.ch ∧ t.cart = s.cart ∧ t.cfg = s.cfg

/-- What a step from `u` stores, and its frame, for a state `s` before it and a state `t` after it that differ from those of
the step in nothing behind the bus. -/
theorem stores_of_moved {l : List Part} {s u t : State} (only : ChangesOnly (.mem :: .ch :: .cart :: l) s t)
    (before : SameBehindBus s u) (after : SameBehindBus (moveStep u) t) (hc : Part.cfg ∉ l) :
    (Quiet s.cfg (addrOf u.mv.src u.x) →
      StoredBytes [(addrOf u.mv.dst u.y, s.peek (addrOf u.mv.src u.x))] s t) ∧
    StoreFrame l [addrOf u.mv.dst u.y] s t := by
  obtain ⟨memBefore, chBefore, cartBefore, cfgBefore⟩ := before
  obtain ⟨memAfter, chAfter, cartAfter, _⟩ := after
  obtain ⟨mem, ch, cart⟩ := moveStep_writes u
  obtain ⟨memEq, chEq, cartEq⟩ := writeAll_congr [(addrOf u.mv.dst u.y, (busRead (addrOf u.mv.src u.x) u).1)] memBefore
    chBefore cartBefore cfgBefore
  have memOf := memAfter.trans (mem.trans memEq)
  have chOf := chAfter.trans (ch.trans chEq)
  have cartOf := cartAfter.trans (cart.trans cartEq)
  refine ⟨fun quiet => ?_, storeFrame_of hc only memOf chOf cartOf⟩
  have byte : (busRead (addrOf u.mv.src u.x) u).1 = s.peek (addrOf u.mv.src u.x) := by
    rw [busRead_quiet (cfgBefore.symm ▸ quiet)]
    exact peek_congr quiet memBefore cfgBefore
  rw [← byte]
  exact storedBytes_of memOf chOf cartOf (only .cfg (by simpa using hc))

/-- The count passes zero where it is zero (rule R337). -/
theorem count_passes_zero_iff (a : Word) : a - 1 = 0xFFFF ↔ a = 0 := by
  rw [BitVec.sub_eq_iff_eq_add]
  rfl

theorem moveStep_moving_iff {s : State} (h : s.moving = true) : (moveStep s).moving = true ↔ s.a ≠ 0 := by
  rw [moveStep_moving, h, Bool.true_and, bne_iff_ne, Ne, count_passes_zero_iff]

theorem moveStep_pc_eq (s : State) : (moveStep s).pc = if s.a = 0 then s.pc + 3 else s.pc := by
  simp only [moveStep_pc, count_passes_zero_iff]

theorem moveStep_frame (s : State) :
    StoreFrame [.a, .x, .y, .moving, .pc, .nmiFlag] [addrOf s.mv.dst s.y] s (moveStep s) :=
  (stores_of_moved (moveStep_changesOnly s) ⟨rfl, rfl, rfl, rfl⟩ ⟨rfl, rfl, rfl, rfl⟩ (by decide)).2

theorem moveStep_movesOneByte {s : State} (h : s.moving = true) : MovesOneByte s (moveStep s) := by
  refine ⟨moveStep_a, moveStep_moving_iff h, moveStep_pc_eq s, ?index,
    (stores_of_moved (moveStep_changesOnly s) ⟨rfl, rfl, rfl, rfl⟩ ⟨rfl, rfl, rfl, rfl⟩ (by decide)).1⟩
  rw [moveStep_x, moveStep_y]
  cases s.mv.dir
  · exact ⟨written_put _ _ _, written_put _ _ _⟩
  · exact ⟨written_put _ _ _, written_put _ _ _⟩

/-! Its cycles. -/

theorem moveCycles_eq (s : State) : moveCycles s = moveOpcodeCycles s.cfg s.mv.dir := by
  unfold moveCycles moveOpcodeCycles
  cases s.mv.dir <;> rfl

theorem moveOpcodeCycles_default {cfg : Cfg} (h : cfg.baseCycles = none) (dir : MoveDir) : moveOpcodeCycles cfg dir = 7 := by
  cases dir <;> simp [moveOpcodeCycles, baseCycles, h, baseCyclesTable]

/-! The first byte, in the tick of the instruction. -/

/-- The state in which a move's first step is made: the latch and the data bank written (rules R335, R336). -/
def State.moveLatched (dir : MoveDir) (dst src : Byte) (s : State) : State :=
  { s with mv := { src := src, dst := dst, dir := dir }, moving := true, dbr := dst }

theorem startMove_eq (dir : MoveDir) (dst src : Byte) (s : State) : startMove dir dst src s =
    spend (moveOpcodeCycles s.cfg dir) (moveStep (s.moveLatched dir dst src)) :=
  congrArg (spend · _) (moveCycles_eq (s.moveLatched dir dst src))

theorem startMove_cycles (dir : MoveDir) (dst src : Byte) (s : State) :
    (startMove dir dst src s).cycles = s.cycles + moveOpcodeCycles s.cfg dir := by
  rw [startMove_eq, spend_cycles, moveStep_cycles]
  rfl

/-- Settles O43: the instruction is the latch and then one step. -/
theorem blockMoveStarts : Obligations.BlockMoveStarts := by
  intro s dst src dir i
  have run : exec i s = .next (startMove dir dst src s) := by cases dir <;> rfl
  have parts : i.parts = [.mem, .ch, .cart, .a, .x, .y, .dbr, .mv, .moving, .pc, .cycles, .nmiFlag] := by cases dir <;> rfl
  have only := parts ▸ (exec_effect run).only
  obtain ⟨a, moving, pc, index, _⟩ := moveStep_movesOneByte (s := s.moveLatched dir dst src) rfl
  obtain ⟨stored, frame⟩ := stores_of_moved (u := s.moveLatched dir dst src) only ⟨rfl, rfl, rfl, rfl⟩ ⟨rfl, rfl, rfl, rfl⟩
    (by decide)
  refine ⟨_, run, ?dbr, ?latch, a, moving, pc, startMove_cycles dir dst src s, fun table => ?seven, ?index, stored, frame⟩
  case index =>
    rw [startMove_eq, spend_x, spend_y]
    exact index
  case dbr => exact moveStep_dbr _
  case latch => exact moveStep_mv _
  case seven => rw [startMove_cycles, moveOpcodeCycles_default table]

/-! The whole move. -/

theorem moveStep_iterate_a (s : State) : ∀ k : Nat, (moveStep^[k] s).a = s.a - BitVec.ofNat 16 k
  | 0 => by simp
  | k + 1 => by rw [Function.iterate_succ_apply', moveStep_a, moveStep_iterate_a s k, sub_ofNat_succ]

/-- As long as the count has not passed zero the move goes on where it is. -/
theorem moveStep_iterate_goes_on {s : State} (h : s.moving = true) :
    ∀ k : Nat, k ≤ s.a.toNat → (moveStep^[k] s).moving = true ∧ (moveStep^[k] s).pc = s.pc
  | 0, _ => ⟨h, rfl⟩
  | k + 1, hk => by
    obtain ⟨moving, pc⟩ := moveStep_iterate_goes_on h k (by omega)
    have left : (moveStep^[k] s).a ≠ 0 := by
      rw [moveStep_iterate_a]
      bv_omega
    rw [Function.iterate_succ_apply', moveStep_pc_eq, if_neg left]
    exact ⟨(moveStep_moving_iff moving).mpr left, pc⟩

/-- The step after that, from a count of zero, is the last. -/
theorem moveStep_iterate_ends {s : State} (h : s.moving = true) :
    (moveStep^[s.a.toNat + 1] s).moving = false ∧ (moveStep^[s.a.toNat + 1] s).a = 0xFFFF ∧
      (moveStep^[s.a.toNat + 1] s).pc = s.pc + 3 := by
  obtain ⟨moving, pc⟩ := moveStep_iterate_goes_on h s.a.toNat le_rfl
  have none_left : (moveStep^[s.a.toNat] s).a = 0 := by rw [moveStep_iterate_a]; simp
  rw [Function.iterate_succ_apply', moveStep_pc_eq, if_pos none_left, moveStep_a, none_left, pc]
  exact ⟨by simpa using mt (moveStep_moving_iff moving).mp (not_not.mpr none_left), rfl, rfl⟩

/-- A tick of a block move in progress, where no interrupt is taken (rules R380, R422). -/
theorem step_move {s : State} (core : CoreActs s) (pending : s.nmiPending = false) (edge : s.env.nmiEdge = false)
    (masked : s.env.irqLine = true → s.p.i = true) (wakes : s.waiting = true → s.env.irqLine = true)
    (moving : s.moving = true) : step s = .next (spend (moveCycles s) (moveStep s.awake)) := by
  have quiet : ¬ s.awake.nmiPending = true := by simp [awake_of_noNmi pending edge, pending]
  have refused : ¬ (s.env.irqLine && !s.awake.p.i) = true := by simpa [awake_of_noNmi pending edge] using masked
  have work : processorWork s.env.irqLine s.awake = _ := (if_neg quiet).trans ((if_neg refused).trans (if_pos moving))
  rw [step_core core fun waits => .inr (.inr (wakes waits))]
  exact work

/-- Settles O44, by induction on the steps made so far; the tick is one step from the state in which its work begins. -/
theorem blockMoveEnds : Obligations.BlockMoveEnds := by
  refine ⟨fun s moving => ?steps, fun s core pending edge masked wakes moving => ?tick⟩
  case steps =>
    obtain ⟨ends, count, pc⟩ := moveStep_iterate_ends moving
    exact ⟨moveStep_iterate_goes_on moving, ends, count, pc, moveStep_movesOneByte moving, moveStep_frame s⟩
  case tick =>
    have run := step_move core pending edge masked wakes moving
    have only : ChangesOnly (.mem :: .ch :: .cart :: [.a, .x, .y, .moving, .pc, .cycles, .nmiFlag, .inputs, .waiting]) s
        (spend (moveCycles s) (moveStep s.awake)) :=
      (((awake_changesOnly_of_noNmi pending edge).mono (by decide)).trans ((moveStep_changesOnly _).mono (by decide))
        (by decide)).trans ((spend_changesOnly _ _).mono (by decide)) (by decide)
    obtain ⟨a, goesOn, pc, index, _⟩ := moveStep_movesOneByte (s := s.awake) moving
    obtain ⟨stored, frame⟩ := stores_of_moved (u := s.awake) only ⟨rfl, rfl, rfl, rfl⟩ ⟨rfl, rfl, rfl, rfl⟩ (by decide)
    refine ⟨run, ⟨moveCycles_eq s, fun table => ?seven⟩, _, run, ⟨a, goesOn, pc, ?index, stored⟩, ?cycles, frame⟩
    case index =>
      rw [spend_x, spend_y]
      exact index
    case seven => rw [moveCycles_eq, moveOpcodeCycles_default table]
    case cycles => exact congrArg (· + moveCycles s) (moveStep_cycles s.awake)

end Sys2Proof.Machine
end


section
/-! The byte a DMA step moves and what it writes back (rules R350, R353 to R356, R359). -/

namespace Sys2Proof.Machine

/-! The served channel. -/

/-- An active channel of which no lower one is active is the one served (rule R354). -/
theorem servedChannel_eq_some {s : State} {n : Fin 8} (active : s.ch[n].active = true)
    (lower : ∀ k : Fin 8, k < n → s.ch[k].active = false) : s.servedChannel = some n := by
  obtain ⟨m, served⟩ := Option.isSome_iff_exists.mp (dmaActive_iff.mpr ⟨n, active⟩)
  obtain ⟨active_m, lower_m⟩ := servedChannel_spec served
  have below : ¬ m < n := fun h => Bool.false_ne_true ((lower m h).symm.trans active_m)
  have above : ¬ n < m := fun h => Bool.false_ne_true ((lower_m n h).symm.trans active)
  rw [served, le_antisymm (not_lt.mp above) (not_lt.mp below)]

/-! The channel after a byte. -/

/-- The address goes one up, one down or nowhere, inside its bank (rule R356). -/
theorem toNat_advance_aAddr (c : Channel) : c.advance.aAddr.toNat = c.aAddr.toNat / 65536 * 65536 + (match c.stride with
    | .increment => (c.aAddr.toNat + 1) % 65536
    | .decrement => (c.aAddr.toNat + 65535) % 65536
    | .fixed => c.aAddr.toNat % 65536) := by
  have offset := toNat_offsetOf c.aAddr
  have next : c.advance.aAddr.toNat = 65536 * (c.aAddr.toNat / 65536) + c.nextOffset.toNat := by
    rw [← toNat_bankOf]; exact toNat_addrOf _ _
  rw [next, Channel.nextOffset, Nat.mul_comm]
  cases c.stride
  case fixed => simp only [offset]
  case increment | decrement => simp only [Nat.add_left_cancel_iff]; bv_omega

/-- A counter other than one leaves the channel active. -/
theorem advance_active_of_count_ne_one {c : Channel} (left : c.count ≠ 1) : c.advance.active = true :=
  bne_iff_ne.mpr (sub_ne_zero.mpr left)

theorem advance_of_count_eq_one {c : Channel} (last : c.count = 1) : c.advance.count = 0 ∧ c.advance.active = false := by
  simp [Channel.advance, last]

/-! The write-back. -/

theorem ireg_setIreg {s : State} (hw : MemoryInv s) (k : Nat) (v : Byte) (j : Nat) :
    (s.setIreg k v).ireg j = if j = k then v else s.ireg j :=
  Memory.read_write s.mem hw k v j

/-- The registers of channel `n` that a DMA step writes hold the address and the counter of the latch `c`. -/
def WrittenBack (n : Fin 8) (c : Channel) (s : State) : Prop :=
  s.peek (channelReg n 2) = lowByte (offsetOf c.aAddr) ∧ s.peek (channelReg n 3) = highByte (offsetOf c.aAddr) ∧
    s.peek (channelReg n 5) = lowByte c.count ∧ s.peek (channelReg n 6) = highByte c.count

theorem writeBackChannel_writtenBack {s : State} (hw : MemoryInv s) (n : Fin 8) (c : Channel) :
    WrittenBack n c (writeBackChannel n.val c s) := by
  have one : ∀ k v, MemoryInv (s.setIreg k v) := fun _ _ => setIreg_wf hw
  have two : ∀ k v k' v', MemoryInv ((s.setIreg k v).setIreg k' v') := fun _ _ _ _ => setIreg_wf (one _ _)
  have three : ∀ k v k' v' k'' v'', MemoryInv (((s.setIreg k v).setIreg k' v').setIreg k'' v'') :=
    fun _ _ _ _ _ _ => setIreg_wf (two _ _ _ _)
  simp [WrittenBack, writeBackChannel, peek_channelReg, ireg_setIreg, hw, one, two, three, channelKey]

/-- Clearing MDMAEN leaves the channels' registers alone. -/
theorem WrittenBack.setMdmaen {n : Fin 8} {c : Channel} {s : State} (h : WrittenBack n c s) (v : Byte) :
    WrittenBack n c (s.setIreg mdmaenKey v) := by
  have other : ∀ {r : Nat}, r < 16 → (s.setIreg mdmaenKey v).peek (channelReg n r) = s.peek (channelReg n r) := by
    intro r hr
    rw [peek_channelReg _ n hr, peek_channelReg _ n hr]
    exact Memory.read_write_other s.mem v (channelKey_ne_mdmaen n.val r).symm
  unfold WrittenBack
  rwa [other (by decide), other (by decide), other (by decide), other (by decide)]

/-- The state between the transfer of the byte and the write-back (rule R355). -/
def State.transferred (s : State) (n : Fin 8) : State :=
  { transferByte s.ch[n] s with ch := (transferByte s.ch[n] s).ch.set n.val s.ch[n].advance n.isLt }

/-- A DMA step ends with the write-back, or after it with the clearing of MDMAEN. -/
theorem stepChannel_cases (n : Fin 8) (s : State) :
    stepChannel n s = writeBackChannel n.val s.ch[n].advance (s.transferred n) ∨
      stepChannel n s = (writeBackChannel n.val s.ch[n].advance (s.transferred n)).setIreg mdmaenKey 0x00 :=
  ite_eq_or_eq _ _ _

theorem stepChannel_writtenBack {s : State} (hw : MemoryInv s) (n : Fin 8) :
    WrittenBack n s.ch[n].advance (stepChannel n s) := by
  have back := writeBackChannel_writtenBack (s := s.transferred n) (transferByte_wf hw) n s.ch[n].advance
  obtain goes_on | ends := stepChannel_cases n s
  · rwa [goes_on]
  · rw [ends]; exact back.setMdmaen 0x00

/-- After the transfer a DMA step writes the address and counter registers and MDMAEN alone. -/
theorem stepChannel_kept_transferred (n : Fin 8) (s : State) :
    MemoryKept [channelReg n 2, channelReg n 3, channelReg n 5, channelReg n 6, 0x00420B] (s.transferred n)
      (stepChannel n s) := by
  have back := writeBackChannel_kept n s.ch[n].advance (s.transferred n)
  have mdmaen := fun cfg : Cfg => storeKey_mdmaen (cfg := cfg) (a := 0x00420B) (by decide)
  obtain goes_on | ends := stepChannel_cases n s
  · rw [goes_on]
    exact MemoryKept.mono (by simp) back
  · rw [ends]
    exact MemoryKept.trans (l := [_, _, _, _]) (by simp) back (setIreg_kept _ (mdmaen _).1 (mdmaen _).2)

/-! The byte moved. -/

/-- Where the next byte of a channel comes from: the address on the A-bus, or the register of the B-bus (rules R350, R355). -/
def Channel.source (c : Channel) : Addr :=
  match c.dir with
  | .aToB => c.aAddr
  | .bToA => bBusAddr c.bReg

theorem stores_bBusAddr {cfg : Cfg} (latch : cfg.ppuExternal = false) (o : Byte) : Stores cfg (bBusAddr o) := by
  have region := mapAddress_bBus o
  exact ⟨⟨isRdnmi_false_of_region (by simp [region]), fun _ => latch⟩, by simp [region], by simp [region]⟩

theorem bBusAddr_not_channelReg (cfg : Cfg) (o : Byte) (n : Fin 8) {r : Nat} (hr : r < 16) :
    ¬ SameByte cfg (bBusAddr o) (channelReg n r) := by
  intro same
  have region := sameByte_region same
  rw [mapAddress_bBus, mapAddress_channelReg n hr] at region
  exact absurd region (by decide)

theorem isMdmaen_bBusAddr (o : Byte) : isMdmaen (bBusAddr o) = false :=
  isMdmaen_false_of_region (by rw [mapAddress_bBus]; decide)

/-- The transfer in either direction: the byte of a quiet source is stored at the destination. -/
theorem transferByte_quiet {c : Channel} {s : State} (quiet : Quiet s.cfg c.source) :
    transferByte c s = storeByte c.destination (s.peek c.source) s := by
  have read := busRead_quiet quiet
  unfold transferByte Channel.destination
  cases dir : c.dir <;> simp only [Channel.source, dir] at read ⊢ <;> rw [read]
  case aToB => exact busWrite_of_not_mdmaen _ (isMdmaen_bBusAddr c.bReg)

/-- A DMA step moves a byte: the destination is none of the bytes the step writes after the transfer. -/
theorem peek_stepChannel_destination {s : State} {n : Fin 8} (hw : MemoryInv s) (quiet : Quiet s.cfg s.ch[n].source)
    (stores : Stores s.cfg s.ch[n].destination) (no_mdmaen : isMdmaen s.ch[n].destination = false)
    (no_register : ∀ r ∈ [2, 3, 5, 6], ¬ SameByte s.cfg s.ch[n].destination (channelReg n r)) :
    (stepChannel n s).peek s.ch[n].destination = s.peek s.ch[n].source := by
  have cfg : (s.transferred n).cfg = s.cfg := transferByte_cfg s s.ch[n]
  have kept : (stepChannel n s).peek s.ch[n].destination = (s.transferred n).peek s.ch[n].destination := by
    refine stepChannel_kept_transferred n s _ (cfg ▸ stores.1) ?_ fun cartridge => absurd cartridge stores.2.2
    intro b hb _
    rw [cfg]
    have mdmaen : ¬ SameByte s.cfg s.ch[n].destination 0x00420B := fun same =>
      storeKey_ne_mdmaen stores no_mdmaen (same.trans (storeKey_mdmaen (by decide)).1)
    simp only [List.mem_cons, List.not_mem_nil, or_false] at hb
    obtain rfl | rfl | rfl | rfl | rfl := hb
    exacts [no_register 2 (by decide), no_register 3 (by decide), no_register 5 (by decide), no_register 6 (by decide),
      mdmaen]
  calc (stepChannel n s).peek s.ch[n].destination
      = (transferByte s.ch[n] s).peek s.ch[n].destination := kept
    _ = (busWrite s.ch[n].destination (s.peek s.ch[n].source) s).peek s.ch[n].destination := by
        rw [transferByte_quiet quiet, busWrite_of_not_mdmaen _ no_mdmaen]
    _ = s.peek s.ch[n].source := peek_busWrite_same hw stores

/-- Settles O57: in either direction the step moves the byte at the source, and then writes back the advanced channel. -/
theorem dmaStepMovesAByte : Obligations.DmaStepMovesAByte := by
  intro s n hw latch active lower c t b
  have step : t = stepChannel n s := dmaStep_served (servedChannel_eq_some active lower)
  have advanced : t.ch[n] = c.advance := by rw [step, stepChannel_getElem, if_pos rfl]
  have back : WrittenBack n t.ch[n] t := by rw [advanced, step]; exact stepChannel_writtenBack hw n
  have b_stores : Stores s.cfg b := stores_bBusAddr latch c.bReg
  have b_off : ∀ r ∈ [2, 3, 5, 6], ¬ SameByte s.cfg b (channelReg n r) := fun r hr =>
    bBusAddr_not_channelReg s.cfg c.bReg n (by revert r; decide)
  have moves := peek_stepChannel_destination (n := n) hw
  refine ⟨fun dir quiet => ?aToB, fun dir stores no_mdmaen no_register => ?bToA, ?address, ?index, back⟩
  case aToB =>
    have source : s.ch[n].source = c.aAddr := by simp only [Channel.source, c, dir]
    have destination : s.ch[n].destination = b := by simp only [Channel.destination, b, c, dir]
    rw [source, destination, ← step] at moves
    exact moves quiet b_stores (isMdmaen_bBusAddr c.bReg) b_off
  case bToA =>
    have source : s.ch[n].source = b := by simp only [Channel.source, c, dir]; rfl
    have destination : s.ch[n].destination = c.aAddr := by simp only [Channel.destination, c, dir]
    rw [source, destination, ← step] at moves
    exact moves b_stores.1 stores no_mdmaen no_register
  case address => rw [advanced]; exact toNat_advance_aAddr c
  case index => rw [advanced]; rfl

end Sys2Proof.Machine
end

section
/-! The steps of a whole transfer (rules R358, R360, R362). -/

namespace Sys2Proof.Machine

/-- Channel `n` is active, and it alone; the stored bytes are in their canonical form. -/
structure OneActive (n : Fin 8) (s : State) : Prop where
  memory : MemoryInv s
  active : s.ch[n].active = true
  others : ∀ k : Fin 8, k ≠ n → s.ch[k].active = false

section

variable {n : Fin 8} {s : State}

theorem OneActive.dmaActive (h : OneActive n s) : s.dmaActive = true := dmaActive_iff.mpr ⟨n, h.active⟩

theorem OneActive.dmaStep_eq (h : OneActive n s) : dmaStep s = stepChannel n s :=
  dmaStep_served (servedChannel_eq_some h.active fun k below => h.others k below.ne)

theorem OneActive.dmaStep_getElem (h : OneActive n s) (k : Fin 8) :
    (dmaStep s).ch[k] = if k = n then s.ch[n].advance else s.ch[k] := by
  rw [h.dmaStep_eq, stepChannel_getElem]

/-- A step that is not the last. -/
theorem OneActive.goes_on (h : OneActive n s) (left : s.ch[n].count ≠ 1) :
    OneActive n (dmaStep s) ∧ (dmaStep s).ch[n].count = s.ch[n].count - 1 := by
  have advanced := (h.dmaStep_getElem n).trans (if_pos rfl)
  refine ⟨⟨?memory, ?active, fun k hk => ?others⟩, congrArg Channel.count advanced⟩
  case memory => rw [h.dmaStep_eq]; exact stepChannel_wf h.memory
  case active => rw [advanced]; exact advance_active_of_count_ne_one left
  case others => rw [h.dmaStep_getElem, if_neg hk, h.others k hk]

/-- The last step: the counter reaches zero (rule R358). -/
theorem OneActive.ends (h : OneActive n s) (last : s.ch[n].count = 1) :
    (dmaStep s).dmaActive = false ∧ (dmaStep s).ireg mdmaenKey = 0x00 ∧ (dmaStep s).peek (channelReg n 5) = 0x00 ∧
      (dmaStep s).peek (channelReg n 6) = 0x00 := by
  obtain ⟨none_left, done⟩ := advance_of_count_eq_one last
  have all_done : ∀ k : Fin 8, (dmaStep s).ch[k].active = false := by
    intro k
    rw [h.dmaStep_getElem]
    split
    next => exact done
    next other => exact h.others k other
  have inactive : (dmaStep s).dmaActive = false := by
    refine Bool.eq_false_iff.mpr fun active => ?_
    obtain ⟨k, hk⟩ := dmaActive_iff.mp active
    exact Bool.false_ne_true ((all_done k).symm.trans hk)
  obtain ⟨_, _, low, high⟩ := stepChannel_writtenBack h.memory n
  rw [none_left] at low high
  rw [h.dmaStep_eq] at inactive ⊢
  exact ⟨inactive, stepChannel_mdmaen n h.memory inactive, low, high⟩

/-- The steps before the last, of which the counter less one tells the number. -/
theorem OneActive.iterate (h : OneActive n s) : ∀ k : Nat, k ≤ (s.ch[n].count - 1).toNat →
    OneActive n (dmaStep^[k] s) ∧ (dmaStep^[k] s).ch[n].count = s.ch[n].count - BitVec.ofNat 16 k
  | 0, _ => ⟨h, by simp⟩
  | k + 1, hk => by
    obtain ⟨one, count⟩ := h.iterate k (by omega)
    have left : (dmaStep^[k] s).ch[n].count ≠ 1 := by
      rw [count]
      bv_omega
    rw [Function.iterate_succ_apply', sub_ofNat_succ, ← count]
    exact one.goes_on left

end

/-- A zero count is 65536 bytes (rule R358). -/
theorem transferLength_eq (count : Word) : (if count = 0 then 65536 else count.toNat) = (count - 1).toNat + 1 := by
  split
  next zero => rw [zero]; rfl
  next nonzero => bv_omega

/-- Settles O58, by induction on the steps made so far. -/
theorem transferLength : Obligations.TransferLength := by
  intro s n memory active others total
  have start : OneActive n s := ⟨memory, active, others⟩
  have total_eq : total = (s.ch[n].count - 1).toNat + 1 := transferLength_eq s.ch[n].count
  refine ⟨fun k hk => ?before, ?after⟩
  case before =>
    obtain ⟨one, count⟩ := start.iterate k (by omega)
    exact ⟨one.dmaActive, count⟩
  case after =>
    obtain ⟨one, count⟩ := start.iterate (s.ch[n].count - 1).toNat le_rfl
    rw [total_eq, Function.iterate_succ_apply']
    exact one.ends (by rw [count]; bv_omega)

end Sys2Proof.Machine
end

section
/-! The cycles of the branches (rule R407): the lines of the table of rule R406 for them, on the default base counts. -/

namespace Sys2Proof.Machine

/-- Where the base counts are the default table only the opcode decides them (rule R404). -/
theorem baseCycles_default {cfg : Cfg} (h : cfg.baseCycles = none) (op : Byte) : baseCycles cfg op = baseCycles {} op := by
  simp only [baseCycles, h]

/-- The cycles of an instruction no decimal-mode adjustment applies to, on the default base counts. -/
theorem exec_cycles_default {i : Instr} {op : Byte} {s t : State} (h : DefaultCycles s) (ho : i.opcode = some op)
    (hd : instrClass i ≠ .arithmetic) (hb : instrClass i ≠ .blockmove) (run : exec i s = .next t) :
    t.cycles = s.cycles + (baseCycles {} op + adjustments i s) := by
  obtain ⟨table, binary⟩ := h
  rw [exec_cycles hb run, cyclesOf_eq_adjustments ho, lineG_eq_zero binary hd, baseCycles_default table, Nat.add_zero]

/-- A conditional branch of base count 2 that lines k and l adjust. -/
theorem conditionalBranch_cycles {i : Instr} {op : Byte} {taken cross : Bool} {s t : State} (h : DefaultCycles s)
    (ho : i.opcode = some op) (base : baseCycles {} op = 2) (hc : instrClass i = .branch)
    (lines : adjustments i s = 0 + one taken + one (taken && cross)) (run : exec i s = .next t) :
    t.cycles = s.cycles + if taken then (if cross then 4 else 3) else 2 := by
  rw [exec_cycles_default h ho (by simp [hc]) (by simp [hc]) run, base, lines]
  cases taken <;> cases cross <;> rfl

/-- BRA, of base count 3, which line l alone adjusts. -/
theorem bra_cycles {rel : Byte} {s t : State} (h : DefaultCycles s) (run : exec (.bra rel) s = .next t) :
    t.cycles = s.cycles + if highByte (relTarget rel s) != highByte (nextPc2 s) then 4 else 3 := by
  have lines : adjustments (.bra rel) s = 0 + one (highByte (relTarget rel s) != highByte (nextPc2 s)) := rfl
  rw [exec_cycles_default (i := .bra rel) (op := 0x80) h rfl nofun nofun run, lines]
  cases highByte (relTarget rel s) != highByte (nextPc2 s) <;> rfl

/-- Settles O59: the eight conditional branches differ in their condition alone. -/
theorem branchCycles : Obligations.BranchCycles := by
  refine fun s rel rel16 h => ⟨fun b hb t run => ?conditional, fun t run => ?bra, fun t run => ?brl⟩
  case conditional =>
    simp only [List.mem_cons, List.not_mem_nil, or_false] at hb
    obtain rfl | rfl | rfl | rfl | rfl | rfl | rfl | rfl := hb
    all_goals exact conditionalBranch_cycles h rfl rfl rfl rfl run
  case bra => exact bra_cycles h run
  case brl =>
    obtain ⟨notArithmetic, notMove, lines⟩ := adjustments_unadjusted (i := .brl rel16) (of_decide_eq_true rfl)
    rw [exec_cycles_default h rfl notArithmetic notMove run, lines]
    rfl

end Sys2Proof.Machine
end

section
/-! RTI after BRK (rules R424, R430, R432): the return finds the frame of the entry on top of the stack. -/

namespace Sys2Proof.Machine

/-- In emulation mode the stack is in page 1, which is RAM (rules R34, R62). -/
theorem inWram_legacyTop {s : State} (h : EmulationInv s) (he : s.e = true) (k : Nat) : InWram (legacyTop s k) := by
  obtain ⟨_, _, page⟩ := h he
  have low := (lowByte s.sp + BitVec.ofNat 8 k).isLt
  have addr : (legacyTop s k).toNat = 256 + (lowByte s.sp + BitVec.ofNat 8 k).toNat := by
    rw [legacyTop, legacyUp, if_pos he, page, toNat_addrOf, toNat_wordOf]
    simp
  unfold InWram
  rw [mapAddress_low_bank addr (by omega), if_pos (by omega)]

/-- The bytes of an interrupt frame go to the next slots of the stack, in order (rules R300, R424). -/
theorem interruptFrame_slots (s : State) (ret : Word) (status : Byte) : (interruptFrame s ret status).map Prod.fst =
    (List.range (if s.e then 3 else 4)).map (legacySlot s) := by
  unfold interruptFrame
  cases s.e <;> rfl

/-- Bytes stored in the next slots of the stack, where these are distinct bytes of RAM. -/
theorem peek_legacySlots {n : Nat} {l : List (Addr × Byte)} {s t : State} (stored : StoredBytes l s t) (hw : MemoryInv s)
    (slots : l.map Prod.fst = (List.range n).map (legacySlot s)) (ram : ∀ k, k < n → InWram (legacySlot s k))
    (distinct : ∀ j k, j < k → k < n → ¬ SameByte s.cfg (legacySlot s j) (legacySlot s k)) :
    ∀ p ∈ l, t.peek p.1 = p.2 := by
  refine peek_stored stored hw (fun p hp => ?inRam) ?apart
  case inRam =>
    have slot : p.1 ∈ (List.range n).map (legacySlot s) := slots ▸ List.mem_map_of_mem hp
    obtain ⟨k, hk, at_k⟩ := List.mem_map.mp slot
    exact at_k ▸ ram k (List.mem_range.mp hk)
  case apart =>
    rw [← List.pairwise_map (R := fun a b => ¬ SameByte s.cfg a b), slots, List.pairwise_map]
    exact List.pairwise_lt_range.imp_of_mem fun _ hk lt => distinct _ _ lt (List.mem_range.mp hk)

/-- An interrupt frame in RAM is on top of the stack, the status byte first. -/
theorem peek_interruptFrame {s t : State} {ret : Word} {status : Byte} (stored : StoredBytes (interruptFrame s ret status) s t)
    (he : t.e = s.e) (hs : t.sp = legacyDown s (if s.e then 3 else 4)) (hw : MemoryInv s)
    (ram : ∀ k, k < 4 → InWram (legacySlot s k))
    (distinct : ∀ j k, j < k → k < 4 → ¬ SameByte s.cfg (legacySlot s j) (legacySlot s k)) :
    t.peek (legacyTop t 1) = status ∧ t.peek (legacyTop t 2) = lowByte ret ∧ t.peek (legacyTop t 3) = highByte ret ∧
      (s.e = false → t.peek (legacyTop t 4) = s.pbr) := by
  have size : (if s.e then 3 else 4) ≤ 4 := by split <;> decide
  have bytes := peek_legacySlots stored hw (interruptFrame_slots s ret status) (fun k hk => ram k (hk.trans_le size))
    fun j k lt hk => distinct j k lt (hk.trans_le size)
  have top : ∀ j k, j + k = (if s.e then 3 else 4) → legacyTop t k = legacySlot s j :=
    fun j k hk => congrArg (addrOf 0x00) (legacyUp_of_down he (hk ▸ hs))
  unfold interruptFrame legacyWord at bytes
  cases mode : s.e
  case true =>
    simp only [mode, if_true, List.cons_append, List.nil_append, List.forall_mem_cons] at bytes top
    obtain ⟨high, low, status, _⟩ := bytes
    rw [top 2 1 rfl, top 1 2 rfl, top 0 3 rfl]
    exact ⟨status, low, high, nofun⟩
  case false =>
    simp only [mode, Bool.false_eq_true, if_false, List.cons_append, List.nil_append, List.forall_mem_cons] at bytes top
    obtain ⟨bank, high, low, status, _⟩ := bytes
    rw [top 3 1 rfl, top 2 2 rfl, top 1 3 rfl, top 0 4 rfl]
    exact ⟨status, low, high, fun _ => bank⟩

/-- The stack of an interrupt frame in RAM can be pulled without a side effect. -/
theorem quiet_interruptFrame {s t : State} (h : EmulationInv t) (he : t.e = s.e)
    (hs : t.sp = legacyDown s (if s.e then 3 else 4)) (ram : ∀ k, k < 4 → InWram (legacySlot s k)) {k : Nat} (h1 : 1 ≤ k)
    (h4 : k ≤ 4) : Quiet t.cfg (legacyTop t k) := by
  refine quiet_of_wram ?_
  cases mode : s.e
  case true => exact inWram_legacyTop h (he.trans mode) k
  case false =>
    rw [mode] at hs
    have slot : legacyTop t k = legacySlot s (4 - k) :=
      congrArg (addrOf 0x00) (legacyUp_of_down he (hs.trans (by rw [Nat.sub_add_cancel h4]; rfl)))
    exact slot ▸ ram (4 - k) (by omega)

/-- Writing back the status byte restores the flags, and the width fix-up then finds nothing to do (rules R28, R34, R36). -/
theorem statusWritten_restores {r s u : State} (h : StatusWritten s.p.byte r u) (he : r.e = s.e) (hx : r.x = s.x)
    (hy : r.y = s.y) (emulation : EmulationInv s) (index : IndexInv s) : u.p = s.p ∧ u.x = s.x ∧ u.y = s.y := by
  obtain ⟨n, v, d, i, z, c, m, x, narrow, wide⟩ := h
  have bits := Status.ofByte_byte s.p
  have fixed : ∀ b : Bool, (s.e = true → b = true) → (r.e || b) = b := fun b hb => by
    rw [he]
    exact Bool.or_eq_right_iff_imp.mpr hb
  have bitM : s.p.byte.getLsbD 5 = s.p.m := congrArg Status.m bits
  have bitX : s.p.byte.getLsbD 4 = s.p.x := congrArg Status.x bits
  have narrowed : s.e = true → s.p.byte.getLsbD 5 = true ∧ s.p.byte.getLsbD 4 = true := fun mode => by
    obtain ⟨mSet, xSet, _⟩ := emulation mode
    exact ⟨bitM.trans mSet, bitX.trans xSet⟩
  rw [fixed _ fun mode => (narrowed mode).1] at m
  rw [fixed _ fun mode => (narrowed mode).2] at x
  have flags : u.p = s.p := by
    rw [← bits, Status.ofByte, ← n, ← v, ← m, ← x, ← d, ← i, ← z, ← c]
  refine ⟨flags, ?_⟩
  rw [flags, hx, hy] at narrow wide
  cases width : s.p.x
  case false => exact wide width
  case true =>
    obtain ⟨xHigh, yHigh⟩ := index width
    obtain ⟨xNarrow, yNarrow⟩ := narrow width
    rw [xNarrow, yNarrow, ← xHigh, wordOf_high_low, xHigh, ← yHigh, wordOf_high_low]
    exact ⟨rfl, rfl⟩

/-- Settles O51, by the frame BRK pushes, which is on top of the stack for RTI. -/
theorem interruptReturns : Obligations.InterruptReturns := by
  intro s sig inv ram distinct
  obtain ⟨t, brk, ⟨_, _, bankZero, _, down, stored, ⟨entered, _⟩⟩, _⟩ := (softwareInterruptResult s sig).2.1
  obtain ⟨u, rti, status, ⟨returned, _⟩, bankKept, up, values⟩ := rtiResult.2 t
  have e : t.e = s.e := entered .e (by decide)
  have emulation : EmulationInv t := exec_emulation inv.emulation brk
  obtain ⟨statusByte, low, high, bank⟩ := peek_interruptFrame stored e down inv.memory ram distinct
  obtain ⟨pulled, pc, pbr, _⟩ := values emulation fun k => quiet_interruptFrame emulation e down ram
  rw [pulled, statusByte] at status
  rw [low, high, wordOf_high_low] at pc
  obtain ⟨p, x, y⟩ := statusWritten_restores status e (entered .x (by decide)) (entered .y (by decide)) inv.emulation inv.index
  refine ⟨t, u, brk, rti, pc, p, ?sp, ?bank, ?a, x, y, ?d, ?dbr, ?e⟩
  case sp =>
    rw [up emulation, e, legacyUp_of_down (j := 0) e (by rw [Nat.zero_add]; exact down), legacyDown_zero]
  case bank =>
    split
    case isTrue mode => rw [bankKept (e.trans mode), bankZero]
    case isFalse native =>
      have native : s.e = false := by simpa using native
      rw [pbr (e.trans native), bank native]
  case a => exact (returned .a (by decide)).trans (entered .a (by decide))
  case d => exact (returned .d (by decide)).trans (entered .d (by decide))
  case dbr => exact (returned .dbr (by decide)).trans (entered .dbr (by decide))
  case e => exact (returned .e (by decide)).trans e

end Sys2Proof.Machine
end

section
/-! The reset tick (rules R460, R461): what the procedure writes, and what is left of the stored bytes. -/

namespace Sys2Proof.Machine

/-- With zero written to MDMAEN and HDMAEN every other quiet byte reads as before. -/
theorem memoryKept_of_enablesCleared {s t : State} (hm : t.mem = (s.mem.write mdmaenKey 0x00).write hdmaenKey 0x00)
    (hc : t.cfg = s.cfg) : MemoryKept [0x00420B, 0x00420C] s t := by
  intro a quiet other _
  have mdmaen : storeKey s.cfg a ≠ mdmaenKey := other 0x00420B (.head _) ⟨⟨rfl, nofun⟩, nofun, nofun⟩
  have hdmaen : storeKey s.cfg a ≠ hdmaenKey := other 0x00420C (.tail _ (.head _)) ⟨⟨rfl, nofun⟩, nofun, nofun⟩
  refine peek_of_stored quiet ?_ hc
  unfold State.stored
  rw [hc, hm, Memory.read_write_other _ _ hdmaen, Memory.read_write_other _ _ mdmaen]

/-- The reset vector is in the cartridge, which no write to an internal register reaches (rules R84, R460). -/
theorem resetVector_cartridge :
    mapAddress (addrOf 0x00 resetVector) = .cartridge ∧ mapAddress (addrOf 0x00 (resetVector + 1)) = .cartridge := by
  decide

theorem wordAt_resetVector_kept {s t : State} (h : MemoryKept [0x00420B, 0x00420C] s t) :
    wordAt t resetVector = wordAt s resetVector := by
  have outside : ∀ b ∈ ([0x00420B, 0x00420C] : List Addr), ¬ WritesCartridge s.cfg b :=
    List.forall_mem_cons.mpr ⟨fun reach => absurd reach.1 (by decide),
      List.forall_mem_singleton.mpr fun reach => absurd reach.1 (by decide)⟩
  obtain ⟨low, high⟩ := resetVector_cartridge
  unfold wordAt
  rw [h.cartridge outside low, h.cartridge outside high]

/-- Everything the reset procedure does (rule R460). -/
theorem resetProcedure_eq (s : State) : resetProcedure s =
    { s with
      e := true, sel := .selCarry
      p := { s.p with m := true, x := true, i := true, d := false }
      x := setHigh s.x 0x00, y := setHigh s.y 0x00
      sp := wordOf 0x01 (Config.resetSL s.draws), draws := s.draws + 1
      d := 0x0000, dbr := 0x00, pbr := 0x00
      stopped := false, waiting := false, moving := false
      nmiPending := false, nmiFlag := false
      ch := stopChannels s.ch
      mem := (s.mem.write mdmaenKey 0x00).write hdmaenKey 0x00
      cycles := 0
      pc := wordAt s resetVector } := by
  obtain ⟨low, high⟩ := resetVector_cartridge
  unfold resetProcedure
  simp only
  rw [readWordW_quiet (quiet_of_cartridge low) (quiet_of_cartridge high)]
  congr 1
  exact wordAt_resetVector_kept (memoryKept_of_enablesCleared rfl rfl)

/-- A machine whose channels have been stopped has none active (rule R460). -/
theorem stopChannels_inactive {s : State} {ch : Vector Channel 8} (h : s.ch = stopChannels ch) : s.dmaActive = false := by
  refine Bool.eq_false_of_not_eq_true fun active => ?_
  obtain ⟨n, active⟩ := dmaActive_iff.mp active
  rw [h, stopChannels_getElem] at active
  cases active

/-- Settles O53, by the state the reset procedure leaves (`resetProcedure_eq`). -/
theorem resetResult : Obligations.ResetResult := by
  intro s running line
  have tick := step_reset running line
  rw [resetProcedure_eq] at tick
  refine ⟨_, tick, rfl, rfl, rfl, rfl, rfl, highByte_wordOf _ _, rfl, rfl, rfl, rfl, rfl, rfl, rfl, rfl,
    stopChannels_inactive rfl, rfl, rfl, fun memory => ⟨?mdmaen, ?hdmaen⟩, memoryKept_of_enablesCleared rfl rfl,
    fun p hp => ?frame⟩
  case mdmaen => exact (Memory.read_write_other _ _ (by decide)).trans (Memory.read_write_same _ memory _ _)
  case hdmaen => exact Memory.read_write_same _ (Memory.write_wf _ _ memory) _ _
  case frame =>
    cases p with
    | a | flagN | flagV | flagZ | flagC | mv | fatal | cart | cfg => rfl
    | ppuDevice => exact fun _ => rfl
    | _ => exact absurd hp (by decide)

end Sys2Proof.Machine
end
